-- ==== Sys2Proof/Word.lean ====
section
/-! DEFINITION. The words of the MAPIC acquisition block: every value is unsigned (R10), bits are numbered from 0 at
the least significant bit (R8), and `uN` is an unsigned value of N bits (R9). -/

namespace Sys2Proof

/-- One byte of a datagram, a label or a potentiometer position (u8). -/
abbrev Byte := BitVec 8

/-- A 7-bit address of the potentiometer bus (R62). -/
abbrev BusAddr := BitVec 7

/-- One ADC conversion, a u12 (R143). -/
abbrev Sample := BitVec 12

/-- A sample in its 16-bit container, bits 15..12 zero (R40, R70). -/
abbrev Cell16 := BitVec 16

/-- A TimedSample record: the word pair `(w0, w1)` (R147). -/
abbrev Pair := BitVec 32 × BitVec 32

/-- One unit of either channel: a byte sequence, first byte first (R8, R63). -/
abbrev Datagram := List Byte

/-- `zext_16` of a sample (R9, R70). -/
abbrev zext16 (x : Sample) : Cell16 := x.setWidth 16

end Sys2Proof
end

