-- ==== Sys2Proof/Config.lean ====
section
/-! DEFINITION. What an implementation fixes and what the environment decides: the parameters of R6, the moves that
agents and environment can make (R3), and the free values of the model (opaque constants, no body). -/

namespace Sys2Proof

/-- The sense of an edge on an interrupt input (`TRIG_EDGE`, `RATE_EDGE`; R6). -/
inductive Edge where
  | rising
  | falling
deriving DecidableEq, Repr, Inhabited

/-- The tie rule of the rate division (`RATE_TIE`; R6, R192). -/
inductive TieRule where
  | halfEven
  | halfUp
deriving DecidableEq, Repr, Inhabited

/-- A test-pulse waveform as a list of (level, duration in µs). `TP_WAVEFORM` may be anything and no rule looks inside
it (R6, R184); DESIGN CHOICE of form, log entry 22. -/
abbrev Waveform := List (Bool × Nat)

/-- The parameters of R6 that are not fixed by the source. Default values stand only where R6 gives one
(decisions D11, D17, D25, D29); every other field is OPEN (R7). -/
structure Params where
  gainAddr : BusAddr
  thrAddr : BusAddr
  settleUs : Nat := 500000
  burstBuf : Nat
  burstCkpt : Nat := burstBuf / 2
  deferDepth : Nat
  chunkPairs : Nat
  streamPeriodUs : Nat
  polledBuf : Nat
  polledPeriodUs : Nat
  polledCountBytes : Nat
  opcodePolled : Option (BitVec 16) := none
  rateWindowS : Nat
  rateTie : TieRule := .halfEven
  clrPulseUs : Nat
  trigEdge : Edge
  rateEdge : Edge
  labelLen : Nat
  cmdPort : Nat
  streamPort : Nat
  tpWaveform : Waveform
  busPhy : Nat
deriving DecidableEq, Repr

/-- `BURST_GROUP` (R6, D15). -/
abbrev burstGroup : Nat := 4

/-- `OPCODE_BYTES` (R6). -/
abbrev opcodeBytes : Nat := 2

/-- `STREAM_TARGET_BYTES` (R6). -/
abbrev streamTargetBytes : Nat := 4

/-- `BURST_TARGET_BYTES` (R6). -/
abbrev burstTargetBytes : Nat := 8

/-- `RATE_RESULT_BYTES` (R6). -/
abbrev rateResultBytes : Nat := 4

/-- `SCAN_MAX` (R6). -/
abbrev scanMax : Nat := 2

/-- The settle hazard's bound in µs, the top of the source's range (R129). It does not follow `SETTLE_US`. -/
abbrev settleHazardUs : Nat := 500000

/-- The agents of R3, one constructor each. -/
inductive Agent where
  | dispatch
  | defer
  | trigIsr
  | rateIsr
  | timer
  | env
deriving DecidableEq, Repr, Inhabited

/-- One scheduling decision: which agent takes the next step (R73, R77), or what the environment does (R115).
`trigEdge` and `rateEdge` are an edge of the given sense on the trigger or rate input; `reset` is the external reset of
R240. -/
inductive Move where
  | dispatch
  | defer
  | trigIsr
  | rateIsr
  | tick
  | deliver (d : Datagram)
  | trigEdge (e : Edge)
  | rateEdge (e : Edge)
  | reset
deriving DecidableEq, Repr, Inhabited

/-- The agent whose step a move is. An edge is presented by `ENV` and enables an entry; the entry itself is a later step
of the interrupt's own agent (R158, R222, R253; log entry 11). -/
def Move.agent : Move → Agent
  | .dispatch => .dispatch
  | .defer => .defer
  | .trigIsr => .trigIsr
  | .rateIsr => .rateIsr
  | .tick => .timer
  | .deliver _ => .env
  | .trigEdge _ => .env
  | .rateEdge _ => .env
  | .reset => .env

/-- FREE VALUE: the move that comes n-th once the listed schedule of a state is used up: any interleaving of the
agents and any behaviour of the environment (R77, R109, R115). DESIGN CHOICE, log entry 2. -/
opaque Config.freeMove : Nat → Move

/-- FREE VALUE: an ADC conversion drawn from `ENV` once the listed conversions are used up (R143). Log entry 3. -/
opaque Config.freeSample : Nat → Sample

/-- FREE VALUE: a two-way draw once the listed draws are used up (R129, R161). Log entry 3. -/
opaque Config.freeCoin : Nat → Bool

/-- FREE VALUE: element `i` of a sample buffer at the n-th reset, a draw of a u12 (R40, R41, R242). Log entry 4. -/
opaque Config.powerUpSample : (n i : Nat) → Sample

/-- FREE VALUE: the position of the device at an address when the block leaves the n-th reset, a draw of a u8
(R47, R242). Log entry 4. -/
opaque Config.powerUpPosition : (n : Nat) → BusAddr → Byte

/-- FREE VALUE: whether a device answers at an address: `DEVS` is whatever devices are on the bus (R242). Log entry 4. -/
opaque Config.deviceFitted : BusAddr → Bool

end Sys2Proof
end

