-- ==== Sys2Proof/Syntax.lean ====
section
/-! DEFINITION. The thirteen opcodes of R88, one constructor per row of the opcode table, and the written commands of
R95 (an opcode with its operand). The opcode alone is the instruction the dispatcher decodes (R106); an operand reaches
the handler later, in a datagram of its own (R87). -/

namespace Sys2Proof

/-- The opcodes of R88, in the table's order. -/
inductive Instr where
  /-- `POT.RD` (0,0): read both potentiometer positions (R131). -/
  | potRd
  /-- `BUS.SCAN` (0,2): scan the bus, return up to 2 discovered addresses (R132). -/
  | busScan
  /-- `POT.WR.GAIN` (1,0): write the gain potentiometer (R133). -/
  | potWrGain
  /-- `POT.WR.THR` (1,1): write the threshold potentiometer (R134). -/
  | potWrThr
  /-- `ACQ.STREAM` (2,0): start continuous bit-packed streaming acquisition (R153). -/
  | acqStream
  /-- `ACQ.BURST` (2,1): start interrupt-driven burst capture (R157). -/
  | acqBurst
  /-- `POL.LO` (4,0): set polarity low (R180). -/
  | polLo
  /-- `POL.HI` (4,1): set polarity high (R181). -/
  | polHi
  /-- `RATE` (5,1): run the rate measurement window (R190). -/
  | rate
  /-- `TP.OFF` (6,0): disable the test-pulse output (R183). -/
  | tpOff
  /-- `TP.ON` (6,1): enable the test-pulse output (R184). -/
  | tpOn
  /-- `LBL.GET` (7,0): get the free-text state label (R200). -/
  | lblGet
  /-- `LBL.SET` (7,1): set the free-text state label (R201). -/
  | lblSet
deriving DecidableEq, Repr, Inhabited

/-- A written command: the mnemonic with its operand (R95). The label of `lblSet` is the exact bytes of R95's bracket
form; `padLabel` (Decode.lean) makes them from a shorter text. -/
inductive Command where
  | potRd
  | busScan
  | potWrGain (pos : Byte)
  | potWrThr (pos : Byte)
  | acqStream (n : BitVec 32)
  | acqBurst (n : BitVec 64)
  | polLo
  | polHi
  | rate
  | tpOff
  | tpOn
  | lblGet
  | lblSet (text : List Byte)
deriving DecidableEq, Repr, Inhabited

/-- The opcode a written command starts with (R96). -/
def Command.instr : Command → Instr
  | .potRd => .potRd
  | .busScan => .busScan
  | .potWrGain _ => .potWrGain
  | .potWrThr _ => .potWrThr
  | .acqStream _ => .acqStream
  | .acqBurst _ => .acqBurst
  | .polLo => .polLo
  | .polHi => .polHi
  | .rate => .rate
  | .tpOff => .tpOff
  | .tpOn => .tpOn
  | .lblGet => .lblGet
  | .lblSet _ => .lblSet

/-- The request formats of R87: how the payload datagram of an opcode is laid out. -/
inductive Format where
  | q0
  | q1
  | q4
  | q8
  | ql
deriving DecidableEq, Repr, Inhabited

end Sys2Proof
end

