-- ==== Sys2Proof/Decode.lean ====
section
/-! DEFINITION. Byte order (R11, R68), the opcode decoder (R86, R88, R91, R106), total on any bytes and refusing by
name, the payload formats (R87), and after them the encoder of opcodes and of written commands (R96). -/

namespace Sys2Proof

/-- `le_N` of a byte sequence: first byte least significant (R11). -/
def leNat : List Byte → Nat
  | [] => 0
  | b :: bs => b.toNat + 256 * leNat bs

/-- `bytes_le` of `n` bytes: least significant byte first, the value taken modulo `2^(8 n)` (R11). -/
def leBytes : Nat → Nat → List Byte
  | 0, _ => []
  | n + 1, v => BitVec.ofNat 8 v :: leBytes n (v / 256)

/-- `OPV = le_16(byte0, byte1)`: the category in bits 7..0, the subcode in bits 15..8 (R86). -/
def opvOf (category subcode : Byte) : BitVec 16 :=
  BitVec.ofNat 16 (leNat [category, subcode])

/-- The field `category` of an opcode value (R86). -/
def opvCategory (opv : BitVec 16) : Byte := opv.extractLsb' 0 8

/-- The field `subcode` of an opcode value (R86). -/
def opvSubcode (opv : BitVec 16) : Byte := opv.extractLsb' 8 8

/-- One row of the opcode table of R88. The match of every row is the full 16 bits. -/
structure OpcodeRow where
  category : Byte
  subcode : Byte
  instr : Instr
  format : Format
deriving DecidableEq, Repr

/-- The opcode table of R88 with the request formats of R87. -/
def opcodeTable : List OpcodeRow :=
  [ ⟨0, 0, .potRd, .q0⟩,
    ⟨0, 2, .busScan, .q0⟩,
    ⟨1, 0, .potWrGain, .q1⟩,
    ⟨1, 1, .potWrThr, .q1⟩,
    ⟨2, 0, .acqStream, .q4⟩,
    ⟨2, 1, .acqBurst, .q8⟩,
    ⟨4, 0, .polLo, .q0⟩,
    ⟨4, 1, .polHi, .q0⟩,
    ⟨5, 1, .rate, .q0⟩,
    ⟨6, 0, .tpOff, .q0⟩,
    ⟨6, 1, .tpOn, .q0⟩,
    ⟨7, 0, .lblGet, .q0⟩,
    ⟨7, 1, .lblSet, .ql⟩ ]

/-- The row an opcode value selects: a total match on the full `OPV` (R88, R106). -/
def tableRow (opv : BitVec 16) : Option OpcodeRow :=
  opcodeTable.find? fun r => opvOf r.category r.subcode == opv

/-- The opcode an `OPV` stands for; `none` is every illegal value (R91). -/
def instrOfOpv (opv : BitVec 16) : Option Instr :=
  (tableRow opv).map OpcodeRow.instr

/-- Why an opcode datagram is refused (R85, R91). -/
inductive DecodeError where
  /-- Fewer than two bytes (R85). -/
  | shortFrame (len : Nat)
  /-- An opcode value that is not in the table of R88 (R91). -/
  | unknownOpcode (opv : BitVec 16)
deriving DecidableEq, Repr

/-- Decode an opcode datagram: its first two bytes are looked up, further bytes are cut off (R85, R86). -/
def decodeOpcode : Datagram → Except DecodeError Instr
  | category :: subcode :: _ =>
    match instrOfOpv (opvOf category subcode) with
    | some i => .ok i
    | none => .error (.unknownOpcode (opvOf category subcode))
  | d => .error (.shortFrame d.length)

/-- The bytes of a numbered instruction word: bit 0 is the least significant bit of the first byte. -/
def wordBytes (nbits w : Nat) : Datagram :=
  leBytes 2 (w % 2 ^ nbits)

/-- The instruction the decoder reads from a word of the opcode table: the bits above `nbits` are 0, the first byte of
the opcode datagram is bits 7..0 (R86). -/
def decodeTableWord (nbits w : Nat) : Option Instr :=
  match decodeOpcode (wordBytes nbits w) with
  | .ok i => some i
  | .error _ => none

/-- The request format of each opcode (R87). -/
def Instr.format : Instr → Format
  | .potRd => .q0
  | .busScan => .q0
  | .potWrGain => .q1
  | .potWrThr => .q1
  | .acqStream => .q4
  | .acqBurst => .q8
  | .polLo => .q0
  | .polHi => .q0
  | .rate => .q0
  | .tpOff => .q0
  | .tpOn => .q0
  | .lblGet => .q0
  | .lblSet => .ql

/-- The length of a format's payload datagram, `none` where there is no payload (R87, R93). -/
def Format.payloadLen (labelLen : Nat) : Format → Option Nat
  | .q0 => none
  | .q1 => some 1
  | .q4 => some streamTargetBytes
  | .q8 => some burstTargetBytes
  | .ql => some labelLen

/-- The payload length of an opcode: a function of the opcode alone (R93). -/
def Instr.payloadLen (labelLen : Nat) (i : Instr) : Option Nat :=
  i.format.payloadLen labelLen

/-- The written command that an opcode and the bytes of its payload make (R87, R90). -/
def commandOf (i : Instr) (d : List Byte) : Command :=
  match i with
  | .potRd => .potRd
  | .busScan => .busScan
  | .potWrGain => .potWrGain (d.headD 0)
  | .potWrThr => .potWrThr (d.headD 0)
  | .acqStream => .acqStream (BitVec.ofNat 32 (leNat d))
  | .acqBurst => .acqBurst (BitVec.ofNat 64 (leNat d))
  | .polLo => .polLo
  | .polHi => .polHi
  | .rate => .rate
  | .tpOff => .tpOff
  | .tpOn => .tpOn
  | .lblGet => .lblGet
  | .lblSet => .lblSet d

/-- Why a sequence of request datagrams is refused as a written command. -/
inductive RequestError where
  /-- No datagram where one is due. -/
  | missing
  /-- The opcode datagram is refused. -/
  | opcode (e : DecodeError)
  /-- The payload datagram is shorter than its format (R214). -/
  | shortPayload (len expected : Nat)
deriving DecidableEq, Repr

/-- Read one request from a sequence of datagrams: the opcode datagram, then the payload datagram of its format
(R85, R87, R93); answers the written command and the datagrams left. -/
def decodeRequest (labelLen : Nat) : List Datagram → Except RequestError (Command × List Datagram)
  | [] => .error .missing
  | op :: rest =>
    match decodeOpcode op with
    | .error e => .error (.opcode e)
    | .ok i =>
      match i.payloadLen labelLen with
      | none => .ok (commandOf i [], rest)
      | some n =>
        match rest with
        | [] => .error .missing
        | d :: rest' =>
          if n ≤ d.length then .ok (commandOf i (d.take n), rest') else .error (.shortPayload d.length n)

/-- The two bytes of each opcode's datagram, from the table of R88. -/
def encode : Instr → Datagram
  | .potRd => [0x00, 0x00]
  | .busScan => [0x00, 0x02]
  | .potWrGain => [0x01, 0x00]
  | .potWrThr => [0x01, 0x01]
  | .acqStream => [0x02, 0x00]
  | .acqBurst => [0x02, 0x01]
  | .polLo => [0x04, 0x00]
  | .polHi => [0x04, 0x01]
  | .rate => [0x05, 0x01]
  | .tpOff => [0x06, 0x00]
  | .tpOn => [0x06, 0x01]
  | .lblGet => [0x07, 0x00]
  | .lblSet => [0x07, 0x01]

/-- A text of at most `labelLen` bytes padded on the right with 0x00 (R95). -/
def padLabel (labelLen : Nat) (text : List Byte) : List Byte :=
  text ++ List.replicate (labelLen - text.length) 0x00

/-- The payload datagram of a written command, if its format has one (R96). -/
def Command.payload : Command → Option Datagram
  | .potRd => none
  | .busScan => none
  | .potWrGain pos => some [pos]
  | .potWrThr pos => some [pos]
  | .acqStream n => some (leBytes streamTargetBytes n.toNat)
  | .acqBurst n => some (leBytes burstTargetBytes n.toNat)
  | .polLo => none
  | .polHi => none
  | .rate => none
  | .tpOff => none
  | .tpOn => none
  | .lblGet => none
  | .lblSet text => some text

/-- The datagrams of a written command: the opcode datagram, then the payload datagram if the format has one (R96). -/
def encodeCommand (c : Command) : List Datagram :=
  encode c.instr :: c.payload.toList

end Sys2Proof
end

