-- ==== Sys2Proof/WellFormed.lean ====
section
/-! DEFINITION. What is well formed: a configuration that meets every constraint of R6 (a model refuses any other), and
a written command whose operand fits its format (R95). An opcode alone has nothing to check. -/

namespace Sys2Proof

/-- The constraints of R6's last column, one name each. -/
inductive Constraint where
  /-- `GAIN_ADDR` is 0x01..0x7F. -/
  | gainAddrNonzero
  /-- `THR_ADDR` is 0x01..0x7F. -/
  | thrAddrNonzero
  /-- `GAIN_ADDR ≠ THR_ADDR`. -/
  | addrsDiffer
  /-- `200000 ≤ SETTLE_US ≤ 500000`. -/
  | settleInRange
  /-- `BURST_BUF` is a multiple of 4. -/
  | burstBufQuads
  /-- `BURST_BUF ≥ 8`. -/
  | burstBufMin
  /-- `BURST_CKPT` is a multiple of 4. -/
  | burstCkptQuads
  /-- `BURST_CKPT < BURST_BUF`. -/
  | burstCkptInside
  /-- `DEFER_DEPTH ≥ 1`. -/
  | deferDepthMin
  /-- `CHUNK_PAIRS ≥ 1`. -/
  | chunkPairsMin
  /-- `STREAM_PERIOD_US ≥ 1`. -/
  | streamPeriodMin
  /-- `POLLED_BUF` is a multiple of 4. -/
  | polledBufQuads
  /-- `POLLED_BUF ≥ 4`. -/
  | polledBufMin
  /-- `POLLED_PERIOD_US ≥ 1`. -/
  | polledPeriodMin
  /-- `POLLED_COUNT_BYTES` is 1..8. -/
  | polledCountRange
  /-- `OPCODE_POLLED`, if given, is absent from the table of R88. -/
  | polledOpcodeFree
  /-- `RATE_WINDOW_S ≥ 1`. -/
  | rateWindowMin
  /-- `CLR_PULSE_US ≥ 1`. -/
  | clrPulseMin
  /-- `LABEL_LEN ≥ 1`. -/
  | labelLenMin
  /-- `CMD_PORT ≠ STREAM_PORT`. -/
  | portsDiffer
deriving DecidableEq, Repr

/-- Every constraint, in the order of R6. -/
def Constraint.all : List Constraint :=
  [ .gainAddrNonzero, .thrAddrNonzero, .addrsDiffer, .settleInRange, .burstBufQuads, .burstBufMin, .burstCkptQuads,
    .burstCkptInside, .deferDepthMin, .chunkPairsMin, .streamPeriodMin, .polledBufQuads, .polledBufMin,
    .polledPeriodMin, .polledCountRange, .polledOpcodeFree, .rateWindowMin, .clrPulseMin, .labelLenMin, .portsDiffer ]

/-- Whether a configuration meets one constraint of R6. -/
def Params.meets (p : Params) : Constraint → Bool
  | .gainAddrNonzero => p.gainAddr != 0
  | .thrAddrNonzero => p.thrAddr != 0
  | .addrsDiffer => p.gainAddr != p.thrAddr
  | .settleInRange => decide (200000 ≤ p.settleUs) && decide (p.settleUs ≤ 500000)
  | .burstBufQuads => p.burstBuf % 4 == 0
  | .burstBufMin => decide (8 ≤ p.burstBuf)
  | .burstCkptQuads => p.burstCkpt % 4 == 0
  | .burstCkptInside => decide (p.burstCkpt < p.burstBuf)
  | .deferDepthMin => decide (1 ≤ p.deferDepth)
  | .chunkPairsMin => decide (1 ≤ p.chunkPairs)
  | .streamPeriodMin => decide (1 ≤ p.streamPeriodUs)
  | .polledBufQuads => p.polledBuf % 4 == 0
  | .polledBufMin => decide (4 ≤ p.polledBuf)
  | .polledPeriodMin => decide (1 ≤ p.polledPeriodUs)
  | .polledCountRange => decide (1 ≤ p.polledCountBytes) && decide (p.polledCountBytes ≤ 8)
  | .polledOpcodeFree =>
    match p.opcodePolled with
    | none => true
    | some opv => (instrOfOpv opv).isNone
  | .rateWindowMin => decide (1 ≤ p.rateWindowS)
  | .clrPulseMin => decide (1 ≤ p.clrPulseUs)
  | .labelLenMin => decide (1 ≤ p.labelLen)
  | .portsDiffer => p.cmdPort != p.streamPort

/-- The constraints a configuration breaks. -/
def Params.broken (p : Params) : List Constraint :=
  Constraint.all.filter fun c => !p.meets c

/-- A configuration the model accepts: it breaks no constraint of R6. -/
def Params.valid (p : Params) : Bool := p.broken.isEmpty

/-- One configuration that meets every constraint. It shows that a configuration exists and serves the tests; no
statement rests on its values. The addresses are those of the examples of 95_test_vectors.md. -/
def Params.sample : Params where
  gainAddr := 0x2C
  thrAddr := 0x2D
  burstBuf := 8
  deferDepth := 2
  chunkPairs := 2
  streamPeriodUs := 100
  polledBuf := 4
  polledPeriodUs := 10
  polledCountBytes := 1
  rateWindowS := 3
  clrPulseUs := 1
  trigEdge := .rising
  rateEdge := .rising
  labelLen := 4
  cmdPort := 1
  streamPort := 2
  tpWaveform := []
  busPhy := 0

/-- A built block: a configuration together with the check of R6, made once, so that no state holds a refused one. -/
structure Board where
  params : Params := Params.sample
  ok : params.valid = true := by decide
deriving DecidableEq, Repr, Inhabited

/-- Build a block from a configuration, or refuse it with the constraints it breaks (R6). -/
def buildBoard (p : Params) : Except (List Constraint) Board :=
  if h : p.valid = true then .ok ⟨p, h⟩ else .error p.broken

/-- FREE VALUE: the block that was built, any accepted configuration (R7, R244). Log entry 1. -/
opaque Config.board : Board

/-- What can be wrong with a written command (R95). -/
inductive CommandError where
  /-- The label has another length than `LABEL_LEN`. -/
  | labelLength (len expected : Nat)
deriving DecidableEq, Repr

/-- The check of a written command: integers fit their format by their type, a label has exactly `LABEL_LEN` bytes
(R95). -/
def Command.check (labelLen : Nat) : Command → Option CommandError
  | .potRd => none
  | .busScan => none
  | .potWrGain _ => none
  | .potWrThr _ => none
  | .acqStream _ => none
  | .acqBurst _ => none
  | .polLo => none
  | .polHi => none
  | .rate => none
  | .tpOff => none
  | .tpOn => none
  | .lblGet => none
  | .lblSet text => if text.length = labelLen then none else some (.labelLength text.length labelLen)

/-- A written command that the encoder may be given. -/
def Command.wellFormed (labelLen : Nat) (c : Command) : Bool := (c.check labelLen).isNone

/-- Every opcode is well formed: it carries no operand (R87, R88). -/
def Instr.wellFormed (_ : Instr) : Bool := true

end Sys2Proof
end

