-- ==== Sys2Proof/Machine/State.lean ====
section
/-! DEFINITION. The state of the block as plain data (10_state.md), the position inside each handler that `EXEC(op, k)`
carries (R21, R22), the reset state (R48, R240), and the closed types of faults and refusals. -/

namespace Sys2Proof.Machine

/-- `MODE`, the active acquisition mode (R24). -/
inductive Mode where
  | none
  | stream
  | burst
  | rate
  | polled
deriving DecidableEq, Repr, Inhabited

/-- The next line of the `POT.RD` handler (R131). -/
inductive PotRdK where
  /-- `g <- BusRead(GAIN_ADDR)`. -/
  | readGain
  /-- The gain read answered `g` (`none` is `ABSENT`): raise, or read the threshold device. -/
  | gotGain (g : Option Byte)
  /-- The threshold read answered `h`: raise, or send both. -/
  | gotBoth (g : Byte) (h : Option Byte)
  /-- `return`. -/
  | ret
deriving DecidableEq, Repr, Inhabited

/-- The next line of the `BUS.SCAN` handler (R132): the addresses still to probe and those found. -/
inductive ScanK where
  /-- Probe the head of `rest`; with `rest` empty, send the response. -/
  | probe (rest found : List BusAddr)
  /-- `return`. -/
  | ret
deriving DecidableEq, Repr, Inhabited

/-- The next line of a potentiometer write handler (R130, R133, R134). -/
inductive PotWrK where
  /-- `pos <- CmdRecv(1)[0]`. -/
  | recv
  /-- `old <- POT[a]` and `BusWrite(a, pos)`. -/
  | write (pos : Byte)
  /-- The write was acknowledged at `NOW = t`: `LASTWR <- (t, a, old, pos)`. -/
  | record (t : BitVec 64) (old pos : Byte)
  /-- The write answered `ABSENT`: raise `BusDeviceAbsent`. -/
  | absent
  /-- `WaitUntil(NOW - LASTWR.t >= SETTLE_US)`. -/
  | settle
  /-- `return`. -/
  | ret
deriving DecidableEq, Repr, Inhabited

/-- The next line of the `ACQ.STREAM` handler (R153). -/
inductive StreamK where
  /-- `N <- le_32(CmdRecv(4))`. -/
  | recv
  /-- `STARGET <- N`. -/
  | setTarget (n : BitVec 32)
  /-- `SDONE <- 0`. -/
  | zeroDone
  /-- `Drain()`. -/
  | drain
  /-- `MODE <- STREAM`. -/
  | setMode
  /-- The loop test, then the atomic clear and `StartFill`, or `return` when the loop is done. -/
  | loop
  /-- `WaitUntil(FILL.i = m)`. -/
  | wait (m : Nat)
  /-- `FILL <- OFF`. -/
  | fillOff (m : Nat)
  /-- `SDONE <- SDONE + m`. -/
  | addDone (m : Nat)
  /-- `StreamSend` of the whole chunk. -/
  | send
deriving DecidableEq, Repr, Inhabited

/-- The next line of the `ACQ.BURST` handler (R157). -/
inductive BurstK where
  /-- `N <- le_64(CmdRecv(8))`. -/
  | recv
  /-- `BTARGET <- N`. -/
  | setTarget (n : BitVec 64)
  /-- The first `Drain()`. -/
  | drain
  /-- `PCOUNT <- 0`. -/
  | zeroCount
  /-- `MODE <- BURST`. -/
  | setMode
  /-- `TRIG_ARMED <- 1`. -/
  | arm
  /-- `WaitUntil(PCOUNT >= BTARGET)`. -/
  | waitCount
  /-- `TRIG_ARMED <- 0`. -/
  | disarm
  /-- `WaitUntil(DQ = 0 and DCONT = NONE)`. -/
  | waitDefer
  /-- The second `Drain()`. -/
  | drainLast
  /-- `return`. -/
  | ret
deriving DecidableEq, Repr, Inhabited

/-- The next line of a handler that writes one bit (R180, R181, R183, R184). -/
inductive BitK where
  | write
  | ret
deriving DecidableEq, Repr, Inhabited

/-- The next line of the `RATE` handler (R190). -/
inductive RateK where
  /-- `RCOUNT <- 0`. -/
  | zeroCount
  /-- `MODE <- RATE`. -/
  | setMode
  /-- `t0 <- NOW`. -/
  | readT0
  /-- `RATE_ARMED <- 1`. -/
  | arm (t0 : BitVec 64)
  /-- `WaitUntil(NOW - t0 >= RATE_WINDOW_S * 10^6)`. -/
  | wait (t0 : BitVec 64)
  /-- `RATE_ARMED <- 0`. -/
  | disarm
  /-- `r <- round_tie(RCOUNT / RATE_WINDOW_S)`. -/
  | divide
  /-- `CmdSend(bytes_le_32(r))`. -/
  | send (r : BitVec 32)
  /-- `return`. -/
  | ret
deriving DecidableEq, Repr, Inhabited

/-- The next line of the `LBL.GET` handler (R200). -/
inductive LblGetK where
  | send
  | ret
deriving DecidableEq, Repr, Inhabited

/-- The next line of the `LBL.SET` handler (R201). -/
inductive LblSetK where
  /-- `d <- CmdRecv(LABEL_LEN)`. -/
  | recv
  /-- `LABEL[j] <- d[j]`, one element a step (R61). -/
  | store (j : Nat) (d : List Byte)
  /-- `return`. -/
  | ret
deriving DecidableEq, Repr, Inhabited

/-- The next line of the polled handler (R169). `cnt` is the number of iterations left. -/
inductive PolledK where
  /-- `cnt <- le(CmdRecv(POLLED_COUNT_BYTES))`. -/
  | recv
  /-- `Drain()`. -/
  | drain (cnt : Nat)
  /-- `MODE <- POLLED`. -/
  | setMode (cnt : Nat)
  /-- The atomic clear and `StartFill`, or `return` when no iteration is left. -/
  | loop (cnt : Nat)
  /-- `WaitUntil(FILL.i = POLLED_BUF)`. -/
  | wait (cnt : Nat)
  /-- `FILL <- OFF`. -/
  | fillOff (cnt : Nat)
  /-- `CmdSend` of the whole buffer. -/
  | send (cnt : Nat)
deriving DecidableEq, Repr, Inhabited

/-- `(op, k)` of `DSTATE = EXEC(op, k)`: the handler that runs and its next line (R21, R22), one constructor per
opcode (R106) and one for the polled handler, which has no opcode of the table (R112). -/
inductive Activity where
  | potRd (k : PotRdK)
  | busScan (k : ScanK)
  | potWrGain (k : PotWrK)
  | potWrThr (k : PotWrK)
  | acqStream (k : StreamK)
  | acqBurst (k : BurstK)
  | polLo (k : BitK)
  | polHi (k : BitK)
  | rate (k : RateK)
  | tpOff (k : BitK)
  | tpOn (k : BitK)
  | lblGet (k : LblGetK)
  | lblSet (k : LblSetK)
  | polled (k : PolledK)
deriving DecidableEq, Repr, Inhabited

/-- `DSTATE`, the dispatcher state (R22). -/
inductive DState where
  /-- Blocked awaiting a 2-byte opcode. -/
  | idle
  /-- One handler running to completion. -/
  | exec (a : Activity)
  /-- An unknown opcode or a fatal fault was met; only reset leaves it. -/
  | halted
deriving DecidableEq, Repr, Inhabited

/-- `DCONT`, the line that the running deferred callback has reached (R36, R163). -/
inductive DeferK where
  /-- `c <- PCOUNT`. -/
  | readCount
  /-- `p <- (4 * c) mod B`. -/
  | place (c : BitVec 64)
  /-- `BB[p + j] <- SB[j]`. -/
  | copy (p j : Nat)
  /-- The checkpoint test and flush. -/
  | flush (p : Nat)
  /-- `DCONT <- NONE`. -/
  | finish
deriving DecidableEq, Repr, Inhabited

/-- The buffer that a hardware-timed read fills (R32). -/
inductive FillBuf where
  | chunk
  | pbuf
deriving DecidableEq, Repr, Inhabited

/-- The record of `FILL` while it is not `OFF` (R32, R144). `due` is a value of `NOW`. -/
structure Fill where
  buf : FillBuf
  n : Nat
  i : Nat
  due : BitVec 64
  period : Nat
deriving DecidableEq, Repr, Inhabited

/-- The record of `LASTWR` while it is not `NEVER` (R39). -/
structure LastWrite where
  t : BitVec 64
  a : BusAddr
  old : Byte
  new : Byte
deriving DecidableEq, Repr, Inhabited

/-- The conditions of R211 with the information each records. -/
inductive Condition where
  /-- Code 1, fatal: the opcode value (R212). -/
  | unknownOpcode (opv : BitVec 16)
  /-- Code 2, abort: the bus address (R213). -/
  | busDeviceAbsent (a : BusAddr)
  /-- Code 3, host-side, never raised by the block (R216). -/
  | transportTimeout
  /-- Code 4, host-side and out of scope, never raised by the block (R217). -/
  | malformedUnit
  /-- Code 5, fatal: the datagram's length and the expected length (R214). -/
  | shortFrame (len expected : Nat)
  /-- Code 6, fatal: `PCOUNT` after the increment (R215). -/
  | deferOverflow (pcount : BitVec 64)
deriving DecidableEq, Repr, Inhabited

/-- The kinds of conditions (R211). -/
inductive ConditionKind where
  | fatal
  | abort
  | hostSide
deriving DecidableEq, Repr, Inhabited

/-- The level of `TP_OUT` (R45, R185). -/
inductive TpLevel where
  | inactive
  | emitting (w : Waveform)
deriving DecidableEq, Repr, Inhabited

/-- The events that the outputs leave behind: each change of an output and each `CLR_OUT` pulse (R45). -/
inductive OutEvent where
  /-- `POL_OUT` changed to the level of this value of `POL`. -/
  | polOut (level : Bool)
  /-- `TP_OUT` changed. -/
  | tpOut (level : TpLevel)
  /-- One pulse on `CLR_OUT` of this width in µs (R193). -/
  | clrPulse (widthUs : Nat)
deriving DecidableEq, Repr, Inhabited

/-- What the potentiometer bus holds: the address and position of every device that answers (R47, R62). An address
that is not listed has no device: a read answers `ABSENT`. -/
abbrev Memory := List Host.Cell

/-- The canonical form: addresses strictly rising, each a 7-bit address (R62). -/
def Memory.wf : Memory → Bool
  | [] => true
  | [c] => decide (c.1 < 128)
  | c :: c' :: m => decide (c.1 < c'.1) && Memory.wf (c' :: m)

/-- Why `exec` has no step to take. `step` never answers a fault: it calls `exec` only where `DISPATCH` is at that
opcode. Log entry 16. -/
inductive Fault where
  /-- `exec` was asked for a step of an opcode while `DSTATE = HALTED`, where the dispatcher has no step (R113).
  Safe: the model stops where the block has no step. -/
  | halted
  /-- `exec` was asked for a step of an opcode while another handler is running; the dispatcher reads no opcode then
  (R108). Safe: the model stops where the block has no such step. -/
  | otherHandler
deriving DecidableEq, Repr, Inhabited

/-- Why the model has no meaning for an instruction. -/
inductive Refusal where
  /-- No meaning yet, raised by an arm of `exec` only; no arm raises it. Safe: the model stops. -/
  | notModelled (mnemonic : String)
deriving DecidableEq, Repr, Inhabited

/-- The state of the block, the external state its rules read (R47), and the model's own fields, which come last. -/
structure State where
  /-- The parameters the block was built with; no step changes them (R244). Model's own field. -/
  cfg : Board
  /-- `DSTATE` (R22). -/
  dstate : DState
  /-- `MODE` (R24). -/
  mode : Mode
  /-- `POL` (R25). -/
  pol : Bool
  /-- `TPEN` (R26). -/
  tpen : Bool
  /-- `LABEL` (R27). -/
  label : List Byte
  /-- `PCOUNT` (R28). -/
  pcount : BitVec 64
  /-- `BTARGET` (R29). -/
  btarget : BitVec 64
  /-- `RCOUNT` (R30). -/
  rcount : BitVec 32
  /-- `STARGET` (R31). -/
  starget : BitVec 32
  /-- `SDONE` (R31). -/
  sdone : BitVec 32
  /-- `FILL`; `none` is `OFF` (R32). -/
  fill : Option Fill
  /-- `TRIG_ARMED` (R33). -/
  trigArmed : Bool
  /-- `RATE_ARMED` (R34). -/
  rateArmed : Bool
  /-- `TRIG_INSVC` (R35). -/
  trigInsvc : Bool
  /-- `TRIG_PEND` (R35). -/
  trigPend : Bool
  /-- `RATE_INSVC` (R35). -/
  rateInsvc : Bool
  /-- `RATE_PEND` (R35). -/
  ratePend : Bool
  /-- `DQ` (R36). -/
  dq : Nat
  /-- `DCONT`; `none` is `NONE` (R36). -/
  dcont : Option DeferK
  /-- `NOW` (R37). -/
  now : BitVec 64
  /-- `TSEC` (R38). -/
  tsec : BitVec 32
  /-- `TUSEC` (R38). -/
  tusec : BitVec 20
  /-- `LASTWR`; `none` is `NEVER` (R39). -/
  lastwr : Option LastWrite
  /-- `SB` (R40). -/
  sb : List Cell16
  /-- `BB` (R41). -/
  bb : List Cell16
  /-- `CHUNK` (R42). -/
  chunk : List Pair
  /-- `PBUF` (R42). -/
  pbuf : List Cell16
  /-- `FAULT`, a set kept as a list without repeats (R43). -/
  faults : List Condition
  /-- `BUSERR` (R44). -/
  buserr : BitVec 32
  /-- `CIN`, oldest first (R46). -/
  cin : List Datagram
  /-- `COUT`, oldest first (R46). -/
  cout : List Datagram
  /-- `SOUT`, oldest first (R46). -/
  sout : List Datagram
  /-- The record of output events, oldest first (R45). -/
  events : List OutEvent
  /-- `DEVS` and `POT` (R47). -/
  pots : Memory
  /-- Model's own: `OPV` of R106 between its receive and its lookup, both in `IDLE` (R73). Log entry 5. -/
  opv : Option (BitVec 16)
  /-- Model's own: how many entries of `TRIG_ISR` are enabled and not yet taken (R158, R160, R222). Log entry 11. -/
  trigReq : Nat
  /-- Model's own: the same for `RATE_ISR` (R191). Log entry 11. -/
  rateReq : Nat
  /-- Model's own: the moves to come, then `Config.freeMove` (R77, R115). -/
  schedule : List Move
  /-- Model's own: the ADC conversions to come, then `Config.freeSample` (R143). -/
  adcIn : List Sample
  /-- Model's own: the two-way draws to come, then `Config.freeCoin` (R129, R161). -/
  coinIn : List Bool
  /-- Model's own: how many free values have been drawn. -/
  drawn : Nat
  /-- Model's own: how many resets there have been (R240). -/
  resets : Nat
deriving DecidableEq, Repr

/-- The parameters of a state's block. -/
abbrev State.par (s : State) : Params := s.cfg.params

/-- A sample buffer of `len` elements as the n-th reset leaves it: each element a draw of a u12 (R40, R41, R242). -/
def powerUpBuffer (n start len : Nat) : List Cell16 :=
  (List.range len).map fun i => zext16 (Config.powerUpSample n (start + i))

/-- The state after a reset of a block: every element of the table of R48, with the n-th power-up draws for `SB` and
`BB` (R240, R242); the external positions are given. -/
def State.powerUp (cfg : Board) (pots : Memory) (n : Nat) : State where
  cfg := cfg
  dstate := .idle
  mode := .none
  pol := false
  tpen := false
  label := List.replicate cfg.params.labelLen 0
  pcount := 0
  btarget := 0
  rcount := 0
  starget := 0
  sdone := 0
  fill := none
  trigArmed := false
  rateArmed := false
  trigInsvc := false
  trigPend := false
  rateInsvc := false
  ratePend := false
  dq := 0
  dcont := none
  now := 0
  tsec := 0
  tusec := 0
  lastwr := none
  sb := powerUpBuffer n 0 burstGroup
  bb := powerUpBuffer n burstGroup cfg.params.burstBuf
  chunk := List.replicate cfg.params.chunkPairs (0, 0)
  pbuf := List.replicate cfg.params.polledBuf 0
  faults := []
  buserr := 0
  cin := []
  cout := []
  sout := []
  events := []
  pots := pots
  opv := none
  trigReq := 0
  rateReq := 0
  schedule := []
  adcIn := []
  coinIn := []
  drawn := 0
  resets := n + 1

/-- The bus after power-on: whatever devices are fitted, each at a drawn position (R47, R242). -/
def powerOnBus : Memory :=
  ((List.range 128).filter fun a => Config.deviceFitted (BitVec.ofNat 7 a)).map
    fun a => (a, Config.powerUpPosition 0 (BitVec.ofNat 7 a))

/-- The machine right after power-on, for any accepted configuration and any devices (R48, R240, R241, R242). -/
def State.reset : State := State.powerUp Config.board powerOnBus 0

end Sys2Proof.Machine
end

