-- ==== Sys2Proof/Machine/Operands.lean ====
section
/-! DEFINITION. The opcode value of R86 and the operand forms of R90: what the dispatcher and a handler assemble from the
bytes of their datagrams. Every value of each width is accepted and none is sign-extended, scaled or shifted. -/

namespace Sys2Proof.Machine

/-- The opcode: `OPV = le_16(ob)` (R86, R106). -/
def operandOpv (d : List Byte) : BitVec 16 := BitVec.ofNat 16 (leNat d)

/-- Q1: `pos = d[0]` (R90). -/
def operandPos (d : List Byte) : Byte := d.headD 0

/-- Q4: `N = le_32(d[0..3])` (R90). -/
def operandN32 (d : List Byte) : BitVec 32 := BitVec.ofNat 32 (leNat d)

/-- Q8: `N = le_64(d[0..7])` (R90). -/
def operandN64 (d : List Byte) : BitVec 64 := BitVec.ofNat 64 (leNat d)

/-- QL: `text = d[0..LABEL_LEN-1]`, uninterpreted (R90). -/
def operandText (d : List Byte) : List Byte := d

/-- The polled repeat count, `POLLED_COUNT_BYTES` bytes little-endian (R169). -/
def operandCount (d : List Byte) : Nat := leNat d

end Sys2Proof.Machine
end

