-- ==== Sys2Proof/Machine/Ops.lean ====
section
/-! DEFINITION. The primitives of R12 as named operations: element access to the internal buffers (R61), the positions
on the potentiometer bus (R47), the draws from the environment (R143), the channels (R64 to R67), the return of a
handler (R107), and raising a condition, the one operation that takes a fault (R210). -/

namespace Sys2Proof.Machine

/-! ### Buffers and the positions on the bus -/

/-- `MemRead(BUF, i, 1)` (R61). Every index a rule computes is inside the buffer; `dflt` is never met there. -/
def bufRead {α : Type} (buf : List α) (i : Nat) (dflt : α) : α := buf.getD i dflt

/-- `MemWrite(BUF, i, 1, v)` (R61). -/
def bufWrite {α : Type} (buf : List α) (i : Nat) (v : α) : List α := buf.set i v

/-- `POT[a]` of a device that answers, `none` (`ABSENT`) where none does (R47, R127). -/
def Memory.read : Memory → BusAddr → Option Byte
  | [], _ => none
  | c :: m, a => if c.1 = a.toNat then some c.2 else Memory.read m a

/-- `POT[a] <- v` for a device that answers; no effect where none does (R128). -/
def Memory.write : Memory → BusAddr → Byte → Memory
  | [], _, _ => []
  | c :: m, a, v => (if c.1 = a.toNat then (c.1, v) else c) :: Memory.write m a v

/-! ### Draws from the environment -/

/-- `AdcSample()`: the next conversion of the analog input, unconstrained (R143). -/
def adcSample (s : State) : Sample × State :=
  match s.adcIn with
  | x :: xs => (x, { s with adcIn := xs })
  | [] => (Config.freeSample s.drawn, { s with drawn := s.drawn + 1 })

/-- A two-way draw (R129, R161). -/
def coin (s : State) : Bool × State :=
  match s.coinIn with
  | c :: cs => (c, { s with coinIn := cs })
  | [] => (Config.freeCoin s.drawn, { s with drawn := s.drawn + 1 })

/-! ### Sequencing -/

/-- `DSTATE <- EXEC(op, k)`: the running handler moves to its next line (R21, R22). -/
def goto (a : Activity) (s : State) : State := { s with dstate := .exec a }

/-- `return`: `DSTATE <- IDLE` and `MODE <- NONE` in one step (R107). -/
def handlerReturn (s : State) : State := { s with dstate := .idle, mode := .none }

/-- `MODE <- m` (R24). -/
def setMode (m : Mode) (s : State) : State := { s with mode := m }

/-- `NOW - t` on unbounded integers (R9). Log entry 9. -/
def elapsed (s : State) (t : BitVec 64) : Int := (s.now.toNat : Int) - (t.toNat : Int)

/-! ### Raising a condition -/

/-- The code number of a condition (R211). -/
def Condition.code : Condition → Nat
  | .unknownOpcode _ => 1
  | .busDeviceAbsent _ => 2
  | .transportTimeout => 3
  | .malformedUnit => 4
  | .shortFrame _ _ => 5
  | .deferOverflow _ => 6

/-- The kind of a condition (R211). -/
def Condition.kind : Condition → ConditionKind
  | .unknownOpcode _ => .fatal
  | .busDeviceAbsent _ => .abort
  | .transportTimeout => .hostSide
  | .malformedUnit => .hostSide
  | .shortFrame _ _ => .fatal
  | .deferOverflow _ => .fatal

/-- `FAULT ∪ {c}` (R43, R210). -/
def addFault (c : Condition) (faults : List Condition) : List Condition :=
  if c ∈ faults then faults else faults ++ [c]

/-- The fatal action of R210: record the fault, halt, disarm both interrupts, end every interrupt context, timed read
and callback. `MODE` becomes `NONE` with it, because R24 holds in `HALTED`, and `DQ` stays (log entry 13). The enabled
entries end with the interrupts they belong to (log entry 11). -/
def raiseFatal (c : Condition) (s : State) : State :=
  { s with
    faults := addFault c s.faults
    dstate := .halted
    mode := .none
    trigArmed := false
    rateArmed := false
    trigInsvc := false
    rateInsvc := false
    trigPend := false
    ratePend := false
    trigReq := 0
    rateReq := 0
    fill := none
    dcont := none }

/-- The abort action of R210: count the abort, and the handler returns (R213). -/
def raiseAbort (s : State) : State := handlerReturn { s with buserr := s.buserr + 1 }

/-- `raise F(info)` by the kind of `F` (R210): the one operation that takes a fault. The host-side conditions are
never raised by the block (R216, R217); they change nothing. -/
def raise (c : Condition) (s : State) : State :=
  match c.kind with
  | .fatal => raiseFatal c s
  | .abort => raiseAbort s
  | .hostSide => s

/-! ### Channels -/

/-- `CmdRecv(n)` followed by what the handler does with the bytes (R64): blocked (no step) while `CIN` is empty; the
first datagram is taken; a longer one is cut, a shorter one raises `ShortFrame`. -/
def recvThen (n : Nat) (k : List Byte → State → State) (s : State) : State :=
  match s.cin with
  | [] => s
  | d :: rest =>
    if n ≤ d.length then k (d.take n) { s with cin := rest }
    else raise (.shortFrame d.length n) { s with cin := rest }

/-- `Drain()` (R65). -/
def drain (s : State) : State := { s with cin := [] }

/-- `CmdSend(bytes)` (R66). -/
def cmdSend (bytes : Datagram) (s : State) : State := { s with cout := s.cout ++ [bytes] }

/-- `StreamSend(bytes)` (R67). -/
def streamSend (bytes : Datagram) (s : State) : State := { s with sout := s.sout ++ [bytes] }

/-- `bytes16_seq` (R11). -/
def bytes16Seq (xs : List Cell16) : Datagram := xs.flatMap fun x => leBytes 2 x.toNat

/-- One TimedSample record on the wire: `bytes_le_32(w0) ++ bytes_le_32(w1)` (R69, R148). -/
def pairBytes (p : Pair) : Datagram := leBytes 4 p.1.toNat ++ leBytes 4 p.2.toNat

/-- A chunk on the streaming channel: its records one after the other (R153). -/
def chunkBytes (ps : List Pair) : Datagram := ps.flatMap pairBytes

end Sys2Proof.Machine
end

