-- ==== Sys2Proof/Machine/Flags.lean ====
section
/-! DEFINITION. The single-bit state. The block has no condition codes and no arithmetic flags (R23): its bits are the
control bits `POL` and `TPEN` with the outputs they drive (R45), and the arm, in-service and pending bits (R33 to R35,
R220). -/

namespace Sys2Proof.Machine

/-! ### Control bits and their outputs -/

/-- `POL_OUT` has the level of `POL` at every instant (R45, R182). -/
def polOut (s : State) : Bool := s.pol

/-- `TP_OUT` for a value of `TPEN` (R45, R185). -/
def tpLevel (cfg : Board) (tpen : Bool) : TpLevel :=
  if tpen then .emitting cfg.params.tpWaveform else .inactive

/-- `TP_OUT` emits `TP_WAVEFORM` while `TPEN = 1` and is inactive while `TPEN = 0` (R185). -/
def tpOut (s : State) : TpLevel := tpLevel s.cfg s.tpen

/-- `POL <- b`; a change of `POL_OUT` is recorded as an event (R45, R180, R181). -/
def setPol (b : Bool) (s : State) : State :=
  { s with pol := b, events := if s.pol = b then s.events else s.events ++ [.polOut b] }

/-- `TPEN <- b`; a change of `TP_OUT` is recorded as an event (R45, R183, R184). -/
def setTpen (b : Bool) (s : State) : State :=
  { s with
    tpen := b
    events := if s.tpen = b then s.events else s.events ++ [.tpOut (tpLevel s.cfg b)] }

/-- One pulse of `CLR_PULSE_US` on `CLR_OUT`, recorded as an event (R193). -/
def pulseClr (s : State) : State := { s with events := s.events ++ [.clrPulse s.par.clrPulseUs] }

/-! ### Arm, in-service and pending bits -/

/-- An interrupt context holds the processor: `DISPATCH` and `DEFER` take no step (R73, R221). -/
def inService (s : State) : Bool := s.trigInsvc || s.rateInsvc

/-- `TRIG_ARMED <- 1` (R157). -/
def armTrig (s : State) : State := { s with trigArmed := true }

/-- `TRIG_ARMED <- 0` (R157, R166). Enabled entries that were not taken are dropped (R79, log entry 11). -/
def disarmTrig (s : State) : State := { s with trigArmed := false, trigReq := 0 }

/-- `RATE_ARMED <- 1` (R190). -/
def armRate (s : State) : State := { s with rateArmed := true }

/-- `RATE_ARMED <- 0` (R190). Enabled entries that were not taken are dropped (R79, log entry 11). -/
def disarmRate (s : State) : State := { s with rateArmed := false, rateReq := 0 }

/-- One more entry of `TRIG_ISR` is enabled (R158, R160). Where one is already enabled and not yet taken, whether the
two are one entry or two is a draw: the spec does not say (log entry 12). -/
def trigEnable (s : State) : State :=
  if s.trigReq = 0 then { s with trigReq := 1 }
  else { (coin s).2 with trigReq := if (coin s).1 then s.trigReq + 1 else s.trigReq }

/-- One more entry of `RATE_ISR` is enabled (R191), with the same draw where one is already enabled and not yet taken
(log entry 12). -/
def rateEnable (s : State) : State :=
  if s.rateReq = 0 then { s with rateReq := 1 }
  else { (coin s).2 with rateReq := if (coin s).1 then s.rateReq + 1 else s.rateReq }

/-- The bits of a `TRIG_ISR` entry: `TRIG_ARMED <- 0; TRIG_INSVC <- 1` (R158); one enabled entry has been taken. -/
def trigServiceEnter (s : State) : State :=
  { s with trigArmed := false, trigInsvc := true, trigReq := s.trigReq - 1 }

/-- The bits of a `TRIG_ISR` exit: out of service, armed again, the pending bit cleared (R160). -/
def trigServiceLeave (s : State) : State := { s with trigInsvc := false, trigArmed := true, trigPend := false }

/-- A `TRIG_ISR` exit (R160): a pending edge enables an entry at once, without a new edge. -/
def trigServiceExit (s : State) : State :=
  if s.trigPend then trigEnable (trigServiceLeave s) else trigServiceLeave s

/-- The bits of a `RATE_ISR` entry (R191). -/
def rateServiceEnter (s : State) : State :=
  { s with rateArmed := false, rateInsvc := true, rateReq := s.rateReq - 1 }

/-- The bits of a `RATE_ISR` exit (R191). -/
def rateServiceLeave (s : State) : State := { s with rateInsvc := false, rateArmed := true, ratePend := false }

/-- A `RATE_ISR` exit (R191, R160). A pending edge enables an entry; where one is still untaken, one entry or two is the
draw of `rateEnable` (log entry 12). -/
def rateServiceExit (s : State) : State :=
  if s.ratePend then rateEnable (rateServiceLeave s) else rateServiceLeave s

end Sys2Proof.Machine
end

