-- ==== Sys2Proof/Machine/Burst.lean ====
section
/-! DEFINITION. Interrupt burst mode: `ACQ.BURST` (R157, R166), the burst-trigger interrupt (R158 to R162), and the
deferred callback (R163 to R165). -/

namespace Sys2Proof.Machine

/-! ### The handler -/

/-- One line of the `ACQ.BURST` handler (R157). -/
def burstLine (k : BurstK) (s : State) : State :=
  match k with
  | .recv => recvThen burstTargetBytes (fun d s1 => goto (.acqBurst (.setTarget (operandN64 d))) s1) s
  | .setTarget n => goto (.acqBurst .drain) { s with btarget := n }
  | .drain => goto (.acqBurst .zeroCount) (drain s)
  | .zeroCount => goto (.acqBurst .setMode) { s with pcount := 0 }
  | .setMode => goto (.acqBurst .arm) (setMode .burst s)
  | .arm => goto (.acqBurst .waitCount) (armTrig s)
  | .waitCount => if s.btarget ≤ s.pcount then goto (.acqBurst .disarm) s else s
  | .disarm => goto (.acqBurst .waitDefer) (disarmTrig s)
  | .waitDefer => if s.dq = 0 ∧ s.dcont = none then goto (.acqBurst .drainLast) s else s
  | .drainLast => goto (.acqBurst .ret) (drain s)
  | .ret => handlerReturn s

/-- `ACQ.BURST` (2,1) (R157). -/
def execAcqBurst (s : State) : Host.Outcome State Fault Refusal :=
  match s.dstate with
  | .idle => .next (goto (.acqBurst .recv) s)
  | .exec (.acqBurst k) => .next (burstLine k s)
  | .exec _ => .fault .otherHandler
  | .halted => .fault .halted

/-! ### The burst-trigger interrupt -/

/-- Four conversions, one after the other (R159). -/
def adcGroup (s : State) : List Sample × State :=
  let r0 := adcSample s
  let r1 := adcSample r0.2
  let r2 := adcSample r1.2
  let r3 := adcSample r2.2
  ([r0.1, r1.1, r2.1, r3.1], r3.2)

/-- (a) and (b) of the body of `TRIG_ISR`: the four-sample read into `SB`, the count (R159). -/
def trigSample (s : State) : State :=
  let g := adcGroup s
  { g.2 with sb := g.1.map zext16, pcount := g.2.pcount + 1 }

/-- Schedule one deferred callback, or raise `DeferOverflow` when the queue is full (R159, R162). -/
def scheduleDefer (s : State) : State :=
  if s.dq < s.par.deferDepth then { s with dq := s.dq + 1 } else raise (.deferOverflow s.pcount) s

/-- Entry and body of `TRIG_ISR`, one atomic step (R158, R159). -/
def trigEnter (s : State) : State := scheduleDefer (trigSample (trigServiceEnter s))

/-- `ENV` presents an edge on the trigger input: of the other sense, no effect; in service, latched or lost, and lost
where one is latched (R161); armed, an entry of `TRIG_ISR` is enabled (R158); neither, no effect. The entry itself is
some later step of `TRIG_ISR` (R222, R253; log entry 11). -/
def trigEdge (e : Edge) (s : State) : State :=
  if e = s.par.trigEdge then
    if s.trigInsvc then
      if s.trigPend then s else { (coin s).2 with trigPend := (coin s).1 }
    else if s.trigArmed then trigEnable s
    else s
  else s

/-- A step of `TRIG_ISR`: the exit while in service (R160), else the entry where one is enabled (R158, R220). -/
def trigIsrStep (s : State) : State :=
  if s.trigInsvc then trigServiceExit s
  else if 0 < s.trigReq ∧ s.trigArmed then trigEnter s
  else s

/-! ### The deferred callback -/

/-- `p = (4 * c) mod B` on unbounded integers (R9, R163). -/
def burstPosition (b : Nat) (c : BitVec 64) : Nat := (burstGroup * c.toNat) % b

/-- One line of a deferred callback (R163). -/
def deferLine (k : DeferK) (s : State) : State :=
  match k with
  | .readCount => { s with dcont := some (.place s.pcount) }
  | .place c => { s with dcont := some (.copy (burstPosition s.par.burstBuf c) 0) }
  | .copy p j =>
    { s with
      bb := bufWrite s.bb (p + j) (bufRead s.sb j 0)
      dcont := some (if j + 1 < burstGroup then .copy p (j + 1) else .flush p) }
  | .flush p =>
    let s1 := if p = s.par.burstCkpt then cmdSend (bytes16Seq s.bb) s else s
    { s1 with dcont := some .finish }
  | .finish => { s with dcont := none }

/-- `DSTATE = EXEC(ACQ.BURST, k)` with `k` at one of the two waits (R165). -/
def atDeferPoint (s : State) : Bool :=
  match s.dstate with
  | .exec (.acqBurst .waitCount) => true
  | .exec (.acqBurst .waitDefer) => true
  | _ => false

/-- A step of `DEFER`: the next line of the running callback, or the first line of a new one where one may start
(R163, R165); no step while an interrupt is in service (R73). -/
def deferStep (s : State) : State :=
  if inService s then s
  else
    match s.dcont with
    | some k => deferLine k s
    | none =>
      if atDeferPoint s ∧ 0 < s.dq then { s with dq := s.dq - 1, dcont := some .readCount } else s

end Sys2Proof.Machine
end

