-- ==== Sys2Proof/Machine/DigitalIo.lean ====
section
/-! DEFINITION. Polarity and test-pulse outputs: `POL.LO`, `POL.HI`, `TP.OFF`, `TP.ON` (R180 to R185). -/

namespace Sys2Proof.Machine

/-- One line of a handler that writes one bit and returns. -/
def bitLine (mk : BitK → Activity) (put : State → State) (k : BitK) (s : State) : State :=
  match k with
  | .write => goto (mk .ret) (put s)
  | .ret => handlerReturn s

/-- `POL.LO` (4,0): `POL <- 0` (R180). -/
def execPolLo (s : State) : Host.Outcome State Fault Refusal :=
  match s.dstate with
  | .idle => .next (goto (.polLo .write) s)
  | .exec (.polLo k) => .next (bitLine .polLo (setPol false) k s)
  | .exec _ => .fault .otherHandler
  | .halted => .fault .halted

/-- `POL.HI` (4,1): `POL <- 1` (R181). -/
def execPolHi (s : State) : Host.Outcome State Fault Refusal :=
  match s.dstate with
  | .idle => .next (goto (.polHi .write) s)
  | .exec (.polHi k) => .next (bitLine .polHi (setPol true) k s)
  | .exec _ => .fault .otherHandler
  | .halted => .fault .halted

/-- `TP.OFF` (6,0): `TPEN <- 0` (R183). -/
def execTpOff (s : State) : Host.Outcome State Fault Refusal :=
  match s.dstate with
  | .idle => .next (goto (.tpOff .write) s)
  | .exec (.tpOff k) => .next (bitLine .tpOff (setTpen false) k s)
  | .exec _ => .fault .otherHandler
  | .halted => .fault .halted

/-- `TP.ON` (6,1): `TPEN <- 1` (R184). -/
def execTpOn (s : State) : Host.Outcome State Fault Refusal :=
  match s.dstate with
  | .idle => .next (goto (.tpOn .write) s)
  | .exec (.tpOn k) => .next (bitLine .tpOn (setTpen true) k s)
  | .exec _ => .fault .otherHandler
  | .halted => .fault .halted

end Sys2Proof.Machine
end

