-- ==== Sys2Proof/Machine/Label.lean ====
section
/-! DEFINITION. The state label: `LBL.GET` (R200) and `LBL.SET` (R201). -/

namespace Sys2Proof.Machine

/-- One line of the `LBL.GET` handler (R200). -/
def lblGetLine (k : LblGetK) (s : State) : State :=
  match k with
  | .send => goto (.lblGet .ret) (cmdSend s.label s)
  | .ret => handlerReturn s

/-- `LBL.GET` (7,0) (R200). -/
def execLblGet (s : State) : Host.Outcome State Fault Refusal :=
  match s.dstate with
  | .idle => .next (goto (.lblGet .send) s)
  | .exec (.lblGet k) => .next (lblGetLine k s)
  | .exec _ => .fault .otherHandler
  | .halted => .fault .halted

/-- One line of the `LBL.SET` handler: the label is written one element a step (R61, R201). -/
def lblSetLine (k : LblSetK) (s : State) : State :=
  match k with
  | .recv => recvThen s.par.labelLen (fun d s1 => goto (.lblSet (.store 0 (operandText d))) s1) s
  | .store j d =>
    goto (.lblSet (if j + 1 < s.par.labelLen then .store (j + 1) d else .ret))
      { s with label := bufWrite s.label j (bufRead d j 0) }
  | .ret => handlerReturn s

/-- `LBL.SET` (7,1) (R201). -/
def execLblSet (s : State) : Host.Outcome State Fault Refusal :=
  match s.dstate with
  | .idle => .next (goto (.lblSet .recv) s)
  | .exec (.lblSet k) => .next (lblSetLine k s)
  | .exec _ => .fault .otherHandler
  | .halted => .fault .halted

end Sys2Proof.Machine
end

