-- ==== Sys2Proof/Machine/Pot.lean ====
section
/-! DEFINITION. The potentiometer bus adapter and its four commands: `POT.RD`, `BUS.SCAN`, `POT.WR.GAIN`, `POT.WR.THR`
(41_potentiometer_bus.md, R125 to R135). A handler's `…Line` is one atomic step of `DISPATCH` (R73). -/

namespace Sys2Proof.Machine

/-! ### Transactions -/

/-- The last write, if a transaction that begins now is inside its settle window (R129). -/
def settleWindow (s : State) : Option LastWrite :=
  match s.lastwr with
  | some w => if elapsed s w.t < (settleHazardUs : Int) then some w else none
  | none => none

/-- What the settle hazard does when a transaction begins: the device written last holds the old or the new position,
a draw (R129). -/
def settleHazard (s : State) : State :=
  match settleWindow s with
  | none => s
  | some w =>
    let c := (coin s).1
    let s1 := (coin s).2
    { s1 with pots := s1.pots.write w.a (if c then w.new else w.old) }

/-- `BusProbe(a)` (R126). -/
def busProbe (a : BusAddr) (s : State) : Bool × State :=
  let s1 := settleHazard s
  ((s1.pots.read a).isSome, s1)

/-- `BusRead(a)`; `none` is `ABSENT` (R127). -/
def busRead (a : BusAddr) (s : State) : Option Byte × State :=
  let s1 := settleHazard s
  (s1.pots.read a, s1)

/-- `BusWrite(a, v)`; `true` is `ACK`, `false` is `ABSENT` (R128). Inside the settle window the write's own effect may
be lost, a draw (R129). -/
def busWrite (a : BusAddr) (v : Byte) (s : State) : Bool × State :=
  let s1 := settleHazard s
  match s1.pots.read a with
  | none => (false, s1)
  | some _ =>
    match settleWindow s with
    | none => (true, { s1 with pots := s1.pots.write a v })
    | some _ =>
      let c := (coin s1).1
      let s2 := (coin s1).2
      (true, if c then { s2 with pots := s2.pots.write a v } else s2)

/-! ### `POT.RD` -/

/-- One line of the `POT.RD` handler (R131). -/
def potRdLine (k : PotRdK) (s : State) : State :=
  match k with
  | .readGain =>
    let r := busRead s.par.gainAddr s
    goto (.potRd (.gotGain r.1)) r.2
  | .gotGain none => raise (.busDeviceAbsent s.par.gainAddr) s
  | .gotGain (some g) =>
    let r := busRead s.par.thrAddr s
    goto (.potRd (.gotBoth g r.1)) r.2
  | .gotBoth _ none => raise (.busDeviceAbsent s.par.thrAddr) s
  | .gotBoth g (some h) => goto (.potRd .ret) (cmdSend [g, h] s)
  | .ret => handlerReturn s

/-- `POT.RD` (0,0) (R131). In `IDLE` the opcode has just been received and the handler is entered (R106). -/
def execPotRd (s : State) : Host.Outcome State Fault Refusal :=
  match s.dstate with
  | .idle => .next (goto (.potRd .readGain) s)
  | .exec (.potRd k) => .next (potRdLine k s)
  | .exec _ => .fault .otherHandler
  | .halted => .fault .halted

/-! ### `BUS.SCAN` -/

/-- `SCAN_ORDER`: 0x7F, 0x7E, ..., 0x01 (R6, R132). -/
def scanOrder : List BusAddr := (List.range 127).map fun j => BitVec.ofNat 7 (127 - j)

/-- The response of a scan: the first two addresses found, missing ones 0x00 (R132). -/
def scanResponse (found : List BusAddr) : Datagram :=
  (List.range scanMax).map fun j => (found.getD j 0).setWidth 8

/-- One line of the `BUS.SCAN` handler (R132). -/
def busScanLine (k : ScanK) (s : State) : State :=
  match k with
  | .probe [] found => goto (.busScan .ret) (cmdSend (scanResponse found) s)
  | .probe (a :: rest) found =>
    let r := busProbe a s
    goto (.busScan (.probe rest (if r.1 then found ++ [a] else found))) r.2
  | .ret => handlerReturn s

/-- `BUS.SCAN` (0,2) (R132). -/
def execBusScan (s : State) : Host.Outcome State Fault Refusal :=
  match s.dstate with
  | .idle => .next (goto (.busScan (.probe scanOrder [])) s)
  | .exec (.busScan k) => .next (busScanLine k s)
  | .exec _ => .fault .otherHandler
  | .halted => .fault .halted

/-! ### The two writes -/

/-- `old <- POT[a]`, which is no step of its own but the model's bookkeeping (R130), and `r <- BusWrite(a, v)`. What the
next line is: on `ACK` the record of this write, with the `NOW` at which it was issued (R39; log entry 7), else the
raise. -/
def potWriteIssue (a : BusAddr) (v : Byte) (s : State) : PotWrK × State :=
  let old := (s.pots.read a).getD 0
  let r := busWrite a v s
  (if r.1 then .record s.now old v else .absent, r.2)

/-- `LASTWR <- (t, a, old, v)` (R39, R130). -/
def recordWrite (t : BitVec 64) (a : BusAddr) (old new : Byte) (s : State) : State :=
  { s with lastwr := some { t := t, a := a, old := old, new := new } }

/-- The settling delay has passed: `NOW - LASTWR.t >= SETTLE_US` (R130). -/
def settled (s : State) : Bool :=
  match s.lastwr with
  | some w => decide ((s.par.settleUs : Int) ≤ elapsed s w.t)
  | none => false

/-- One line of a potentiometer write handler with its fixed address (R130, R133, R134). -/
def potWrLine (mk : PotWrK → Activity) (addr : BusAddr) (k : PotWrK) (s : State) : State :=
  match k with
  | .recv => recvThen 1 (fun d s1 => goto (mk (.write (operandPos d))) s1) s
  | .write pos =>
    let r := potWriteIssue addr pos s
    goto (mk r.1) r.2
  | .record t old pos => goto (mk .settle) (recordWrite t addr old pos s)
  | .absent => raise (.busDeviceAbsent addr) s
  | .settle => if settled s then goto (mk .ret) s else s
  | .ret => handlerReturn s

/-- `POT.WR.GAIN` (1,0) (R133). -/
def execPotWrGain (s : State) : Host.Outcome State Fault Refusal :=
  match s.dstate with
  | .idle => .next (goto (.potWrGain .recv) s)
  | .exec (.potWrGain k) => .next (potWrLine .potWrGain s.par.gainAddr k s)
  | .exec _ => .fault .otherHandler
  | .halted => .fault .halted

/-- `POT.WR.THR` (1,1) (R134). -/
def execPotWrThr (s : State) : Host.Outcome State Fault Refusal :=
  match s.dstate with
  | .idle => .next (goto (.potWrThr .recv) s)
  | .exec (.potWrThr k) => .next (potWrLine .potWrThr s.par.thrAddr k s)
  | .exec _ => .fault .otherHandler
  | .halted => .fault .halted

end Sys2Proof.Machine
end

