-- ==== Sys2Proof/Machine/Rate.lean ====
section
/-! DEFINITION. Rate measurement: `RATE` (R190), the rate edge interrupt (R191, R193) and the rounding (R192). -/

namespace Sys2Proof.Machine

/-- `round_tie(count / window)`: the nearest integer; on an exact half, the even one or the larger (R192). -/
def roundTie (tie : TieRule) (count window : Nat) : Nat :=
  let q := count / window
  let r := count % window
  if 2 * r < window then q
  else if window < 2 * r then q + 1
  else
    match tie with
    | .halfEven => if q % 2 = 0 then q else q + 1
    | .halfUp => q + 1

/-- The measurement window in microseconds, `RATE_WINDOW_S * 10^6` (R190). -/
def rateWindowUs (s : State) : Nat := s.par.rateWindowS * 1000000

/-- One line of the `RATE` handler (R190). -/
def rateLine (k : RateK) (s : State) : State :=
  match k with
  | .zeroCount => goto (.rate .setMode) { s with rcount := 0 }
  | .setMode => goto (.rate .readT0) (setMode .rate s)
  | .readT0 => goto (.rate (.arm s.now)) s
  | .arm t0 => goto (.rate (.wait t0)) (armRate s)
  | .wait t0 => if (rateWindowUs s : Int) ≤ elapsed s t0 then goto (.rate .disarm) s else s
  | .disarm => goto (.rate .divide) (disarmRate s)
  | .divide => goto (.rate (.send (BitVec.ofNat 32 (roundTie s.par.rateTie s.rcount.toNat s.par.rateWindowS)))) s
  | .send r => goto (.rate .ret) (cmdSend (leBytes rateResultBytes r.toNat) s)
  | .ret => handlerReturn s

/-- `RATE` (5,1) (R190). -/
def execRate (s : State) : Host.Outcome State Fault Refusal :=
  match s.dstate with
  | .idle => .next (goto (.rate .zeroCount) s)
  | .exec (.rate k) => .next (rateLine k s)
  | .exec _ => .fault .otherHandler
  | .halted => .fault .halted

/-- Entry and body of `RATE_ISR`, one atomic step: the count and one `CLR_OUT` pulse (R191, R193). -/
def rateEnter (s : State) : State :=
  let s1 := rateServiceEnter s
  pulseClr { s1 with rcount := s1.rcount + 1 }

/-- `ENV` presents an edge on the rate input, as on the trigger input (R191; R158, R161): the entry it enables is some
later step of `RATE_ISR` (log entry 11). -/
def rateEdge (e : Edge) (s : State) : State :=
  if e = s.par.rateEdge then
    if s.rateInsvc then
      if s.ratePend then s else { (coin s).2 with ratePend := (coin s).1 }
    else if s.rateArmed then rateEnable s
    else s
  else s

/-- A step of `RATE_ISR`: the exit while in service, else the entry where one is enabled (R191, R220). -/
def rateIsrStep (s : State) : State :=
  if s.rateInsvc then rateServiceExit s
  else if 0 < s.rateReq ∧ s.rateArmed then rateEnter s
  else s

end Sys2Proof.Machine
end

