-- ==== Sys2Proof/Machine/Timer.lean ====
section
/-! DEFINITION. The `TIMER` agent: the microsecond timebase and the sampling timer (R140 to R142), the TimedSample
packer (R145 to R152), and the hardware-timed read (R144). -/

namespace Sys2Proof.Machine

/-- Microseconds in a second: `TUSEC` counts 0..999999 (R38, R141). -/
abbrev usPerSecond : Nat := 1000000

/-- `Pack(sec, usec, adc)`, total on any inputs (R147). -/
def pack (sec : BitVec 32) (usec : BitVec 20) (adc : Sample) : Pair :=
  (sec, ((usec.setWidth 32 &&& 0xFFFFF) <<< 12) ||| (adc.setWidth 32 &&& 0xFFF))

/-- The fraction field of a record, `(w1 >> 12) & 0xFFFFF` (R148, R152). -/
def pairFraction (p : Pair) : Nat := ((p.2 >>> 12) &&& 0xFFFFF).toNat

/-- The time in seconds that a record unpacks to, `t = w0 + frac / 10^6` in exact arithmetic (R152). Host side: it says
how the block's records are read. -/
def unpackTime (p : Pair) : ℚ := (p.1.toNat : ℚ) + (pairFraction p : ℚ) / 1000000

/-- The sample a record unpacks to, `w1 & 0xFFF` (R152). -/
def unpackAdc (p : Pair) : Sample := p.2.extractLsb' 0 12

/-- A sample in millivolts, `mV = ADU * 3300/4096` (R152, R6's `VREF_MV`). Host side. -/
def millivolts (adc : Sample) : ℚ := (adc.toNat : ℚ) * 3300 / 4096

/-- The sampling timer's advance by one microsecond (R141). -/
def timerAdvance (t : BitVec 32 × BitVec 20) : BitVec 32 × BitVec 20 :=
  if t.2 = 999999 then (t.1 + 1, 0) else (t.1, t.2 + 1)

/-- Capturing sample `i` of a timed read: the timer values and the conversion are read in the same step (R144, R146). -/
def capture (buf : FillBuf) (i : Nat) (s : State) : State :=
  let x := (adcSample s).1
  let s1 := (adcSample s).2
  match buf with
  | .chunk => { s1 with chunk := bufWrite s1.chunk i (pack s1.tsec s1.tusec x) }
  | .pbuf => { s1 with pbuf := bufWrite s1.pbuf i (zext16 x) }

/-- `StartFill(buf, n, period)`: sample 0 is captured at once (R144). `due` is a value of `NOW`, so it wraps with it
(log entry 10). -/
def startFill (buf : FillBuf) (n period : Nat) (s : State) : State :=
  { capture buf 0 s with
    fill := some { buf := buf, n := n, i := 1, due := s.now + BitVec.ofNat 64 period, period := period } }

/-- `FILL <- OFF` (R144). -/
def fillOff (s : State) : State := { s with fill := none }

/-- `FILL.i = m`, the condition a handler waits for; false while `FILL` is `OFF` (R144). -/
def fillReached (m : Nat) (s : State) : Bool :=
  match s.fill with
  | some f => f.i == m
  | none => false

/-- The clocks' part of a tick (R140, R141). -/
def advanceClocks (s : State) : State :=
  { s with
    now := s.now + 1
    tsec := (timerAdvance (s.tsec, s.tusec)).1
    tusec := (timerAdvance (s.tsec, s.tusec)).2 }

/-- One `TIMER` tick, one atomic step: the clocks advance, then the sample due at this instant is captured (R140,
R144). A read that has all its samples captures no more. -/
def tick (s : State) : State :=
  let s1 := advanceClocks s
  match s1.fill with
  | none => s1
  | some f =>
    if s1.now = f.due ∧ f.i < f.n then
      { capture f.buf f.i s1 with fill := some { f with i := f.i + 1, due := f.due + BitVec.ofNat 64 f.period } }
    else s1

end Sys2Proof.Machine
end

