-- ==== Sys2Proof/Machine/Stream.lean ====
section
/-! DEFINITION. Streaming mode: `ACQ.STREAM` (R153 to R156). -/

namespace Sys2Proof.Machine

/-- The number of samples of the next chunk, `min(CHUNK_PAIRS, STARGET - SDONE)` (R153). -/
def streamCount (s : State) : Nat := min s.par.chunkPairs (s.starget.toNat - s.sdone.toNat)

/-- The atomic start of a chunk: clear it, zero the sampling timer at the start of the stream, capture sample 0
(R142, R153). -/
def streamStart (m : Nat) (s : State) : State :=
  let s1 := { s with chunk := List.replicate s.par.chunkPairs (0, 0) }
  let s2 := if s1.sdone = 0 then { s1 with tsec := 0, tusec := 0 } else s1
  startFill .chunk m s2.par.streamPeriodUs s2

/-- One line of the `ACQ.STREAM` handler (R153). -/
def streamLine (k : StreamK) (s : State) : State :=
  match k with
  | .recv => recvThen streamTargetBytes (fun d s1 => goto (.acqStream (.setTarget (operandN32 d))) s1) s
  | .setTarget n => goto (.acqStream .zeroDone) { s with starget := n }
  | .zeroDone => goto (.acqStream .drain) { s with sdone := 0 }
  | .drain => goto (.acqStream .setMode) (drain s)
  | .setMode => goto (.acqStream .loop) (setMode .stream s)
  | .loop =>
    if s.sdone < s.starget then goto (.acqStream (.wait (streamCount s))) (streamStart (streamCount s) s)
    else handlerReturn s
  | .wait m => if fillReached m s then goto (.acqStream (.fillOff m)) s else s
  | .fillOff m => goto (.acqStream (.addDone m)) (fillOff s)
  | .addDone m => goto (.acqStream .send) { s with sdone := s.sdone + BitVec.ofNat 32 m }
  | .send => goto (.acqStream .loop) (streamSend (chunkBytes s.chunk) s)

/-- `ACQ.STREAM` (2,0) (R153). -/
def execAcqStream (s : State) : Host.Outcome State Fault Refusal :=
  match s.dstate with
  | .idle => .next (goto (.acqStream .recv) s)
  | .exec (.acqStream k) => .next (streamLine k s)
  | .exec _ => .fault .otherHandler
  | .halted => .fault .halted

end Sys2Proof.Machine
end

