-- ==== Sys2Proof/Machine/Dispatch.lean ====
section
/-! DEFINITION. One arm per opcode of R88. `exec i s` is one atomic step of `DISPATCH` for the opcode `i`: in `IDLE` the
opcode has just been found in the table and its handler is entered (R106), in `EXEC(i, k)` the line `k` of the handler runs. -/

namespace Sys2Proof.Machine

def exec (i : Instr) (s : State) : Host.Outcome State Fault Refusal :=
  match i with
  | .potRd => Sys2Proof.Machine.execPotRd s
  | .busScan => Sys2Proof.Machine.execBusScan s
  | .potWrGain => Sys2Proof.Machine.execPotWrGain s
  | .potWrThr => Sys2Proof.Machine.execPotWrThr s
  | .acqStream => Sys2Proof.Machine.execAcqStream s
  | .acqBurst => Sys2Proof.Machine.execAcqBurst s
  | .polLo => Sys2Proof.Machine.execPolLo s
  | .polHi => Sys2Proof.Machine.execPolHi s
  | .rate => Sys2Proof.Machine.execRate s
  | .tpOff => Sys2Proof.Machine.execTpOff s
  | .tpOn => Sys2Proof.Machine.execTpOn s
  | .lblGet => Sys2Proof.Machine.execLblGet s
  | .lblSet => Sys2Proof.Machine.execLblSet s

end Sys2Proof.Machine
end

