-- ==== Sys2Proof/Machine/Polled.lean ====
section
/-! DEFINITION. Polled mode (R169, R170): a handler that no opcode of the table selects; a block configured with
`OPCODE_POLLED` reaches it (R92, R112). -/

namespace Sys2Proof.Machine

/-- The atomic start of one iteration: clear the buffer, capture sample 0 (R169). -/
def polledStart (s : State) : State :=
  let s1 := { s with pbuf := List.replicate s.par.polledBuf 0 }
  startFill .pbuf s1.par.polledBuf s1.par.polledPeriodUs s1

/-- One line of the polled handler (R169). -/
def polledLine (k : PolledK) (s : State) : State :=
  match k with
  | .recv => recvThen s.par.polledCountBytes (fun d s1 => goto (.polled (.drain (operandCount d))) s1) s
  | .drain cnt => goto (.polled (.setMode cnt)) (drain s)
  | .setMode cnt => goto (.polled (.loop cnt)) (setMode .polled s)
  | .loop 0 => handlerReturn s
  | .loop (cnt + 1) => goto (.polled (.wait (cnt + 1))) (polledStart s)
  | .wait cnt => if fillReached s.par.polledBuf s then goto (.polled (.fillOff cnt)) s else s
  | .fillOff cnt => goto (.polled (.send cnt)) (fillOff s)
  | .send cnt => goto (.polled (.loop (cnt - 1))) (cmdSend (bytes16Seq s.pbuf) s)

end Sys2Proof.Machine
end

