-- ==== Sys2Proof/Machine/Agents.lean ====
section
/-! DEFINITION. The agents' steps (R3, R73): receiving and looking up an opcode (R106), the dispatcher, the environment's moves (R115),
the external reset (R240), and the choice of the next move (R77). -/

namespace Sys2Proof.Machine

/-- The opcode of the running handler; the polled handler has none of the table (R112). -/
def Activity.instr : Activity → Option Instr
  | .potRd _ => some .potRd
  | .busScan _ => some .busScan
  | .potWrGain _ => some .potWrGain
  | .potWrThr _ => some .potWrThr
  | .acqStream _ => some .acqStream
  | .acqBurst _ => some .acqBurst
  | .polLo _ => some .polLo
  | .polHi _ => some .polHi
  | .rate _ => some .rate
  | .tpOff _ => some .tpOff
  | .tpOn _ => some .tpOn
  | .lblGet _ => some .lblGet
  | .lblSet _ => some .lblSet
  | .polled _ => none

/-- `ob <- CmdRecv(2)`, the first step of a dispatch: `OPV` is received, or `ShortFrame` is raised (R106, R64). -/
def receiveOpcode (s : State) : State :=
  recvThen opcodeBytes (fun d s1 => { s1 with opv := some (operandOpv d) }) s

/-- The lookup of a received `OPV`, a step of its own (R106, R73): a valid opcode enters its handler, `OPCODE_POLLED` the
polled handler (R92), any other value raises `UnknownOpcode` (R212). -/
def lookupOpcode (v : BitVec 16) (s : State) : Host.Outcome State Fault Refusal :=
  match instrOfOpv v with
  | some i => exec i s
  | none =>
    if s.par.opcodePolled = some v then .next (goto (.polled .recv) s) else .next (raise (.unknownOpcode v) s)

/-- One step of a dispatch from `IDLE`: the receive, or the lookup of what it received (R106). -/
def fetch (s : State) : Host.Outcome State Fault Refusal :=
  match s.opv with
  | none => .next (receiveOpcode s)
  | some v => lookupOpcode v { s with opv := none }

/-- `DISPATCH` may step: no interrupt in service and no deferred callback running (R36, R73). -/
def dispatchReady (s : State) : Bool := !inService s && s.dcont.isNone

/-- A step of `DISPATCH` (R105): a step of the fetch in `IDLE`, else the next line of the running handler. Where it has
none the state stands still. -/
def dispatchStep (s : State) : Host.Outcome State Fault Refusal :=
  if dispatchReady s then
    match s.dstate with
    | .idle => fetch s
    | .exec (.polled k) => .next (polledLine k s)
    | .exec a =>
      match a.instr with
      | some i => exec i s
      | none => .next s
    | .halted => .next s
  else .next s

/-- The positions on the bus after an external reset: the same devices, each position drawn again (R242). -/
def redrawPositions (n : Nat) (m : Memory) : Memory :=
  m.map fun c => (c.1, Config.powerUpPosition n (BitVec.ofNat 7 c.1))

/-- The external reset of R240: every element takes its reset value; the configuration, the devices on the bus and the
environment's own future stay (log entry 15). A change of `POL_OUT` or `TP_OUT` that the reset makes is recorded as any
other is (R45); the record is no element of R48 and goes on. DEDUCED, log entry 15. -/
def externalReset (s : State) : State :=
  { State.powerUp s.cfg (redrawPositions s.resets s.pots) s.resets with
    events := (setTpen false (setPol false s)).events
    schedule := s.schedule
    adcIn := s.adcIn
    coinIn := s.coinIn
    drawn := s.drawn }

/-- `ENV` appends a datagram to `CIN` (R115 row 1). -/
def deliver (d : Datagram) (s : State) : State := { s with cin := s.cin ++ [d] }

/-- One move: the step of the agent it names, or of the environment. An agent that has no step leaves the state as it
is (log entry 2). -/
def runMove (m : Move) (s : State) : Host.Outcome State Fault Refusal :=
  match m with
  | .dispatch => dispatchStep s
  | .defer => .next (deferStep s)
  | .trigIsr => .next (trigIsrStep s)
  | .rateIsr => .next (rateIsrStep s)
  | .tick => .next (tick s)
  | .deliver d => .next (deliver d s)
  | .trigEdge e => .next (trigEdge e s)
  | .rateEdge e => .next (rateEdge e s)
  | .reset => .next (externalReset s)

/-- The next move and the state without it: the head of the listed schedule, then the free one (R77; log entry 2). -/
def takeMove (s : State) : Move × State :=
  match s.schedule with
  | m :: ms => (m, { s with schedule := ms })
  | [] => (Config.freeMove s.drawn, { s with drawn := s.drawn + 1 })

/-- The payload datagram of a numbered instruction word: its bytes are the bits that follow the opcode (R87); none for
an opcode without a payload, or where the decoder refuses. -/
def wordPayload (labelLen nbits w : Nat) : List Datagram :=
  match (decodeTableWord nbits w).bind (Instr.payloadLen labelLen) with
  | none => []
  | some n => [leBytes n (w % 2 ^ nbits / 65536)]

end Sys2Proof.Machine
end

