-- ==== Sys2Proof/Machine/Step.lean ====
section
/-! DEFINITION. One step of the machine: the next move of the interleaving is taken (R77). -/

namespace Sys2Proof.Machine

/-- One atomic step of one agent (R73, R77). -/
def step (s : State) : Host.Outcome State Fault Refusal :=
  runMove (takeMove s).1 (takeMove s).2

/-- `s` with an instruction where the dispatcher takes its next one: its opcode datagram received and not yet looked up,
its payload at the head of `CIN`, the dispatcher in `IDLE` and free to step, and `DISPATCH` as the agent that moves
next (log entry 18). -/
def State.withFetchWord (s : State) (nbits w : Nat) : State :=
  { s with
    opv := some (operandOpv (wordBytes nbits w))
    cin := wordPayload s.par.labelLen nbits w ++ s.cin
    dstate := .idle
    trigInsvc := false
    rateInsvc := false
    dcont := none
    schedule := .dispatch :: s.schedule }

end Sys2Proof.Machine
end

