-- ==== Sys2Proof/Machine/Script.lean ====
section
/-! DEFINITION. Command scripts: the written form of a command and its reading (R95), and the host operations with the
commands each one sends (R97). The host's side of the block's interface; no step of the machine calls it. -/

namespace Sys2Proof.Machine

/-! ### The written form of a command -/

/-- The mnemonics of R88. -/
def mnemonic : Instr → String
  | .potRd => "POT.RD"
  | .busScan => "BUS.SCAN"
  | .potWrGain => "POT.WR.GAIN"
  | .potWrThr => "POT.WR.THR"
  | .acqStream => "ACQ.STREAM"
  | .acqBurst => "ACQ.BURST"
  | .polLo => "POL.LO"
  | .polHi => "POL.HI"
  | .rate => "RATE"
  | .tpOff => "TP.OFF"
  | .tpOn => "TP.ON"
  | .lblGet => "LBL.GET"
  | .lblSet => "LBL.SET"

/-- Why a line of a script is refused (R95). -/
inductive ScriptError where
  /-- The first word is no mnemonic of R88. -/
  | unknownMnemonic
  /-- The operand is missing, or one stands where none belongs. -/
  | operandCount
  /-- The operand is no integer, text or byte list as its mnemonic asks. -/
  | malformedOperand
  /-- The integer is outside the range of its operand. -/
  | outOfRange
  /-- The label does not fit `LABEL_LEN`. -/
  | labelLength
deriving DecidableEq, Repr

/-- The value of a digit of a base up to 16. -/
def digitValue (base : Nat) (c : Char) : Option Nat :=
  let n := c.toNat
  let v := if 48 ≤ n ∧ n ≤ 57 then n - 48 else if 97 ≤ n ∧ n ≤ 102 then n - 87
    else if 65 ≤ n ∧ n ≤ 70 then n - 55 else 16
  if v < base then some v else none

/-- The value of a sequence of digits, most significant first, on top of what stands before them. -/
def digitsValue (base acc : Nat) : List Char → Option Nat
  | [] => some acc
  | c :: cs => (digitValue base c).bind fun v => digitsValue base (acc * base + v) cs

/-- An integer in decimal or as `0x` hex (R95). -/
def readInteger : List Char → Option Nat
  | [] => none
  | '0' :: 'x' :: [] => none
  | '0' :: 'x' :: cs => digitsValue 16 0 cs
  | cs => digitsValue 10 0 cs

/-- A byte of a bracketed list: two hex digits (R8, R95). -/
def readByte (w : List Char) : Option Byte :=
  if w.length = 2 then (digitsValue 16 0 w).map fun n => BitVec.ofNat 8 n else none

/-- The characters of a quoted text as bytes. The source gives no character set: one byte for each character of code
0..127, others are refused. DESIGN CHOICE, log entry 26. -/
def textBytes : List Char → Option (List Byte)
  | [] => some []
  | c :: cs => if c.toNat < 128 then (textBytes cs).map fun bs => BitVec.ofNat 8 c.toNat :: bs else none

/-- A line up to its comment: a semicolon outside quotes starts one (R95). Every double quote opens or closes the quotes,
one inside a quoted text too. DESIGN CHOICE, log entry 26: the source does not say what such a quote means. -/
def stripComment (quoted : Bool) : List Char → List Char
  | [] => []
  | c :: cs =>
    if c = '"' then c :: stripComment (!quoted) cs
    else if c = ';' ∧ quoted = false then []
    else c :: stripComment quoted cs

/-- The words of a line, separated by spaces; `word` is the one being read. -/
def words (word : List Char) : List Char → List (List Char)
  | [] => if word.isEmpty then [] else [word.reverse]
  | c :: cs =>
    if c = ' ' then (if word.isEmpty then words [] cs else word.reverse :: words [] cs) else words (c :: word) cs

/-- An operand in quotes: the characters between its first and its last, which a double quote may be one of. The source
gives a text no escape and does not say what a double quote inside it means. DESIGN CHOICE, log entry 26. -/
def quotedText : List Char → Option (List Char)
  | '"' :: cs => if cs.getLast? = some '"' then some cs.dropLast else none
  | _ => none

/-- The words between two brackets. -/
def bracketed : List Char → Option (List (List Char))
  | '[' :: cs => if cs.getLast? = some ']' then some (words [] cs.dropLast) else none
  | _ => none

/-- The opcode of a mnemonic (R88). -/
def instrOfMnemonic (w : List Char) : Option Instr :=
  (opcodeTable.map OpcodeRow.instr).find? fun i => (mnemonic i).toList == w

/-- A label operand: a text padded to `LABEL_LEN`, or exactly `LABEL_LEN` hex bytes (R95). -/
def readLabel (labelLen : Nat) (operand : List Char) : Except ScriptError (List Byte) :=
  match quotedText operand with
  | some cs =>
    match textBytes cs with
    | some bs => if bs.length ≤ labelLen then .ok (padLabel labelLen bs) else .error .labelLength
    | none => .error .malformedOperand
  | none =>
    match (bracketed operand).bind fun ws => ws.mapM readByte with
    | some bs => if bs.length = labelLen then .ok bs else .error .labelLength
    | none => .error .malformedOperand

/-- An integer operand below a bound (R95). -/
def readBelow (bound : Nat) (operand : List Char) : Except ScriptError Nat :=
  match readInteger operand with
  | some n => if n < bound then .ok n else .error .outOfRange
  | none => .error .malformedOperand

/-- Drop the spaces at both ends. -/
def trimSpaces (cs : List Char) : List Char :=
  ((cs.dropWhile fun c => c == ' ').reverse.dropWhile fun c => c == ' ').reverse

/-- The command of an opcode with its operand characters (R95). -/
def commandOfOperand (labelLen : Nat) (i : Instr) (operand : List Char) : Except ScriptError Command :=
  match i.format with
  | .q0 => if operand.isEmpty then .ok (commandOf i []) else .error .operandCount
  | .q1 => (readBelow 256 operand).map fun n => commandOf i [BitVec.ofNat 8 n]
  | .q4 => (readBelow (2 ^ 32) operand).map fun n => commandOf i (leBytes streamTargetBytes n)
  | .q8 => (readBelow (2 ^ 64) operand).map fun n => commandOf i (leBytes burstTargetBytes n)
  | .ql => (readLabel labelLen operand).map fun bs => commandOf i bs

/-- One line of a script: `none` for a line with no command (R95). -/
def readLine (labelLen : Nat) (line : List Char) : Except ScriptError (Option Command) :=
  let body := trimSpaces (stripComment false line)
  let name := body.takeWhile fun c => c != ' '
  let operand := trimSpaces (body.dropWhile fun c => c != ' ')
  if body.isEmpty then .ok none
  else
    match instrOfMnemonic name with
    | none => .error .unknownMnemonic
    | some i =>
      if operand.isEmpty ∧ i.format ≠ .q0 then .error .operandCount
      else (commandOfOperand labelLen i operand).map some

/-- A script, one command a line: the datagrams that the host sends for it, in order (R95, R96). -/
def scriptDatagrams (labelLen : Nat) : List (List Char) → Except ScriptError (List Datagram)
  | [] => .ok []
  | line :: lines =>
    match readLine labelLen line with
    | .error e => .error e
    | .ok c => (scriptDatagrams labelLen lines).map fun ds => (c.map encodeCommand).getD [] ++ ds

/-! ### Host operations -/

/-- Which potentiometer a host operation writes (R97). -/
inductive Which where
  | gain
  | threshold
deriving DecidableEq, Repr

/-- The host-exposed operations of R97. -/
inductive HostOp where
  | readPotentiometers
  | scanBus
  | writePotentiometer (pos : Byte) (which : Which)
  | setPolarity (bit : Bool)
  | acquirePolled (count : Nat)
  | acquireInterrupt (count : BitVec 64)
  | acquireStreaming (count : BitVec 32)
  | measureRate
  | disconnect
deriving DecidableEq, Repr

/-- The commands each host operation sends (R97). Polled mode has no command of the table (R112). -/
def hostCommands : HostOp → List Command
  | .readPotentiometers => [.potRd]
  | .scanBus => [.busScan]
  | .writePotentiometer pos .gain => [.potWrGain pos]
  | .writePotentiometer pos .threshold => [.potWrThr pos]
  | .setPolarity false => [.polLo]
  | .setPolarity true => [.polHi]
  | .acquirePolled _ => []
  | .acquireInterrupt count => [.acqBurst count]
  | .acquireStreaming count => [.acqStream count]
  | .measureRate => [.rate]
  | .disconnect => []

end Sys2Proof.Machine
end

