-- ==== Sys2Proof/Safety.lean ====
section
/-! DEFINITION. The terms that claims use: a state at rest and a faulted state (R117), the invariants of the block, each a
check that can be evaluated on a state, runs with their fairness, the end of a run (R117), and what a request served
to its return leaves. -/

namespace Sys2Proof.Machine

/-! ### States at rest and faulted states -/

/-- A state at rest (R117). An opcode received and not yet looked up is not at rest (log entry 5), and an enabled entry
counts with the pending bits (log entry 11). -/
def atRest (s : State) : Bool :=
  s.dstate == .idle && s.opv == none && s.mode == .none && s.cin.isEmpty && s.dq == 0 && s.fill.isNone
    && !s.trigArmed && !s.rateArmed && !s.trigInsvc && !s.rateInsvc && !s.trigPend && !s.ratePend
    && s.trigReq == 0 && s.rateReq == 0 && s.faults.isEmpty

/-- A faulted state: halted, or with a fault recorded (R117). -/
def faulted (s : State) : Bool := s.dstate == .halted || !s.faults.isEmpty

/-! ### Invariants -/

/-- `MODE` at each line of the streaming handler (R153). -/
def streamModeAt : StreamK → Mode
  | .recv => .none
  | .setTarget _ => .none
  | .zeroDone => .none
  | .drain => .none
  | .setMode => .none
  | .loop => .stream
  | .wait _ => .stream
  | .fillOff _ => .stream
  | .addDone _ => .stream
  | .send => .stream

/-- `MODE` at each line of the burst handler (R157). -/
def burstModeAt : BurstK → Mode
  | .recv => .none
  | .setTarget _ => .none
  | .drain => .none
  | .zeroCount => .none
  | .setMode => .none
  | .arm => .burst
  | .waitCount => .burst
  | .disarm => .burst
  | .waitDefer => .burst
  | .drainLast => .burst
  | .ret => .burst

/-- `MODE` at each line of the rate handler (R190). -/
def rateModeAt : RateK → Mode
  | .zeroCount => .none
  | .setMode => .none
  | .readT0 => .rate
  | .arm _ => .rate
  | .wait _ => .rate
  | .disarm => .rate
  | .divide => .rate
  | .send _ => .rate
  | .ret => .rate

/-- `MODE` at each line of the polled handler (R169). -/
def polledModeAt : PolledK → Mode
  | .recv => .none
  | .drain _ => .none
  | .setMode _ => .none
  | .loop _ => .polled
  | .wait _ => .polled
  | .fillOff _ => .polled
  | .send _ => .polled

/-- The value of `MODE` at each line of each handler: `NONE` outside an acquisition mode (R24). -/
def modeAt : Activity → Mode
  | .potRd _ => .none
  | .busScan _ => .none
  | .potWrGain _ => .none
  | .potWrThr _ => .none
  | .acqStream k => streamModeAt k
  | .acqBurst k => burstModeAt k
  | .polLo _ => .none
  | .polHi _ => .none
  | .rate k => rateModeAt k
  | .tpOff _ => .none
  | .tpOn _ => .none
  | .lblGet _ => .none
  | .lblSet _ => .none
  | .polled k => polledModeAt k

/-- `MODE` is the mode of the running handler's line, and `NONE` in `IDLE` and `HALTED` (R24; log entry 13). -/
def modeOk (s : State) : Bool :=
  match s.dstate with
  | .idle => s.mode == .none
  | .exec a => s.mode == modeAt a
  | .halted => s.mode == .none

/-- An opcode waits for its lookup only in `IDLE` (R106). -/
def opvOk (s : State) : Bool := s.opv == none || s.dstate == .idle

/-- The lines of the burst handler between its arming step and its disarming step (R157). -/
def inBurstWindow (s : State) : Bool :=
  match s.dstate with
  | .exec (.acqBurst .waitCount) => true
  | .exec (.acqBurst .disarm) => true
  | _ => false

/-- The lines of the rate handler between its arming step and its disarming step (R190). -/
def inRateWindow (s : State) : Bool :=
  match s.dstate with
  | .exec (.rate (.wait _)) => true
  | .exec (.rate .disarm) => true
  | _ => false

/-- An interrupt is armed, in service or about to be entered only between the arming and the disarming step of its
mode's handler, and an edge is pending only during service (R35, R49, R222). -/
def interruptsOk (s : State) : Bool :=
  (!(s.trigArmed || s.trigInsvc || s.trigReq != 0) || inBurstWindow s) && (!s.trigPend || s.trigInsvc)
    && (!(s.rateArmed || s.rateInsvc || s.rateReq != 0) || inRateWindow s) && (!s.ratePend || s.rateInsvc)

/-- The lines of the burst handler at which callbacks may be outstanding, and `HALTED`, where none runs (R165, R210). -/
def mayHoldCallbacks (s : State) : Bool :=
  match s.dstate with
  | .exec (.acqBurst .waitCount) => true
  | .exec (.acqBurst .disarm) => true
  | .exec (.acqBurst .waitDefer) => true
  | .halted => true
  | _ => false

/-- The position a callback works at: a multiple of 4 with the whole group inside the burst buffer (R61, R163). -/
def deferIndexOk (b : Nat) : DeferK → Bool
  | .copy p j => p % 4 == 0 && decide (p + 4 ≤ b) && decide (j < 4)
  | .flush p => p % 4 == 0 && decide (p + 4 ≤ b)
  | _ => true

/-- The deferred queue is within its bound, callbacks are outstanding only in a burst, and one runs only at a wait of
the burst handler with its indices inside the buffers (R36, R61, R165). -/
def deferOk (s : State) : Bool :=
  decide (s.dq ≤ s.par.deferDepth) && (s.dq == 0 || mayHoldCallbacks s)
    && match s.dcont with
      | none => true
      | some k => atDeferPoint s && deferIndexOk s.par.burstBuf k

/-- A timed read of `n` samples into a buffer of `len` elements: at least one sample taken, no more than asked for, and
every index inside the buffer (R61, R144). -/
def fillInBounds (f : Fill) (buf : FillBuf) (n len : Nat) : Bool :=
  f.buf == buf && f.n == n && decide (1 ≤ f.i) && decide (f.i ≤ n) && decide (n ≤ len)

/-- A timed read is in progress exactly while the streaming or the polled handler waits for it, into that mode's own
buffer (R32, R51, R144). -/
def fillOk (s : State) : Bool :=
  match s.dstate with
  | .exec (.acqStream (.wait m)) => s.fill.any fun f => fillInBounds f .chunk m s.par.chunkPairs
  | .exec (.acqStream (.fillOff m)) => s.fill.any fun f => fillInBounds f .chunk m s.par.chunkPairs
  | .exec (.polled (.wait _)) => s.fill.any fun f => fillInBounds f .pbuf s.par.polledBuf s.par.polledBuf
  | .exec (.polled (.fillOff _)) => s.fill.any fun f => fillInBounds f .pbuf s.par.polledBuf s.par.polledBuf
  | _ => s.fill.isNone

/-- What the streaming handler has counted at each of its lines: never past the target (R153, R155). -/
def streamCountOk (done target : BitVec 32) : StreamK → Bool
  | .recv => true
  | .setTarget _ => true
  | .zeroDone => true
  | .drain => decide (done ≤ target)
  | .setMode => decide (done ≤ target)
  | .loop => decide (done ≤ target)
  | .wait m => decide (1 ≤ m) && decide (done.toNat + m ≤ target.toNat)
  | .fillOff m => decide (1 ≤ m) && decide (done.toNat + m ≤ target.toNat)
  | .addDone m => decide (1 ≤ m) && decide (done.toNat + m ≤ target.toNat)
  | .send => decide (done ≤ target)

/-- The streaming handler never counts past its target (R153, R155). -/
def streamOk (s : State) : Bool :=
  match s.dstate with
  | .exec (.acqStream k) => streamCountOk s.sdone s.starget k
  | _ => true

/-- The label handler stores inside the label, from a payload of the label's length (R61, R201). -/
def labelOk (s : State) : Bool :=
  match s.dstate with
  | .exec (.lblSet (.store j d)) => decide (j < s.par.labelLen) && d.length == s.par.labelLen
  | _ => true

/-- Every buffer has the size its parameter gives it (R6, R27, R40 to R42). -/
def buffersSized (s : State) : Bool :=
  s.sb.length == burstGroup && s.bb.length == s.par.burstBuf
    && s.chunk.length == s.par.chunkPairs && s.pbuf.length == s.par.polledBuf
    && s.label.length == s.par.labelLen

/-- Every element of a raw sample buffer is a u12 zero-extended: bits 15..12 are zero (R40, R41, R70). -/
def samplesTwelveBit (s : State) : Bool :=
  s.sb.all (fun x => decide (x.toNat < 4096)) && s.bb.all (fun x => decide (x.toNat < 4096))
    && s.pbuf.all (fun x => decide (x.toNat < 4096))

/-- `TUSEC` is within the second (R38, R141). -/
def timerOk (s : State) : Bool := decide (s.tusec.toNat ≤ 999999)

/-- A fault is recorded exactly in `HALTED`, and never more than one (R43, R210, R223). -/
def faultsOk (s : State) : Bool :=
  match s.dstate with
  | .halted => s.faults.length == 1
  | _ => s.faults.isEmpty

/-- Every invariant of the block together. -/
structure State.Inv (s : State) : Prop where
  mode : modeOk s = true
  opv : opvOk s = true
  interrupts : interruptsOk s = true
  defer : deferOk s = true
  fill : fillOk s = true
  stream : streamOk s = true
  label : labelOk s = true
  sizes : buffersSized s = true
  samples : samplesTwelveBit s = true
  timer : timerOk s = true
  faults : faultsOk s = true
  bus : s.pots.wf = true

/-- The lines at which a handler begins a bus transaction (R125). -/
def atBusTransaction (s : State) : Bool :=
  match s.dstate with
  | .exec (.potRd .readGain) => true
  | .exec (.potRd (.gotGain (some _))) => true
  | .exec (.busScan (.probe (_ :: _) _)) => true
  | .exec (.potWrGain (.write _)) => true
  | .exec (.potWrThr (.write _)) => true
  | _ => false

/-- The time of an acknowledged write whose record is the handler's next step (R130). -/
def writeToRecord (s : State) : Option (BitVec 64) :=
  match s.dstate with
  | .exec (.potWrGain (.record t _ _)) => some t
  | .exec (.potWrThr (.record t _ _)) => some t
  | _ => none

/-- A write handler is in its settling delay, or the block is halted: no transaction can begin (R130). -/
def settlingOrHalted (s : State) : Bool :=
  match s.dstate with
  | .exec (.potWrGain .settle) => true
  | .exec (.potWrThr .settle) => true
  | .halted => true
  | _ => false

/-- The last write is in the past, and it is older than the hazard window unless its handler is still in the settling
delay; a write still to be recorded is in the past too (R129, R130). -/
def settleOk (s : State) : Bool :=
  (writeToRecord s).all (fun t => decide (t.toNat ≤ s.now.toNat))
    && match s.lastwr with
      | none => true
      | some w =>
        decide (w.t.toNat ≤ s.now.toNat) && (decide ((settleHazardUs : Int) ≤ elapsed s w.t) || settlingOrHalted s)

/-- The sampling timer as one count of microseconds (R145). -/
def timerMicros (s : State) : Nat := s.tsec.toNat * usPerSecond + s.tusec.toNat

/-! ### Runs -/

/-- `n` steps of the machine, by the host's runner. -/
def runFor (n : Nat) (s : State) : Host.Outcome State Fault Refusal := Host.Core.run Sys2Proof.core n s

/-- The dispatcher waits for a request and nothing holds it: `IDLE` with no opcode received, no interrupt in service, no
callback running (R105, R36, R73). -/
def awaitsRequest (s : State) : Bool := s.dstate == .idle && s.opv == none && dispatchReady s

/-- An infinite run: a state for every number, each the next state of the one before it (R77). -/
def IsRun (r : Nat → State) : Prop := ∀ n, step (r n) = .next (r (n + 1))

/-- The move that a run takes at a step. -/
def moveAt (r : Nat → State) (n : Nat) : Move := (takeMove (r n)).1

/-- A run that is weakly fair for a move: if the move is enabled from some step on, it is taken after it. -/
def FairFor (m : Move) (enabled : State → Bool) (r : Nat → State) : Prop :=
  ∀ n, (∀ k, n ≤ k → enabled (r k) = true) → ∃ k, n ≤ k ∧ moveAt r k = m

/-- `DEFER` has a step (R163, R165). -/
def deferEnabled (s : State) : Bool := !inService s && (s.dcont.isSome || (atDeferPoint s && decide (0 < s.dq)))

/-- `TRIG_ISR` has a step: its exit, or an enabled entry (R158, R160). -/
def trigIsrEnabled (s : State) : Bool := s.trigInsvc || (decide (0 < s.trigReq) && s.trigArmed)

/-- `RATE_ISR` has a step (R191). -/
def rateIsrEnabled (s : State) : Bool := s.rateInsvc || (decide (0 < s.rateReq) && s.rateArmed)

/-- The fairness that a claim about a run may assume: `TIMER` ticks without end (R72), and an interrupt entry or exit, a
callback start or a callback line that stays enabled is some later step (R165, R253). It assumes nothing of the edges.
Fairness is a premise of a claim, never a rule of the step (log entry 2). -/
structure IsFair (r : Nat → State) : Prop where
  timer : FairFor .tick (fun _ => true) r
  defer : FairFor .defer deferEnabled r
  trigIsr : FairFor .trigIsr trigIsrEnabled r
  rateIsr : FairFor .rateIsr rateIsrEnabled r

/-! ### End of a run -/

/-- The datagram that the host sends in a move. -/
def sentIn : Move → List Datagram
  | .deliver d => [d]
  | _ => []

/-- The datagrams that the host has sent in the first `n` steps of a run. -/
def sentBy (r : Nat → State) : Nat → List Datagram
  | 0 => []
  | n + 1 => sentBy r n ++ sentIn (moveAt r n)

/-- A run of a script: the host sends the script's datagrams, in their order, and no other (R95, R117). -/
def IsScriptRun (script : List Datagram) (r : Nat → State) : Prop :=
  IsRun r ∧ ∀ n, sentBy r n <+: script

/-- A run of the written script `lines` (R95). -/
def RunsScript (labelLen : Nat) (lines : List (List Char)) (r : Nat → State) : Prop :=
  ∃ script, scriptDatagrams labelLen lines = .ok script ∧ IsScriptRun script r

/-- The host has sent the whole script and the block is at rest, so that the run can end here (R117). -/
def CanEnd (script : List Datagram) (r : Nat → State) (n : Nat) : Prop :=
  sentBy r n = script ∧ atRest (r n) = true

/-- The end of a run of a script: the first state at rest after the host has sent the script's last datagram (R117). -/
def IsEndOfRun (script : List Datagram) (r : Nat → State) (n : Nat) : Prop :=
  CanEnd script r n ∧ ∀ k, k < n → ¬ CanEnd script r k

/-- A run that meets a faulted state (R117). A claim about a script takes its absence as a premise. -/
def IsFaultedRun (r : Nat → State) : Prop := ∃ n, faulted (r n) = true

/-- A run of a script that has no end (R117). -/
def HasNoEnd (script : List Datagram) (r : Nat → State) : Prop := ∀ n, ¬ IsEndOfRun script r n

/-- The running handler waits: it is at a line that has no step now. The lines that can be so are a `CmdRecv` of a
payload with `CIN` empty (R64, R111) and the `WaitUntil` lines with their condition false (R72, R130, R144, R157, R169, R190). -/
def waitsInHandler (s : State) : Bool :=
  match s.dstate with
  | .exec (.potWrGain .recv) => s.cin.isEmpty
  | .exec (.potWrGain .settle) => !settled s
  | .exec (.potWrThr .recv) => s.cin.isEmpty
  | .exec (.potWrThr .settle) => !settled s
  | .exec (.acqStream .recv) => s.cin.isEmpty
  | .exec (.acqStream (.wait m)) => !fillReached m s
  | .exec (.acqBurst .recv) => s.cin.isEmpty
  | .exec (.acqBurst .waitCount) => !decide (s.btarget ≤ s.pcount)
  | .exec (.acqBurst .waitDefer) => !decide (s.dq = 0 ∧ s.dcont = none)
  | .exec (.rate (.wait t0)) => !decide ((rateWindowUs s : Int) ≤ elapsed s t0)
  | .exec (.lblSet .recv) => s.cin.isEmpty
  | .exec (.polled .recv) => s.cin.isEmpty
  | .exec (.polled (.wait _)) => !fillReached s.par.polledBuf s
  | _ => false

/-- From some step on, the dispatcher waits in a handler for ever (R117). -/
def WaitsForever (r : Nat → State) : Prop := ∃ n, ∀ k, n ≤ k → waitsInHandler (r k) = true

/-- A hang: a run of a script whose dispatcher waits forever in a handler (R117). It may be anywhere in the script: a
burst whose edges never come, after which a host that sends one request at a time sends nothing more (R115 row 3, R167), or
a payload that is never sent (R248), as well as a wait after the last datagram. A hang has no end: `hang_hasNoEnd` in
Laws/Machine.lean. That the premises of a claim supply the edges, or that the run is fair, is for the claim to say. -/
def IsHang (script : List Datagram) (r : Nat → State) : Prop := IsScriptRun script r ∧ WaitsForever r

/-- The end of a run of a script that can be evaluated: from `s`, with `sent` already sent, the first state within `n`
steps at which the run ends (R117). -/
def endOfRun (script : List Datagram) : (n : Nat) → (sent : List Datagram) → State → Option State
  | 0, sent, s => if sent = script ∧ atRest s then some s else none
  | n + 1, sent, s =>
    if sent = script ∧ atRest s then some s
    else
      match step s with
      | .next t => endOfRun script n (sent ++ sentIn (takeMove s).1) t
      | .fault _ => none
      | .refused _ => none

/-! ### Requests served one after the other -/

/-- `k` ticks with no timed read in progress (R140, R141). -/
def afterTicks (k : Nat) (s : State) : State :=
  { s with
    now := s.now + BitVec.ofNat 64 k
    tsec := (timerAdvance^[k] (s.tsec, s.tusec)).1
    tusec := (timerAdvance^[k] (s.tsec, s.tusec)).2 }

/-- How many ticks a request is given before the next one: the settling delay of a write, the window of a rate
measurement (R130, R190). -/
def serviceTicks (p : Params) : Command → Nat
  | .potWrGain _ => p.settleUs
  | .potWrThr _ => p.settleUs
  | .rate => p.rateWindowS * 1000000
  | _ => 0

/-- The moves of one request issued serially (R115 rows 2 and 3): the host sends its datagrams, the dispatcher has moves
enough to reach its wait, time passes, the dispatcher has moves enough to return. A move it does not need finds it in
`IDLE` with an empty queue, and changes nothing. -/
def serialMoves (p : Params) (c : Command) : List Move :=
  (encodeCommand c).map .deliver ++ List.replicate (140 + p.labelLen) .dispatch ++
    List.replicate (serviceTicks p c) .tick ++ List.replicate 5 .dispatch

/-- A potentiometer write served to its return, outside a settle window (R130, R133, R134). -/
def servedWrite (addr : BusAddr) (pos : Byte) (s : State) : State :=
  match s.pots.read addr with
  | some old =>
    afterTicks s.par.settleUs (recordWrite s.now addr old pos { s with pots := s.pots.write addr pos })
  | none => afterTicks s.par.settleUs { s with buserr := s.buserr + 1 }

/-- What a request served to its return leaves, with no edge and outside a settle window: the rules of each command
taken as one (R131 to R134, R153, R157, R180 to R184, R190, R200, R201). A streaming or burst request stands here
for a target of 0 alone (R155, R167). -/
def served (c : Command) (s : State) : State :=
  match c with
  | .potRd =>
    match s.pots.read s.par.gainAddr, s.pots.read s.par.thrAddr with
    | some g, some h => cmdSend [g, h] s
    | _, _ => { s with buserr := s.buserr + 1 }
  | .busScan => cmdSend (scanResponse (scanOrder.filter fun a => (s.pots.read a).isSome)) s
  | .potWrGain pos => servedWrite s.par.gainAddr pos s
  | .potWrThr pos => servedWrite s.par.thrAddr pos s
  | .acqStream n => { s with starget := n, sdone := 0 }
  | .acqBurst n => { s with btarget := n, pcount := 0 }
  | .polLo => setPol false s
  | .polHi => setPol true s
  | .rate => cmdSend [0, 0, 0, 0] (afterTicks (s.par.rateWindowS * 1000000) { s with rcount := 0 })
  | .tpOff => setTpen false s
  | .tpOn => setTpen true s
  | .lblGet => cmdSend s.label s
  | .lblSet text => { s with label := text }

end Sys2Proof.Machine
end

