-- ==== Sys2Proof/Certificates/Slice0/Obligations.lean ====
section
/-! DEFINITION. The statements for the provers, from the numbered rules of the spec. A line statement gives the whole
next state as a record update, so it is the instruction's effect and its frame at once; a run statement runs a whole
command through `step`. Where a clause rests on a choice of the model, its docstring names the log entry. -/

open Sys2Proof
open Sys2Proof.Machine

/-! ### Encoding -/

/-- R96, R87, R93: reading the datagrams of a written command gives the command back, with every operand at every
value its format admits, and leaves what follows. -/
def Obligations.RequestRoundTrip : Prop :=
  ∀ (labelLen : Nat) (c : Command) (rest : List Datagram), c.wellFormed labelLen = true →
    decodeRequest labelLen (encodeCommand c ++ rest) = .ok (c, rest)

/-- R86, R88, R91: the two bytes are `(category, subcode)`, the opcode value is `category + 256 * subcode`, the decoder
answers an opcode exactly for its row's two bytes, whatever bytes follow, and refuses every other value by name. -/
def Obligations.OpcodeTableTotal : Prop :=
  ∀ (category subcode : Byte) (more : List Byte),
    (opvOf category subcode).toNat = category.toNat + 256 * subcode.toNat ∧
    opvCategory (opvOf category subcode) = category ∧ opvSubcode (opvOf category subcode) = subcode ∧
    (∀ i, decodeOpcode (category :: subcode :: more) = .ok i ↔ encode i = [category, subcode]) ∧
    ((∀ i, encode i ≠ [category, subcode]) →
      decodeOpcode (category :: subcode :: more) = .error (.unknownOpcode (opvOf category subcode)))

/-- R88: the words of the opcode table, written out, decode to their opcodes; gaps of the table do not. -/
def Obligations.OpcodeWordsDecode : Prop :=
  decodeTableWord 16 0x0000 = some .potRd ∧ decodeTableWord 16 0x0200 = some .busScan ∧
  decodeTableWord 16 0x0001 = some .potWrGain ∧ decodeTableWord 16 0x0101 = some .potWrThr ∧
  decodeTableWord 16 0x0002 = some .acqStream ∧ decodeTableWord 16 0x0102 = some .acqBurst ∧
  decodeTableWord 16 0x0004 = some .polLo ∧ decodeTableWord 16 0x0104 = some .polHi ∧
  decodeTableWord 16 0x0105 = some .rate ∧ decodeTableWord 16 0x0006 = some .tpOff ∧
  decodeTableWord 16 0x0106 = some .tpOn ∧ decodeTableWord 16 0x0007 = some .lblGet ∧
  decodeTableWord 16 0x0107 = some .lblSet ∧ decodeTableWord 16 0x0100 = none ∧
  decodeTableWord 16 0x0003 = none ∧ decodeTableWord 16 0xFFFF = none

/-- R90: every operand is the unsigned little-endian value of its bytes, and every value of each width is accepted. -/
def Obligations.OperandAssembly : Prop :=
  (∀ b : Byte, operandPos [b] = b) ∧
  (∀ b0 b1 b2 b3 : Byte, (operandN32 [b0, b1, b2, b3]).toNat =
    b0.toNat + 2 ^ 8 * b1.toNat + 2 ^ 16 * b2.toNat + 2 ^ 24 * b3.toNat) ∧
  (∀ b0 b1 b2 b3 b4 b5 b6 b7 : Byte, (operandN64 [b0, b1, b2, b3, b4, b5, b6, b7]).toNat =
    b0.toNat + 2 ^ 8 * b1.toNat + 2 ^ 16 * b2.toNat + 2 ^ 24 * b3.toNat + 2 ^ 32 * b4.toNat + 2 ^ 40 * b5.toNat +
      2 ^ 48 * b6.toNat + 2 ^ 56 * b7.toNat) ∧
  (∀ d, operandText d = d) ∧
  (∀ n : BitVec 32, ∃ d, d.length = 4 ∧ operandN32 d = n) ∧ (∀ n : BitVec 64, ∃ d, d.length = 8 ∧ operandN64 d = n)

/-! ### The dispatcher -/

/-- R106, R105, R109, R73: a step of the dispatcher runs the decoded opcode. With `DISPATCH` to move and a decodable
datagram at the head of `CIN`, one step receives the opcode and the next is `exec` of the decoded opcode, on the state
from which the two moves and the datagram are taken; a received opcode of the table is looked up wherever `DISPATCH`
next moves; and while the handler of an opcode runs, `step` is `exec` of that opcode, for its next line. That the
opcode waits in `opv` between the two steps of the fetch is the model's form, log entry 5. -/
def Obligations.StepRunsOpcode : Prop :=
  (∀ (s : State) (ms : List Move) (d : Datagram) (rest : List Datagram) (i : Instr),
    s.schedule = .dispatch :: .dispatch :: ms → awaitsRequest s = true → s.cin = d :: rest → decodeOpcode d = .ok i →
    ∃ u, step s = .next u ∧ step u = exec i { s with schedule := ms, cin := rest }) ∧
  (∀ (s : State) (ms : List Move) (category subcode : Byte) (more : List Byte) (rest : List Datagram),
    s.schedule = .dispatch :: ms → awaitsRequest s = true → s.cin = (category :: subcode :: more) :: rest →
    step s = .next { s with schedule := ms, cin := rest, opv := some (opvOf category subcode) }) ∧
  (∀ (s : State) (ms : List Move) (category subcode : Byte) (i : Instr),
    s.schedule = .dispatch :: ms → dispatchReady s = true → s.dstate = .idle →
    s.opv = some (opvOf category subcode) → encode i = [category, subcode] →
    step s = exec i { s with schedule := ms, opv := none }) ∧
  (∀ (s : State) (ms : List Move) (a : Activity) (i : Instr),
    s.schedule = .dispatch :: ms → dispatchReady s = true → s.dstate = .exec a → a.instr = some i →
    step s = exec i { s with schedule := ms })

/-- `exec` answers a next state wherever the dispatcher is at that opcode, for every state and every line of its
handler; elsewhere it answers a fault by name, the model's choice, log entry 16. And `step` answers a next state in
every state, whatever moves and draws come: no input stops the model. Where an agent has no step the state stands
still, the model's choice, log entry 2. -/
def Obligations.ExecCompletes : Prop :=
  (∀ (i : Instr) (s : State),
    ((s.dstate = .idle ∨ ∃ a, s.dstate = .exec a ∧ a.instr = some i) → ∃ t, exec i s = .next t) ∧
    (s.dstate = .halted → exec i s = .fault .halted) ∧
    (∀ a, s.dstate = .exec a → a.instr ≠ some i → exec i s = .fault .otherHandler)) ∧
  ∀ s : State, ∃ t, step s = .next t

/-- The move a step takes is the head of the listed schedule, then a free one, so that any interleaving and any
behaviour of the environment can follow (R77, R115). The form is the model's choice, log entry 2. -/
def Obligations.StepTakesMove : Prop :=
  ∀ s : State,
    (∀ m ms, s.schedule = m :: ms → step s = runMove m { s with schedule := ms }) ∧
    (s.schedule = [] → step s = runMove (Config.freeMove s.drawn) { s with drawn := s.drawn + 1 })

/-- R73, R36: while an interrupt is in service neither `DISPATCH` nor `DEFER` takes a step, and while a callback runs
`DISPATCH` takes none; their moves then change nothing but the schedule. -/
def Obligations.InterruptHoldsProcessor : Prop :=
  ∀ (s : State) (ms : List Move),
    (s.schedule = .dispatch :: ms → (s.trigInsvc = true ∨ s.rateInsvc = true ∨ s.dcont ≠ none) →
      step s = .next { s with schedule := ms }) ∧
    (s.schedule = .defer :: ms → (s.trigInsvc = true ∨ s.rateInsvc = true) →
      step s = .next { s with schedule := ms })

/-- R210: raising a fatal condition records it, halts, disarms, ends every interrupt context, read and callback; raising
an abort counts it and returns; nothing else changes. That `MODE` becomes `NONE` with the halt (R24) and that `DQ` stays
are the model's reading, log entry 13; that the enabled entries end too is its choice, log entry 11. -/
def Obligations.RaiseAction : Prop :=
  (∀ (c : Condition) (s : State), c.kind = .fatal →
    raise c s =
      { s with
        faults := if c ∈ s.faults then s.faults else s.faults ++ [c]
        dstate := .halted, mode := .none
        trigArmed := false, rateArmed := false, trigInsvc := false, rateInsvc := false
        trigPend := false, ratePend := false, fill := none, dcont := none
        trigReq := 0, rateReq := 0 }) ∧
  (∀ (c : Condition) (s : State), c.kind = .abort →
    raise c s = { s with buserr := s.buserr + 1, dstate := .idle, mode := .none }) ∧
  (∀ c : Condition, c.kind = (match c.code with | 2 => .abort | 3 => .hostSide | 4 => .hostSide | _ => .fatal))

/-- R212, R106: a received opcode value outside the table, not the polled opcode, halts the block with its record; no
handler runs and nothing is sent. -/
def Obligations.UnknownOpcodeHalts : Prop :=
  ∀ (s : State) (ms : List Move) (category subcode : Byte),
    s.schedule = .dispatch :: ms → dispatchReady s = true → s.dstate = .idle →
    s.opv = some (opvOf category subcode) → (∀ i, encode i ≠ [category, subcode]) →
    s.par.opcodePolled ≠ some (opvOf category subcode) →
    step s = .next (raise (.unknownOpcode (opvOf category subcode)) { s with schedule := ms, opv := none })

/-- R64, R111, R214: each receive of the block, with the length it asks for. On an empty `CIN` it waits without end; a
datagram shorter than the length, an opcode of 0 or 1 byte included, is taken and halts the block. -/
def Obligations.ReceiveWaitsOrHalts : Prop :=
  ∀ (s : State) (ms : List Move) (n : Nat), s.schedule = .dispatch :: ms → dispatchReady s = true →
    ((s.dstate = .idle ∧ s.opv = none ∧ n = 2) ∨ (s.dstate = .exec (.potWrGain .recv) ∧ n = 1) ∨
     (s.dstate = .exec (.potWrThr .recv) ∧ n = 1) ∨ (s.dstate = .exec (.acqStream .recv) ∧ n = 4) ∨
     (s.dstate = .exec (.acqBurst .recv) ∧ n = 8) ∨ (s.dstate = .exec (.lblSet .recv) ∧ n = s.par.labelLen) ∨
     (s.dstate = .exec (.polled .recv) ∧ n = s.par.polledCountBytes)) →
    (s.cin = [] → step s = .next { s with schedule := ms }) ∧
    (∀ d rest, s.cin = d :: rest → d.length < n →
      step s = .next (raise (.shortFrame d.length n) { s with schedule := ms, cin := rest }))

/-- R113: in `HALTED` no step but a reset reads or emits a datagram, runs a callback or a service routine, or leaves
`HALTED`; ticks go on and delivered datagrams pile up in `CIN`. -/
def Obligations.HaltedIsAbsorbing : Prop :=
  ∀ s t : State, s.Inv → s.dstate = .halted → (takeMove s).1 ≠ .reset → step s = .next t →
    t.dstate = .halted ∧ t.cout = s.cout ∧ t.sout = s.sout ∧ t.events = s.events ∧ t.faults = s.faults ∧
    t.sb = s.sb ∧ t.bb = s.bb ∧ t.pcount = s.pcount ∧ t.rcount = s.rcount ∧ t.dq = s.dq ∧ t.dcont = none ∧
    t.trigArmed = false ∧ t.rateArmed = false ∧ t.trigInsvc = false ∧ t.rateInsvc = false ∧
    t.now = (if (takeMove s).1 = .tick then s.now + 1 else s.now) ∧
    t.cin = (match (takeMove s).1 with | .deliver d => s.cin ++ [d] | _ => s.cin)

/-! ### The potentiometer bus -/

/-- R126, R127, R128, R129: what each bus transaction answers and does. Outside 500000 µs after the last write: the
plain effect. Inside: the device written last holds its old or its new position, one draw, and a write's own effect is
kept or lost, a second draw; every other device is untouched by the first draw. -/
def Obligations.BusTransactions : Prop :=
  ∀ (s : State) (a : BusAddr) (v : Byte),
    ((∀ w, s.lastwr = some w → 500000 ≤ (s.now.toNat : Int) - (w.t.toNat : Int)) →
      busProbe a s = ((s.pots.read a).isSome, s) ∧ busRead a s = (s.pots.read a, s) ∧
      busWrite a v s =
        (if (s.pots.read a).isSome then (true, { s with pots := s.pots.write a v }) else (false, s))) ∧
    (∀ w c1 c2 cs, s.lastwr = some w → (s.now.toNat : Int) - (w.t.toNat : Int) < 500000 → s.coinIn = c1 :: c2 :: cs →
      ∃ p : Memory,
        (∀ b, p.read b =
          if b = w.a then (s.pots.read b).map (fun _ => if c1 then w.new else w.old) else s.pots.read b) ∧
        busProbe a s = ((s.pots.read a).isSome, { s with pots := p, coinIn := c2 :: cs }) ∧
        busRead a s = (p.read a, { s with pots := p, coinIn := c2 :: cs }) ∧
        busWrite a v s =
          (if (s.pots.read a).isSome then
            (true, { s with pots := if c2 then p.write a v else p, coinIn := cs })
          else (false, { s with pots := p, coinIn := c2 :: cs })))

/-- R131: every line of `POT.RD`. The raise of an absent device is a step of its own, log entry 6. -/
def Obligations.PotReadLines : Prop :=
  ∀ s : State,
    (s.dstate = .idle → exec .potRd s = .next { s with dstate := .exec (.potRd .readGain) }) ∧
    (s.dstate = .exec (.potRd .readGain) →
      exec .potRd s = .next { (busRead s.par.gainAddr s).2 with
        dstate := .exec (.potRd (.gotGain (busRead s.par.gainAddr s).1)) }) ∧
    (∀ g, s.dstate = .exec (.potRd (.gotGain (some g))) →
      exec .potRd s = .next { (busRead s.par.thrAddr s).2 with
        dstate := .exec (.potRd (.gotBoth g (busRead s.par.thrAddr s).1)) }) ∧
    ((s.dstate = .exec (.potRd (.gotGain none)) ∨ ∃ g, s.dstate = .exec (.potRd (.gotBoth g none))) →
      exec .potRd s = .next { s with buserr := s.buserr + 1, dstate := .idle, mode := .none }) ∧
    (∀ g h, s.dstate = .exec (.potRd (.gotBoth g (some h))) →
      exec .potRd s = .next { s with dstate := .exec (.potRd .ret), cout := s.cout ++ [[g, h]] }) ∧
    (s.dstate = .exec (.potRd .ret) → exec .potRd s = .next { s with dstate := .idle, mode := .none })

/-- R132: every line of `BUS.SCAN`. -/
def Obligations.BusScanLines : Prop :=
  ∀ s : State,
    (s.dstate = .idle →
      exec .busScan s = .next { s with
        dstate := .exec (.busScan (.probe ((List.range 127).map fun j => BitVec.ofNat 7 (0x7F - j)) [])) }) ∧
    (∀ a rest found, s.dstate = .exec (.busScan (.probe (a :: rest) found)) →
      exec .busScan s = .next { (busProbe a s).2 with
        dstate := .exec (.busScan (.probe rest (if (busProbe a s).1 then found ++ [a] else found))) }) ∧
    (∀ found, s.dstate = .exec (.busScan (.probe [] found)) →
      exec .busScan s = .next { s with
        dstate := .exec (.busScan .ret)
        cout := s.cout ++ [[(found.getD 0 0).setWidth 8, (found.getD 1 0).setWidth 8]] }) ∧
    (s.dstate = .exec (.busScan .ret) → exec .busScan s = .next { s with dstate := .idle, mode := .none })

/-- R130, R133, R134: every line of the two potentiometer writes, with their fixed addresses. The write is stated
outside the settle window, where it sets exactly its device's position; inside the window it is `PotWriteInWindow`. The
record of `LASTWR` is the next step, with the `NOW` of the write (log entry 7). -/
def Obligations.PotWriteLines : Prop :=
  ∀ (i : Instr) (mk : PotWrK → Activity) (s : State) (addr : BusAddr),
    ((i = .potWrGain ∧ mk = .potWrGain ∧ addr = s.par.gainAddr) ∨
     (i = .potWrThr ∧ mk = .potWrThr ∧ addr = s.par.thrAddr)) →
    (s.dstate = .idle → exec i s = .next { s with dstate := .exec (mk .recv) }) ∧
    (∀ pos more rest, s.dstate = .exec (mk .recv) → s.cin = (pos :: more) :: rest →
      exec i s = .next { s with dstate := .exec (mk (.write pos)), cin := rest }) ∧
    (∀ pos old, s.dstate = .exec (mk (.write pos)) → settleWindow s = none → s.pots.read addr = some old →
      ∃ p : Memory, p.read addr = some pos ∧ (∀ b, b ≠ addr → p.read b = s.pots.read b) ∧
        exec i s = .next { s with dstate := .exec (mk (.record s.now old pos)), pots := p }) ∧
    (∀ t old pos, s.dstate = .exec (mk (.record t old pos)) →
      exec i s = .next { s with
        dstate := .exec (mk .settle), lastwr := some { t := t, a := addr, old := old, new := pos } }) ∧
    (∀ pos, s.dstate = .exec (mk (.write pos)) → settleWindow s = none → s.pots.read addr = none →
      exec i s = .next { s with dstate := .exec (mk .absent) }) ∧
    (s.dstate = .exec (mk .absent) →
      exec i s = .next { s with buserr := s.buserr + 1, dstate := .idle, mode := .none }) ∧
    (∀ w, s.dstate = .exec (mk .settle) → s.lastwr = some w →
      exec i s = .next
        (if (s.par.settleUs : Int) ≤ (s.now.toNat : Int) - (w.t.toNat : Int) then { s with dstate := .exec (mk .ret) }
        else s)) ∧
    (s.dstate = .exec (mk .ret) → exec i s = .next { s with dstate := .idle, mode := .none })

/-- R129, R130: the write line of a potentiometer write inside the settle window of an earlier one. The first draw
settles the device written before. Where the own device answers, a second draw keeps or loses this write, and the
record that follows holds the position the device held before the write (log entries 7, 17). Where it is absent there
is no second draw, `LASTWR` stays, and the next line is the raise (log entries 6, 17). -/
def Obligations.PotWriteInWindow : Prop :=
  ∀ (i : Instr) (mk : PotWrK → Activity) (s : State) (addr : BusAddr) (pos : Byte) (w : LastWrite) (c1 : Bool),
    ((i = .potWrGain ∧ mk = .potWrGain ∧ addr = s.par.gainAddr) ∨
     (i = .potWrThr ∧ mk = .potWrThr ∧ addr = s.par.thrAddr)) →
    s.dstate = .exec (mk (.write pos)) → s.lastwr = some w → (s.now.toNat : Int) - (w.t.toNat : Int) < 500000 →
    (∀ old c2 cs, s.coinIn = c1 :: c2 :: cs → s.pots.read addr = some old →
      ∃ p : Memory,
        (∀ b, b ≠ addr → p.read b =
          if b = w.a then (s.pots.read b).map (fun _ => if c1 then w.new else w.old) else s.pots.read b) ∧
        p.read addr = some (if c2 then pos else if addr = w.a then (if c1 then w.new else w.old) else old) ∧
        exec i s = .next { s with dstate := .exec (mk (.record s.now old pos)), pots := p, coinIn := cs }) ∧
    (∀ cs, s.coinIn = c1 :: cs → s.pots.read addr = none →
      ∃ p : Memory,
        (∀ b, p.read b =
          if b = w.a then (s.pots.read b).map (fun _ => if c1 then w.new else w.old) else s.pots.read b) ∧
        exec i s = .next { s with dstate := .exec (mk .absent), pots := p, coinIn := cs })

/-- R131, R213, R135: the whole of `POT.RD` from its request to its return, outside a settle window: the answer is the
gain position, then the threshold position; an absent gain device ends it before the threshold read, and an absent
device sends nothing, halts nothing and is counted in `BUSERR` alone. -/
def Obligations.PotReadRun : Prop :=
  ∀ (s : State) (ms : List Move) (rest : List Datagram), awaitsRequest s = true → settleWindow s = none →
    s.cin = [0x00, 0x00] :: rest →
    (∀ g h, s.schedule = List.replicate 6 .dispatch ++ ms →
      s.pots.read s.par.gainAddr = some g → s.pots.read s.par.thrAddr = some h →
      runFor 6 s = .next { s with schedule := ms, cin := rest, mode := .none, cout := s.cout ++ [[g, h]] }) ∧
    (s.schedule = List.replicate 4 .dispatch ++ ms → s.pots.read s.par.gainAddr = none →
      runFor 4 s = .next { s with schedule := ms, cin := rest, mode := .none, buserr := s.buserr + 1 }) ∧
    (∀ g, s.schedule = List.replicate 5 .dispatch ++ ms →
      s.pots.read s.par.gainAddr = some g → s.pots.read s.par.thrAddr = none →
      runFor 5 s = .next { s with schedule := ms, cin := rest, mode := .none, buserr := s.buserr + 1 })

/-- R132: the whole of `BUS.SCAN` outside a settle window: all 127 addresses are probed in descending order, and the
answer is the first two at which a device answers, 0x00 for a missing one. -/
def Obligations.BusScanRun : Prop :=
  ∀ (s : State) (ms : List Move) (rest : List Datagram) (found : List BusAddr), awaitsRequest s = true →
    settleWindow s = none → s.cin = [0x00, 0x02] :: rest → s.schedule = List.replicate 131 .dispatch ++ ms →
    found = ((List.range 127).map fun j => BitVec.ofNat 7 (0x7F - j)).filter (fun a => (s.pots.read a).isSome) →
    runFor 131 s = .next { s with
      schedule := ms, cin := rest, mode := .none
      cout := s.cout ++ [[(found.getD 0 0).setWidth 8, (found.getD 1 0).setWidth 8]] }

/-- R133, R134, R130: the whole of a potentiometer write outside a settle window. To a device that answers: exactly its
device's position changes, nothing is sent, and the handler returns after `SETTLE_US` ticks and not before: with fewer
ticks it is still in its settling delay, however often the dispatcher moves. `LASTWR` holds the `NOW` of the write
(log entry 7). To an absent device: no wait, nothing changes but `BUSERR`, and it returns. -/
def Obligations.PotWriteRun : Prop :=
  ∀ (s : State) (ms : List Move) (i : Instr) (mk : PotWrK → Activity) (addr : BusAddr) (pos : Byte) (more : List Byte)
    (rest : List Datagram),
    ((i = .potWrGain ∧ mk = .potWrGain ∧ addr = s.par.gainAddr) ∨
     (i = .potWrThr ∧ mk = .potWrThr ∧ addr = s.par.thrAddr)) →
    awaitsRequest s = true → settleWindow s = none → s.cin = encode i :: (pos :: more) :: rest →
    (∀ old, s.fill = none → s.now.toNat + s.par.settleUs < 2 ^ 64 → s.pots.read addr = some old →
      ∃ p : Memory, p.read addr = some pos ∧ (∀ b, b ≠ addr → p.read b = s.pots.read b) ∧
        (s.schedule =
            List.replicate 5 .dispatch ++ List.replicate s.par.settleUs .tick ++ List.replicate 2 .dispatch ++ ms →
          runFor (s.par.settleUs + 7) s = .next { s with
            schedule := ms, cin := rest, mode := .none, pots := p
            now := s.now + BitVec.ofNat 64 s.par.settleUs
            tsec := (timerAdvance^[s.par.settleUs] (s.tsec, s.tusec)).1
            tusec := (timerAdvance^[s.par.settleUs] (s.tsec, s.tusec)).2
            lastwr := some { t := s.now, a := addr, old := old, new := pos } }) ∧
        (∀ k j, k < s.par.settleUs →
          s.schedule = List.replicate 5 .dispatch ++ List.replicate k .tick ++ List.replicate j .dispatch ++ ms →
          runFor (k + j + 5) s = .next { s with
            schedule := ms, cin := rest, pots := p, dstate := .exec (mk .settle)
            now := s.now + BitVec.ofNat 64 k
            tsec := (timerAdvance^[k] (s.tsec, s.tusec)).1
            tusec := (timerAdvance^[k] (s.tsec, s.tusec)).2
            lastwr := some { t := s.now, a := addr, old := old, new := pos } })) ∧
    (s.pots.read addr = none → s.schedule = List.replicate 5 .dispatch ++ ms →
      runFor 5 s = .next { s with schedule := ms, cin := rest, mode := .none, buserr := s.buserr + 1 })

/-- R130: with the default `SETTLE_US = 500000` no transaction begins inside the settle window. The invariant says
that the last write is older than the window unless its own handler is still in the settling delay; every step that
does not wrap `NOW` keeps it, and at a line that begins a transaction the window is closed. -/
def Obligations.SettleHazardUnreachable : Prop :=
  (∀ s t : State, settleOk s = true → s.par.settleUs = 500000 → s.now.toNat + 1 < 2 ^ 64 → step s = .next t →
    settleOk t = true) ∧
  (∀ s : State, settleOk s = true → atBusTransaction s = true → settleWindow s = none) ∧
  settleOk State.reset = true

/-- R126, R127, R128, R47: the positions on the bus change only at a line that begins a bus transaction, or by a
reset; and no step adds or removes a device (R115 row 8). -/
def Obligations.PotWriters : Prop :=
  ∀ s t : State, step s = .next t →
    (t.pots.map Prod.fst = s.pots.map Prod.fst) ∧
    (t.pots = s.pots ∨ ((takeMove s).1 = .dispatch ∧ atBusTransaction s = true) ∨ (takeMove s).1 = .reset)

/-! ### Timer and packer -/

/-- R140, R141, R144: what one tick does: the timebase and the sampling timer advance, and a sample that is due is
captured in the same step, from the timer's new value and one conversion. A read that has all its samples captures no
more, log entry 24; `due` wraps with `NOW`, log entry 10. -/
def Obligations.TickEffect : Prop :=
  ∀ (s : State) (ms : List Move) (sec : BitVec 32) (usec : BitVec 20), s.schedule = .tick :: ms →
    sec = (if s.tusec = 999999 then s.tsec + 1 else s.tsec) → usec = (if s.tusec = 999999 then 0 else s.tusec + 1) →
    (s.fill = none → step s = .next { s with schedule := ms, now := s.now + 1, tsec := sec, tusec := usec }) ∧
    (∀ f, s.fill = some f → ¬(s.now + 1 = f.due ∧ f.i < f.n) →
      step s = .next { s with schedule := ms, now := s.now + 1, tsec := sec, tusec := usec }) ∧
    (∀ f, s.fill = some f → s.now + 1 = f.due → f.i < f.n →
      ∃ (x : Sample) (l : List Sample) (n : Nat),
        (∀ y ys, s.adcIn = y :: ys → x = y ∧ l = ys ∧ n = s.drawn) ∧
        step s = .next { s with
          schedule := ms, now := s.now + 1, tsec := sec, tusec := usec, adcIn := l, drawn := n
          fill := some { f with i := f.i + 1, due := f.due + BitVec.ofNat 64 f.period }
          chunk := if f.buf = .chunk then s.chunk.set f.i (pack sec usec x) else s.chunk
          pbuf := if f.buf = .pbuf then s.pbuf.set f.i (x.setWidth 16) else s.pbuf })

/-- R141: the sampling timer counts microseconds: an advance adds one to `TSEC * 10^6 + TUSEC`, modulo `2^32` seconds,
and `TUSEC` never exceeds 999999. -/
def Obligations.TimerCountsMicros : Prop :=
  ∀ s : State, timerOk s = true → timerOk (tick s) = true ∧
    timerMicros (tick s) = (timerMicros s + 1) % (2 ^ 32 * 1000000) ∧ (tick s).now = s.now + 1

/-- R147: `Pack`, total on any inputs. -/
def Obligations.PackWords : Prop :=
  ∀ (sec : BitVec 32) (usec : BitVec 20) (adc : Sample),
    (pack sec usec adc).1.toNat = sec.toNat ∧
    (pack sec usec adc).2.toNat = (((usec.toNat &&& 0xFFFFF) <<< 12) ||| (adc.toNat &&& 0xFFF))

/-- R148, R69: the eight bytes of a record on the streaming channel, field by field. -/
def Obligations.PackWireLayout : Prop :=
  ∀ (sec : BitVec 32) (usec : BitVec 20) (adc : Sample),
    pairBytes (pack sec usec adc) =
      [ sec.extractLsb' 0 8, sec.extractLsb' 8 8, sec.extractLsb' 16 8, sec.extractLsb' 24 8,
        adc.extractLsb' 0 8, usec.extractLsb' 0 4 ++ adc.extractLsb' 8 4, usec.extractLsb' 4 8,
        usec.extractLsb' 12 8 ]

/-- R151: unpacking by the formula of R152 gives the sample back, and the time exactly in rational arithmetic. -/
def Obligations.UnpackPacked : Prop :=
  ∀ (sec : BitVec 32) (usec : BitVec 20) (adc : Sample), usec.toNat ≤ 999999 →
    unpackAdc (pack sec usec adc) = adc ∧
    unpackTime (pack sec usec adc) = (sec.toNat : ℚ) + (usec.toNat : ℚ) / 10 ^ 6

/-- R144, R154: a timed read of `m` samples, spaced by a period `p`, of which nothing but ticks is in the way. In
either buffer sample `i` is taken after `i * p` ticks, and not before: then `FILL.i` is `i + 1` and `i + 1` conversions
have been drawn, and after fewer ticks `FILL.i` is at most `i`. So the read has all `m` samples after `(m - 1) * p` ticks,
and not before. A read into `CHUNK` stamps sample `i` with the timer's value `i * p` microseconds after the start; a read
into `PBUF` holds the raw samples; neither touches another element or the other buffer. Nothing is assumed of a wrap of `NOW`, with which `due` wraps:
log entry 10. -/
def Obligations.TimedReadOnTime : Prop :=
  ∀ (s : State) (buf : FillBuf) (m p : Nat) (xs ys : List Sample), 1 ≤ m →
    m ≤ (match buf with | .chunk => s.chunk.length | .pbuf => s.pbuf.length) → 1 ≤ p → m * p < 2 ^ 64 →
    timerOk s = true → s.adcIn = xs ++ ys → xs.length = m →
    (∀ i, i < m →
      fillReached (i + 1) (tick^[i * p] (startFill buf m p s)) = true ∧
      (tick^[i * p] (startFill buf m p s)).adcIn = xs.drop (i + 1) ++ ys ∧
      ∀ k, k < i * p → ∃ f, (tick^[k] (startFill buf m p s)).fill = some f ∧ f.i ≤ i) ∧
    fillReached m (tick^[(m - 1) * p] (startFill buf m p s)) = true ∧
    (∀ k, k < (m - 1) * p → fillReached m (tick^[k] (startFill buf m p s)) = false) ∧
    (tick^[(m - 1) * p] (startFill buf m p s)).adcIn = ys ∧
    (buf = .chunk →
      (tick^[(m - 1) * p] (startFill buf m p s)).pbuf = s.pbuf ∧
      (∀ i, m ≤ i → (tick^[(m - 1) * p] (startFill buf m p s)).chunk[i]? = s.chunk[i]?) ∧
      (∀ (i : Nat) (x : Sample), xs[i]? = some x →
        (tick^[(m - 1) * p] (startFill buf m p s)).chunk[i]? =
          some (pack (BitVec.ofNat 32 ((timerMicros s + i * p) / 10 ^ 6))
            (BitVec.ofNat 20 ((timerMicros s + i * p) % 10 ^ 6)) x))) ∧
    (buf = .pbuf →
      (tick^[(m - 1) * p] (startFill buf m p s)).chunk = s.chunk ∧
      (∀ i, m ≤ i → (tick^[(m - 1) * p] (startFill buf m p s)).pbuf[i]? = s.pbuf[i]?) ∧
      (∀ (i : Nat) (x : Sample), xs[i]? = some x →
        (tick^[(m - 1) * p] (startFill buf m p s)).pbuf[i]? = some (zext16 x)))

/-! ### Streaming -/

/-- R153, R142, R155: every line of `ACQ.STREAM`. The `due` of the read that it starts wraps with `NOW`, log entry 10.
-/
def Obligations.StreamLines : Prop :=
  ∀ s : State,
    (s.dstate = .idle → exec .acqStream s = .next { s with dstate := .exec (.acqStream .recv) }) ∧
    (∀ d rest, s.dstate = .exec (.acqStream .recv) → s.cin = d :: rest → 4 ≤ d.length →
      exec .acqStream s = .next { s with
        cin := rest, dstate := .exec (.acqStream (.setTarget (operandN32 (d.take 4)))) }) ∧
    (∀ n, s.dstate = .exec (.acqStream (.setTarget n)) →
      exec .acqStream s = .next { s with starget := n, dstate := .exec (.acqStream .zeroDone) }) ∧
    (s.dstate = .exec (.acqStream .zeroDone) →
      exec .acqStream s = .next { s with sdone := 0, dstate := .exec (.acqStream .drain) }) ∧
    (s.dstate = .exec (.acqStream .drain) →
      exec .acqStream s = .next { s with cin := [], dstate := .exec (.acqStream .setMode) }) ∧
    (s.dstate = .exec (.acqStream .setMode) →
      exec .acqStream s = .next { s with mode := .stream, dstate := .exec (.acqStream .loop) }) ∧
    (∀ m, s.dstate = .exec (.acqStream .loop) → s.sdone.toNat < s.starget.toNat →
      m = min s.par.chunkPairs (s.starget.toNat - s.sdone.toNat) →
      ∃ (x : Sample) (l : List Sample) (n : Nat),
        (∀ y ys, s.adcIn = y :: ys → x = y ∧ l = ys ∧ n = s.drawn) ∧
        exec .acqStream s = .next { s with
          adcIn := l, drawn := n
          tsec := if s.sdone = 0 then 0 else s.tsec
          tusec := if s.sdone = 0 then 0 else s.tusec
          chunk := (List.replicate s.par.chunkPairs (0, 0)).set 0
            (pack (if s.sdone = 0 then 0 else s.tsec) (if s.sdone = 0 then 0 else s.tusec) x)
          fill := some { buf := .chunk, n := m, i := 1, due := s.now + BitVec.ofNat 64 s.par.streamPeriodUs,
                         period := s.par.streamPeriodUs }
          dstate := .exec (.acqStream (.wait m)) }) ∧
    (s.dstate = .exec (.acqStream .loop) → s.starget.toNat ≤ s.sdone.toNat →
      exec .acqStream s = .next { s with dstate := .idle, mode := .none }) ∧
    (∀ m, s.dstate = .exec (.acqStream (.wait m)) →
      exec .acqStream s = .next
        (if fillReached m s then { s with dstate := .exec (.acqStream (.fillOff m)) } else s)) ∧
    (∀ m, s.dstate = .exec (.acqStream (.fillOff m)) →
      exec .acqStream s = .next { s with fill := none, dstate := .exec (.acqStream (.addDone m)) }) ∧
    (∀ m, s.dstate = .exec (.acqStream (.addDone m)) →
      exec .acqStream s = .next { s with sdone := s.sdone + BitVec.ofNat 32 m, dstate := .exec (.acqStream .send) }) ∧
    (s.dstate = .exec (.acqStream .send) →
      exec .acqStream s = .next { s with
        sout := s.sout ++ [s.chunk.flatMap pairBytes], dstate := .exec (.acqStream .loop) })

/-- R155: `ACQ.STREAM 0` drains, fills no chunk, emits nothing, leaves the sampling timer alone and returns.
R153, R154, R155: a whole `ACQ.STREAM N`, `N ≥ 1`, in `ceil(N / CHUNK_PAIRS)` chunks, the ticks of each read placed
where the handler waits, and any number of ticks `gap c` before a later chunk `c` starts. It takes exactly `N` samples
and emits one datagram for each chunk. Sample `i` of a chunk that starts at `T` microseconds is stamped
`T + i * STREAM_PERIOD_US`, the first chunk starts at 0, and the last one ends in all-zero pairs. Nothing is assumed of
a wrap of `NOW`, with which `due` wraps: log entry 10. -/
def Obligations.StreamRun : Prop :=
  (∀ (s : State) (ms : List Move) (rest : List Datagram), awaitsRequest s = true →
    s.cin = [0x02, 0x00] :: [0, 0, 0, 0] :: rest → s.schedule = List.replicate 8 .dispatch ++ ms →
    runFor 8 s = .next { s with schedule := ms, cin := [], mode := .none, starget := 0, sdone := 0 }) ∧
  (∀ (s : State) (ms : List Move) (n : BitVec 32) (rest : List Datagram) (xs ys : List Sample)
    (chunks ticks : Nat) (count gap start : Nat → Nat),
    awaitsRequest s = true → s.cin = [0x02, 0x00] :: leBytes 4 n.toNat :: rest → 1 ≤ n.toNat →
    s.par.streamPeriodUs < 2 ^ 64 → s.adcIn = xs ++ ys → xs.length = n.toNat →
    chunks = (n.toNat + s.par.chunkPairs - 1) / s.par.chunkPairs →
    (∀ c, count c = min s.par.chunkPairs (n.toNat - c * s.par.chunkPairs)) → gap 0 = 0 →
    start 0 = 0 → (∀ c, start (c + 1) = start c + (count c - 1) * s.par.streamPeriodUs + gap (c + 1)) →
    ticks = ((List.range chunks).map fun c => gap c + (count c - 1) * s.par.streamPeriodUs).sum →
    s.schedule = List.replicate 7 .dispatch ++
      ((List.range chunks).flatMap fun c => List.replicate (gap c) .tick ++ .dispatch ::
        List.replicate ((count c - 1) * s.par.streamPeriodUs) .tick ++ List.replicate 4 .dispatch) ++
      .dispatch :: ms →
    ∃ (bufs : List (List Pair)) (last : List Pair) (sec : BitVec 32) (usec : BitVec 20),
      bufs.length = chunks ∧ bufs.getLast? = some last ∧
      (∀ c buf, bufs[c]? = some buf → buf.length = s.par.chunkPairs ∧
        ∀ i, i < s.par.chunkPairs → buf[i]? = some
          (match xs[c * s.par.chunkPairs + i]? with
          | some x => pack (BitVec.ofNat 32 ((start c + i * s.par.streamPeriodUs) / 10 ^ 6))
              (BitVec.ofNat 20 ((start c + i * s.par.streamPeriodUs) % 10 ^ 6)) x
          | none => (0, 0))) ∧
      sec.toNat = ticks / 10 ^ 6 % 2 ^ 32 ∧ usec.toNat = ticks % 10 ^ 6 ∧
      runFor (8 + 5 * chunks + ticks) s = .next { s with
        schedule := ms, cin := [], mode := .none, starget := n, sdone := n, fill := none, chunk := last
        tsec := sec, tusec := usec, now := s.now + BitVec.ofNat 64 ticks, adcIn := ys
        sout := s.sout ++ bufs.map fun buf => buf.flatMap pairBytes })

/-- R67, R94, R89: only the send line of `ACQ.STREAM` puts a datagram on the streaming channel, one at a time, each of
`8 * CHUNK_PAIRS` bytes; nothing but a reset removes one. -/
def Obligations.StreamChannelWriters : Prop :=
  ∀ s t : State, s.Inv → step s = .next t → (takeMove s).1 ≠ .reset →
    t.sout = s.sout ∨
    (s.dstate = .exec (.acqStream .send) ∧ ∃ d, t.sout = s.sout ++ [d] ∧ d.length = 8 * s.par.chunkPairs)

/-! ### Burst -/

/-- R157, R166: every line of `ACQ.BURST`. The disarming drops every enabled entry that was not taken, log entry 11. -/
def Obligations.BurstLines : Prop :=
  ∀ s : State,
    (s.dstate = .idle → exec .acqBurst s = .next { s with dstate := .exec (.acqBurst .recv) }) ∧
    (∀ d rest, s.dstate = .exec (.acqBurst .recv) → s.cin = d :: rest → 8 ≤ d.length →
      exec .acqBurst s = .next { s with
        cin := rest, dstate := .exec (.acqBurst (.setTarget (operandN64 (d.take 8)))) }) ∧
    (∀ n, s.dstate = .exec (.acqBurst (.setTarget n)) →
      exec .acqBurst s = .next { s with btarget := n, dstate := .exec (.acqBurst .drain) }) ∧
    (s.dstate = .exec (.acqBurst .drain) →
      exec .acqBurst s = .next { s with cin := [], dstate := .exec (.acqBurst .zeroCount) }) ∧
    (s.dstate = .exec (.acqBurst .zeroCount) →
      exec .acqBurst s = .next { s with pcount := 0, dstate := .exec (.acqBurst .setMode) }) ∧
    (s.dstate = .exec (.acqBurst .setMode) →
      exec .acqBurst s = .next { s with mode := .burst, dstate := .exec (.acqBurst .arm) }) ∧
    (s.dstate = .exec (.acqBurst .arm) →
      exec .acqBurst s = .next { s with trigArmed := true, dstate := .exec (.acqBurst .waitCount) }) ∧
    (s.dstate = .exec (.acqBurst .waitCount) →
      exec .acqBurst s = .next
        (if s.btarget.toNat ≤ s.pcount.toNat then { s with dstate := .exec (.acqBurst .disarm) } else s)) ∧
    (s.dstate = .exec (.acqBurst .disarm) →
      exec .acqBurst s = .next { s with
        trigArmed := false, trigReq := 0, dstate := .exec (.acqBurst .waitDefer) }) ∧
    (s.dstate = .exec (.acqBurst .waitDefer) →
      exec .acqBurst s = .next
        (if s.dq = 0 ∧ s.dcont = none then { s with dstate := .exec (.acqBurst .drainLast) } else s)) ∧
    (s.dstate = .exec (.acqBurst .drainLast) →
      exec .acqBurst s = .next { s with cin := [], dstate := .exec (.acqBurst .ret) }) ∧
    (s.dstate = .exec (.acqBurst .ret) → exec .acqBurst s = .next { s with dstate := .idle, mode := .none })

/-- R158, R159, R162, R222: an entry of `TRIG_ISR`, however it was enabled: with one enabled, armed and not in service,
a step of `TRIG_ISR` takes four conversions into `SB`, counts one, and schedules one callback, or raises
`DeferOverflow` with the count after the increment when the queue is full. That an edge's own entry is a later step
than the edge, and that enabled entries are counted in `trigReq`, is the model's reading, log entry 11. -/
def Obligations.TriggerEntry : Prop :=
  ∀ (s : State) (ms : List Move), s.schedule = .trigIsr :: ms →
    s.trigInsvc = false → s.trigArmed = true → 0 < s.trigReq →
    ∃ (a b c d : Sample) (l : List Sample) (n : Nat) (u : State),
      (∀ a' b' c' d' l', s.adcIn = a' :: b' :: c' :: d' :: l' →
        a = a' ∧ b = b' ∧ c = c' ∧ d = d' ∧ l = l' ∧ n = s.drawn) ∧
      u = { s with
        schedule := ms, trigArmed := false, trigInsvc := true, trigReq := s.trigReq - 1
        sb := [a.setWidth 16, b.setWidth 16, c.setWidth 16, d.setWidth 16]
        pcount := s.pcount + 1, adcIn := l, drawn := n } ∧
      step s = .next
        (if s.dq < s.par.deferDepth then { u with dq := s.dq + 1 } else raise (.deferOverflow (s.pcount + 1)) u)

/-- R158, R160, R161, R220: every edge on the trigger input, and every other step of `TRIG_ISR`. An edge of the other
sense, or while neither armed nor in service, has no effect; in service it is latched or lost, a draw, and a second one
is lost; armed and not in service it enables one entry. The exit takes the interrupt out of service, arms it again and
clears the pending bit; a pending edge enables one entry without a new edge. With no entry enabled `TRIG_ISR` stands
still. Enabled entries are counted in `trigReq`, log entry 11; where one is still untaken, whether one more edge or
pending edge makes two of it is a draw, the model's choice, log entry 12. -/
def Obligations.TriggerService : Prop :=
  ∀ (s : State) (ms : List Move),
    (∀ e, s.schedule = .trigEdge e :: ms →
      (e ≠ s.par.trigEdge → step s = .next { s with schedule := ms }) ∧
      (s.trigInsvc = false → s.trigArmed = false → step s = .next { s with schedule := ms }) ∧
      (s.trigInsvc = true → s.trigPend = true → step s = .next { s with schedule := ms }) ∧
      (e = s.par.trigEdge → s.trigInsvc = true → s.trigPend = false →
        ∃ c l n, (∀ c' cs, s.coinIn = c' :: cs → c = c' ∧ l = cs ∧ n = s.drawn) ∧
          step s = .next { s with schedule := ms, trigPend := c, coinIn := l, drawn := n }) ∧
      (e = s.par.trigEdge → s.trigInsvc = false → s.trigArmed = true → s.trigReq = 0 →
        step s = .next { s with schedule := ms, trigReq := 1 }) ∧
      (e = s.par.trigEdge → s.trigInsvc = false → s.trigArmed = true → 0 < s.trigReq →
        ∃ c l n, (∀ c' cs, s.coinIn = c' :: cs → c = c' ∧ l = cs ∧ n = s.drawn) ∧
          step s = .next { s with
            schedule := ms, trigReq := if c then s.trigReq + 1 else s.trigReq, coinIn := l, drawn := n })) ∧
    (s.schedule = .trigIsr :: ms →
      (s.trigInsvc = true → s.trigPend = false →
        step s = .next { s with schedule := ms, trigInsvc := false, trigArmed := true }) ∧
      (s.trigInsvc = true → s.trigPend = true → s.trigReq = 0 →
        step s = .next { s with
          schedule := ms, trigInsvc := false, trigArmed := true, trigPend := false, trigReq := 1 }) ∧
      (s.trigInsvc = true → s.trigPend = true → 0 < s.trigReq →
        ∃ c l n, (∀ c' cs, s.coinIn = c' :: cs → c = c' ∧ l = cs ∧ n = s.drawn) ∧
          step s = .next { s with
            schedule := ms, trigInsvc := false, trigArmed := true, trigPend := false
            trigReq := if c then s.trigReq + 1 else s.trigReq, coinIn := l, drawn := n }) ∧
      (s.trigInsvc = false → (s.trigReq = 0 ∨ s.trigArmed = false) → step s = .next { s with schedule := ms }))

/-- R163, R164, R165: every line of a deferred callback, and when one starts: at a wait of the burst handler, with one
scheduled, none running and no interrupt in service. -/
def Obligations.DeferLines : Prop :=
  ∀ (s : State) (ms : List Move), s.schedule = .defer :: ms → s.trigInsvc = false → s.rateInsvc = false →
    (s.dcont = none →
      step s = .next
        (if (s.dstate = .exec (.acqBurst .waitCount) ∨ s.dstate = .exec (.acqBurst .waitDefer)) ∧ 0 < s.dq then
          { s with schedule := ms, dq := s.dq - 1, dcont := some .readCount }
        else { s with schedule := ms })) ∧
    (s.dcont = some .readCount → step s = .next { s with schedule := ms, dcont := some (.place s.pcount) }) ∧
    (∀ c, s.dcont = some (.place c) →
      step s = .next { s with schedule := ms, dcont := some (.copy ((4 * c.toNat) % s.par.burstBuf) 0) }) ∧
    (∀ p j, s.dcont = some (.copy p j) →
      step s = .next { s with
        schedule := ms, bb := s.bb.set (p + j) (s.sb.getD j 0)
        dcont := some (if j < 3 then .copy p (j + 1) else .flush p) }) ∧
    (∀ p, s.dcont = some (.flush p) →
      step s = .next { s with
        schedule := ms, dcont := some .finish
        cout := if p = s.par.burstCkpt then s.cout ++ [s.bb.flatMap fun x => leBytes 2 x.toNat] else s.cout }) ∧
    (s.dcont = some .finish → step s = .next { s with schedule := ms, dcont := none })

/-- R168, R159, R163, R164: `n` triggers that do not overlap, each served and with its callback run to its end before
the next, from an armed burst at its wait. `PCOUNT` counts every one; each of the last `B / 4` triggers' groups stands
whole at `4k mod B`, and an element that no trigger wrote holds what it held before; the command channel has carried
one datagram for every `k` with `4k mod B = BURST_CKPT`, each `2 * B` bytes, the last one the buffer as it then stands,
and nothing else. -/
def Obligations.BurstGroupsDelivered : Prop :=
  ∀ (s : State) (ms : List Move) (n : Nat) (xs ys : List Sample),
    s.dstate = .exec (.acqBurst .waitCount) → s.trigArmed = true → s.trigInsvc = false → s.trigPend = false →
    s.trigReq = 0 → s.rateInsvc = false → s.dq = 0 → s.dcont = none → s.pcount = 0 →
    s.bb.length = s.par.burstBuf → 4 * n < 2 ^ 64 → s.adcIn = xs ++ ys → xs.length = 4 * n →
    s.schedule = (List.replicate n
      (.trigEdge s.par.trigEdge :: .trigIsr :: .trigIsr :: List.replicate 9 .defer)).flatten ++ ms →
    ∃ t : State, runFor (12 * n) s = .next t ∧
      t.dstate = s.dstate ∧ t.pcount.toNat = n ∧ t.trigArmed = true ∧ t.trigInsvc = false ∧ t.trigReq = 0 ∧
      t.dq = 0 ∧ t.dcont = none ∧ t.faults = s.faults ∧ t.adcIn = ys ∧ t.schedule = ms ∧
      t.bb.length = s.bb.length ∧
      (∀ k j, 1 ≤ k → k ≤ n → n < k + s.par.burstBuf / 4 → j < 4 →
        t.bb[(4 * k) % s.par.burstBuf + j]? = (xs[4 * (k - 1) + j]?).map (fun x => x.setWidth 16)) ∧
      (∀ x, (∀ k j, 1 ≤ k → k ≤ n → j < 4 → x ≠ (4 * k) % s.par.burstBuf + j) → t.bb[x]? = s.bb[x]?) ∧
      ∃ ds : List Datagram, t.cout = s.cout ++ ds ∧
        ds.length = ((List.range n).filter fun k => (4 * (k + 1)) % s.par.burstBuf = s.par.burstCkpt).length ∧
        (∀ d ∈ ds, d.length = 2 * s.par.burstBuf) ∧
        (1 ≤ n → (4 * n) % s.par.burstBuf = s.par.burstCkpt →
          ds.getLast? = some (t.bb.flatMap fun x => leBytes 2 x.toNat))

/-! ### Polled mode -/

/-- R92, R112, R169, R170: a block configured with `OPCODE_POLLED` enters the polled handler on that value; and every
line of the polled handler. The `due` of the read that it starts wraps with `NOW`, log entry 10. -/
def Obligations.PolledLines : Prop :=
  ∀ (s : State) (ms : List Move), s.schedule = .dispatch :: ms → dispatchReady s = true →
    (∀ category subcode, s.dstate = .idle → s.opv = some (opvOf category subcode) →
      s.par.opcodePolled = some (opvOf category subcode) →
      step s = .next { s with schedule := ms, opv := none, dstate := .exec (.polled .recv) }) ∧
    (∀ d rest, s.dstate = .exec (.polled .recv) → s.cin = d :: rest → s.par.polledCountBytes ≤ d.length →
      step s = .next { s with
        schedule := ms, cin := rest, dstate := .exec (.polled (.drain (leNat (d.take s.par.polledCountBytes)))) }) ∧
    (∀ c, s.dstate = .exec (.polled (.drain c)) →
      step s = .next { s with schedule := ms, cin := [], dstate := .exec (.polled (.setMode c)) }) ∧
    (∀ c, s.dstate = .exec (.polled (.setMode c)) →
      step s = .next { s with schedule := ms, mode := .polled, dstate := .exec (.polled (.loop c)) }) ∧
    (s.dstate = .exec (.polled (.loop 0)) →
      step s = .next { s with schedule := ms, mode := .none, dstate := .idle }) ∧
    (∀ c, s.dstate = .exec (.polled (.loop (c + 1))) →
      ∃ (x : Sample) (l : List Sample) (n : Nat),
        (∀ y ys, s.adcIn = y :: ys → x = y ∧ l = ys ∧ n = s.drawn) ∧
        step s = .next { s with
          schedule := ms, adcIn := l, drawn := n
          pbuf := (List.replicate s.par.polledBuf 0).set 0 (x.setWidth 16)
          fill := some { buf := .pbuf, n := s.par.polledBuf, i := 1,
                         due := s.now + BitVec.ofNat 64 s.par.polledPeriodUs, period := s.par.polledPeriodUs }
          dstate := .exec (.polled (.wait (c + 1))) }) ∧
    (∀ c, s.dstate = .exec (.polled (.wait c)) →
      step s = .next
        (if fillReached s.par.polledBuf s then { s with schedule := ms, dstate := .exec (.polled (.fillOff c)) }
        else { s with schedule := ms })) ∧
    (∀ c, s.dstate = .exec (.polled (.fillOff c)) →
      step s = .next { s with schedule := ms, fill := none, dstate := .exec (.polled (.send c)) }) ∧
    (∀ c, s.dstate = .exec (.polled (.send c)) →
      step s = .next { s with
        schedule := ms, cout := s.cout ++ [s.pbuf.flatMap fun x => leBytes 2 x.toNat]
        dstate := .exec (.polled (.loop (c - 1))) })

/-- R169, R170, R92: a whole polled run on a block configured with `OPCODE_POLLED`, the ticks of each read placed where
the handler waits. For a count `cnt` it sends `cnt` datagrams on the command channel, each one full buffer of raw
samples in the order of their conversion; a count of 0 sends nothing. Nothing is assumed of a wrap of `NOW`, with which
`due` wraps: log entry 10. -/
def Obligations.PolledRun : Prop :=
  ∀ (s : State) (ms : List Move) (category subcode : Byte) (d : Datagram) (rest : List Datagram)
    (xs ys : List Sample) (cnt ticks : Nat),
    awaitsRequest s = true → s.par.opcodePolled = some (opvOf category subcode) →
    s.cin = [category, subcode] :: d :: rest → s.par.polledCountBytes ≤ d.length →
    cnt = leNat (d.take s.par.polledCountBytes) → s.fill = none → s.par.polledPeriodUs < 2 ^ 64 →
    s.adcIn = xs ++ ys → xs.length = cnt * s.par.polledBuf →
    ticks = (s.par.polledBuf - 1) * s.par.polledPeriodUs →
    s.schedule = List.replicate 5 .dispatch ++ (List.replicate cnt
      (.dispatch :: List.replicate ticks .tick ++ List.replicate 3 .dispatch)).flatten ++ .dispatch :: ms →
    ∃ buf : List Cell16,
      buf = (if cnt = 0 then s.pbuf else (xs.drop ((cnt - 1) * s.par.polledBuf)).map zext16) ∧
      runFor (6 + cnt * (4 + ticks)) s = .next { s with
        schedule := ms, cin := [], mode := .none, pbuf := buf, adcIn := ys
        now := s.now + BitVec.ofNat 64 (cnt * ticks)
        tsec := (timerAdvance^[cnt * ticks] (s.tsec, s.tusec)).1
        tusec := (timerAdvance^[cnt * ticks] (s.tsec, s.tusec)).2
        cout := s.cout ++ (List.range cnt).map fun k =>
          ((xs.drop (k * s.par.polledBuf)).take s.par.polledBuf).flatMap fun x => leBytes 2 x.toNat }

/-! ### Polarity, test pulse, label -/

/-- R180, R181, R182, R107: every line of `POL.LO` and `POL.HI`; the output follows the bit, and a change of it is an
event. -/
def Obligations.PolarityLines : Prop :=
  ∀ (s : State) (i : Instr) (mk : BitK → Activity) (b : Bool),
    ((i = .polLo ∧ mk = .polLo ∧ b = false) ∨ (i = .polHi ∧ mk = .polHi ∧ b = true)) →
    (s.dstate = .idle → exec i s = .next { s with dstate := .exec (mk .write) }) ∧
    (s.dstate = .exec (mk .write) →
      ∃ t, exec i s = .next t ∧ polOut t = b ∧ t = { s with
        dstate := .exec (mk .ret), pol := b
        events := if s.pol = b then s.events else s.events ++ [.polOut b] }) ∧
    (s.dstate = .exec (mk .ret) → exec i s = .next { s with dstate := .idle, mode := .none })

/-- R183, R184, R185, R107: every line of `TP.OFF` and `TP.ON`; the output emits the waveform exactly while the bit is
set, and a change of it is an event. -/
def Obligations.TestPulseLines : Prop :=
  ∀ (s : State) (i : Instr) (mk : BitK → Activity) (b : Bool),
    ((i = .tpOff ∧ mk = .tpOff ∧ b = false) ∨ (i = .tpOn ∧ mk = .tpOn ∧ b = true)) →
    (s.dstate = .idle → exec i s = .next { s with dstate := .exec (mk .write) }) ∧
    (s.dstate = .exec (mk .write) →
      ∃ t, exec i s = .next t ∧ tpOut t = (if b then .emitting s.par.tpWaveform else .inactive) ∧ t = { s with
        dstate := .exec (mk .ret), tpen := b
        events := if s.tpen = b then s.events
          else s.events ++ [.tpOut (if b then .emitting s.par.tpWaveform else .inactive)] }) ∧
    (s.dstate = .exec (mk .ret) → exec i s = .next { s with dstate := .idle, mode := .none })

/-- R180, R181, R183, R184: the four one-bit commands from their request to their return: nothing is sent, the one bit
has its value, and with the bit already there nothing observable changes. -/
def Obligations.BitCommandRuns : Prop :=
  ∀ (s : State) (ms : List Move) (rest : List Datagram), awaitsRequest s = true →
    s.schedule = List.replicate 4 .dispatch ++ ms →
    (∀ b : Bool, s.cin = [0x04, if b then 0x01 else 0x00] :: rest →
      runFor 4 s = .next { s with
        schedule := ms, cin := rest, mode := .none, pol := b
        events := if s.pol = b then s.events else s.events ++ [.polOut b] }) ∧
    (∀ b : Bool, s.cin = [0x06, if b then 0x01 else 0x00] :: rest →
      runFor 4 s = .next { s with
        schedule := ms, cin := rest, mode := .none, tpen := b
        events := if s.tpen = b then s.events
          else s.events ++ [.tpOut (if b then .emitting s.par.tpWaveform else .inactive)] })

/-- R25, R26, R27, R45: `POL` is written only by opcodes (4,x), `TPEN` only by (6,x), `LABEL` only by (7,1); a reset
apart, no other step changes them. -/
def Obligations.ControlBitWriters : Prop :=
  ∀ s t : State, step s = .next t → (takeMove s).1 ≠ .reset →
    (t.pol ≠ s.pol → s.dstate = .exec (.polLo .write) ∨ s.dstate = .exec (.polHi .write)) ∧
    (t.tpen ≠ s.tpen → s.dstate = .exec (.tpOff .write) ∨ s.dstate = .exec (.tpOn .write)) ∧
    (t.label ≠ s.label → ∃ j d, s.dstate = .exec (.lblSet (.store j d)))

/-- R200, R201, R61: every line of `LBL.GET` and `LBL.SET`; the label is stored one byte a step. -/
def Obligations.LabelLines : Prop :=
  ∀ s : State,
    (s.dstate = .idle → exec .lblGet s = .next { s with dstate := .exec (.lblGet .send) }) ∧
    (s.dstate = .exec (.lblGet .send) →
      exec .lblGet s = .next { s with dstate := .exec (.lblGet .ret), cout := s.cout ++ [s.label] }) ∧
    (s.dstate = .exec (.lblGet .ret) → exec .lblGet s = .next { s with dstate := .idle, mode := .none }) ∧
    (s.dstate = .idle → exec .lblSet s = .next { s with dstate := .exec (.lblSet .recv) }) ∧
    (∀ d rest, s.dstate = .exec (.lblSet .recv) → s.cin = d :: rest → s.par.labelLen ≤ d.length →
      exec .lblSet s = .next { s with cin := rest, dstate := .exec (.lblSet (.store 0 (d.take s.par.labelLen))) }) ∧
    (∀ j d, s.dstate = .exec (.lblSet (.store j d)) →
      exec .lblSet s = .next { s with
        label := s.label.set j (d.getD j 0)
        dstate := .exec (.lblSet (if j + 1 < s.par.labelLen then .store (j + 1) d else .ret)) }) ∧
    (s.dstate = .exec (.lblSet .ret) → exec .lblSet s = .next { s with dstate := .idle, mode := .none })

/-- R201, R200: a whole `LBL.SET` followed by a whole `LBL.GET`: the label is the first `LABEL_LEN` bytes of the
payload, uninterpreted, and the answer is the label as stored. -/
def Obligations.LabelSetGetRun : Prop :=
  ∀ (s : State) (ms : List Move) (d : Datagram) (rest : List Datagram), awaitsRequest s = true →
    s.label.length = s.par.labelLen → s.par.labelLen ≤ d.length →
    s.cin = [0x07, 0x01] :: d :: [0x07, 0x00] :: rest →
    s.schedule = List.replicate (s.par.labelLen + 8) .dispatch ++ ms →
    runFor (s.par.labelLen + 8) s = .next { s with
      schedule := ms, cin := rest, mode := .none, label := d.take s.par.labelLen
      cout := s.cout ++ [d.take s.par.labelLen] }

/-! ### Rate -/

/-- R190: every line of `RATE`. The disarming drops every enabled entry that was not taken, log entry 11. -/
def Obligations.RateLines : Prop :=
  ∀ s : State,
    (s.dstate = .idle → exec .rate s = .next { s with dstate := .exec (.rate .zeroCount) }) ∧
    (s.dstate = .exec (.rate .zeroCount) →
      exec .rate s = .next { s with rcount := 0, dstate := .exec (.rate .setMode) }) ∧
    (s.dstate = .exec (.rate .setMode) →
      exec .rate s = .next { s with mode := .rate, dstate := .exec (.rate .readT0) }) ∧
    (s.dstate = .exec (.rate .readT0) → exec .rate s = .next { s with dstate := .exec (.rate (.arm s.now)) }) ∧
    (∀ t0, s.dstate = .exec (.rate (.arm t0)) →
      exec .rate s = .next { s with rateArmed := true, dstate := .exec (.rate (.wait t0)) }) ∧
    (∀ t0, s.dstate = .exec (.rate (.wait t0)) →
      exec .rate s = .next
        (if ((s.par.rateWindowS * 1000000 : Nat) : Int) ≤ (s.now.toNat : Int) - (t0.toNat : Int) then
          { s with dstate := .exec (.rate .disarm) }
        else s)) ∧
    (s.dstate = .exec (.rate .disarm) →
      exec .rate s = .next { s with rateArmed := false, rateReq := 0, dstate := .exec (.rate .divide) }) ∧
    (s.dstate = .exec (.rate .divide) →
      exec .rate s = .next { s with
        dstate := .exec (.rate (.send
          (BitVec.ofNat 32 (roundTie s.par.rateTie s.rcount.toNat s.par.rateWindowS)))) }) ∧
    (∀ r, s.dstate = .exec (.rate (.send r)) →
      exec .rate s = .next { s with dstate := .exec (.rate .ret), cout := s.cout ++ [leBytes 4 r.toNat] }) ∧
    (s.dstate = .exec (.rate .ret) → exec .rate s = .next { s with dstate := .idle, mode := .none })

/-- R191, R193, R158 to R161, R222: every edge on the rate input and every step of `RATE_ISR`. An edge of the other
sense, or while neither armed nor in service, has no effect; in service it is latched or lost, a draw, and a second
one is lost; armed and not in service it enables one entry. An entry, with one enabled, counts one and pulses
`CLR_OUT` once. The exit arms again and clears the pending bit; a pending edge enables one entry. Enabled entries are
counted in `rateReq` and taken as later steps, log entry 11; where one is still untaken, whether one more edge or
pending edge makes two of it is a draw, the model's choice, log entry 12. -/
def Obligations.RateInterrupt : Prop :=
  ∀ (s : State) (ms : List Move),
    (∀ e, s.schedule = .rateEdge e :: ms →
      (e ≠ s.par.rateEdge → step s = .next { s with schedule := ms }) ∧
      (s.rateInsvc = false → s.rateArmed = false → step s = .next { s with schedule := ms }) ∧
      (s.rateInsvc = true → s.ratePend = true → step s = .next { s with schedule := ms }) ∧
      (e = s.par.rateEdge → s.rateInsvc = true → s.ratePend = false →
        ∃ c l n, (∀ c' cs, s.coinIn = c' :: cs → c = c' ∧ l = cs ∧ n = s.drawn) ∧
          step s = .next { s with schedule := ms, ratePend := c, coinIn := l, drawn := n }) ∧
      (e = s.par.rateEdge → s.rateInsvc = false → s.rateArmed = true → s.rateReq = 0 →
        step s = .next { s with schedule := ms, rateReq := 1 }) ∧
      (e = s.par.rateEdge → s.rateInsvc = false → s.rateArmed = true → 0 < s.rateReq →
        ∃ c l n, (∀ c' cs, s.coinIn = c' :: cs → c = c' ∧ l = cs ∧ n = s.drawn) ∧
          step s = .next { s with
            schedule := ms, rateReq := if c then s.rateReq + 1 else s.rateReq, coinIn := l, drawn := n })) ∧
    (s.schedule = .rateIsr :: ms →
      (s.rateInsvc = false → s.rateArmed = true → 0 < s.rateReq →
        step s = .next { s with
          schedule := ms, rateArmed := false, rateInsvc := true, rateReq := s.rateReq - 1
          rcount := s.rcount + 1, events := s.events ++ [.clrPulse s.par.clrPulseUs] }) ∧
      (s.rateInsvc = true → s.ratePend = false →
        step s = .next { s with schedule := ms, rateInsvc := false, rateArmed := true }) ∧
      (s.rateInsvc = true → s.ratePend = true → s.rateReq = 0 →
        step s = .next { s with
          schedule := ms, rateInsvc := false, rateArmed := true, ratePend := false, rateReq := 1 }) ∧
      (s.rateInsvc = true → s.ratePend = true → 0 < s.rateReq →
        ∃ c l n, (∀ c' cs, s.coinIn = c' :: cs → c = c' ∧ l = cs ∧ n = s.drawn) ∧
          step s = .next { s with
            schedule := ms, rateInsvc := false, rateArmed := true, ratePend := false
            rateReq := if c then s.rateReq + 1 else s.rateReq, coinIn := l, drawn := n }) ∧
      (s.rateInsvc = false → (s.rateReq = 0 ∨ s.rateArmed = false) → step s = .next { s with schedule := ms }))

/-- R192: the rounding: the nearest integer; on an exact half the even one or the larger one; never above the count. -/
def Obligations.RoundTieNearest : Prop :=
  ∀ (tie : TieRule) (count window : Nat), 1 ≤ window →
    (∀ k : Nat, |(count : Int) - (roundTie tie count window * window : Nat)| ≤ |(count : Int) - (k * window : Nat)|) ∧
    (2 * |(count : Int) - (roundTie tie count window * window : Nat)| = window →
      (tie = .halfEven → roundTie tie count window % 2 = 0) ∧
      (tie = .halfUp → count < roundTie tie count window * window)) ∧
    roundTie tie count window ≤ count

/-- R190, R191, R193: a whole `RATE` with an edge after each of the given stretches of ticks of its window, each edge
served before the next: every edge is counted once and pulses `CLR_OUT` once, and the answer is the four bytes of the
rounded quotient. -/
def Obligations.RateRun : Prop :=
  ∀ (s : State) (ms : List Move) (gaps : List Nat) (rest : List Datagram) (window : Nat), awaitsRequest s = true →
    s.cin = [0x05, 0x01] :: rest → gaps.length < 2 ^ 32 → s.rateReq = 0 → s.ratePend = false → s.fill = none →
    window = s.par.rateWindowS * 1000000 → gaps.sum ≤ window → s.now.toNat + window < 2 ^ 64 →
    s.schedule = List.replicate 6 .dispatch ++
      (gaps.flatMap fun g => List.replicate g .tick ++ [.rateEdge s.par.rateEdge, .rateIsr, .rateIsr]) ++
      List.replicate (window - gaps.sum) .tick ++ List.replicate 5 .dispatch ++ ms →
    runFor (11 + 3 * gaps.length + window) s = .next { s with
      schedule := ms, cin := rest, mode := .none, rcount := BitVec.ofNat 32 gaps.length, rateArmed := false
      now := s.now + BitVec.ofNat 64 window
      tsec := (timerAdvance^[window] (s.tsec, s.tusec)).1
      tusec := (timerAdvance^[window] (s.tsec, s.tusec)).2
      events := s.events ++ List.replicate gaps.length (.clrPulse s.par.clrPulseUs)
      cout := s.cout ++ [leBytes 4 (roundTie s.par.rateTie gaps.length s.par.rateWindowS)] }

/-! ### Reset and the whole machine -/

/-- R241: the reset state, for any accepted configuration: `IDLE` with its first step the receive of an opcode, both
interrupt sources disarmed, nothing in service or pending, an empty queue, no read, no mode, no fault. -/
def Obligations.ResetIsIdle : Prop :=
  State.reset.dstate = .idle ∧ State.reset.trigArmed = false ∧ State.reset.rateArmed = false ∧
  State.reset.trigInsvc = false ∧ State.reset.rateInsvc = false ∧ State.reset.trigPend = false ∧
  State.reset.ratePend = false ∧ State.reset.dq = 0 ∧ State.reset.fill = none ∧ State.reset.mode = .none ∧
  State.reset.faults = [] ∧ dispatchStep State.reset = .next State.reset ∧
  ∀ cin : List Datagram,
    dispatchStep { State.reset with cin := cin } = .next (receiveOpcode { State.reset with cin := cin })

/-- R240, R48, R242, R45: the external reset, from any state: every element of the table of R48 takes its reset value,
`SB` and `BB` hold draws of a u12, the positions on the bus are drawn again and no device comes or goes. The drop of
`POL_OUT` and of `TP_OUT` is recorded as an event where the output was not at its reset level, and the record before it
stays: the model's reading of R45, log entry 15; that the one of `POL_OUT` stands first is the model's choice, log
entry 15. The model's own fields, log entry 15: no opcode waits and no
entry is enabled, the environment's future (the listed moves, conversions and draws, and the count of
free values) stays, the resets are counted. -/
def Obligations.ResetEffect : Prop :=
  ∀ (s : State) (ms : List Move), s.schedule = .reset :: ms →
    ∃ t, step s = .next t ∧ t.dstate = .idle ∧ t.mode = .none ∧ t.pol = false ∧ t.tpen = false ∧
      t.label = List.replicate s.par.labelLen 0 ∧ t.pcount = 0 ∧ t.btarget = 0 ∧ t.rcount = 0 ∧ t.starget = 0 ∧
      t.sdone = 0 ∧ t.fill = none ∧ t.trigArmed = false ∧ t.rateArmed = false ∧ t.trigInsvc = false ∧
      t.trigPend = false ∧ t.rateInsvc = false ∧ t.ratePend = false ∧ t.dq = 0 ∧ t.dcont = none ∧ t.now = 0 ∧
      t.tsec = 0 ∧ t.tusec = 0 ∧ t.lastwr = none ∧ t.sb.length = 4 ∧ t.bb.length = s.par.burstBuf ∧
      (∀ x ∈ t.sb ++ t.bb, x.toNat < 4096) ∧ t.chunk = List.replicate s.par.chunkPairs (0, 0) ∧
      t.pbuf = List.replicate s.par.polledBuf 0 ∧ t.faults = [] ∧ t.buserr = 0 ∧ t.cin = [] ∧ t.cout = [] ∧
      t.sout = [] ∧ polOut t = false ∧ tpOut t = .inactive ∧ t.cfg = s.cfg ∧
      t.pots.map Prod.fst = s.pots.map Prod.fst ∧
      t.events = s.events ++ (if s.pol = true then [.polOut false] else []) ++
        (if s.tpen = true then [.tpOut .inactive] else []) ∧
      t.opv = none ∧ t.trigReq = 0 ∧ t.rateReq = 0 ∧
      t.schedule = ms ∧ t.adcIn = s.adcIn ∧ t.coinIn = s.coinIn ∧ t.drawn = s.drawn ∧ t.resets = s.resets + 1

/-- Every invariant of `State.Inv` holds in the reset state, for any accepted configuration and any devices. -/
def Obligations.ResetMeetsInv : Prop := State.reset.Inv

/-- The invariant, kept by every step from every state that meets it, whatever move or draw comes: `MODE` agrees with
the handler's line and is `NONE` in `IDLE` and `HALTED` (R24), an opcode waits for its lookup only in `IDLE` (R106),
an interrupt is armed, in service or enabled only in its own mode's window (R35, R49, R222), the queue is bounded and
callbacks run only at a burst's waits with indices inside the buffers (R36, R61, R165), a timed read is inside its own
mode's buffer (R144), a stream never passes its target (R155), the label is stored inside its bounds (R61), buffers
keep their sizes (R6) and their samples 12 bits (R70), `TUSEC` stays in the second (R38), a fault is recorded exactly
in `HALTED` (R43), the bus keeps its form. -/
def Obligations.InvKept : Prop :=
  ∀ s t : State, s.Inv → step s = .next t → t.Inv

/-- R49: with the invariant, an interrupt source is armed only in its mode, and no two of the four arm and in-service
bits are set together. -/
def Obligations.OneInterruptSource : Prop :=
  (∀ s : State, s.Inv →
    (s.mode ≠ .burst → s.trigArmed = false ∧ s.trigInsvc = false) ∧
    (s.mode ≠ .rate → s.rateArmed = false ∧ s.rateInsvc = false) ∧
    (s.trigArmed = true ∨ s.trigInsvc = true → s.rateArmed = false ∧ s.rateInsvc = false)) ∧
  (∀ s t : State, s.Inv → ¬(s.trigArmed = true ∧ s.trigInsvc = true) → ¬(s.rateArmed = true ∧ s.rateInsvc = true) →
    step s = .next t → ¬(t.trigArmed = true ∧ t.trigInsvc = true) ∧ ¬(t.rateArmed = true ∧ t.rateInsvc = true))

/-- R51: each mode owns its buffers: a step that is no reset changes `CHUNK`, `STARGET` or `SDONE` only in streaming,
`PBUF` only in polled mode, `SB`, `BB`, `PCOUNT`, `BTARGET` or `DQ` only in a burst, `RCOUNT` only in a rate
measurement. -/
def Obligations.ModesOwnBuffers : Prop :=
  ∀ s t : State, s.Inv → step s = .next t → (takeMove s).1 ≠ .reset →
    (t.chunk ≠ s.chunk ∨ t.starget ≠ s.starget ∨ t.sdone ≠ s.sdone → ∃ k, s.dstate = .exec (.acqStream k)) ∧
    (t.pbuf ≠ s.pbuf → ∃ k, s.dstate = .exec (.polled k)) ∧
    (t.sb ≠ s.sb ∨ t.bb ≠ s.bb ∨ t.pcount ≠ s.pcount ∨ t.btarget ≠ s.btarget ∨ t.dq ≠ s.dq →
      ∃ k, s.dstate = .exec (.acqBurst k)) ∧
    (t.rcount ≠ s.rcount → ∃ k, s.dstate = .exec (.rate k))

/-- R51: no rule of one mode reads what belongs to another: outside streaming, changing `CHUNK`, `STARGET` and `SDONE`
changes nothing but them; outside polled mode the same for `PBUF`; outside a burst the same for `SB`, `BB`, `PCOUNT`,
`BTARGET` and `DQ` together; outside a rate measurement the same for `RCOUNT`. -/
def Obligations.ModesReadOwnBuffers : Prop :=
  ∀ s t : State, s.Inv → step s = .next t → (takeMove s).1 ≠ .reset →
    (∀ (c : List Pair) (n d : BitVec 32), (∀ k, s.dstate ≠ .exec (.acqStream k)) →
      step { s with chunk := c, starget := n, sdone := d } = .next { t with chunk := c, starget := n, sdone := d }) ∧
    (∀ p : List Cell16, (∀ k, s.dstate ≠ .exec (.polled k)) →
      step { s with pbuf := p } = .next { t with pbuf := p }) ∧
    (∀ (x y : List Cell16) (c n : BitVec 64) (q : Nat), (∀ k, s.dstate ≠ .exec (.acqBurst k)) →
      step { s with sb := x, bb := y, pcount := c, btarget := n, dq := q } =
        .next { t with sb := x, bb := y, pcount := c, btarget := n, dq := q }) ∧
    (∀ r : BitVec 32, (∀ k, s.dstate ≠ .exec (.rate k)) →
      step { s with rcount := r } = .next { t with rcount := r })

/-- R43, R44, R45, R66, R115 row 8, R244: every step, a reset too, keeps the configuration and only adds to the events;
it adds an event of `POL_OUT` or `TP_OUT` exactly where it changes that output, with its new level. A step that is no
reset only adds to `COUT`, `SOUT` and `FAULT`, and a fault is added only together with `HALTED`. The model's reading of
R45: that a reset keeps the record and adds the drops of the outputs that it makes itself (log entry 15; R48 and R240 say
nothing of the record), and that there is no event without a change (log entry 14). -/
def Obligations.RecordsOnlyGrow : Prop :=
  ∀ s t : State, step s = .next t →
    t.cfg = s.cfg ∧
    (∃ es, t.events = s.events ++ es ∧ (∀ b, OutEvent.polOut b ∈ es ↔ polOut t ≠ polOut s ∧ b = polOut t) ∧
      (∀ l, OutEvent.tpOut l ∈ es ↔ tpOut t ≠ tpOut s ∧ l = tpOut t)) ∧
    ((takeMove s).1 ≠ .reset →
      s.cout <+: t.cout ∧ s.sout <+: t.sout ∧ s.faults <+: t.faults ∧
      (t.faults ≠ s.faults → t.dstate = .halted) ∧
      (t.buserr = s.buserr ∨ (t.buserr = s.buserr + 1 ∧ t.dstate = .idle ∧ t.cout = s.cout)))

/-- R65, R79: a `Drain` empties `CIN` in one step and changes nothing else but the handler's line: no datagram queued
before it is read after it, and one delivered after it is kept. -/
def Obligations.DrainEmptiesQueue : Prop :=
  ∀ (s : State) (ms : List Move) (a b : Activity) (d : Datagram), dispatchReady s = true →
    ((a = .acqStream .drain ∧ b = .acqStream .setMode) ∨ (a = .acqBurst .drain ∧ b = .acqBurst .zeroCount) ∨
     (a = .acqBurst .drainLast ∧ b = .acqBurst .ret) ∨
     (∃ c, a = .polled (.drain c) ∧ b = .polled (.setMode c))) →
    s.dstate = .exec a → s.schedule = .dispatch :: .deliver d :: ms →
    runFor 2 s = .next { s with schedule := ms, dstate := .exec b, cin := [d] }

/-- R28, R30, R74: `PCOUNT` and `RCOUNT` change only by the zeroing line of their handler, by an entry of their
interrupt, which adds one modulo the width, and by a reset. -/
def Obligations.CounterWriters : Prop :=
  ∀ s t : State, step s = .next t →
    (t.pcount = s.pcount ∨ (s.dstate = .exec (.acqBurst .zeroCount) ∧ t.pcount = 0) ∨
      ((takeMove s).1 = .trigIsr ∧ s.trigArmed = true ∧ s.trigInsvc = false ∧ 0 < s.trigReq ∧
        (t.trigInsvc = true ∨ t.dstate = .halted) ∧ t.pcount = s.pcount + 1) ∨
      ((takeMove s).1 = .reset ∧ t.pcount = 0)) ∧
    (t.rcount = s.rcount ∨ (s.dstate = .exec (.rate .zeroCount) ∧ t.rcount = 0) ∨
      ((takeMove s).1 = .rateIsr ∧ s.rateArmed = true ∧ s.rateInsvc = false ∧ 0 < s.rateReq ∧
        t.rateInsvc = true ∧ t.rcount = s.rcount + 1 ∧ t.events = s.events ++ [.clrPulse s.par.clrPulseUs]) ∨
      ((takeMove s).1 = .reset ∧ t.rcount = 0))

/-- R37, R72, R140: time advances only by ticks: over any listed moves without a reset, whatever they are, the run goes
through, takes exactly those moves, and `NOW` has grown by the number of ticks among them (a u64, so it wraps). -/
def Obligations.NowCountsTicks : Prop :=
  ∀ (s : State) (ms ms' : List Move), .reset ∉ ms → s.schedule = ms ++ ms' →
    ∃ t, runFor ms.length s = .next t ∧ t.schedule = ms' ∧ t.now = s.now + BitVec.ofNat 64 (ms.count .tick)

/-- R114, R108, R106, R115: any list of requests of all thirteen opcodes, issued serially: each request's datagrams are
delivered when the one before it has returned, its opcode and its payload in two datagrams. Exactly one handler runs
for each, in sending order, each with its own payload: the state at the end is the effects of the commands, one after
the other, with every answer in its place. The block is then at rest, and the run of the script has an end (R117).
A stream and a burst stand here with a target of 0; other targets are `StreamRun` and `BurstGroupsDelivered`. The settling
delay is the default and no edge comes. -/
def Obligations.SerialRequestsInOrder : Prop :=
  ∀ (s t : State) (cs : List Command) (ms : List Move) (moves : List Move),
    atRest s = true → s.dcont = none → s.par.settleUs = 500000 → settleWindow s = none →
    s.label.length = s.par.labelLen →
    (∀ c ∈ cs, c.wellFormed s.par.labelLen = true ∧ (∀ n, c = .acqStream n → n = 0) ∧
      (∀ n, c = .acqBurst n → n = 0)) →
    s.now.toNat + (cs.map (serviceTicks s.par)).sum < 2 ^ 64 →
    moves = cs.flatMap (serialMoves s.par) → s.schedule = moves ++ ms →
    t = { cs.foldl (fun u c => served c u) s with schedule := ms } →
    runFor moves.length s = .next t ∧ atRest t = true ∧
      (endOfRun (cs.flatMap encodeCommand) moves.length [] s).isSome = true
end

