-- ==== Sys2Proof/Laws/Bytes.lean ====
section
/-! SUPPORT. Byte order: what the little-endian primitives of R11 do, and what the check of a configuration gives. -/

namespace Sys2Proof

@[simp] theorem leBytes_length (n v : Nat) : (leBytes n v).length = n := by
  induction n generalizing v with
  | zero => rfl
  | succ n ih => simp [leBytes, ih]

/-- Reading the bytes of a value gives the value modulo the width (R11). -/
theorem leNat_leBytes (n v : Nat) : leNat (leBytes n v) = v % 256 ^ n := by
  induction n generalizing v with
  | zero => simp [leBytes, leNat, Nat.mod_one]
  | succ n ih =>
    have h : v % 256 ^ (n + 1) = v % 256 + 256 * (v / 256 % 256 ^ n) := by rw [Nat.pow_succ', Nat.mod_mul]
    simp only [leBytes, leNat, ih, BitVec.toNat_ofNat, h]

/-- `k` bytes read little-endian stay below `256^k` (R11). -/
theorem leNat_lt (d : List Byte) : leNat d < 256 ^ d.length := by
  induction d with
  | nil => simp [leNat]
  | cons b d ih =>
    have hb := b.isLt
    simp only [leNat, List.length_cons, Nat.pow_succ]
    omega

/-- What R6 guarantees of a built block, constraint by constraint. -/
theorem Board.meets (b : Board) (c : Constraint) : b.params.meets c = true := by
  have h : b.params.broken = [] := by simpa [Params.valid] using b.ok
  have hc : c ∈ Constraint.all := by cases c <;> decide
  by_contra hm
  have : c ∈ b.params.broken := List.mem_filter.mpr ⟨hc, by simpa using hm⟩
  simp [h] at this

theorem Board.gainAddr_ne_thrAddr (b : Board) : b.params.gainAddr ≠ b.params.thrAddr := by
  simpa [Params.meets] using b.meets .addrsDiffer

theorem Board.settleUs_range (b : Board) : 200000 ≤ b.params.settleUs ∧ b.params.settleUs ≤ 500000 := by
  simpa [Params.meets] using b.meets .settleInRange

theorem Board.burstBuf_quads (b : Board) : b.params.burstBuf % 4 = 0 := by
  simpa [Params.meets] using b.meets .burstBufQuads

theorem Board.burstBuf_min (b : Board) : 8 ≤ b.params.burstBuf := by
  simpa [Params.meets] using b.meets .burstBufMin

theorem Board.burstCkpt_quads (b : Board) : b.params.burstCkpt % 4 = 0 := by
  simpa [Params.meets] using b.meets .burstCkptQuads

theorem Board.burstCkpt_inside (b : Board) : b.params.burstCkpt < b.params.burstBuf := by
  simpa [Params.meets] using b.meets .burstCkptInside

theorem Board.deferDepth_min (b : Board) : 1 ≤ b.params.deferDepth := by
  simpa [Params.meets] using b.meets .deferDepthMin

theorem Board.chunkPairs_min (b : Board) : 1 ≤ b.params.chunkPairs := by
  simpa [Params.meets] using b.meets .chunkPairsMin

theorem Board.polledBuf_min (b : Board) : 4 ≤ b.params.polledBuf := by
  simpa [Params.meets] using b.meets .polledBufMin

theorem Board.rateWindowS_min (b : Board) : 1 ≤ b.params.rateWindowS := by
  simpa [Params.meets] using b.meets .rateWindowMin

theorem Board.labelLen_min (b : Board) : 1 ≤ b.params.labelLen := by
  simpa [Params.meets] using b.meets .labelLenMin

end Sys2Proof
end

