-- ==== Sys2Proof/Laws/Memory.lean ====
section
/-! SUPPORT. The positions on the bus: every operation keeps the canonical form, a read after a write, and the form at
power-on. -/

namespace Sys2Proof.Machine

/-- The canonical form in words: the addresses strictly rise and each is below 128. -/
theorem Memory.wf_iff (m : Memory) :
    m.wf = true ↔ (m.map Prod.fst).Pairwise (· < ·) ∧ ∀ a ∈ m.map Prod.fst, a < 128 := by
  induction m with
  | nil => simp [Memory.wf]
  | cons c m ih =>
    cases m with
    | nil => simp [Memory.wf]
    | cons c' m =>
      simp only [Memory.wf, Bool.and_eq_true, decide_eq_true_eq, ih, List.map_cons, List.pairwise_cons,
        List.forall_mem_cons]
      constructor
      · rintro ⟨h, ⟨h1, h2⟩, h3, h4⟩
        exact ⟨⟨⟨h, fun a ha => Nat.lt_trans h (h1 a ha)⟩, h1, h2⟩, Nat.lt_trans h h3, h3, h4⟩
      · rintro ⟨⟨⟨h, -⟩, h1, h2⟩, -, h3, h4⟩
        exact ⟨h, ⟨h1, h2⟩, h3, h4⟩

/-- The form depends on the addresses alone. -/
theorem Memory.wf_congr {m m' : Memory} (h : m.map Prod.fst = m'.map Prod.fst) : m.wf = m'.wf := by
  rw [Bool.eq_iff_iff, Memory.wf_iff, Memory.wf_iff, h]

/-- A write changes no address. -/
@[simp] theorem Memory.write_addresses (m : Memory) (a : BusAddr) (v : Byte) :
    (m.write a v).map Prod.fst = m.map Prod.fst := by
  induction m with
  | nil => rfl
  | cons c m ih =>
    simp only [Memory.write, List.map_cons, ih]
    split <;> rfl

/-- A write keeps the canonical form. -/
@[simp] theorem Memory.write_wf (m : Memory) (a : BusAddr) (v : Byte) : (m.write a v).wf = m.wf :=
  Memory.wf_congr (Memory.write_addresses m a v)

/-- A reset's new positions change no address. -/
@[simp] theorem redrawPositions_addresses (n : Nat) (m : Memory) :
    (redrawPositions n m).map Prod.fst = m.map Prod.fst := by
  simp [redrawPositions]

/-- A reset keeps the canonical form. -/
@[simp] theorem redrawPositions_wf (n : Nat) (m : Memory) : (redrawPositions n m).wf = m.wf :=
  Memory.wf_congr (redrawPositions_addresses n m)

/-- The bus after power-on is in canonical form. -/
theorem powerOnBus_wf : powerOnBus.wf = true := by
  rw [Memory.wf_iff]
  have h : powerOnBus.map Prod.fst = (List.range 128).filter fun a => Config.deviceFitted (BitVec.ofNat 7 a) := by
    simp [powerOnBus, List.map_map, Function.comp_def]
  rw [h]
  exact ⟨List.pairwise_lt_range.filter _, fun a ha => by simpa using List.mem_of_mem_filter ha⟩

/-- The reset state's memory is in canonical form. -/
theorem reset_memory_wf : State.reset.pots.wf = true := powerOnBus_wf

/-- A read of the address just written: the value written, where a device answers. -/
theorem Memory.read_write_same (m : Memory) (a : BusAddr) (v : Byte) :
    (m.write a v).read a = (m.read a).map fun _ => v := by
  induction m with
  | nil => rfl
  | cons c m ih => by_cases h : c.1 = a.toNat <;> simp [Memory.read, Memory.write, h, ih]

/-- A read of any other address: as before. -/
theorem Memory.read_write_other (m : Memory) (a b : BusAddr) (v : Byte) (hab : b ≠ a) :
    (m.write a v).read b = m.read b := by
  have hn : a.toNat ≠ b.toNat := fun h => hab (BitVec.eq_of_toNat_eq h.symm)
  induction m with
  | nil => rfl
  | cons c m ih =>
    by_cases h : c.1 = a.toNat
    · simp [Memory.read, Memory.write, h, hn, ih]
    · simp only [Memory.read, Memory.write, h, if_false, ih]

/-- A write answers for the same devices as before. -/
theorem Memory.read_write_isSome (m : Memory) (a b : BusAddr) (v : Byte) :
    ((m.write a v).read b).isSome = (m.read b).isSome := by
  by_cases h : b = a
  · subst h; rw [Memory.read_write_same]; simp
  · rw [Memory.read_write_other m a b v h]

end Sys2Proof.Machine
end

