-- ==== Sys2Proof/Laws/State.lean ====
section
/-! SUPPORT. What each named update of the state does to each field, true by unfolding, so that no proof unfolds a
record update. -/

namespace Sys2Proof.Machine

/-! Sequencing: the running handler moves to its next line. -/

@[simp] theorem goto_cfg (a : Activity) (s : State) : (goto a s).cfg = s.cfg := rfl
@[simp] theorem goto_dstate (a : Activity) (s : State) : (goto a s).dstate = .exec a := rfl
@[simp] theorem goto_mode (a : Activity) (s : State) : (goto a s).mode = s.mode := rfl
@[simp] theorem goto_pol (a : Activity) (s : State) : (goto a s).pol = s.pol := rfl
@[simp] theorem goto_tpen (a : Activity) (s : State) : (goto a s).tpen = s.tpen := rfl
@[simp] theorem goto_label (a : Activity) (s : State) : (goto a s).label = s.label := rfl
@[simp] theorem goto_pcount (a : Activity) (s : State) : (goto a s).pcount = s.pcount := rfl
@[simp] theorem goto_btarget (a : Activity) (s : State) : (goto a s).btarget = s.btarget := rfl
@[simp] theorem goto_rcount (a : Activity) (s : State) : (goto a s).rcount = s.rcount := rfl
@[simp] theorem goto_starget (a : Activity) (s : State) : (goto a s).starget = s.starget := rfl
@[simp] theorem goto_sdone (a : Activity) (s : State) : (goto a s).sdone = s.sdone := rfl
@[simp] theorem goto_fill (a : Activity) (s : State) : (goto a s).fill = s.fill := rfl
@[simp] theorem goto_trigArmed (a : Activity) (s : State) : (goto a s).trigArmed = s.trigArmed := rfl
@[simp] theorem goto_rateArmed (a : Activity) (s : State) : (goto a s).rateArmed = s.rateArmed := rfl
@[simp] theorem goto_trigInsvc (a : Activity) (s : State) : (goto a s).trigInsvc = s.trigInsvc := rfl
@[simp] theorem goto_trigPend (a : Activity) (s : State) : (goto a s).trigPend = s.trigPend := rfl
@[simp] theorem goto_rateInsvc (a : Activity) (s : State) : (goto a s).rateInsvc = s.rateInsvc := rfl
@[simp] theorem goto_ratePend (a : Activity) (s : State) : (goto a s).ratePend = s.ratePend := rfl
@[simp] theorem goto_dq (a : Activity) (s : State) : (goto a s).dq = s.dq := rfl
@[simp] theorem goto_dcont (a : Activity) (s : State) : (goto a s).dcont = s.dcont := rfl
@[simp] theorem goto_now (a : Activity) (s : State) : (goto a s).now = s.now := rfl
@[simp] theorem goto_tsec (a : Activity) (s : State) : (goto a s).tsec = s.tsec := rfl
@[simp] theorem goto_tusec (a : Activity) (s : State) : (goto a s).tusec = s.tusec := rfl
@[simp] theorem goto_lastwr (a : Activity) (s : State) : (goto a s).lastwr = s.lastwr := rfl
@[simp] theorem goto_sb (a : Activity) (s : State) : (goto a s).sb = s.sb := rfl
@[simp] theorem goto_bb (a : Activity) (s : State) : (goto a s).bb = s.bb := rfl
@[simp] theorem goto_chunk (a : Activity) (s : State) : (goto a s).chunk = s.chunk := rfl
@[simp] theorem goto_pbuf (a : Activity) (s : State) : (goto a s).pbuf = s.pbuf := rfl
@[simp] theorem goto_faults (a : Activity) (s : State) : (goto a s).faults = s.faults := rfl
@[simp] theorem goto_buserr (a : Activity) (s : State) : (goto a s).buserr = s.buserr := rfl
@[simp] theorem goto_cin (a : Activity) (s : State) : (goto a s).cin = s.cin := rfl
@[simp] theorem goto_cout (a : Activity) (s : State) : (goto a s).cout = s.cout := rfl
@[simp] theorem goto_sout (a : Activity) (s : State) : (goto a s).sout = s.sout := rfl
@[simp] theorem goto_events (a : Activity) (s : State) : (goto a s).events = s.events := rfl
@[simp] theorem goto_pots (a : Activity) (s : State) : (goto a s).pots = s.pots := rfl
@[simp] theorem goto_opv (a : Activity) (s : State) : (goto a s).opv = s.opv := rfl
@[simp] theorem goto_trigReq (a : Activity) (s : State) : (goto a s).trigReq = s.trigReq := rfl
@[simp] theorem goto_rateReq (a : Activity) (s : State) : (goto a s).rateReq = s.rateReq := rfl
@[simp] theorem goto_schedule (a : Activity) (s : State) : (goto a s).schedule = s.schedule := rfl
@[simp] theorem goto_adcIn (a : Activity) (s : State) : (goto a s).adcIn = s.adcIn := rfl
@[simp] theorem goto_coinIn (a : Activity) (s : State) : (goto a s).coinIn = s.coinIn := rfl
@[simp] theorem goto_drawn (a : Activity) (s : State) : (goto a s).drawn = s.drawn := rfl
@[simp] theorem goto_resets (a : Activity) (s : State) : (goto a s).resets = s.resets := rfl

/-! The return of a handler (R107). -/

@[simp] theorem handlerReturn_cfg (s : State) : (handlerReturn s).cfg = s.cfg := rfl
@[simp] theorem handlerReturn_dstate (s : State) : (handlerReturn s).dstate = .idle := rfl
@[simp] theorem handlerReturn_mode (s : State) : (handlerReturn s).mode = .none := rfl
@[simp] theorem handlerReturn_pol (s : State) : (handlerReturn s).pol = s.pol := rfl
@[simp] theorem handlerReturn_tpen (s : State) : (handlerReturn s).tpen = s.tpen := rfl
@[simp] theorem handlerReturn_label (s : State) : (handlerReturn s).label = s.label := rfl
@[simp] theorem handlerReturn_pcount (s : State) : (handlerReturn s).pcount = s.pcount := rfl
@[simp] theorem handlerReturn_btarget (s : State) : (handlerReturn s).btarget = s.btarget := rfl
@[simp] theorem handlerReturn_rcount (s : State) : (handlerReturn s).rcount = s.rcount := rfl
@[simp] theorem handlerReturn_starget (s : State) : (handlerReturn s).starget = s.starget := rfl
@[simp] theorem handlerReturn_sdone (s : State) : (handlerReturn s).sdone = s.sdone := rfl
@[simp] theorem handlerReturn_fill (s : State) : (handlerReturn s).fill = s.fill := rfl
@[simp] theorem handlerReturn_trigArmed (s : State) : (handlerReturn s).trigArmed = s.trigArmed := rfl
@[simp] theorem handlerReturn_rateArmed (s : State) : (handlerReturn s).rateArmed = s.rateArmed := rfl
@[simp] theorem handlerReturn_trigInsvc (s : State) : (handlerReturn s).trigInsvc = s.trigInsvc := rfl
@[simp] theorem handlerReturn_trigPend (s : State) : (handlerReturn s).trigPend = s.trigPend := rfl
@[simp] theorem handlerReturn_rateInsvc (s : State) : (handlerReturn s).rateInsvc = s.rateInsvc := rfl
@[simp] theorem handlerReturn_ratePend (s : State) : (handlerReturn s).ratePend = s.ratePend := rfl
@[simp] theorem handlerReturn_dq (s : State) : (handlerReturn s).dq = s.dq := rfl
@[simp] theorem handlerReturn_dcont (s : State) : (handlerReturn s).dcont = s.dcont := rfl
@[simp] theorem handlerReturn_now (s : State) : (handlerReturn s).now = s.now := rfl
@[simp] theorem handlerReturn_tsec (s : State) : (handlerReturn s).tsec = s.tsec := rfl
@[simp] theorem handlerReturn_tusec (s : State) : (handlerReturn s).tusec = s.tusec := rfl
@[simp] theorem handlerReturn_lastwr (s : State) : (handlerReturn s).lastwr = s.lastwr := rfl
@[simp] theorem handlerReturn_sb (s : State) : (handlerReturn s).sb = s.sb := rfl
@[simp] theorem handlerReturn_bb (s : State) : (handlerReturn s).bb = s.bb := rfl
@[simp] theorem handlerReturn_chunk (s : State) : (handlerReturn s).chunk = s.chunk := rfl
@[simp] theorem handlerReturn_pbuf (s : State) : (handlerReturn s).pbuf = s.pbuf := rfl
@[simp] theorem handlerReturn_faults (s : State) : (handlerReturn s).faults = s.faults := rfl
@[simp] theorem handlerReturn_buserr (s : State) : (handlerReturn s).buserr = s.buserr := rfl
@[simp] theorem handlerReturn_cin (s : State) : (handlerReturn s).cin = s.cin := rfl
@[simp] theorem handlerReturn_cout (s : State) : (handlerReturn s).cout = s.cout := rfl
@[simp] theorem handlerReturn_sout (s : State) : (handlerReturn s).sout = s.sout := rfl
@[simp] theorem handlerReturn_events (s : State) : (handlerReturn s).events = s.events := rfl
@[simp] theorem handlerReturn_pots (s : State) : (handlerReturn s).pots = s.pots := rfl
@[simp] theorem handlerReturn_opv (s : State) : (handlerReturn s).opv = s.opv := rfl
@[simp] theorem handlerReturn_trigReq (s : State) : (handlerReturn s).trigReq = s.trigReq := rfl
@[simp] theorem handlerReturn_rateReq (s : State) : (handlerReturn s).rateReq = s.rateReq := rfl
@[simp] theorem handlerReturn_schedule (s : State) : (handlerReturn s).schedule = s.schedule := rfl
@[simp] theorem handlerReturn_adcIn (s : State) : (handlerReturn s).adcIn = s.adcIn := rfl
@[simp] theorem handlerReturn_coinIn (s : State) : (handlerReturn s).coinIn = s.coinIn := rfl
@[simp] theorem handlerReturn_drawn (s : State) : (handlerReturn s).drawn = s.drawn := rfl
@[simp] theorem handlerReturn_resets (s : State) : (handlerReturn s).resets = s.resets := rfl

/-! `MODE <- m` (R24). -/

@[simp] theorem setMode_cfg (m : Mode) (s : State) : (setMode m s).cfg = s.cfg := rfl
@[simp] theorem setMode_dstate (m : Mode) (s : State) : (setMode m s).dstate = s.dstate := rfl
@[simp] theorem setMode_mode (m : Mode) (s : State) : (setMode m s).mode = m := rfl
@[simp] theorem setMode_pol (m : Mode) (s : State) : (setMode m s).pol = s.pol := rfl
@[simp] theorem setMode_tpen (m : Mode) (s : State) : (setMode m s).tpen = s.tpen := rfl
@[simp] theorem setMode_label (m : Mode) (s : State) : (setMode m s).label = s.label := rfl
@[simp] theorem setMode_pcount (m : Mode) (s : State) : (setMode m s).pcount = s.pcount := rfl
@[simp] theorem setMode_btarget (m : Mode) (s : State) : (setMode m s).btarget = s.btarget := rfl
@[simp] theorem setMode_rcount (m : Mode) (s : State) : (setMode m s).rcount = s.rcount := rfl
@[simp] theorem setMode_starget (m : Mode) (s : State) : (setMode m s).starget = s.starget := rfl
@[simp] theorem setMode_sdone (m : Mode) (s : State) : (setMode m s).sdone = s.sdone := rfl
@[simp] theorem setMode_fill (m : Mode) (s : State) : (setMode m s).fill = s.fill := rfl
@[simp] theorem setMode_trigArmed (m : Mode) (s : State) : (setMode m s).trigArmed = s.trigArmed := rfl
@[simp] theorem setMode_rateArmed (m : Mode) (s : State) : (setMode m s).rateArmed = s.rateArmed := rfl
@[simp] theorem setMode_trigInsvc (m : Mode) (s : State) : (setMode m s).trigInsvc = s.trigInsvc := rfl
@[simp] theorem setMode_trigPend (m : Mode) (s : State) : (setMode m s).trigPend = s.trigPend := rfl
@[simp] theorem setMode_rateInsvc (m : Mode) (s : State) : (setMode m s).rateInsvc = s.rateInsvc := rfl
@[simp] theorem setMode_ratePend (m : Mode) (s : State) : (setMode m s).ratePend = s.ratePend := rfl
@[simp] theorem setMode_dq (m : Mode) (s : State) : (setMode m s).dq = s.dq := rfl
@[simp] theorem setMode_dcont (m : Mode) (s : State) : (setMode m s).dcont = s.dcont := rfl
@[simp] theorem setMode_now (m : Mode) (s : State) : (setMode m s).now = s.now := rfl
@[simp] theorem setMode_tsec (m : Mode) (s : State) : (setMode m s).tsec = s.tsec := rfl
@[simp] theorem setMode_tusec (m : Mode) (s : State) : (setMode m s).tusec = s.tusec := rfl
@[simp] theorem setMode_lastwr (m : Mode) (s : State) : (setMode m s).lastwr = s.lastwr := rfl
@[simp] theorem setMode_sb (m : Mode) (s : State) : (setMode m s).sb = s.sb := rfl
@[simp] theorem setMode_bb (m : Mode) (s : State) : (setMode m s).bb = s.bb := rfl
@[simp] theorem setMode_chunk (m : Mode) (s : State) : (setMode m s).chunk = s.chunk := rfl
@[simp] theorem setMode_pbuf (m : Mode) (s : State) : (setMode m s).pbuf = s.pbuf := rfl
@[simp] theorem setMode_faults (m : Mode) (s : State) : (setMode m s).faults = s.faults := rfl
@[simp] theorem setMode_buserr (m : Mode) (s : State) : (setMode m s).buserr = s.buserr := rfl
@[simp] theorem setMode_cin (m : Mode) (s : State) : (setMode m s).cin = s.cin := rfl
@[simp] theorem setMode_cout (m : Mode) (s : State) : (setMode m s).cout = s.cout := rfl
@[simp] theorem setMode_sout (m : Mode) (s : State) : (setMode m s).sout = s.sout := rfl
@[simp] theorem setMode_events (m : Mode) (s : State) : (setMode m s).events = s.events := rfl
@[simp] theorem setMode_pots (m : Mode) (s : State) : (setMode m s).pots = s.pots := rfl
@[simp] theorem setMode_opv (m : Mode) (s : State) : (setMode m s).opv = s.opv := rfl
@[simp] theorem setMode_trigReq (m : Mode) (s : State) : (setMode m s).trigReq = s.trigReq := rfl
@[simp] theorem setMode_rateReq (m : Mode) (s : State) : (setMode m s).rateReq = s.rateReq := rfl
@[simp] theorem setMode_schedule (m : Mode) (s : State) : (setMode m s).schedule = s.schedule := rfl
@[simp] theorem setMode_adcIn (m : Mode) (s : State) : (setMode m s).adcIn = s.adcIn := rfl
@[simp] theorem setMode_coinIn (m : Mode) (s : State) : (setMode m s).coinIn = s.coinIn := rfl
@[simp] theorem setMode_drawn (m : Mode) (s : State) : (setMode m s).drawn = s.drawn := rfl
@[simp] theorem setMode_resets (m : Mode) (s : State) : (setMode m s).resets = s.resets := rfl

/-! `Drain()` (R65). -/

@[simp] theorem drain_cfg (s : State) : (drain s).cfg = s.cfg := rfl
@[simp] theorem drain_dstate (s : State) : (drain s).dstate = s.dstate := rfl
@[simp] theorem drain_mode (s : State) : (drain s).mode = s.mode := rfl
@[simp] theorem drain_pol (s : State) : (drain s).pol = s.pol := rfl
@[simp] theorem drain_tpen (s : State) : (drain s).tpen = s.tpen := rfl
@[simp] theorem drain_label (s : State) : (drain s).label = s.label := rfl
@[simp] theorem drain_pcount (s : State) : (drain s).pcount = s.pcount := rfl
@[simp] theorem drain_btarget (s : State) : (drain s).btarget = s.btarget := rfl
@[simp] theorem drain_rcount (s : State) : (drain s).rcount = s.rcount := rfl
@[simp] theorem drain_starget (s : State) : (drain s).starget = s.starget := rfl
@[simp] theorem drain_sdone (s : State) : (drain s).sdone = s.sdone := rfl
@[simp] theorem drain_fill (s : State) : (drain s).fill = s.fill := rfl
@[simp] theorem drain_trigArmed (s : State) : (drain s).trigArmed = s.trigArmed := rfl
@[simp] theorem drain_rateArmed (s : State) : (drain s).rateArmed = s.rateArmed := rfl
@[simp] theorem drain_trigInsvc (s : State) : (drain s).trigInsvc = s.trigInsvc := rfl
@[simp] theorem drain_trigPend (s : State) : (drain s).trigPend = s.trigPend := rfl
@[simp] theorem drain_rateInsvc (s : State) : (drain s).rateInsvc = s.rateInsvc := rfl
@[simp] theorem drain_ratePend (s : State) : (drain s).ratePend = s.ratePend := rfl
@[simp] theorem drain_dq (s : State) : (drain s).dq = s.dq := rfl
@[simp] theorem drain_dcont (s : State) : (drain s).dcont = s.dcont := rfl
@[simp] theorem drain_now (s : State) : (drain s).now = s.now := rfl
@[simp] theorem drain_tsec (s : State) : (drain s).tsec = s.tsec := rfl
@[simp] theorem drain_tusec (s : State) : (drain s).tusec = s.tusec := rfl
@[simp] theorem drain_lastwr (s : State) : (drain s).lastwr = s.lastwr := rfl
@[simp] theorem drain_sb (s : State) : (drain s).sb = s.sb := rfl
@[simp] theorem drain_bb (s : State) : (drain s).bb = s.bb := rfl
@[simp] theorem drain_chunk (s : State) : (drain s).chunk = s.chunk := rfl
@[simp] theorem drain_pbuf (s : State) : (drain s).pbuf = s.pbuf := rfl
@[simp] theorem drain_faults (s : State) : (drain s).faults = s.faults := rfl
@[simp] theorem drain_buserr (s : State) : (drain s).buserr = s.buserr := rfl
@[simp] theorem drain_cin (s : State) : (drain s).cin = [] := rfl
@[simp] theorem drain_cout (s : State) : (drain s).cout = s.cout := rfl
@[simp] theorem drain_sout (s : State) : (drain s).sout = s.sout := rfl
@[simp] theorem drain_events (s : State) : (drain s).events = s.events := rfl
@[simp] theorem drain_pots (s : State) : (drain s).pots = s.pots := rfl
@[simp] theorem drain_opv (s : State) : (drain s).opv = s.opv := rfl
@[simp] theorem drain_trigReq (s : State) : (drain s).trigReq = s.trigReq := rfl
@[simp] theorem drain_rateReq (s : State) : (drain s).rateReq = s.rateReq := rfl
@[simp] theorem drain_schedule (s : State) : (drain s).schedule = s.schedule := rfl
@[simp] theorem drain_adcIn (s : State) : (drain s).adcIn = s.adcIn := rfl
@[simp] theorem drain_coinIn (s : State) : (drain s).coinIn = s.coinIn := rfl
@[simp] theorem drain_drawn (s : State) : (drain s).drawn = s.drawn := rfl
@[simp] theorem drain_resets (s : State) : (drain s).resets = s.resets := rfl

/-! `CmdSend` (R66). -/

@[simp] theorem cmdSend_cfg (b : Datagram) (s : State) : (cmdSend b s).cfg = s.cfg := rfl
@[simp] theorem cmdSend_dstate (b : Datagram) (s : State) : (cmdSend b s).dstate = s.dstate := rfl
@[simp] theorem cmdSend_mode (b : Datagram) (s : State) : (cmdSend b s).mode = s.mode := rfl
@[simp] theorem cmdSend_pol (b : Datagram) (s : State) : (cmdSend b s).pol = s.pol := rfl
@[simp] theorem cmdSend_tpen (b : Datagram) (s : State) : (cmdSend b s).tpen = s.tpen := rfl
@[simp] theorem cmdSend_label (b : Datagram) (s : State) : (cmdSend b s).label = s.label := rfl
@[simp] theorem cmdSend_pcount (b : Datagram) (s : State) : (cmdSend b s).pcount = s.pcount := rfl
@[simp] theorem cmdSend_btarget (b : Datagram) (s : State) : (cmdSend b s).btarget = s.btarget := rfl
@[simp] theorem cmdSend_rcount (b : Datagram) (s : State) : (cmdSend b s).rcount = s.rcount := rfl
@[simp] theorem cmdSend_starget (b : Datagram) (s : State) : (cmdSend b s).starget = s.starget := rfl
@[simp] theorem cmdSend_sdone (b : Datagram) (s : State) : (cmdSend b s).sdone = s.sdone := rfl
@[simp] theorem cmdSend_fill (b : Datagram) (s : State) : (cmdSend b s).fill = s.fill := rfl
@[simp] theorem cmdSend_trigArmed (b : Datagram) (s : State) : (cmdSend b s).trigArmed = s.trigArmed := rfl
@[simp] theorem cmdSend_rateArmed (b : Datagram) (s : State) : (cmdSend b s).rateArmed = s.rateArmed := rfl
@[simp] theorem cmdSend_trigInsvc (b : Datagram) (s : State) : (cmdSend b s).trigInsvc = s.trigInsvc := rfl
@[simp] theorem cmdSend_trigPend (b : Datagram) (s : State) : (cmdSend b s).trigPend = s.trigPend := rfl
@[simp] theorem cmdSend_rateInsvc (b : Datagram) (s : State) : (cmdSend b s).rateInsvc = s.rateInsvc := rfl
@[simp] theorem cmdSend_ratePend (b : Datagram) (s : State) : (cmdSend b s).ratePend = s.ratePend := rfl
@[simp] theorem cmdSend_dq (b : Datagram) (s : State) : (cmdSend b s).dq = s.dq := rfl
@[simp] theorem cmdSend_dcont (b : Datagram) (s : State) : (cmdSend b s).dcont = s.dcont := rfl
@[simp] theorem cmdSend_now (b : Datagram) (s : State) : (cmdSend b s).now = s.now := rfl
@[simp] theorem cmdSend_tsec (b : Datagram) (s : State) : (cmdSend b s).tsec = s.tsec := rfl
@[simp] theorem cmdSend_tusec (b : Datagram) (s : State) : (cmdSend b s).tusec = s.tusec := rfl
@[simp] theorem cmdSend_lastwr (b : Datagram) (s : State) : (cmdSend b s).lastwr = s.lastwr := rfl
@[simp] theorem cmdSend_sb (b : Datagram) (s : State) : (cmdSend b s).sb = s.sb := rfl
@[simp] theorem cmdSend_bb (b : Datagram) (s : State) : (cmdSend b s).bb = s.bb := rfl
@[simp] theorem cmdSend_chunk (b : Datagram) (s : State) : (cmdSend b s).chunk = s.chunk := rfl
@[simp] theorem cmdSend_pbuf (b : Datagram) (s : State) : (cmdSend b s).pbuf = s.pbuf := rfl
@[simp] theorem cmdSend_faults (b : Datagram) (s : State) : (cmdSend b s).faults = s.faults := rfl
@[simp] theorem cmdSend_buserr (b : Datagram) (s : State) : (cmdSend b s).buserr = s.buserr := rfl
@[simp] theorem cmdSend_cin (b : Datagram) (s : State) : (cmdSend b s).cin = s.cin := rfl
@[simp] theorem cmdSend_cout (b : Datagram) (s : State) : (cmdSend b s).cout = s.cout ++ [b] := rfl
@[simp] theorem cmdSend_sout (b : Datagram) (s : State) : (cmdSend b s).sout = s.sout := rfl
@[simp] theorem cmdSend_events (b : Datagram) (s : State) : (cmdSend b s).events = s.events := rfl
@[simp] theorem cmdSend_pots (b : Datagram) (s : State) : (cmdSend b s).pots = s.pots := rfl
@[simp] theorem cmdSend_opv (b : Datagram) (s : State) : (cmdSend b s).opv = s.opv := rfl
@[simp] theorem cmdSend_trigReq (b : Datagram) (s : State) : (cmdSend b s).trigReq = s.trigReq := rfl
@[simp] theorem cmdSend_rateReq (b : Datagram) (s : State) : (cmdSend b s).rateReq = s.rateReq := rfl
@[simp] theorem cmdSend_schedule (b : Datagram) (s : State) : (cmdSend b s).schedule = s.schedule := rfl
@[simp] theorem cmdSend_adcIn (b : Datagram) (s : State) : (cmdSend b s).adcIn = s.adcIn := rfl
@[simp] theorem cmdSend_coinIn (b : Datagram) (s : State) : (cmdSend b s).coinIn = s.coinIn := rfl
@[simp] theorem cmdSend_drawn (b : Datagram) (s : State) : (cmdSend b s).drawn = s.drawn := rfl
@[simp] theorem cmdSend_resets (b : Datagram) (s : State) : (cmdSend b s).resets = s.resets := rfl

/-! `StreamSend` (R67). -/

@[simp] theorem streamSend_cfg (b : Datagram) (s : State) : (streamSend b s).cfg = s.cfg := rfl
@[simp] theorem streamSend_dstate (b : Datagram) (s : State) : (streamSend b s).dstate = s.dstate := rfl
@[simp] theorem streamSend_mode (b : Datagram) (s : State) : (streamSend b s).mode = s.mode := rfl
@[simp] theorem streamSend_pol (b : Datagram) (s : State) : (streamSend b s).pol = s.pol := rfl
@[simp] theorem streamSend_tpen (b : Datagram) (s : State) : (streamSend b s).tpen = s.tpen := rfl
@[simp] theorem streamSend_label (b : Datagram) (s : State) : (streamSend b s).label = s.label := rfl
@[simp] theorem streamSend_pcount (b : Datagram) (s : State) : (streamSend b s).pcount = s.pcount := rfl
@[simp] theorem streamSend_btarget (b : Datagram) (s : State) : (streamSend b s).btarget = s.btarget := rfl
@[simp] theorem streamSend_rcount (b : Datagram) (s : State) : (streamSend b s).rcount = s.rcount := rfl
@[simp] theorem streamSend_starget (b : Datagram) (s : State) : (streamSend b s).starget = s.starget := rfl
@[simp] theorem streamSend_sdone (b : Datagram) (s : State) : (streamSend b s).sdone = s.sdone := rfl
@[simp] theorem streamSend_fill (b : Datagram) (s : State) : (streamSend b s).fill = s.fill := rfl
@[simp] theorem streamSend_trigArmed (b : Datagram) (s : State) : (streamSend b s).trigArmed = s.trigArmed := rfl
@[simp] theorem streamSend_rateArmed (b : Datagram) (s : State) : (streamSend b s).rateArmed = s.rateArmed := rfl
@[simp] theorem streamSend_trigInsvc (b : Datagram) (s : State) : (streamSend b s).trigInsvc = s.trigInsvc := rfl
@[simp] theorem streamSend_trigPend (b : Datagram) (s : State) : (streamSend b s).trigPend = s.trigPend := rfl
@[simp] theorem streamSend_rateInsvc (b : Datagram) (s : State) : (streamSend b s).rateInsvc = s.rateInsvc := rfl
@[simp] theorem streamSend_ratePend (b : Datagram) (s : State) : (streamSend b s).ratePend = s.ratePend := rfl
@[simp] theorem streamSend_dq (b : Datagram) (s : State) : (streamSend b s).dq = s.dq := rfl
@[simp] theorem streamSend_dcont (b : Datagram) (s : State) : (streamSend b s).dcont = s.dcont := rfl
@[simp] theorem streamSend_now (b : Datagram) (s : State) : (streamSend b s).now = s.now := rfl
@[simp] theorem streamSend_tsec (b : Datagram) (s : State) : (streamSend b s).tsec = s.tsec := rfl
@[simp] theorem streamSend_tusec (b : Datagram) (s : State) : (streamSend b s).tusec = s.tusec := rfl
@[simp] theorem streamSend_lastwr (b : Datagram) (s : State) : (streamSend b s).lastwr = s.lastwr := rfl
@[simp] theorem streamSend_sb (b : Datagram) (s : State) : (streamSend b s).sb = s.sb := rfl
@[simp] theorem streamSend_bb (b : Datagram) (s : State) : (streamSend b s).bb = s.bb := rfl
@[simp] theorem streamSend_chunk (b : Datagram) (s : State) : (streamSend b s).chunk = s.chunk := rfl
@[simp] theorem streamSend_pbuf (b : Datagram) (s : State) : (streamSend b s).pbuf = s.pbuf := rfl
@[simp] theorem streamSend_faults (b : Datagram) (s : State) : (streamSend b s).faults = s.faults := rfl
@[simp] theorem streamSend_buserr (b : Datagram) (s : State) : (streamSend b s).buserr = s.buserr := rfl
@[simp] theorem streamSend_cin (b : Datagram) (s : State) : (streamSend b s).cin = s.cin := rfl
@[simp] theorem streamSend_cout (b : Datagram) (s : State) : (streamSend b s).cout = s.cout := rfl
@[simp] theorem streamSend_sout (b : Datagram) (s : State) : (streamSend b s).sout = s.sout ++ [b] := rfl
@[simp] theorem streamSend_events (b : Datagram) (s : State) : (streamSend b s).events = s.events := rfl
@[simp] theorem streamSend_pots (b : Datagram) (s : State) : (streamSend b s).pots = s.pots := rfl
@[simp] theorem streamSend_opv (b : Datagram) (s : State) : (streamSend b s).opv = s.opv := rfl
@[simp] theorem streamSend_trigReq (b : Datagram) (s : State) : (streamSend b s).trigReq = s.trigReq := rfl
@[simp] theorem streamSend_rateReq (b : Datagram) (s : State) : (streamSend b s).rateReq = s.rateReq := rfl
@[simp] theorem streamSend_schedule (b : Datagram) (s : State) : (streamSend b s).schedule = s.schedule := rfl
@[simp] theorem streamSend_adcIn (b : Datagram) (s : State) : (streamSend b s).adcIn = s.adcIn := rfl
@[simp] theorem streamSend_coinIn (b : Datagram) (s : State) : (streamSend b s).coinIn = s.coinIn := rfl
@[simp] theorem streamSend_drawn (b : Datagram) (s : State) : (streamSend b s).drawn = s.drawn := rfl
@[simp] theorem streamSend_resets (b : Datagram) (s : State) : (streamSend b s).resets = s.resets := rfl

/-! The environment appends a datagram (R115). -/

@[simp] theorem deliver_cfg (d : Datagram) (s : State) : (deliver d s).cfg = s.cfg := rfl
@[simp] theorem deliver_dstate (d : Datagram) (s : State) : (deliver d s).dstate = s.dstate := rfl
@[simp] theorem deliver_mode (d : Datagram) (s : State) : (deliver d s).mode = s.mode := rfl
@[simp] theorem deliver_pol (d : Datagram) (s : State) : (deliver d s).pol = s.pol := rfl
@[simp] theorem deliver_tpen (d : Datagram) (s : State) : (deliver d s).tpen = s.tpen := rfl
@[simp] theorem deliver_label (d : Datagram) (s : State) : (deliver d s).label = s.label := rfl
@[simp] theorem deliver_pcount (d : Datagram) (s : State) : (deliver d s).pcount = s.pcount := rfl
@[simp] theorem deliver_btarget (d : Datagram) (s : State) : (deliver d s).btarget = s.btarget := rfl
@[simp] theorem deliver_rcount (d : Datagram) (s : State) : (deliver d s).rcount = s.rcount := rfl
@[simp] theorem deliver_starget (d : Datagram) (s : State) : (deliver d s).starget = s.starget := rfl
@[simp] theorem deliver_sdone (d : Datagram) (s : State) : (deliver d s).sdone = s.sdone := rfl
@[simp] theorem deliver_fill (d : Datagram) (s : State) : (deliver d s).fill = s.fill := rfl
@[simp] theorem deliver_trigArmed (d : Datagram) (s : State) : (deliver d s).trigArmed = s.trigArmed := rfl
@[simp] theorem deliver_rateArmed (d : Datagram) (s : State) : (deliver d s).rateArmed = s.rateArmed := rfl
@[simp] theorem deliver_trigInsvc (d : Datagram) (s : State) : (deliver d s).trigInsvc = s.trigInsvc := rfl
@[simp] theorem deliver_trigPend (d : Datagram) (s : State) : (deliver d s).trigPend = s.trigPend := rfl
@[simp] theorem deliver_rateInsvc (d : Datagram) (s : State) : (deliver d s).rateInsvc = s.rateInsvc := rfl
@[simp] theorem deliver_ratePend (d : Datagram) (s : State) : (deliver d s).ratePend = s.ratePend := rfl
@[simp] theorem deliver_dq (d : Datagram) (s : State) : (deliver d s).dq = s.dq := rfl
@[simp] theorem deliver_dcont (d : Datagram) (s : State) : (deliver d s).dcont = s.dcont := rfl
@[simp] theorem deliver_now (d : Datagram) (s : State) : (deliver d s).now = s.now := rfl
@[simp] theorem deliver_tsec (d : Datagram) (s : State) : (deliver d s).tsec = s.tsec := rfl
@[simp] theorem deliver_tusec (d : Datagram) (s : State) : (deliver d s).tusec = s.tusec := rfl
@[simp] theorem deliver_lastwr (d : Datagram) (s : State) : (deliver d s).lastwr = s.lastwr := rfl
@[simp] theorem deliver_sb (d : Datagram) (s : State) : (deliver d s).sb = s.sb := rfl
@[simp] theorem deliver_bb (d : Datagram) (s : State) : (deliver d s).bb = s.bb := rfl
@[simp] theorem deliver_chunk (d : Datagram) (s : State) : (deliver d s).chunk = s.chunk := rfl
@[simp] theorem deliver_pbuf (d : Datagram) (s : State) : (deliver d s).pbuf = s.pbuf := rfl
@[simp] theorem deliver_faults (d : Datagram) (s : State) : (deliver d s).faults = s.faults := rfl
@[simp] theorem deliver_buserr (d : Datagram) (s : State) : (deliver d s).buserr = s.buserr := rfl
@[simp] theorem deliver_cin (d : Datagram) (s : State) : (deliver d s).cin = s.cin ++ [d] := rfl
@[simp] theorem deliver_cout (d : Datagram) (s : State) : (deliver d s).cout = s.cout := rfl
@[simp] theorem deliver_sout (d : Datagram) (s : State) : (deliver d s).sout = s.sout := rfl
@[simp] theorem deliver_events (d : Datagram) (s : State) : (deliver d s).events = s.events := rfl
@[simp] theorem deliver_pots (d : Datagram) (s : State) : (deliver d s).pots = s.pots := rfl
@[simp] theorem deliver_opv (d : Datagram) (s : State) : (deliver d s).opv = s.opv := rfl
@[simp] theorem deliver_trigReq (d : Datagram) (s : State) : (deliver d s).trigReq = s.trigReq := rfl
@[simp] theorem deliver_rateReq (d : Datagram) (s : State) : (deliver d s).rateReq = s.rateReq := rfl
@[simp] theorem deliver_schedule (d : Datagram) (s : State) : (deliver d s).schedule = s.schedule := rfl
@[simp] theorem deliver_adcIn (d : Datagram) (s : State) : (deliver d s).adcIn = s.adcIn := rfl
@[simp] theorem deliver_coinIn (d : Datagram) (s : State) : (deliver d s).coinIn = s.coinIn := rfl
@[simp] theorem deliver_drawn (d : Datagram) (s : State) : (deliver d s).drawn = s.drawn := rfl
@[simp] theorem deliver_resets (d : Datagram) (s : State) : (deliver d s).resets = s.resets := rfl

/-! The fatal action (R210). -/

@[simp] theorem raiseFatal_cfg (c : Condition) (s : State) : (raiseFatal c s).cfg = s.cfg := rfl
@[simp] theorem raiseFatal_dstate (c : Condition) (s : State) : (raiseFatal c s).dstate = .halted := rfl
@[simp] theorem raiseFatal_mode (c : Condition) (s : State) : (raiseFatal c s).mode = .none := rfl
@[simp] theorem raiseFatal_pol (c : Condition) (s : State) : (raiseFatal c s).pol = s.pol := rfl
@[simp] theorem raiseFatal_tpen (c : Condition) (s : State) : (raiseFatal c s).tpen = s.tpen := rfl
@[simp] theorem raiseFatal_label (c : Condition) (s : State) : (raiseFatal c s).label = s.label := rfl
@[simp] theorem raiseFatal_pcount (c : Condition) (s : State) : (raiseFatal c s).pcount = s.pcount := rfl
@[simp] theorem raiseFatal_btarget (c : Condition) (s : State) : (raiseFatal c s).btarget = s.btarget := rfl
@[simp] theorem raiseFatal_rcount (c : Condition) (s : State) : (raiseFatal c s).rcount = s.rcount := rfl
@[simp] theorem raiseFatal_starget (c : Condition) (s : State) : (raiseFatal c s).starget = s.starget := rfl
@[simp] theorem raiseFatal_sdone (c : Condition) (s : State) : (raiseFatal c s).sdone = s.sdone := rfl
@[simp] theorem raiseFatal_fill (c : Condition) (s : State) : (raiseFatal c s).fill = none := rfl
@[simp] theorem raiseFatal_trigArmed (c : Condition) (s : State) : (raiseFatal c s).trigArmed = false := rfl
@[simp] theorem raiseFatal_rateArmed (c : Condition) (s : State) : (raiseFatal c s).rateArmed = false := rfl
@[simp] theorem raiseFatal_trigInsvc (c : Condition) (s : State) : (raiseFatal c s).trigInsvc = false := rfl
@[simp] theorem raiseFatal_trigPend (c : Condition) (s : State) : (raiseFatal c s).trigPend = false := rfl
@[simp] theorem raiseFatal_rateInsvc (c : Condition) (s : State) : (raiseFatal c s).rateInsvc = false := rfl
@[simp] theorem raiseFatal_ratePend (c : Condition) (s : State) : (raiseFatal c s).ratePend = false := rfl
@[simp] theorem raiseFatal_dq (c : Condition) (s : State) : (raiseFatal c s).dq = s.dq := rfl
@[simp] theorem raiseFatal_dcont (c : Condition) (s : State) : (raiseFatal c s).dcont = none := rfl
@[simp] theorem raiseFatal_now (c : Condition) (s : State) : (raiseFatal c s).now = s.now := rfl
@[simp] theorem raiseFatal_tsec (c : Condition) (s : State) : (raiseFatal c s).tsec = s.tsec := rfl
@[simp] theorem raiseFatal_tusec (c : Condition) (s : State) : (raiseFatal c s).tusec = s.tusec := rfl
@[simp] theorem raiseFatal_lastwr (c : Condition) (s : State) : (raiseFatal c s).lastwr = s.lastwr := rfl
@[simp] theorem raiseFatal_sb (c : Condition) (s : State) : (raiseFatal c s).sb = s.sb := rfl
@[simp] theorem raiseFatal_bb (c : Condition) (s : State) : (raiseFatal c s).bb = s.bb := rfl
@[simp] theorem raiseFatal_chunk (c : Condition) (s : State) : (raiseFatal c s).chunk = s.chunk := rfl
@[simp] theorem raiseFatal_pbuf (c : Condition) (s : State) : (raiseFatal c s).pbuf = s.pbuf := rfl
@[simp] theorem raiseFatal_faults (c : Condition) (s : State) : (raiseFatal c s).faults = addFault c s.faults := rfl
@[simp] theorem raiseFatal_buserr (c : Condition) (s : State) : (raiseFatal c s).buserr = s.buserr := rfl
@[simp] theorem raiseFatal_cin (c : Condition) (s : State) : (raiseFatal c s).cin = s.cin := rfl
@[simp] theorem raiseFatal_cout (c : Condition) (s : State) : (raiseFatal c s).cout = s.cout := rfl
@[simp] theorem raiseFatal_sout (c : Condition) (s : State) : (raiseFatal c s).sout = s.sout := rfl
@[simp] theorem raiseFatal_events (c : Condition) (s : State) : (raiseFatal c s).events = s.events := rfl
@[simp] theorem raiseFatal_pots (c : Condition) (s : State) : (raiseFatal c s).pots = s.pots := rfl
@[simp] theorem raiseFatal_opv (c : Condition) (s : State) : (raiseFatal c s).opv = s.opv := rfl
@[simp] theorem raiseFatal_trigReq (c : Condition) (s : State) : (raiseFatal c s).trigReq = 0 := rfl
@[simp] theorem raiseFatal_rateReq (c : Condition) (s : State) : (raiseFatal c s).rateReq = 0 := rfl
@[simp] theorem raiseFatal_schedule (c : Condition) (s : State) : (raiseFatal c s).schedule = s.schedule := rfl
@[simp] theorem raiseFatal_adcIn (c : Condition) (s : State) : (raiseFatal c s).adcIn = s.adcIn := rfl
@[simp] theorem raiseFatal_coinIn (c : Condition) (s : State) : (raiseFatal c s).coinIn = s.coinIn := rfl
@[simp] theorem raiseFatal_drawn (c : Condition) (s : State) : (raiseFatal c s).drawn = s.drawn := rfl
@[simp] theorem raiseFatal_resets (c : Condition) (s : State) : (raiseFatal c s).resets = s.resets := rfl

/-! The abort action (R210). -/

@[simp] theorem raiseAbort_cfg (s : State) : (raiseAbort s).cfg = s.cfg := rfl
@[simp] theorem raiseAbort_dstate (s : State) : (raiseAbort s).dstate = .idle := rfl
@[simp] theorem raiseAbort_mode (s : State) : (raiseAbort s).mode = .none := rfl
@[simp] theorem raiseAbort_pol (s : State) : (raiseAbort s).pol = s.pol := rfl
@[simp] theorem raiseAbort_tpen (s : State) : (raiseAbort s).tpen = s.tpen := rfl
@[simp] theorem raiseAbort_label (s : State) : (raiseAbort s).label = s.label := rfl
@[simp] theorem raiseAbort_pcount (s : State) : (raiseAbort s).pcount = s.pcount := rfl
@[simp] theorem raiseAbort_btarget (s : State) : (raiseAbort s).btarget = s.btarget := rfl
@[simp] theorem raiseAbort_rcount (s : State) : (raiseAbort s).rcount = s.rcount := rfl
@[simp] theorem raiseAbort_starget (s : State) : (raiseAbort s).starget = s.starget := rfl
@[simp] theorem raiseAbort_sdone (s : State) : (raiseAbort s).sdone = s.sdone := rfl
@[simp] theorem raiseAbort_fill (s : State) : (raiseAbort s).fill = s.fill := rfl
@[simp] theorem raiseAbort_trigArmed (s : State) : (raiseAbort s).trigArmed = s.trigArmed := rfl
@[simp] theorem raiseAbort_rateArmed (s : State) : (raiseAbort s).rateArmed = s.rateArmed := rfl
@[simp] theorem raiseAbort_trigInsvc (s : State) : (raiseAbort s).trigInsvc = s.trigInsvc := rfl
@[simp] theorem raiseAbort_trigPend (s : State) : (raiseAbort s).trigPend = s.trigPend := rfl
@[simp] theorem raiseAbort_rateInsvc (s : State) : (raiseAbort s).rateInsvc = s.rateInsvc := rfl
@[simp] theorem raiseAbort_ratePend (s : State) : (raiseAbort s).ratePend = s.ratePend := rfl
@[simp] theorem raiseAbort_dq (s : State) : (raiseAbort s).dq = s.dq := rfl
@[simp] theorem raiseAbort_dcont (s : State) : (raiseAbort s).dcont = s.dcont := rfl
@[simp] theorem raiseAbort_now (s : State) : (raiseAbort s).now = s.now := rfl
@[simp] theorem raiseAbort_tsec (s : State) : (raiseAbort s).tsec = s.tsec := rfl
@[simp] theorem raiseAbort_tusec (s : State) : (raiseAbort s).tusec = s.tusec := rfl
@[simp] theorem raiseAbort_lastwr (s : State) : (raiseAbort s).lastwr = s.lastwr := rfl
@[simp] theorem raiseAbort_sb (s : State) : (raiseAbort s).sb = s.sb := rfl
@[simp] theorem raiseAbort_bb (s : State) : (raiseAbort s).bb = s.bb := rfl
@[simp] theorem raiseAbort_chunk (s : State) : (raiseAbort s).chunk = s.chunk := rfl
@[simp] theorem raiseAbort_pbuf (s : State) : (raiseAbort s).pbuf = s.pbuf := rfl
@[simp] theorem raiseAbort_faults (s : State) : (raiseAbort s).faults = s.faults := rfl
@[simp] theorem raiseAbort_buserr (s : State) : (raiseAbort s).buserr = s.buserr + 1 := rfl
@[simp] theorem raiseAbort_cin (s : State) : (raiseAbort s).cin = s.cin := rfl
@[simp] theorem raiseAbort_cout (s : State) : (raiseAbort s).cout = s.cout := rfl
@[simp] theorem raiseAbort_sout (s : State) : (raiseAbort s).sout = s.sout := rfl
@[simp] theorem raiseAbort_events (s : State) : (raiseAbort s).events = s.events := rfl
@[simp] theorem raiseAbort_pots (s : State) : (raiseAbort s).pots = s.pots := rfl
@[simp] theorem raiseAbort_opv (s : State) : (raiseAbort s).opv = s.opv := rfl
@[simp] theorem raiseAbort_trigReq (s : State) : (raiseAbort s).trigReq = s.trigReq := rfl
@[simp] theorem raiseAbort_rateReq (s : State) : (raiseAbort s).rateReq = s.rateReq := rfl
@[simp] theorem raiseAbort_schedule (s : State) : (raiseAbort s).schedule = s.schedule := rfl
@[simp] theorem raiseAbort_adcIn (s : State) : (raiseAbort s).adcIn = s.adcIn := rfl
@[simp] theorem raiseAbort_coinIn (s : State) : (raiseAbort s).coinIn = s.coinIn := rfl
@[simp] theorem raiseAbort_drawn (s : State) : (raiseAbort s).drawn = s.drawn := rfl
@[simp] theorem raiseAbort_resets (s : State) : (raiseAbort s).resets = s.resets := rfl

/-! `POL <- b` (R180, R181). -/

@[simp] theorem setPol_cfg (b : Bool) (s : State) : (setPol b s).cfg = s.cfg := rfl
@[simp] theorem setPol_dstate (b : Bool) (s : State) : (setPol b s).dstate = s.dstate := rfl
@[simp] theorem setPol_mode (b : Bool) (s : State) : (setPol b s).mode = s.mode := rfl
@[simp] theorem setPol_pol (b : Bool) (s : State) : (setPol b s).pol = b := rfl
@[simp] theorem setPol_tpen (b : Bool) (s : State) : (setPol b s).tpen = s.tpen := rfl
@[simp] theorem setPol_label (b : Bool) (s : State) : (setPol b s).label = s.label := rfl
@[simp] theorem setPol_pcount (b : Bool) (s : State) : (setPol b s).pcount = s.pcount := rfl
@[simp] theorem setPol_btarget (b : Bool) (s : State) : (setPol b s).btarget = s.btarget := rfl
@[simp] theorem setPol_rcount (b : Bool) (s : State) : (setPol b s).rcount = s.rcount := rfl
@[simp] theorem setPol_starget (b : Bool) (s : State) : (setPol b s).starget = s.starget := rfl
@[simp] theorem setPol_sdone (b : Bool) (s : State) : (setPol b s).sdone = s.sdone := rfl
@[simp] theorem setPol_fill (b : Bool) (s : State) : (setPol b s).fill = s.fill := rfl
@[simp] theorem setPol_trigArmed (b : Bool) (s : State) : (setPol b s).trigArmed = s.trigArmed := rfl
@[simp] theorem setPol_rateArmed (b : Bool) (s : State) : (setPol b s).rateArmed = s.rateArmed := rfl
@[simp] theorem setPol_trigInsvc (b : Bool) (s : State) : (setPol b s).trigInsvc = s.trigInsvc := rfl
@[simp] theorem setPol_trigPend (b : Bool) (s : State) : (setPol b s).trigPend = s.trigPend := rfl
@[simp] theorem setPol_rateInsvc (b : Bool) (s : State) : (setPol b s).rateInsvc = s.rateInsvc := rfl
@[simp] theorem setPol_ratePend (b : Bool) (s : State) : (setPol b s).ratePend = s.ratePend := rfl
@[simp] theorem setPol_dq (b : Bool) (s : State) : (setPol b s).dq = s.dq := rfl
@[simp] theorem setPol_dcont (b : Bool) (s : State) : (setPol b s).dcont = s.dcont := rfl
@[simp] theorem setPol_now (b : Bool) (s : State) : (setPol b s).now = s.now := rfl
@[simp] theorem setPol_tsec (b : Bool) (s : State) : (setPol b s).tsec = s.tsec := rfl
@[simp] theorem setPol_tusec (b : Bool) (s : State) : (setPol b s).tusec = s.tusec := rfl
@[simp] theorem setPol_lastwr (b : Bool) (s : State) : (setPol b s).lastwr = s.lastwr := rfl
@[simp] theorem setPol_sb (b : Bool) (s : State) : (setPol b s).sb = s.sb := rfl
@[simp] theorem setPol_bb (b : Bool) (s : State) : (setPol b s).bb = s.bb := rfl
@[simp] theorem setPol_chunk (b : Bool) (s : State) : (setPol b s).chunk = s.chunk := rfl
@[simp] theorem setPol_pbuf (b : Bool) (s : State) : (setPol b s).pbuf = s.pbuf := rfl
@[simp] theorem setPol_faults (b : Bool) (s : State) : (setPol b s).faults = s.faults := rfl
@[simp] theorem setPol_buserr (b : Bool) (s : State) : (setPol b s).buserr = s.buserr := rfl
@[simp] theorem setPol_cin (b : Bool) (s : State) : (setPol b s).cin = s.cin := rfl
@[simp] theorem setPol_cout (b : Bool) (s : State) : (setPol b s).cout = s.cout := rfl
@[simp] theorem setPol_sout (b : Bool) (s : State) : (setPol b s).sout = s.sout := rfl
@[simp] theorem setPol_events (b : Bool) (s : State) :
    (setPol b s).events = if s.pol = b then s.events else s.events ++ [.polOut b] := rfl
@[simp] theorem setPol_pots (b : Bool) (s : State) : (setPol b s).pots = s.pots := rfl
@[simp] theorem setPol_opv (b : Bool) (s : State) : (setPol b s).opv = s.opv := rfl
@[simp] theorem setPol_trigReq (b : Bool) (s : State) : (setPol b s).trigReq = s.trigReq := rfl
@[simp] theorem setPol_rateReq (b : Bool) (s : State) : (setPol b s).rateReq = s.rateReq := rfl
@[simp] theorem setPol_schedule (b : Bool) (s : State) : (setPol b s).schedule = s.schedule := rfl
@[simp] theorem setPol_adcIn (b : Bool) (s : State) : (setPol b s).adcIn = s.adcIn := rfl
@[simp] theorem setPol_coinIn (b : Bool) (s : State) : (setPol b s).coinIn = s.coinIn := rfl
@[simp] theorem setPol_drawn (b : Bool) (s : State) : (setPol b s).drawn = s.drawn := rfl
@[simp] theorem setPol_resets (b : Bool) (s : State) : (setPol b s).resets = s.resets := rfl

/-! `TPEN <- b` (R183, R184). -/

@[simp] theorem setTpen_cfg (b : Bool) (s : State) : (setTpen b s).cfg = s.cfg := rfl
@[simp] theorem setTpen_dstate (b : Bool) (s : State) : (setTpen b s).dstate = s.dstate := rfl
@[simp] theorem setTpen_mode (b : Bool) (s : State) : (setTpen b s).mode = s.mode := rfl
@[simp] theorem setTpen_pol (b : Bool) (s : State) : (setTpen b s).pol = s.pol := rfl
@[simp] theorem setTpen_tpen (b : Bool) (s : State) : (setTpen b s).tpen = b := rfl
@[simp] theorem setTpen_label (b : Bool) (s : State) : (setTpen b s).label = s.label := rfl
@[simp] theorem setTpen_pcount (b : Bool) (s : State) : (setTpen b s).pcount = s.pcount := rfl
@[simp] theorem setTpen_btarget (b : Bool) (s : State) : (setTpen b s).btarget = s.btarget := rfl
@[simp] theorem setTpen_rcount (b : Bool) (s : State) : (setTpen b s).rcount = s.rcount := rfl
@[simp] theorem setTpen_starget (b : Bool) (s : State) : (setTpen b s).starget = s.starget := rfl
@[simp] theorem setTpen_sdone (b : Bool) (s : State) : (setTpen b s).sdone = s.sdone := rfl
@[simp] theorem setTpen_fill (b : Bool) (s : State) : (setTpen b s).fill = s.fill := rfl
@[simp] theorem setTpen_trigArmed (b : Bool) (s : State) : (setTpen b s).trigArmed = s.trigArmed := rfl
@[simp] theorem setTpen_rateArmed (b : Bool) (s : State) : (setTpen b s).rateArmed = s.rateArmed := rfl
@[simp] theorem setTpen_trigInsvc (b : Bool) (s : State) : (setTpen b s).trigInsvc = s.trigInsvc := rfl
@[simp] theorem setTpen_trigPend (b : Bool) (s : State) : (setTpen b s).trigPend = s.trigPend := rfl
@[simp] theorem setTpen_rateInsvc (b : Bool) (s : State) : (setTpen b s).rateInsvc = s.rateInsvc := rfl
@[simp] theorem setTpen_ratePend (b : Bool) (s : State) : (setTpen b s).ratePend = s.ratePend := rfl
@[simp] theorem setTpen_dq (b : Bool) (s : State) : (setTpen b s).dq = s.dq := rfl
@[simp] theorem setTpen_dcont (b : Bool) (s : State) : (setTpen b s).dcont = s.dcont := rfl
@[simp] theorem setTpen_now (b : Bool) (s : State) : (setTpen b s).now = s.now := rfl
@[simp] theorem setTpen_tsec (b : Bool) (s : State) : (setTpen b s).tsec = s.tsec := rfl
@[simp] theorem setTpen_tusec (b : Bool) (s : State) : (setTpen b s).tusec = s.tusec := rfl
@[simp] theorem setTpen_lastwr (b : Bool) (s : State) : (setTpen b s).lastwr = s.lastwr := rfl
@[simp] theorem setTpen_sb (b : Bool) (s : State) : (setTpen b s).sb = s.sb := rfl
@[simp] theorem setTpen_bb (b : Bool) (s : State) : (setTpen b s).bb = s.bb := rfl
@[simp] theorem setTpen_chunk (b : Bool) (s : State) : (setTpen b s).chunk = s.chunk := rfl
@[simp] theorem setTpen_pbuf (b : Bool) (s : State) : (setTpen b s).pbuf = s.pbuf := rfl
@[simp] theorem setTpen_faults (b : Bool) (s : State) : (setTpen b s).faults = s.faults := rfl
@[simp] theorem setTpen_buserr (b : Bool) (s : State) : (setTpen b s).buserr = s.buserr := rfl
@[simp] theorem setTpen_cin (b : Bool) (s : State) : (setTpen b s).cin = s.cin := rfl
@[simp] theorem setTpen_cout (b : Bool) (s : State) : (setTpen b s).cout = s.cout := rfl
@[simp] theorem setTpen_sout (b : Bool) (s : State) : (setTpen b s).sout = s.sout := rfl
@[simp] theorem setTpen_events (b : Bool) (s : State) :
    (setTpen b s).events = if s.tpen = b then s.events else s.events ++ [.tpOut (tpLevel s.cfg b)] := rfl
@[simp] theorem setTpen_pots (b : Bool) (s : State) : (setTpen b s).pots = s.pots := rfl
@[simp] theorem setTpen_opv (b : Bool) (s : State) : (setTpen b s).opv = s.opv := rfl
@[simp] theorem setTpen_trigReq (b : Bool) (s : State) : (setTpen b s).trigReq = s.trigReq := rfl
@[simp] theorem setTpen_rateReq (b : Bool) (s : State) : (setTpen b s).rateReq = s.rateReq := rfl
@[simp] theorem setTpen_schedule (b : Bool) (s : State) : (setTpen b s).schedule = s.schedule := rfl
@[simp] theorem setTpen_adcIn (b : Bool) (s : State) : (setTpen b s).adcIn = s.adcIn := rfl
@[simp] theorem setTpen_coinIn (b : Bool) (s : State) : (setTpen b s).coinIn = s.coinIn := rfl
@[simp] theorem setTpen_drawn (b : Bool) (s : State) : (setTpen b s).drawn = s.drawn := rfl
@[simp] theorem setTpen_resets (b : Bool) (s : State) : (setTpen b s).resets = s.resets := rfl

/-! One `CLR_OUT` pulse (R193). -/

@[simp] theorem pulseClr_cfg (s : State) : (pulseClr s).cfg = s.cfg := rfl
@[simp] theorem pulseClr_dstate (s : State) : (pulseClr s).dstate = s.dstate := rfl
@[simp] theorem pulseClr_mode (s : State) : (pulseClr s).mode = s.mode := rfl
@[simp] theorem pulseClr_pol (s : State) : (pulseClr s).pol = s.pol := rfl
@[simp] theorem pulseClr_tpen (s : State) : (pulseClr s).tpen = s.tpen := rfl
@[simp] theorem pulseClr_label (s : State) : (pulseClr s).label = s.label := rfl
@[simp] theorem pulseClr_pcount (s : State) : (pulseClr s).pcount = s.pcount := rfl
@[simp] theorem pulseClr_btarget (s : State) : (pulseClr s).btarget = s.btarget := rfl
@[simp] theorem pulseClr_rcount (s : State) : (pulseClr s).rcount = s.rcount := rfl
@[simp] theorem pulseClr_starget (s : State) : (pulseClr s).starget = s.starget := rfl
@[simp] theorem pulseClr_sdone (s : State) : (pulseClr s).sdone = s.sdone := rfl
@[simp] theorem pulseClr_fill (s : State) : (pulseClr s).fill = s.fill := rfl
@[simp] theorem pulseClr_trigArmed (s : State) : (pulseClr s).trigArmed = s.trigArmed := rfl
@[simp] theorem pulseClr_rateArmed (s : State) : (pulseClr s).rateArmed = s.rateArmed := rfl
@[simp] theorem pulseClr_trigInsvc (s : State) : (pulseClr s).trigInsvc = s.trigInsvc := rfl
@[simp] theorem pulseClr_trigPend (s : State) : (pulseClr s).trigPend = s.trigPend := rfl
@[simp] theorem pulseClr_rateInsvc (s : State) : (pulseClr s).rateInsvc = s.rateInsvc := rfl
@[simp] theorem pulseClr_ratePend (s : State) : (pulseClr s).ratePend = s.ratePend := rfl
@[simp] theorem pulseClr_dq (s : State) : (pulseClr s).dq = s.dq := rfl
@[simp] theorem pulseClr_dcont (s : State) : (pulseClr s).dcont = s.dcont := rfl
@[simp] theorem pulseClr_now (s : State) : (pulseClr s).now = s.now := rfl
@[simp] theorem pulseClr_tsec (s : State) : (pulseClr s).tsec = s.tsec := rfl
@[simp] theorem pulseClr_tusec (s : State) : (pulseClr s).tusec = s.tusec := rfl
@[simp] theorem pulseClr_lastwr (s : State) : (pulseClr s).lastwr = s.lastwr := rfl
@[simp] theorem pulseClr_sb (s : State) : (pulseClr s).sb = s.sb := rfl
@[simp] theorem pulseClr_bb (s : State) : (pulseClr s).bb = s.bb := rfl
@[simp] theorem pulseClr_chunk (s : State) : (pulseClr s).chunk = s.chunk := rfl
@[simp] theorem pulseClr_pbuf (s : State) : (pulseClr s).pbuf = s.pbuf := rfl
@[simp] theorem pulseClr_faults (s : State) : (pulseClr s).faults = s.faults := rfl
@[simp] theorem pulseClr_buserr (s : State) : (pulseClr s).buserr = s.buserr := rfl
@[simp] theorem pulseClr_cin (s : State) : (pulseClr s).cin = s.cin := rfl
@[simp] theorem pulseClr_cout (s : State) : (pulseClr s).cout = s.cout := rfl
@[simp] theorem pulseClr_sout (s : State) : (pulseClr s).sout = s.sout := rfl
@[simp] theorem pulseClr_events (s : State) :
    (pulseClr s).events = s.events ++ [.clrPulse s.cfg.params.clrPulseUs] := rfl
@[simp] theorem pulseClr_pots (s : State) : (pulseClr s).pots = s.pots := rfl
@[simp] theorem pulseClr_opv (s : State) : (pulseClr s).opv = s.opv := rfl
@[simp] theorem pulseClr_trigReq (s : State) : (pulseClr s).trigReq = s.trigReq := rfl
@[simp] theorem pulseClr_rateReq (s : State) : (pulseClr s).rateReq = s.rateReq := rfl
@[simp] theorem pulseClr_schedule (s : State) : (pulseClr s).schedule = s.schedule := rfl
@[simp] theorem pulseClr_adcIn (s : State) : (pulseClr s).adcIn = s.adcIn := rfl
@[simp] theorem pulseClr_coinIn (s : State) : (pulseClr s).coinIn = s.coinIn := rfl
@[simp] theorem pulseClr_drawn (s : State) : (pulseClr s).drawn = s.drawn := rfl
@[simp] theorem pulseClr_resets (s : State) : (pulseClr s).resets = s.resets := rfl

/-! `TRIG_ARMED <- 1` (R157). -/

@[simp] theorem armTrig_cfg (s : State) : (armTrig s).cfg = s.cfg := rfl
@[simp] theorem armTrig_dstate (s : State) : (armTrig s).dstate = s.dstate := rfl
@[simp] theorem armTrig_mode (s : State) : (armTrig s).mode = s.mode := rfl
@[simp] theorem armTrig_pol (s : State) : (armTrig s).pol = s.pol := rfl
@[simp] theorem armTrig_tpen (s : State) : (armTrig s).tpen = s.tpen := rfl
@[simp] theorem armTrig_label (s : State) : (armTrig s).label = s.label := rfl
@[simp] theorem armTrig_pcount (s : State) : (armTrig s).pcount = s.pcount := rfl
@[simp] theorem armTrig_btarget (s : State) : (armTrig s).btarget = s.btarget := rfl
@[simp] theorem armTrig_rcount (s : State) : (armTrig s).rcount = s.rcount := rfl
@[simp] theorem armTrig_starget (s : State) : (armTrig s).starget = s.starget := rfl
@[simp] theorem armTrig_sdone (s : State) : (armTrig s).sdone = s.sdone := rfl
@[simp] theorem armTrig_fill (s : State) : (armTrig s).fill = s.fill := rfl
@[simp] theorem armTrig_trigArmed (s : State) : (armTrig s).trigArmed = true := rfl
@[simp] theorem armTrig_rateArmed (s : State) : (armTrig s).rateArmed = s.rateArmed := rfl
@[simp] theorem armTrig_trigInsvc (s : State) : (armTrig s).trigInsvc = s.trigInsvc := rfl
@[simp] theorem armTrig_trigPend (s : State) : (armTrig s).trigPend = s.trigPend := rfl
@[simp] theorem armTrig_rateInsvc (s : State) : (armTrig s).rateInsvc = s.rateInsvc := rfl
@[simp] theorem armTrig_ratePend (s : State) : (armTrig s).ratePend = s.ratePend := rfl
@[simp] theorem armTrig_dq (s : State) : (armTrig s).dq = s.dq := rfl
@[simp] theorem armTrig_dcont (s : State) : (armTrig s).dcont = s.dcont := rfl
@[simp] theorem armTrig_now (s : State) : (armTrig s).now = s.now := rfl
@[simp] theorem armTrig_tsec (s : State) : (armTrig s).tsec = s.tsec := rfl
@[simp] theorem armTrig_tusec (s : State) : (armTrig s).tusec = s.tusec := rfl
@[simp] theorem armTrig_lastwr (s : State) : (armTrig s).lastwr = s.lastwr := rfl
@[simp] theorem armTrig_sb (s : State) : (armTrig s).sb = s.sb := rfl
@[simp] theorem armTrig_bb (s : State) : (armTrig s).bb = s.bb := rfl
@[simp] theorem armTrig_chunk (s : State) : (armTrig s).chunk = s.chunk := rfl
@[simp] theorem armTrig_pbuf (s : State) : (armTrig s).pbuf = s.pbuf := rfl
@[simp] theorem armTrig_faults (s : State) : (armTrig s).faults = s.faults := rfl
@[simp] theorem armTrig_buserr (s : State) : (armTrig s).buserr = s.buserr := rfl
@[simp] theorem armTrig_cin (s : State) : (armTrig s).cin = s.cin := rfl
@[simp] theorem armTrig_cout (s : State) : (armTrig s).cout = s.cout := rfl
@[simp] theorem armTrig_sout (s : State) : (armTrig s).sout = s.sout := rfl
@[simp] theorem armTrig_events (s : State) : (armTrig s).events = s.events := rfl
@[simp] theorem armTrig_pots (s : State) : (armTrig s).pots = s.pots := rfl
@[simp] theorem armTrig_opv (s : State) : (armTrig s).opv = s.opv := rfl
@[simp] theorem armTrig_trigReq (s : State) : (armTrig s).trigReq = s.trigReq := rfl
@[simp] theorem armTrig_rateReq (s : State) : (armTrig s).rateReq = s.rateReq := rfl
@[simp] theorem armTrig_schedule (s : State) : (armTrig s).schedule = s.schedule := rfl
@[simp] theorem armTrig_adcIn (s : State) : (armTrig s).adcIn = s.adcIn := rfl
@[simp] theorem armTrig_coinIn (s : State) : (armTrig s).coinIn = s.coinIn := rfl
@[simp] theorem armTrig_drawn (s : State) : (armTrig s).drawn = s.drawn := rfl
@[simp] theorem armTrig_resets (s : State) : (armTrig s).resets = s.resets := rfl

/-! `TRIG_ARMED <- 0` (R166). -/

@[simp] theorem disarmTrig_cfg (s : State) : (disarmTrig s).cfg = s.cfg := rfl
@[simp] theorem disarmTrig_dstate (s : State) : (disarmTrig s).dstate = s.dstate := rfl
@[simp] theorem disarmTrig_mode (s : State) : (disarmTrig s).mode = s.mode := rfl
@[simp] theorem disarmTrig_pol (s : State) : (disarmTrig s).pol = s.pol := rfl
@[simp] theorem disarmTrig_tpen (s : State) : (disarmTrig s).tpen = s.tpen := rfl
@[simp] theorem disarmTrig_label (s : State) : (disarmTrig s).label = s.label := rfl
@[simp] theorem disarmTrig_pcount (s : State) : (disarmTrig s).pcount = s.pcount := rfl
@[simp] theorem disarmTrig_btarget (s : State) : (disarmTrig s).btarget = s.btarget := rfl
@[simp] theorem disarmTrig_rcount (s : State) : (disarmTrig s).rcount = s.rcount := rfl
@[simp] theorem disarmTrig_starget (s : State) : (disarmTrig s).starget = s.starget := rfl
@[simp] theorem disarmTrig_sdone (s : State) : (disarmTrig s).sdone = s.sdone := rfl
@[simp] theorem disarmTrig_fill (s : State) : (disarmTrig s).fill = s.fill := rfl
@[simp] theorem disarmTrig_trigArmed (s : State) : (disarmTrig s).trigArmed = false := rfl
@[simp] theorem disarmTrig_rateArmed (s : State) : (disarmTrig s).rateArmed = s.rateArmed := rfl
@[simp] theorem disarmTrig_trigInsvc (s : State) : (disarmTrig s).trigInsvc = s.trigInsvc := rfl
@[simp] theorem disarmTrig_trigPend (s : State) : (disarmTrig s).trigPend = s.trigPend := rfl
@[simp] theorem disarmTrig_rateInsvc (s : State) : (disarmTrig s).rateInsvc = s.rateInsvc := rfl
@[simp] theorem disarmTrig_ratePend (s : State) : (disarmTrig s).ratePend = s.ratePend := rfl
@[simp] theorem disarmTrig_dq (s : State) : (disarmTrig s).dq = s.dq := rfl
@[simp] theorem disarmTrig_dcont (s : State) : (disarmTrig s).dcont = s.dcont := rfl
@[simp] theorem disarmTrig_now (s : State) : (disarmTrig s).now = s.now := rfl
@[simp] theorem disarmTrig_tsec (s : State) : (disarmTrig s).tsec = s.tsec := rfl
@[simp] theorem disarmTrig_tusec (s : State) : (disarmTrig s).tusec = s.tusec := rfl
@[simp] theorem disarmTrig_lastwr (s : State) : (disarmTrig s).lastwr = s.lastwr := rfl
@[simp] theorem disarmTrig_sb (s : State) : (disarmTrig s).sb = s.sb := rfl
@[simp] theorem disarmTrig_bb (s : State) : (disarmTrig s).bb = s.bb := rfl
@[simp] theorem disarmTrig_chunk (s : State) : (disarmTrig s).chunk = s.chunk := rfl
@[simp] theorem disarmTrig_pbuf (s : State) : (disarmTrig s).pbuf = s.pbuf := rfl
@[simp] theorem disarmTrig_faults (s : State) : (disarmTrig s).faults = s.faults := rfl
@[simp] theorem disarmTrig_buserr (s : State) : (disarmTrig s).buserr = s.buserr := rfl
@[simp] theorem disarmTrig_cin (s : State) : (disarmTrig s).cin = s.cin := rfl
@[simp] theorem disarmTrig_cout (s : State) : (disarmTrig s).cout = s.cout := rfl
@[simp] theorem disarmTrig_sout (s : State) : (disarmTrig s).sout = s.sout := rfl
@[simp] theorem disarmTrig_events (s : State) : (disarmTrig s).events = s.events := rfl
@[simp] theorem disarmTrig_pots (s : State) : (disarmTrig s).pots = s.pots := rfl
@[simp] theorem disarmTrig_opv (s : State) : (disarmTrig s).opv = s.opv := rfl
@[simp] theorem disarmTrig_trigReq (s : State) : (disarmTrig s).trigReq = 0 := rfl
@[simp] theorem disarmTrig_rateReq (s : State) : (disarmTrig s).rateReq = s.rateReq := rfl
@[simp] theorem disarmTrig_schedule (s : State) : (disarmTrig s).schedule = s.schedule := rfl
@[simp] theorem disarmTrig_adcIn (s : State) : (disarmTrig s).adcIn = s.adcIn := rfl
@[simp] theorem disarmTrig_coinIn (s : State) : (disarmTrig s).coinIn = s.coinIn := rfl
@[simp] theorem disarmTrig_drawn (s : State) : (disarmTrig s).drawn = s.drawn := rfl
@[simp] theorem disarmTrig_resets (s : State) : (disarmTrig s).resets = s.resets := rfl

/-! `RATE_ARMED <- 1` (R190). -/

@[simp] theorem armRate_cfg (s : State) : (armRate s).cfg = s.cfg := rfl
@[simp] theorem armRate_dstate (s : State) : (armRate s).dstate = s.dstate := rfl
@[simp] theorem armRate_mode (s : State) : (armRate s).mode = s.mode := rfl
@[simp] theorem armRate_pol (s : State) : (armRate s).pol = s.pol := rfl
@[simp] theorem armRate_tpen (s : State) : (armRate s).tpen = s.tpen := rfl
@[simp] theorem armRate_label (s : State) : (armRate s).label = s.label := rfl
@[simp] theorem armRate_pcount (s : State) : (armRate s).pcount = s.pcount := rfl
@[simp] theorem armRate_btarget (s : State) : (armRate s).btarget = s.btarget := rfl
@[simp] theorem armRate_rcount (s : State) : (armRate s).rcount = s.rcount := rfl
@[simp] theorem armRate_starget (s : State) : (armRate s).starget = s.starget := rfl
@[simp] theorem armRate_sdone (s : State) : (armRate s).sdone = s.sdone := rfl
@[simp] theorem armRate_fill (s : State) : (armRate s).fill = s.fill := rfl
@[simp] theorem armRate_trigArmed (s : State) : (armRate s).trigArmed = s.trigArmed := rfl
@[simp] theorem armRate_rateArmed (s : State) : (armRate s).rateArmed = true := rfl
@[simp] theorem armRate_trigInsvc (s : State) : (armRate s).trigInsvc = s.trigInsvc := rfl
@[simp] theorem armRate_trigPend (s : State) : (armRate s).trigPend = s.trigPend := rfl
@[simp] theorem armRate_rateInsvc (s : State) : (armRate s).rateInsvc = s.rateInsvc := rfl
@[simp] theorem armRate_ratePend (s : State) : (armRate s).ratePend = s.ratePend := rfl
@[simp] theorem armRate_dq (s : State) : (armRate s).dq = s.dq := rfl
@[simp] theorem armRate_dcont (s : State) : (armRate s).dcont = s.dcont := rfl
@[simp] theorem armRate_now (s : State) : (armRate s).now = s.now := rfl
@[simp] theorem armRate_tsec (s : State) : (armRate s).tsec = s.tsec := rfl
@[simp] theorem armRate_tusec (s : State) : (armRate s).tusec = s.tusec := rfl
@[simp] theorem armRate_lastwr (s : State) : (armRate s).lastwr = s.lastwr := rfl
@[simp] theorem armRate_sb (s : State) : (armRate s).sb = s.sb := rfl
@[simp] theorem armRate_bb (s : State) : (armRate s).bb = s.bb := rfl
@[simp] theorem armRate_chunk (s : State) : (armRate s).chunk = s.chunk := rfl
@[simp] theorem armRate_pbuf (s : State) : (armRate s).pbuf = s.pbuf := rfl
@[simp] theorem armRate_faults (s : State) : (armRate s).faults = s.faults := rfl
@[simp] theorem armRate_buserr (s : State) : (armRate s).buserr = s.buserr := rfl
@[simp] theorem armRate_cin (s : State) : (armRate s).cin = s.cin := rfl
@[simp] theorem armRate_cout (s : State) : (armRate s).cout = s.cout := rfl
@[simp] theorem armRate_sout (s : State) : (armRate s).sout = s.sout := rfl
@[simp] theorem armRate_events (s : State) : (armRate s).events = s.events := rfl
@[simp] theorem armRate_pots (s : State) : (armRate s).pots = s.pots := rfl
@[simp] theorem armRate_opv (s : State) : (armRate s).opv = s.opv := rfl
@[simp] theorem armRate_trigReq (s : State) : (armRate s).trigReq = s.trigReq := rfl
@[simp] theorem armRate_rateReq (s : State) : (armRate s).rateReq = s.rateReq := rfl
@[simp] theorem armRate_schedule (s : State) : (armRate s).schedule = s.schedule := rfl
@[simp] theorem armRate_adcIn (s : State) : (armRate s).adcIn = s.adcIn := rfl
@[simp] theorem armRate_coinIn (s : State) : (armRate s).coinIn = s.coinIn := rfl
@[simp] theorem armRate_drawn (s : State) : (armRate s).drawn = s.drawn := rfl
@[simp] theorem armRate_resets (s : State) : (armRate s).resets = s.resets := rfl

/-! `RATE_ARMED <- 0` (R190). -/

@[simp] theorem disarmRate_cfg (s : State) : (disarmRate s).cfg = s.cfg := rfl
@[simp] theorem disarmRate_dstate (s : State) : (disarmRate s).dstate = s.dstate := rfl
@[simp] theorem disarmRate_mode (s : State) : (disarmRate s).mode = s.mode := rfl
@[simp] theorem disarmRate_pol (s : State) : (disarmRate s).pol = s.pol := rfl
@[simp] theorem disarmRate_tpen (s : State) : (disarmRate s).tpen = s.tpen := rfl
@[simp] theorem disarmRate_label (s : State) : (disarmRate s).label = s.label := rfl
@[simp] theorem disarmRate_pcount (s : State) : (disarmRate s).pcount = s.pcount := rfl
@[simp] theorem disarmRate_btarget (s : State) : (disarmRate s).btarget = s.btarget := rfl
@[simp] theorem disarmRate_rcount (s : State) : (disarmRate s).rcount = s.rcount := rfl
@[simp] theorem disarmRate_starget (s : State) : (disarmRate s).starget = s.starget := rfl
@[simp] theorem disarmRate_sdone (s : State) : (disarmRate s).sdone = s.sdone := rfl
@[simp] theorem disarmRate_fill (s : State) : (disarmRate s).fill = s.fill := rfl
@[simp] theorem disarmRate_trigArmed (s : State) : (disarmRate s).trigArmed = s.trigArmed := rfl
@[simp] theorem disarmRate_rateArmed (s : State) : (disarmRate s).rateArmed = false := rfl
@[simp] theorem disarmRate_trigInsvc (s : State) : (disarmRate s).trigInsvc = s.trigInsvc := rfl
@[simp] theorem disarmRate_trigPend (s : State) : (disarmRate s).trigPend = s.trigPend := rfl
@[simp] theorem disarmRate_rateInsvc (s : State) : (disarmRate s).rateInsvc = s.rateInsvc := rfl
@[simp] theorem disarmRate_ratePend (s : State) : (disarmRate s).ratePend = s.ratePend := rfl
@[simp] theorem disarmRate_dq (s : State) : (disarmRate s).dq = s.dq := rfl
@[simp] theorem disarmRate_dcont (s : State) : (disarmRate s).dcont = s.dcont := rfl
@[simp] theorem disarmRate_now (s : State) : (disarmRate s).now = s.now := rfl
@[simp] theorem disarmRate_tsec (s : State) : (disarmRate s).tsec = s.tsec := rfl
@[simp] theorem disarmRate_tusec (s : State) : (disarmRate s).tusec = s.tusec := rfl
@[simp] theorem disarmRate_lastwr (s : State) : (disarmRate s).lastwr = s.lastwr := rfl
@[simp] theorem disarmRate_sb (s : State) : (disarmRate s).sb = s.sb := rfl
@[simp] theorem disarmRate_bb (s : State) : (disarmRate s).bb = s.bb := rfl
@[simp] theorem disarmRate_chunk (s : State) : (disarmRate s).chunk = s.chunk := rfl
@[simp] theorem disarmRate_pbuf (s : State) : (disarmRate s).pbuf = s.pbuf := rfl
@[simp] theorem disarmRate_faults (s : State) : (disarmRate s).faults = s.faults := rfl
@[simp] theorem disarmRate_buserr (s : State) : (disarmRate s).buserr = s.buserr := rfl
@[simp] theorem disarmRate_cin (s : State) : (disarmRate s).cin = s.cin := rfl
@[simp] theorem disarmRate_cout (s : State) : (disarmRate s).cout = s.cout := rfl
@[simp] theorem disarmRate_sout (s : State) : (disarmRate s).sout = s.sout := rfl
@[simp] theorem disarmRate_events (s : State) : (disarmRate s).events = s.events := rfl
@[simp] theorem disarmRate_pots (s : State) : (disarmRate s).pots = s.pots := rfl
@[simp] theorem disarmRate_opv (s : State) : (disarmRate s).opv = s.opv := rfl
@[simp] theorem disarmRate_trigReq (s : State) : (disarmRate s).trigReq = s.trigReq := rfl
@[simp] theorem disarmRate_rateReq (s : State) : (disarmRate s).rateReq = 0 := rfl
@[simp] theorem disarmRate_schedule (s : State) : (disarmRate s).schedule = s.schedule := rfl
@[simp] theorem disarmRate_adcIn (s : State) : (disarmRate s).adcIn = s.adcIn := rfl
@[simp] theorem disarmRate_coinIn (s : State) : (disarmRate s).coinIn = s.coinIn := rfl
@[simp] theorem disarmRate_drawn (s : State) : (disarmRate s).drawn = s.drawn := rfl
@[simp] theorem disarmRate_resets (s : State) : (disarmRate s).resets = s.resets := rfl

/-! The bits of a `TRIG_ISR` entry (R158). -/

@[simp] theorem trigServiceEnter_cfg (s : State) : (trigServiceEnter s).cfg = s.cfg := rfl
@[simp] theorem trigServiceEnter_dstate (s : State) : (trigServiceEnter s).dstate = s.dstate := rfl
@[simp] theorem trigServiceEnter_mode (s : State) : (trigServiceEnter s).mode = s.mode := rfl
@[simp] theorem trigServiceEnter_pol (s : State) : (trigServiceEnter s).pol = s.pol := rfl
@[simp] theorem trigServiceEnter_tpen (s : State) : (trigServiceEnter s).tpen = s.tpen := rfl
@[simp] theorem trigServiceEnter_label (s : State) : (trigServiceEnter s).label = s.label := rfl
@[simp] theorem trigServiceEnter_pcount (s : State) : (trigServiceEnter s).pcount = s.pcount := rfl
@[simp] theorem trigServiceEnter_btarget (s : State) : (trigServiceEnter s).btarget = s.btarget := rfl
@[simp] theorem trigServiceEnter_rcount (s : State) : (trigServiceEnter s).rcount = s.rcount := rfl
@[simp] theorem trigServiceEnter_starget (s : State) : (trigServiceEnter s).starget = s.starget := rfl
@[simp] theorem trigServiceEnter_sdone (s : State) : (trigServiceEnter s).sdone = s.sdone := rfl
@[simp] theorem trigServiceEnter_fill (s : State) : (trigServiceEnter s).fill = s.fill := rfl
@[simp] theorem trigServiceEnter_trigArmed (s : State) : (trigServiceEnter s).trigArmed = false := rfl
@[simp] theorem trigServiceEnter_rateArmed (s : State) : (trigServiceEnter s).rateArmed = s.rateArmed := rfl
@[simp] theorem trigServiceEnter_trigInsvc (s : State) : (trigServiceEnter s).trigInsvc = true := rfl
@[simp] theorem trigServiceEnter_trigPend (s : State) : (trigServiceEnter s).trigPend = s.trigPend := rfl
@[simp] theorem trigServiceEnter_rateInsvc (s : State) : (trigServiceEnter s).rateInsvc = s.rateInsvc := rfl
@[simp] theorem trigServiceEnter_ratePend (s : State) : (trigServiceEnter s).ratePend = s.ratePend := rfl
@[simp] theorem trigServiceEnter_dq (s : State) : (trigServiceEnter s).dq = s.dq := rfl
@[simp] theorem trigServiceEnter_dcont (s : State) : (trigServiceEnter s).dcont = s.dcont := rfl
@[simp] theorem trigServiceEnter_now (s : State) : (trigServiceEnter s).now = s.now := rfl
@[simp] theorem trigServiceEnter_tsec (s : State) : (trigServiceEnter s).tsec = s.tsec := rfl
@[simp] theorem trigServiceEnter_tusec (s : State) : (trigServiceEnter s).tusec = s.tusec := rfl
@[simp] theorem trigServiceEnter_lastwr (s : State) : (trigServiceEnter s).lastwr = s.lastwr := rfl
@[simp] theorem trigServiceEnter_sb (s : State) : (trigServiceEnter s).sb = s.sb := rfl
@[simp] theorem trigServiceEnter_bb (s : State) : (trigServiceEnter s).bb = s.bb := rfl
@[simp] theorem trigServiceEnter_chunk (s : State) : (trigServiceEnter s).chunk = s.chunk := rfl
@[simp] theorem trigServiceEnter_pbuf (s : State) : (trigServiceEnter s).pbuf = s.pbuf := rfl
@[simp] theorem trigServiceEnter_faults (s : State) : (trigServiceEnter s).faults = s.faults := rfl
@[simp] theorem trigServiceEnter_buserr (s : State) : (trigServiceEnter s).buserr = s.buserr := rfl
@[simp] theorem trigServiceEnter_cin (s : State) : (trigServiceEnter s).cin = s.cin := rfl
@[simp] theorem trigServiceEnter_cout (s : State) : (trigServiceEnter s).cout = s.cout := rfl
@[simp] theorem trigServiceEnter_sout (s : State) : (trigServiceEnter s).sout = s.sout := rfl
@[simp] theorem trigServiceEnter_events (s : State) : (trigServiceEnter s).events = s.events := rfl
@[simp] theorem trigServiceEnter_pots (s : State) : (trigServiceEnter s).pots = s.pots := rfl
@[simp] theorem trigServiceEnter_opv (s : State) : (trigServiceEnter s).opv = s.opv := rfl
@[simp] theorem trigServiceEnter_trigReq (s : State) : (trigServiceEnter s).trigReq = s.trigReq - 1 := rfl
@[simp] theorem trigServiceEnter_rateReq (s : State) : (trigServiceEnter s).rateReq = s.rateReq := rfl
@[simp] theorem trigServiceEnter_schedule (s : State) : (trigServiceEnter s).schedule = s.schedule := rfl
@[simp] theorem trigServiceEnter_adcIn (s : State) : (trigServiceEnter s).adcIn = s.adcIn := rfl
@[simp] theorem trigServiceEnter_coinIn (s : State) : (trigServiceEnter s).coinIn = s.coinIn := rfl
@[simp] theorem trigServiceEnter_drawn (s : State) : (trigServiceEnter s).drawn = s.drawn := rfl
@[simp] theorem trigServiceEnter_resets (s : State) : (trigServiceEnter s).resets = s.resets := rfl

/-! The bits of a `TRIG_ISR` exit (R160). -/

@[simp] theorem trigServiceLeave_cfg (s : State) : (trigServiceLeave s).cfg = s.cfg := rfl
@[simp] theorem trigServiceLeave_dstate (s : State) : (trigServiceLeave s).dstate = s.dstate := rfl
@[simp] theorem trigServiceLeave_mode (s : State) : (trigServiceLeave s).mode = s.mode := rfl
@[simp] theorem trigServiceLeave_pol (s : State) : (trigServiceLeave s).pol = s.pol := rfl
@[simp] theorem trigServiceLeave_tpen (s : State) : (trigServiceLeave s).tpen = s.tpen := rfl
@[simp] theorem trigServiceLeave_label (s : State) : (trigServiceLeave s).label = s.label := rfl
@[simp] theorem trigServiceLeave_pcount (s : State) : (trigServiceLeave s).pcount = s.pcount := rfl
@[simp] theorem trigServiceLeave_btarget (s : State) : (trigServiceLeave s).btarget = s.btarget := rfl
@[simp] theorem trigServiceLeave_rcount (s : State) : (trigServiceLeave s).rcount = s.rcount := rfl
@[simp] theorem trigServiceLeave_starget (s : State) : (trigServiceLeave s).starget = s.starget := rfl
@[simp] theorem trigServiceLeave_sdone (s : State) : (trigServiceLeave s).sdone = s.sdone := rfl
@[simp] theorem trigServiceLeave_fill (s : State) : (trigServiceLeave s).fill = s.fill := rfl
@[simp] theorem trigServiceLeave_trigArmed (s : State) : (trigServiceLeave s).trigArmed = true := rfl
@[simp] theorem trigServiceLeave_rateArmed (s : State) : (trigServiceLeave s).rateArmed = s.rateArmed := rfl
@[simp] theorem trigServiceLeave_trigInsvc (s : State) : (trigServiceLeave s).trigInsvc = false := rfl
@[simp] theorem trigServiceLeave_trigPend (s : State) : (trigServiceLeave s).trigPend = false := rfl
@[simp] theorem trigServiceLeave_rateInsvc (s : State) : (trigServiceLeave s).rateInsvc = s.rateInsvc := rfl
@[simp] theorem trigServiceLeave_ratePend (s : State) : (trigServiceLeave s).ratePend = s.ratePend := rfl
@[simp] theorem trigServiceLeave_dq (s : State) : (trigServiceLeave s).dq = s.dq := rfl
@[simp] theorem trigServiceLeave_dcont (s : State) : (trigServiceLeave s).dcont = s.dcont := rfl
@[simp] theorem trigServiceLeave_now (s : State) : (trigServiceLeave s).now = s.now := rfl
@[simp] theorem trigServiceLeave_tsec (s : State) : (trigServiceLeave s).tsec = s.tsec := rfl
@[simp] theorem trigServiceLeave_tusec (s : State) : (trigServiceLeave s).tusec = s.tusec := rfl
@[simp] theorem trigServiceLeave_lastwr (s : State) : (trigServiceLeave s).lastwr = s.lastwr := rfl
@[simp] theorem trigServiceLeave_sb (s : State) : (trigServiceLeave s).sb = s.sb := rfl
@[simp] theorem trigServiceLeave_bb (s : State) : (trigServiceLeave s).bb = s.bb := rfl
@[simp] theorem trigServiceLeave_chunk (s : State) : (trigServiceLeave s).chunk = s.chunk := rfl
@[simp] theorem trigServiceLeave_pbuf (s : State) : (trigServiceLeave s).pbuf = s.pbuf := rfl
@[simp] theorem trigServiceLeave_faults (s : State) : (trigServiceLeave s).faults = s.faults := rfl
@[simp] theorem trigServiceLeave_buserr (s : State) : (trigServiceLeave s).buserr = s.buserr := rfl
@[simp] theorem trigServiceLeave_cin (s : State) : (trigServiceLeave s).cin = s.cin := rfl
@[simp] theorem trigServiceLeave_cout (s : State) : (trigServiceLeave s).cout = s.cout := rfl
@[simp] theorem trigServiceLeave_sout (s : State) : (trigServiceLeave s).sout = s.sout := rfl
@[simp] theorem trigServiceLeave_events (s : State) : (trigServiceLeave s).events = s.events := rfl
@[simp] theorem trigServiceLeave_pots (s : State) : (trigServiceLeave s).pots = s.pots := rfl
@[simp] theorem trigServiceLeave_opv (s : State) : (trigServiceLeave s).opv = s.opv := rfl
@[simp] theorem trigServiceLeave_trigReq (s : State) : (trigServiceLeave s).trigReq = s.trigReq := rfl
@[simp] theorem trigServiceLeave_rateReq (s : State) : (trigServiceLeave s).rateReq = s.rateReq := rfl
@[simp] theorem trigServiceLeave_schedule (s : State) : (trigServiceLeave s).schedule = s.schedule := rfl
@[simp] theorem trigServiceLeave_adcIn (s : State) : (trigServiceLeave s).adcIn = s.adcIn := rfl
@[simp] theorem trigServiceLeave_coinIn (s : State) : (trigServiceLeave s).coinIn = s.coinIn := rfl
@[simp] theorem trigServiceLeave_drawn (s : State) : (trigServiceLeave s).drawn = s.drawn := rfl
@[simp] theorem trigServiceLeave_resets (s : State) : (trigServiceLeave s).resets = s.resets := rfl

/-! The bits of a `RATE_ISR` entry (R191). -/

@[simp] theorem rateServiceEnter_cfg (s : State) : (rateServiceEnter s).cfg = s.cfg := rfl
@[simp] theorem rateServiceEnter_dstate (s : State) : (rateServiceEnter s).dstate = s.dstate := rfl
@[simp] theorem rateServiceEnter_mode (s : State) : (rateServiceEnter s).mode = s.mode := rfl
@[simp] theorem rateServiceEnter_pol (s : State) : (rateServiceEnter s).pol = s.pol := rfl
@[simp] theorem rateServiceEnter_tpen (s : State) : (rateServiceEnter s).tpen = s.tpen := rfl
@[simp] theorem rateServiceEnter_label (s : State) : (rateServiceEnter s).label = s.label := rfl
@[simp] theorem rateServiceEnter_pcount (s : State) : (rateServiceEnter s).pcount = s.pcount := rfl
@[simp] theorem rateServiceEnter_btarget (s : State) : (rateServiceEnter s).btarget = s.btarget := rfl
@[simp] theorem rateServiceEnter_rcount (s : State) : (rateServiceEnter s).rcount = s.rcount := rfl
@[simp] theorem rateServiceEnter_starget (s : State) : (rateServiceEnter s).starget = s.starget := rfl
@[simp] theorem rateServiceEnter_sdone (s : State) : (rateServiceEnter s).sdone = s.sdone := rfl
@[simp] theorem rateServiceEnter_fill (s : State) : (rateServiceEnter s).fill = s.fill := rfl
@[simp] theorem rateServiceEnter_trigArmed (s : State) : (rateServiceEnter s).trigArmed = s.trigArmed := rfl
@[simp] theorem rateServiceEnter_rateArmed (s : State) : (rateServiceEnter s).rateArmed = false := rfl
@[simp] theorem rateServiceEnter_trigInsvc (s : State) : (rateServiceEnter s).trigInsvc = s.trigInsvc := rfl
@[simp] theorem rateServiceEnter_trigPend (s : State) : (rateServiceEnter s).trigPend = s.trigPend := rfl
@[simp] theorem rateServiceEnter_rateInsvc (s : State) : (rateServiceEnter s).rateInsvc = true := rfl
@[simp] theorem rateServiceEnter_ratePend (s : State) : (rateServiceEnter s).ratePend = s.ratePend := rfl
@[simp] theorem rateServiceEnter_dq (s : State) : (rateServiceEnter s).dq = s.dq := rfl
@[simp] theorem rateServiceEnter_dcont (s : State) : (rateServiceEnter s).dcont = s.dcont := rfl
@[simp] theorem rateServiceEnter_now (s : State) : (rateServiceEnter s).now = s.now := rfl
@[simp] theorem rateServiceEnter_tsec (s : State) : (rateServiceEnter s).tsec = s.tsec := rfl
@[simp] theorem rateServiceEnter_tusec (s : State) : (rateServiceEnter s).tusec = s.tusec := rfl
@[simp] theorem rateServiceEnter_lastwr (s : State) : (rateServiceEnter s).lastwr = s.lastwr := rfl
@[simp] theorem rateServiceEnter_sb (s : State) : (rateServiceEnter s).sb = s.sb := rfl
@[simp] theorem rateServiceEnter_bb (s : State) : (rateServiceEnter s).bb = s.bb := rfl
@[simp] theorem rateServiceEnter_chunk (s : State) : (rateServiceEnter s).chunk = s.chunk := rfl
@[simp] theorem rateServiceEnter_pbuf (s : State) : (rateServiceEnter s).pbuf = s.pbuf := rfl
@[simp] theorem rateServiceEnter_faults (s : State) : (rateServiceEnter s).faults = s.faults := rfl
@[simp] theorem rateServiceEnter_buserr (s : State) : (rateServiceEnter s).buserr = s.buserr := rfl
@[simp] theorem rateServiceEnter_cin (s : State) : (rateServiceEnter s).cin = s.cin := rfl
@[simp] theorem rateServiceEnter_cout (s : State) : (rateServiceEnter s).cout = s.cout := rfl
@[simp] theorem rateServiceEnter_sout (s : State) : (rateServiceEnter s).sout = s.sout := rfl
@[simp] theorem rateServiceEnter_events (s : State) : (rateServiceEnter s).events = s.events := rfl
@[simp] theorem rateServiceEnter_pots (s : State) : (rateServiceEnter s).pots = s.pots := rfl
@[simp] theorem rateServiceEnter_opv (s : State) : (rateServiceEnter s).opv = s.opv := rfl
@[simp] theorem rateServiceEnter_trigReq (s : State) : (rateServiceEnter s).trigReq = s.trigReq := rfl
@[simp] theorem rateServiceEnter_rateReq (s : State) : (rateServiceEnter s).rateReq = s.rateReq - 1 := rfl
@[simp] theorem rateServiceEnter_schedule (s : State) : (rateServiceEnter s).schedule = s.schedule := rfl
@[simp] theorem rateServiceEnter_adcIn (s : State) : (rateServiceEnter s).adcIn = s.adcIn := rfl
@[simp] theorem rateServiceEnter_coinIn (s : State) : (rateServiceEnter s).coinIn = s.coinIn := rfl
@[simp] theorem rateServiceEnter_drawn (s : State) : (rateServiceEnter s).drawn = s.drawn := rfl
@[simp] theorem rateServiceEnter_resets (s : State) : (rateServiceEnter s).resets = s.resets := rfl

/-! The bits of a `RATE_ISR` exit (R191). -/

@[simp] theorem rateServiceLeave_cfg (s : State) : (rateServiceLeave s).cfg = s.cfg := rfl
@[simp] theorem rateServiceLeave_dstate (s : State) : (rateServiceLeave s).dstate = s.dstate := rfl
@[simp] theorem rateServiceLeave_mode (s : State) : (rateServiceLeave s).mode = s.mode := rfl
@[simp] theorem rateServiceLeave_pol (s : State) : (rateServiceLeave s).pol = s.pol := rfl
@[simp] theorem rateServiceLeave_tpen (s : State) : (rateServiceLeave s).tpen = s.tpen := rfl
@[simp] theorem rateServiceLeave_label (s : State) : (rateServiceLeave s).label = s.label := rfl
@[simp] theorem rateServiceLeave_pcount (s : State) : (rateServiceLeave s).pcount = s.pcount := rfl
@[simp] theorem rateServiceLeave_btarget (s : State) : (rateServiceLeave s).btarget = s.btarget := rfl
@[simp] theorem rateServiceLeave_rcount (s : State) : (rateServiceLeave s).rcount = s.rcount := rfl
@[simp] theorem rateServiceLeave_starget (s : State) : (rateServiceLeave s).starget = s.starget := rfl
@[simp] theorem rateServiceLeave_sdone (s : State) : (rateServiceLeave s).sdone = s.sdone := rfl
@[simp] theorem rateServiceLeave_fill (s : State) : (rateServiceLeave s).fill = s.fill := rfl
@[simp] theorem rateServiceLeave_trigArmed (s : State) : (rateServiceLeave s).trigArmed = s.trigArmed := rfl
@[simp] theorem rateServiceLeave_rateArmed (s : State) : (rateServiceLeave s).rateArmed = true := rfl
@[simp] theorem rateServiceLeave_trigInsvc (s : State) : (rateServiceLeave s).trigInsvc = s.trigInsvc := rfl
@[simp] theorem rateServiceLeave_trigPend (s : State) : (rateServiceLeave s).trigPend = s.trigPend := rfl
@[simp] theorem rateServiceLeave_rateInsvc (s : State) : (rateServiceLeave s).rateInsvc = false := rfl
@[simp] theorem rateServiceLeave_ratePend (s : State) : (rateServiceLeave s).ratePend = false := rfl
@[simp] theorem rateServiceLeave_dq (s : State) : (rateServiceLeave s).dq = s.dq := rfl
@[simp] theorem rateServiceLeave_dcont (s : State) : (rateServiceLeave s).dcont = s.dcont := rfl
@[simp] theorem rateServiceLeave_now (s : State) : (rateServiceLeave s).now = s.now := rfl
@[simp] theorem rateServiceLeave_tsec (s : State) : (rateServiceLeave s).tsec = s.tsec := rfl
@[simp] theorem rateServiceLeave_tusec (s : State) : (rateServiceLeave s).tusec = s.tusec := rfl
@[simp] theorem rateServiceLeave_lastwr (s : State) : (rateServiceLeave s).lastwr = s.lastwr := rfl
@[simp] theorem rateServiceLeave_sb (s : State) : (rateServiceLeave s).sb = s.sb := rfl
@[simp] theorem rateServiceLeave_bb (s : State) : (rateServiceLeave s).bb = s.bb := rfl
@[simp] theorem rateServiceLeave_chunk (s : State) : (rateServiceLeave s).chunk = s.chunk := rfl
@[simp] theorem rateServiceLeave_pbuf (s : State) : (rateServiceLeave s).pbuf = s.pbuf := rfl
@[simp] theorem rateServiceLeave_faults (s : State) : (rateServiceLeave s).faults = s.faults := rfl
@[simp] theorem rateServiceLeave_buserr (s : State) : (rateServiceLeave s).buserr = s.buserr := rfl
@[simp] theorem rateServiceLeave_cin (s : State) : (rateServiceLeave s).cin = s.cin := rfl
@[simp] theorem rateServiceLeave_cout (s : State) : (rateServiceLeave s).cout = s.cout := rfl
@[simp] theorem rateServiceLeave_sout (s : State) : (rateServiceLeave s).sout = s.sout := rfl
@[simp] theorem rateServiceLeave_events (s : State) : (rateServiceLeave s).events = s.events := rfl
@[simp] theorem rateServiceLeave_pots (s : State) : (rateServiceLeave s).pots = s.pots := rfl
@[simp] theorem rateServiceLeave_opv (s : State) : (rateServiceLeave s).opv = s.opv := rfl
@[simp] theorem rateServiceLeave_trigReq (s : State) : (rateServiceLeave s).trigReq = s.trigReq := rfl
@[simp] theorem rateServiceLeave_rateReq (s : State) : (rateServiceLeave s).rateReq = s.rateReq := rfl
@[simp] theorem rateServiceLeave_schedule (s : State) : (rateServiceLeave s).schedule = s.schedule := rfl
@[simp] theorem rateServiceLeave_adcIn (s : State) : (rateServiceLeave s).adcIn = s.adcIn := rfl
@[simp] theorem rateServiceLeave_coinIn (s : State) : (rateServiceLeave s).coinIn = s.coinIn := rfl
@[simp] theorem rateServiceLeave_drawn (s : State) : (rateServiceLeave s).drawn = s.drawn := rfl
@[simp] theorem rateServiceLeave_resets (s : State) : (rateServiceLeave s).resets = s.resets := rfl

/-! `LASTWR <- (t, a, old, new)` (R39, R130). -/

@[simp] theorem recordWrite_cfg (t : BitVec 64) (a : BusAddr) (old new : Byte) (s : State) :
    (recordWrite t a old new s).cfg = s.cfg := rfl
@[simp] theorem recordWrite_dstate (t : BitVec 64) (a : BusAddr) (old new : Byte) (s : State) :
    (recordWrite t a old new s).dstate = s.dstate := rfl
@[simp] theorem recordWrite_mode (t : BitVec 64) (a : BusAddr) (old new : Byte) (s : State) :
    (recordWrite t a old new s).mode = s.mode := rfl
@[simp] theorem recordWrite_pol (t : BitVec 64) (a : BusAddr) (old new : Byte) (s : State) :
    (recordWrite t a old new s).pol = s.pol := rfl
@[simp] theorem recordWrite_tpen (t : BitVec 64) (a : BusAddr) (old new : Byte) (s : State) :
    (recordWrite t a old new s).tpen = s.tpen := rfl
@[simp] theorem recordWrite_label (t : BitVec 64) (a : BusAddr) (old new : Byte) (s : State) :
    (recordWrite t a old new s).label = s.label := rfl
@[simp] theorem recordWrite_pcount (t : BitVec 64) (a : BusAddr) (old new : Byte) (s : State) :
    (recordWrite t a old new s).pcount = s.pcount := rfl
@[simp] theorem recordWrite_btarget (t : BitVec 64) (a : BusAddr) (old new : Byte) (s : State) :
    (recordWrite t a old new s).btarget = s.btarget := rfl
@[simp] theorem recordWrite_rcount (t : BitVec 64) (a : BusAddr) (old new : Byte) (s : State) :
    (recordWrite t a old new s).rcount = s.rcount := rfl
@[simp] theorem recordWrite_starget (t : BitVec 64) (a : BusAddr) (old new : Byte) (s : State) :
    (recordWrite t a old new s).starget = s.starget := rfl
@[simp] theorem recordWrite_sdone (t : BitVec 64) (a : BusAddr) (old new : Byte) (s : State) :
    (recordWrite t a old new s).sdone = s.sdone := rfl
@[simp] theorem recordWrite_fill (t : BitVec 64) (a : BusAddr) (old new : Byte) (s : State) :
    (recordWrite t a old new s).fill = s.fill := rfl
@[simp] theorem recordWrite_trigArmed (t : BitVec 64) (a : BusAddr) (old new : Byte) (s : State) :
    (recordWrite t a old new s).trigArmed = s.trigArmed := rfl
@[simp] theorem recordWrite_rateArmed (t : BitVec 64) (a : BusAddr) (old new : Byte) (s : State) :
    (recordWrite t a old new s).rateArmed = s.rateArmed := rfl
@[simp] theorem recordWrite_trigInsvc (t : BitVec 64) (a : BusAddr) (old new : Byte) (s : State) :
    (recordWrite t a old new s).trigInsvc = s.trigInsvc := rfl
@[simp] theorem recordWrite_trigPend (t : BitVec 64) (a : BusAddr) (old new : Byte) (s : State) :
    (recordWrite t a old new s).trigPend = s.trigPend := rfl
@[simp] theorem recordWrite_rateInsvc (t : BitVec 64) (a : BusAddr) (old new : Byte) (s : State) :
    (recordWrite t a old new s).rateInsvc = s.rateInsvc := rfl
@[simp] theorem recordWrite_ratePend (t : BitVec 64) (a : BusAddr) (old new : Byte) (s : State) :
    (recordWrite t a old new s).ratePend = s.ratePend := rfl
@[simp] theorem recordWrite_dq (t : BitVec 64) (a : BusAddr) (old new : Byte) (s : State) :
    (recordWrite t a old new s).dq = s.dq := rfl
@[simp] theorem recordWrite_dcont (t : BitVec 64) (a : BusAddr) (old new : Byte) (s : State) :
    (recordWrite t a old new s).dcont = s.dcont := rfl
@[simp] theorem recordWrite_now (t : BitVec 64) (a : BusAddr) (old new : Byte) (s : State) :
    (recordWrite t a old new s).now = s.now := rfl
@[simp] theorem recordWrite_tsec (t : BitVec 64) (a : BusAddr) (old new : Byte) (s : State) :
    (recordWrite t a old new s).tsec = s.tsec := rfl
@[simp] theorem recordWrite_tusec (t : BitVec 64) (a : BusAddr) (old new : Byte) (s : State) :
    (recordWrite t a old new s).tusec = s.tusec := rfl
@[simp] theorem recordWrite_lastwr (t : BitVec 64) (a : BusAddr) (old new : Byte) (s : State) :
    (recordWrite t a old new s).lastwr = some { t := t, a := a, old := old, new := new } := rfl
@[simp] theorem recordWrite_sb (t : BitVec 64) (a : BusAddr) (old new : Byte) (s : State) :
    (recordWrite t a old new s).sb = s.sb := rfl
@[simp] theorem recordWrite_bb (t : BitVec 64) (a : BusAddr) (old new : Byte) (s : State) :
    (recordWrite t a old new s).bb = s.bb := rfl
@[simp] theorem recordWrite_chunk (t : BitVec 64) (a : BusAddr) (old new : Byte) (s : State) :
    (recordWrite t a old new s).chunk = s.chunk := rfl
@[simp] theorem recordWrite_pbuf (t : BitVec 64) (a : BusAddr) (old new : Byte) (s : State) :
    (recordWrite t a old new s).pbuf = s.pbuf := rfl
@[simp] theorem recordWrite_faults (t : BitVec 64) (a : BusAddr) (old new : Byte) (s : State) :
    (recordWrite t a old new s).faults = s.faults := rfl
@[simp] theorem recordWrite_buserr (t : BitVec 64) (a : BusAddr) (old new : Byte) (s : State) :
    (recordWrite t a old new s).buserr = s.buserr := rfl
@[simp] theorem recordWrite_cin (t : BitVec 64) (a : BusAddr) (old new : Byte) (s : State) :
    (recordWrite t a old new s).cin = s.cin := rfl
@[simp] theorem recordWrite_cout (t : BitVec 64) (a : BusAddr) (old new : Byte) (s : State) :
    (recordWrite t a old new s).cout = s.cout := rfl
@[simp] theorem recordWrite_sout (t : BitVec 64) (a : BusAddr) (old new : Byte) (s : State) :
    (recordWrite t a old new s).sout = s.sout := rfl
@[simp] theorem recordWrite_events (t : BitVec 64) (a : BusAddr) (old new : Byte) (s : State) :
    (recordWrite t a old new s).events = s.events := rfl
@[simp] theorem recordWrite_pots (t : BitVec 64) (a : BusAddr) (old new : Byte) (s : State) :
    (recordWrite t a old new s).pots = s.pots := rfl
@[simp] theorem recordWrite_opv (t : BitVec 64) (a : BusAddr) (old new : Byte) (s : State) :
    (recordWrite t a old new s).opv = s.opv := rfl
@[simp] theorem recordWrite_trigReq (t : BitVec 64) (a : BusAddr) (old new : Byte) (s : State) :
    (recordWrite t a old new s).trigReq = s.trigReq := rfl
@[simp] theorem recordWrite_rateReq (t : BitVec 64) (a : BusAddr) (old new : Byte) (s : State) :
    (recordWrite t a old new s).rateReq = s.rateReq := rfl
@[simp] theorem recordWrite_schedule (t : BitVec 64) (a : BusAddr) (old new : Byte) (s : State) :
    (recordWrite t a old new s).schedule = s.schedule := rfl
@[simp] theorem recordWrite_adcIn (t : BitVec 64) (a : BusAddr) (old new : Byte) (s : State) :
    (recordWrite t a old new s).adcIn = s.adcIn := rfl
@[simp] theorem recordWrite_coinIn (t : BitVec 64) (a : BusAddr) (old new : Byte) (s : State) :
    (recordWrite t a old new s).coinIn = s.coinIn := rfl
@[simp] theorem recordWrite_drawn (t : BitVec 64) (a : BusAddr) (old new : Byte) (s : State) :
    (recordWrite t a old new s).drawn = s.drawn := rfl
@[simp] theorem recordWrite_resets (t : BitVec 64) (a : BusAddr) (old new : Byte) (s : State) :
    (recordWrite t a old new s).resets = s.resets := rfl

/-! `FILL <- OFF` (R144). -/

@[simp] theorem fillOff_cfg (s : State) : (fillOff s).cfg = s.cfg := rfl
@[simp] theorem fillOff_dstate (s : State) : (fillOff s).dstate = s.dstate := rfl
@[simp] theorem fillOff_mode (s : State) : (fillOff s).mode = s.mode := rfl
@[simp] theorem fillOff_pol (s : State) : (fillOff s).pol = s.pol := rfl
@[simp] theorem fillOff_tpen (s : State) : (fillOff s).tpen = s.tpen := rfl
@[simp] theorem fillOff_label (s : State) : (fillOff s).label = s.label := rfl
@[simp] theorem fillOff_pcount (s : State) : (fillOff s).pcount = s.pcount := rfl
@[simp] theorem fillOff_btarget (s : State) : (fillOff s).btarget = s.btarget := rfl
@[simp] theorem fillOff_rcount (s : State) : (fillOff s).rcount = s.rcount := rfl
@[simp] theorem fillOff_starget (s : State) : (fillOff s).starget = s.starget := rfl
@[simp] theorem fillOff_sdone (s : State) : (fillOff s).sdone = s.sdone := rfl
@[simp] theorem fillOff_fill (s : State) : (fillOff s).fill = none := rfl
@[simp] theorem fillOff_trigArmed (s : State) : (fillOff s).trigArmed = s.trigArmed := rfl
@[simp] theorem fillOff_rateArmed (s : State) : (fillOff s).rateArmed = s.rateArmed := rfl
@[simp] theorem fillOff_trigInsvc (s : State) : (fillOff s).trigInsvc = s.trigInsvc := rfl
@[simp] theorem fillOff_trigPend (s : State) : (fillOff s).trigPend = s.trigPend := rfl
@[simp] theorem fillOff_rateInsvc (s : State) : (fillOff s).rateInsvc = s.rateInsvc := rfl
@[simp] theorem fillOff_ratePend (s : State) : (fillOff s).ratePend = s.ratePend := rfl
@[simp] theorem fillOff_dq (s : State) : (fillOff s).dq = s.dq := rfl
@[simp] theorem fillOff_dcont (s : State) : (fillOff s).dcont = s.dcont := rfl
@[simp] theorem fillOff_now (s : State) : (fillOff s).now = s.now := rfl
@[simp] theorem fillOff_tsec (s : State) : (fillOff s).tsec = s.tsec := rfl
@[simp] theorem fillOff_tusec (s : State) : (fillOff s).tusec = s.tusec := rfl
@[simp] theorem fillOff_lastwr (s : State) : (fillOff s).lastwr = s.lastwr := rfl
@[simp] theorem fillOff_sb (s : State) : (fillOff s).sb = s.sb := rfl
@[simp] theorem fillOff_bb (s : State) : (fillOff s).bb = s.bb := rfl
@[simp] theorem fillOff_chunk (s : State) : (fillOff s).chunk = s.chunk := rfl
@[simp] theorem fillOff_pbuf (s : State) : (fillOff s).pbuf = s.pbuf := rfl
@[simp] theorem fillOff_faults (s : State) : (fillOff s).faults = s.faults := rfl
@[simp] theorem fillOff_buserr (s : State) : (fillOff s).buserr = s.buserr := rfl
@[simp] theorem fillOff_cin (s : State) : (fillOff s).cin = s.cin := rfl
@[simp] theorem fillOff_cout (s : State) : (fillOff s).cout = s.cout := rfl
@[simp] theorem fillOff_sout (s : State) : (fillOff s).sout = s.sout := rfl
@[simp] theorem fillOff_events (s : State) : (fillOff s).events = s.events := rfl
@[simp] theorem fillOff_pots (s : State) : (fillOff s).pots = s.pots := rfl
@[simp] theorem fillOff_opv (s : State) : (fillOff s).opv = s.opv := rfl
@[simp] theorem fillOff_trigReq (s : State) : (fillOff s).trigReq = s.trigReq := rfl
@[simp] theorem fillOff_rateReq (s : State) : (fillOff s).rateReq = s.rateReq := rfl
@[simp] theorem fillOff_schedule (s : State) : (fillOff s).schedule = s.schedule := rfl
@[simp] theorem fillOff_adcIn (s : State) : (fillOff s).adcIn = s.adcIn := rfl
@[simp] theorem fillOff_coinIn (s : State) : (fillOff s).coinIn = s.coinIn := rfl
@[simp] theorem fillOff_drawn (s : State) : (fillOff s).drawn = s.drawn := rfl
@[simp] theorem fillOff_resets (s : State) : (fillOff s).resets = s.resets := rfl

/-! The clocks' part of a tick (R140, R141). -/

@[simp] theorem advanceClocks_cfg (s : State) : (advanceClocks s).cfg = s.cfg := rfl
@[simp] theorem advanceClocks_dstate (s : State) : (advanceClocks s).dstate = s.dstate := rfl
@[simp] theorem advanceClocks_mode (s : State) : (advanceClocks s).mode = s.mode := rfl
@[simp] theorem advanceClocks_pol (s : State) : (advanceClocks s).pol = s.pol := rfl
@[simp] theorem advanceClocks_tpen (s : State) : (advanceClocks s).tpen = s.tpen := rfl
@[simp] theorem advanceClocks_label (s : State) : (advanceClocks s).label = s.label := rfl
@[simp] theorem advanceClocks_pcount (s : State) : (advanceClocks s).pcount = s.pcount := rfl
@[simp] theorem advanceClocks_btarget (s : State) : (advanceClocks s).btarget = s.btarget := rfl
@[simp] theorem advanceClocks_rcount (s : State) : (advanceClocks s).rcount = s.rcount := rfl
@[simp] theorem advanceClocks_starget (s : State) : (advanceClocks s).starget = s.starget := rfl
@[simp] theorem advanceClocks_sdone (s : State) : (advanceClocks s).sdone = s.sdone := rfl
@[simp] theorem advanceClocks_fill (s : State) : (advanceClocks s).fill = s.fill := rfl
@[simp] theorem advanceClocks_trigArmed (s : State) : (advanceClocks s).trigArmed = s.trigArmed := rfl
@[simp] theorem advanceClocks_rateArmed (s : State) : (advanceClocks s).rateArmed = s.rateArmed := rfl
@[simp] theorem advanceClocks_trigInsvc (s : State) : (advanceClocks s).trigInsvc = s.trigInsvc := rfl
@[simp] theorem advanceClocks_trigPend (s : State) : (advanceClocks s).trigPend = s.trigPend := rfl
@[simp] theorem advanceClocks_rateInsvc (s : State) : (advanceClocks s).rateInsvc = s.rateInsvc := rfl
@[simp] theorem advanceClocks_ratePend (s : State) : (advanceClocks s).ratePend = s.ratePend := rfl
@[simp] theorem advanceClocks_dq (s : State) : (advanceClocks s).dq = s.dq := rfl
@[simp] theorem advanceClocks_dcont (s : State) : (advanceClocks s).dcont = s.dcont := rfl
@[simp] theorem advanceClocks_now (s : State) : (advanceClocks s).now = s.now + 1 := rfl
@[simp] theorem advanceClocks_tsec (s : State) : (advanceClocks s).tsec = (timerAdvance (s.tsec, s.tusec)).1 := rfl
@[simp] theorem advanceClocks_tusec (s : State) : (advanceClocks s).tusec = (timerAdvance (s.tsec, s.tusec)).2 := rfl
@[simp] theorem advanceClocks_lastwr (s : State) : (advanceClocks s).lastwr = s.lastwr := rfl
@[simp] theorem advanceClocks_sb (s : State) : (advanceClocks s).sb = s.sb := rfl
@[simp] theorem advanceClocks_bb (s : State) : (advanceClocks s).bb = s.bb := rfl
@[simp] theorem advanceClocks_chunk (s : State) : (advanceClocks s).chunk = s.chunk := rfl
@[simp] theorem advanceClocks_pbuf (s : State) : (advanceClocks s).pbuf = s.pbuf := rfl
@[simp] theorem advanceClocks_faults (s : State) : (advanceClocks s).faults = s.faults := rfl
@[simp] theorem advanceClocks_buserr (s : State) : (advanceClocks s).buserr = s.buserr := rfl
@[simp] theorem advanceClocks_cin (s : State) : (advanceClocks s).cin = s.cin := rfl
@[simp] theorem advanceClocks_cout (s : State) : (advanceClocks s).cout = s.cout := rfl
@[simp] theorem advanceClocks_sout (s : State) : (advanceClocks s).sout = s.sout := rfl
@[simp] theorem advanceClocks_events (s : State) : (advanceClocks s).events = s.events := rfl
@[simp] theorem advanceClocks_pots (s : State) : (advanceClocks s).pots = s.pots := rfl
@[simp] theorem advanceClocks_opv (s : State) : (advanceClocks s).opv = s.opv := rfl
@[simp] theorem advanceClocks_trigReq (s : State) : (advanceClocks s).trigReq = s.trigReq := rfl
@[simp] theorem advanceClocks_rateReq (s : State) : (advanceClocks s).rateReq = s.rateReq := rfl
@[simp] theorem advanceClocks_schedule (s : State) : (advanceClocks s).schedule = s.schedule := rfl
@[simp] theorem advanceClocks_adcIn (s : State) : (advanceClocks s).adcIn = s.adcIn := rfl
@[simp] theorem advanceClocks_coinIn (s : State) : (advanceClocks s).coinIn = s.coinIn := rfl
@[simp] theorem advanceClocks_drawn (s : State) : (advanceClocks s).drawn = s.drawn := rfl
@[simp] theorem advanceClocks_resets (s : State) : (advanceClocks s).resets = s.resets := rfl

end Sys2Proof.Machine
end

