-- ==== Sys2Proof/Laws/Ops.lean ====
section
/-! SUPPORT. One lemma per shared operation that says once everything it can do; proofs cite these and do not unfold
the operation. -/

namespace Sys2Proof.Machine

/-! ### Draws -/

/-- A conversion changes the environment's fields alone. -/
theorem adcSample_shape (s : State) : ∃ x l n, adcSample s = (x, { s with adcIn := l, drawn := n }) := by
  unfold adcSample
  split <;> exact ⟨_, _, _, rfl⟩

/-- A listed conversion is taken from the list. -/
theorem adcSample_listed (s : State) (x : Sample) (xs : List Sample) (h : s.adcIn = x :: xs) :
    adcSample s = (x, { s with adcIn := xs }) := by
  simp [adcSample, h]

/-- A two-way draw changes the environment's fields alone. -/
theorem coin_shape (s : State) : ∃ c l n, coin s = (c, { s with coinIn := l, drawn := n }) := by
  unfold coin
  split <;> exact ⟨_, _, _, rfl⟩

/-- A listed draw is taken from the list. -/
theorem coin_listed (s : State) (c : Bool) (cs : List Bool) (h : s.coinIn = c :: cs) :
    coin s = (c, { s with coinIn := cs }) := by
  simp [coin, h]

/-- Four conversions change the environment's fields alone. -/
theorem adcGroup_shape (s : State) :
    ∃ a b c d l n, adcGroup s = ([a, b, c, d], { s with adcIn := l, drawn := n }) := by
  obtain ⟨a, l1, n1, h1⟩ := adcSample_shape s
  obtain ⟨b, l2, n2, h2⟩ := adcSample_shape { s with adcIn := l1, drawn := n1 }
  obtain ⟨c, l3, n3, h3⟩ := adcSample_shape { s with adcIn := l2, drawn := n2 }
  obtain ⟨d, l4, n4, h4⟩ := adcSample_shape { s with adcIn := l3, drawn := n3 }
  exact ⟨a, b, c, d, l4, n4, by simp [adcGroup, h1, h2, h3, h4]⟩

/-! ### Channels and conditions -/

/-- What a receive does: wait, take the bytes it asked for, or halt with `ShortFrame` (R64). -/
theorem recvThen_cases (n : Nat) (k : List Byte → State → State) (s : State) :
    (s.cin = [] ∧ recvThen n k s = s) ∨
    (∃ d rest, s.cin = d :: rest ∧ n ≤ d.length ∧ recvThen n k s = k (d.take n) { s with cin := rest }) ∨
    (∃ d rest, s.cin = d :: rest ∧ d.length < n ∧
      recvThen n k s = raiseFatal (.shortFrame d.length n) { s with cin := rest }) := by
  unfold recvThen
  split
  · rename_i h
    exact .inl ⟨h, rfl⟩
  · rename_i d rest h
    split
    · rename_i hn
      exact .inr (.inl ⟨d, rest, h, hn, rfl⟩)
    · rename_i hn
      exact .inr (.inr ⟨d, rest, h, by omega, rfl⟩)

/-- Raising a fatal condition is the fatal action. -/
theorem raise_fatal (c : Condition) (s : State) (h : c.kind = .fatal) : raise c s = raiseFatal c s := by
  simp [raise, h]

/-- Raising an absent device is the abort action. -/
@[simp] theorem raise_busDeviceAbsent (a : BusAddr) (s : State) :
    raise (.busDeviceAbsent a) s = raiseAbort s := rfl

/-! ### Bus transactions -/

/-- The settle hazard changes the positions and the environment's draws alone. -/
theorem settleHazard_shape (s : State) :
    ∃ l n p, settleHazard s = { s with coinIn := l, drawn := n, pots := p } ∧
      p.map Prod.fst = s.pots.map Prod.fst := by
  unfold settleHazard
  split
  · exact ⟨_, _, _, rfl, rfl⟩
  · obtain ⟨c, l, n, h⟩ := coin_shape s
    simp only [h]
    exact ⟨l, n, _, rfl, Memory.write_addresses _ _ _⟩

/-- Outside the settle window a transaction begins without a draw (R129). -/
theorem settleHazard_outside (s : State) (h : settleWindow s = none) : settleHazard s = s := by
  simp [settleHazard, h]

/-- What the settle hazard does inside the window: the device written last holds its old or its new position (R129). -/
theorem settleHazard_inside (s : State) (w : LastWrite) (h : settleWindow s = some w) :
    ∃ (c : Bool) (l : List Bool) (n : Nat), settleHazard s =
      { s with coinIn := l, drawn := n, pots := s.pots.write w.a (if c then w.new else w.old) } := by
  obtain ⟨c, l, n, hc⟩ := coin_shape s
  exact ⟨c, l, n, by simp [settleHazard, h, hc]⟩

/-- A write transaction changes the positions and the environment's draws alone. -/
theorem busWrite_shape (a : BusAddr) (v : Byte) (s : State) :
    ∃ r l n p, busWrite a v s = (r, { s with coinIn := l, drawn := n, pots := p }) ∧
      p.map Prod.fst = s.pots.map Prod.fst := by
  obtain ⟨l, n, p, h, hp⟩ := settleHazard_shape s
  unfold busWrite
  simp only [h]
  split
  · exact ⟨_, _, _, _, rfl, hp⟩
  · split
    · exact ⟨_, _, _, _, rfl, by simpa using hp⟩
    · obtain ⟨c, l', n', hc⟩ := coin_shape { s with coinIn := l, drawn := n, pots := p }
      simp only [hc]
      cases c
      · exact ⟨_, _, _, _, rfl, hp⟩
      · exact ⟨_, _, _, _, rfl, by simpa using hp⟩

/-- Outside the settle window a write to a device that answers is acknowledged and takes effect (R128). -/
theorem busWrite_outside_present (a : BusAddr) (v g : Byte) (s : State) (h : settleWindow s = none)
    (hg : s.pots.read a = some g) : busWrite a v s = (true, { s with pots := s.pots.write a v }) := by
  simp [busWrite, settleHazard, h, hg]

/-- Outside the settle window a write to an absent device has no effect (R128). -/
theorem busWrite_outside_absent (a : BusAddr) (v : Byte) (s : State) (h : settleWindow s = none)
    (hg : s.pots.read a = none) : busWrite a v s = (false, s) := by
  simp [busWrite, settleHazard, h, hg]

/-- The write of a potentiometer write changes the positions and the environment's draws alone, and the next line is
its record, with the `NOW` of the write and the position the device held, or the raise (R130). -/
theorem potWriteIssue_shape (a : BusAddr) (v : Byte) (s : State) :
    ∃ k l n p, potWriteIssue a v s = (k, { s with coinIn := l, drawn := n, pots := p }) ∧
      p.map Prod.fst = s.pots.map Prod.fst ∧
      (k = .record s.now ((s.pots.read a).getD 0) v ∨ k = .absent) := by
  obtain ⟨r, l, n, p, h, hp⟩ := busWrite_shape a v s
  unfold potWriteIssue
  simp only [h]
  cases r
  · exact ⟨_, _, _, _, rfl, hp, .inr rfl⟩
  · exact ⟨_, _, _, _, rfl, hp, .inl rfl⟩

/-! ### Timed reads -/

/-- A capture writes one element of the buffer it fills, from the timer and one conversion (R144). -/
theorem capture_chunk (i : Nat) (s : State) :
    ∃ x l n, capture .chunk i s =
      { s with adcIn := l, drawn := n, chunk := bufWrite s.chunk i (pack s.tsec s.tusec x) } := by
  obtain ⟨x, l, n, h⟩ := adcSample_shape s
  exact ⟨x, l, n, by simp [capture, h]⟩

/-- A capture into the polled buffer writes one zero-extended sample (R144). -/
theorem capture_pbuf (i : Nat) (s : State) :
    ∃ x l n, capture .pbuf i s = { s with adcIn := l, drawn := n, pbuf := bufWrite s.pbuf i (zext16 x) } := by
  obtain ⟨x, l, n, h⟩ := adcSample_shape s
  exact ⟨x, l, n, by simp [capture, h]⟩

/-- Whichever buffer it fills, a capture changes the two buffers and the environment's fields alone. -/
theorem capture_shape (b : FillBuf) (i : Nat) (s : State) :
    ∃ l n c p, capture b i s = { s with adcIn := l, drawn := n, chunk := c, pbuf := p } := by
  cases b
  · obtain ⟨x, l, n, h⟩ := capture_chunk i s
    exact ⟨l, n, _, s.pbuf, h⟩
  · obtain ⟨x, l, n, h⟩ := capture_pbuf i s
    exact ⟨l, n, s.chunk, _, h⟩

/-- A started read has taken sample 0 and waits for sample 1 (R144). -/
theorem startFill_shape (b : FillBuf) (n p : Nat) (s : State) :
    ∃ l d c q, startFill b n p s =
      { s with
        adcIn := l, drawn := d, chunk := c, pbuf := q
        fill := some { buf := b, n := n, i := 1, due := s.now + BitVec.ofNat 64 p, period := p } } := by
  obtain ⟨l, d, c, q, h⟩ := capture_shape b 0 s
  exact ⟨l, d, c, q, by simp [startFill, h]⟩

/-- What a tick does: the clocks advance, and at most one sample is captured (R140, R144). -/
theorem tick_cases (s : State) :
    tick s = advanceClocks s ∨
    ∃ f, s.fill = some f ∧ s.now + 1 = f.due ∧ f.i < f.n ∧
      tick s =
        { capture f.buf f.i (advanceClocks s) with
          fill := some { f with i := f.i + 1, due := f.due + BitVec.ofNat 64 f.period } } := by
  cases hf : s.fill with
  | none => exact .inl (by simp [tick, hf])
  | some f =>
    by_cases h : s.now + 1 = f.due ∧ f.i < f.n
    · have ht : tick s =
          { capture f.buf f.i (advanceClocks s) with
            fill := some { f with i := f.i + 1, due := f.due + BitVec.ofNat 64 f.period } } := by
        unfold tick
        simp only [advanceClocks_fill, hf]
        exact if_pos h
      exact .inr ⟨f, rfl, h.1, h.2, ht⟩
    · have ht : tick s = advanceClocks s := by
        unfold tick
        simp only [advanceClocks_fill, hf]
        exact if_neg h
      exact .inl ht

/-! ### Interrupts and callbacks -/

/-- What scheduling a callback does (R159, R162). -/
theorem scheduleDefer_cases (s : State) :
    (s.dq < s.par.deferDepth ∧ scheduleDefer s = { s with dq := s.dq + 1 }) ∨
    (s.par.deferDepth ≤ s.dq ∧ scheduleDefer s = raiseFatal (.deferOverflow s.pcount) s) := by
  unfold scheduleDefer
  split
  · rename_i h
    exact .inl ⟨h, rfl⟩
  · rename_i h
    exact .inr ⟨by omega, rfl⟩

/-- What an entry of `TRIG_ISR` does before it schedules: four samples into `SB`, one count (R158, R159). -/
theorem trigEnter_shape (s : State) :
    ∃ a b c d l n, trigEnter s = scheduleDefer
      { s with
        trigArmed := false, trigInsvc := true, trigReq := s.trigReq - 1, adcIn := l, drawn := n
        sb := [zext16 a, zext16 b, zext16 c, zext16 d], pcount := s.pcount + 1 } := by
  obtain ⟨a, b, c, d, l, n, h⟩ := adcGroup_shape (trigServiceEnter s)
  unfold trigEnter trigSample
  simp only [h]
  exact ⟨a, b, c, d, l, n, rfl⟩

/-- Enabling an entry of `TRIG_ISR` changes the count of enabled entries, which is then not 0, and the environment's
draws alone. -/
theorem trigEnable_shape (s : State) :
    ∃ q l n, trigEnable s = { s with trigReq := q, coinIn := l, drawn := n } ∧ 0 < q ∧
      (q = s.trigReq ∨ q = s.trigReq + 1) := by
  unfold trigEnable
  split
  · rename_i h
    exact ⟨1, _, _, rfl, by omega, by omega⟩
  · rename_i h
    obtain ⟨c, l, n, hc⟩ := coin_shape s
    simp only [hc]
    cases c
    · exact ⟨_, l, n, rfl, Nat.pos_of_ne_zero h, .inl rfl⟩
    · exact ⟨_, l, n, rfl, Nat.succ_pos _, .inr rfl⟩

/-- Enabling an entry of `RATE_ISR`, likewise. -/
theorem rateEnable_shape (s : State) :
    ∃ q l n, rateEnable s = { s with rateReq := q, coinIn := l, drawn := n } ∧ 0 < q ∧
      (q = s.rateReq ∨ q = s.rateReq + 1) := by
  unfold rateEnable
  split
  · rename_i h
    exact ⟨1, _, _, rfl, by omega, by omega⟩
  · rename_i h
    obtain ⟨c, l, n, hc⟩ := coin_shape s
    simp only [hc]
    cases c
    · exact ⟨_, l, n, rfl, Nat.pos_of_ne_zero h, .inl rfl⟩
    · exact ⟨_, l, n, rfl, Nat.succ_pos _, .inr rfl⟩

/-- A `TRIG_ISR` exit takes the interrupt out of service and arms it again; beside that it changes the count of enabled
entries and the environment's draws alone (R160). -/
theorem trigServiceExit_shape (s : State) :
    ∃ q l n, trigServiceExit s =
      { s with
        trigInsvc := false, trigArmed := true, trigPend := false, trigReq := q, coinIn := l, drawn := n } := by
  unfold trigServiceExit
  split
  · obtain ⟨q, l, n, h, -⟩ := trigEnable_shape (trigServiceLeave s)
    exact ⟨q, l, n, h⟩
  · exact ⟨_, _, _, rfl⟩

/-- A `RATE_ISR` exit, likewise (R191). -/
theorem rateServiceExit_shape (s : State) :
    ∃ q l n, rateServiceExit s =
      { s with
        rateInsvc := false, rateArmed := true, ratePend := false, rateReq := q, coinIn := l, drawn := n } := by
  unfold rateServiceExit
  split
  · obtain ⟨q, l, n, h, -⟩ := rateEnable_shape (rateServiceLeave s)
    exact ⟨q, l, n, h⟩
  · exact ⟨_, _, _, rfl⟩

/-- What an edge on the trigger input does: nothing, a latched or lost edge, or one more enabled entry (R158, R161). -/
theorem trigEdge_cases (e : Edge) (s : State) :
    trigEdge e s = s ∨
    (s.trigInsvc = true ∧ s.trigPend = false ∧
      ∃ c l n, trigEdge e s = { s with trigPend := c, coinIn := l, drawn := n }) ∨
    (s.trigInsvc = false ∧ s.trigArmed = true ∧ trigEdge e s = trigEnable s) := by
  obtain ⟨c, l, n, hc⟩ := coin_shape s
  unfold trigEdge
  simp only [hc]
  split
  · split
    · rename_i hs
      split
      · exact .inl rfl
      · rename_i hp
        exact .inr (.inl ⟨hs, by simpa using hp, _, _, _, rfl⟩)
    · rename_i hs
      split
      · rename_i ha
        exact .inr (.inr ⟨by simpa using hs, ha, rfl⟩)
      · exact .inl rfl
  · exact .inl rfl

/-- What an edge on the rate input does, likewise (R191). -/
theorem rateEdge_cases (e : Edge) (s : State) :
    rateEdge e s = s ∨
    (s.rateInsvc = true ∧ s.ratePend = false ∧
      ∃ c l n, rateEdge e s = { s with ratePend := c, coinIn := l, drawn := n }) ∨
    (s.rateInsvc = false ∧ s.rateArmed = true ∧ rateEdge e s = rateEnable s) := by
  obtain ⟨c, l, n, hc⟩ := coin_shape s
  unfold rateEdge
  simp only [hc]
  split
  · split
    · rename_i hs
      split
      · exact .inl rfl
      · rename_i hp
        exact .inr (.inl ⟨hs, by simpa using hp, _, _, _, rfl⟩)
    · rename_i hs
      split
      · rename_i ha
        exact .inr (.inr ⟨by simpa using hs, ha, rfl⟩)
      · exact .inl rfl
  · exact .inl rfl

/-- What a step of `TRIG_ISR` does: nothing, the exit, or an enabled entry (R158, R160). -/
theorem trigIsrStep_cases (s : State) :
    trigIsrStep s = s ∨ (s.trigInsvc = true ∧ trigIsrStep s = trigServiceExit s) ∨
    (s.trigInsvc = false ∧ 0 < s.trigReq ∧ s.trigArmed = true ∧ trigIsrStep s = trigEnter s) := by
  unfold trigIsrStep
  split
  · rename_i hs
    exact .inr (.inl ⟨hs, rfl⟩)
  · rename_i hs
    split
    · rename_i h
      exact .inr (.inr ⟨by simpa using hs, h.1, h.2, rfl⟩)
    · exact .inl rfl

/-- What a step of `RATE_ISR` does, likewise (R191). -/
theorem rateIsrStep_cases (s : State) :
    rateIsrStep s = s ∨ (s.rateInsvc = true ∧ rateIsrStep s = rateServiceExit s) ∨
    (s.rateInsvc = false ∧ 0 < s.rateReq ∧ s.rateArmed = true ∧ rateIsrStep s = rateEnter s) := by
  unfold rateIsrStep
  split
  · rename_i hs
    exact .inr (.inl ⟨hs, rfl⟩)
  · rename_i hs
    split
    · rename_i h
      exact .inr (.inr ⟨by simpa using hs, h.1, h.2, rfl⟩)
    · exact .inl rfl

/-- What a step of `DEFER` does: nothing, one line of the running callback, or the start of a new one (R163, R165). -/
theorem deferStep_cases (s : State) :
    deferStep s = s ∨
    (∃ k, inService s = false ∧ s.dcont = some k ∧ deferStep s = deferLine k s) ∨
    (inService s = false ∧ s.dcont = none ∧ atDeferPoint s = true ∧ 0 < s.dq ∧
      deferStep s = { s with dq := s.dq - 1, dcont := some .readCount }) := by
  unfold deferStep
  split
  · exact .inl rfl
  · rename_i hs
    have hs' : inService s = false := by simpa using hs
    split
    · rename_i k hk
      exact .inr (.inl ⟨k, hs', hk, rfl⟩)
    · rename_i hk
      split
      · rename_i h
        exact .inr (.inr ⟨hs', hk, h.1, h.2, rfl⟩)
      · exact .inl rfl

end Sys2Proof.Machine
end

