-- ==== Sys2Proof/Laws/Machine.lean ====
section
/-! SUPPORT. What one step of the machine can do, said once: the move that is taken, and the step of the agent it
names. -/

namespace Sys2Proof.Machine

/-- Taking a move changes the schedule and the count of free values alone. -/
theorem takeMove_shape (s : State) : ∃ m l n, takeMove s = (m, { s with schedule := l, drawn := n }) := by
  unfold takeMove
  split <;> exact ⟨_, _, _, rfl⟩

/-- A listed move is taken from the schedule. -/
theorem takeMove_listed (s : State) (m : Move) (ms : List Move) (h : s.schedule = m :: ms) :
    takeMove s = (m, { s with schedule := ms }) := by
  simp [takeMove, h]

@[simp] theorem runFor_zero (s : State) : runFor 0 s = .next s := rfl

/-- A run takes its first step, then the rest. -/
theorem runFor_succ (n : Nat) (s t : State) (h : step s = .next t) : runFor (n + 1) s = runFor n t := by
  have h' : Sys2Proof.core.step s = .next t := h
  simp only [runFor, Host.Core.run, h']
  rfl

/-- Two runs one after the other. -/
theorem runFor_add (m n : Nat) (s t : State) (h : runFor m s = .next t) : runFor (m + n) s = runFor n t := by
  induction m generalizing s with
  | zero => cases h; simp
  | succ m ih =>
    rw [Nat.add_right_comm]
    cases hs : step s with
    | next u =>
      rw [runFor_succ m s u hs] at h
      rw [runFor_succ (m + n) s u hs]
      exact ih u h
    | fault r => exact absurd h (by simp [runFor, Host.Core.run, show Sys2Proof.core.step s = .fault r from hs])
    | refused r => exact absurd h (by simp [runFor, Host.Core.run, show Sys2Proof.core.step s = .refused r from hs])

/-- With a listed move, `step` is that move. -/
theorem step_listed (s : State) (m : Move) (ms : List Move) (h : s.schedule = m :: ms) :
    step s = runMove m { s with schedule := ms } := by
  simp [step, takeMove_listed s m ms h]

/-- `step` is some move, from a state that differs in the schedule and the count of free values alone. -/
theorem step_shape (s : State) : ∃ m l n, step s = runMove m { s with schedule := l, drawn := n } := by
  obtain ⟨m, l, n, h⟩ := takeMove_shape s
  exact ⟨m, l, n, by simp [step, h]⟩

/-- What a dispatcher step does: it stands still, takes a step of the fetch, runs a line of the polled handler, or runs `exec`
of the opcode whose handler is active (R105). -/
theorem dispatchStep_cases (s : State) :
    dispatchStep s = .next s ∨
    (dispatchReady s = true ∧ s.dstate = .idle ∧ dispatchStep s = fetch s) ∨
    (∃ k, dispatchReady s = true ∧ s.dstate = .exec (.polled k) ∧ dispatchStep s = .next (polledLine k s)) ∨
    (∃ a i, dispatchReady s = true ∧ s.dstate = .exec a ∧ a.instr = some i ∧ dispatchStep s = exec i s) := by
  unfold dispatchStep
  split
  · rename_i hr
    split
    · rename_i hd
      exact .inr (.inl ⟨hr, hd, rfl⟩)
    · rename_i k hd
      exact .inr (.inr (.inl ⟨k, hr, hd, rfl⟩))
    · rename_i a _ hd
      split
      · rename_i i hi
        exact .inr (.inr (.inr ⟨a, i, hr, hd, hi, rfl⟩))
      · exact .inl rfl
    · exact .inl rfl
  · exact .inl rfl

/-- What the receive of an opcode does: wait, hold the opcode value of the first two bytes, or halt (R106, R64). -/
theorem receiveOpcode_cases (s : State) :
    (s.cin = [] ∧ receiveOpcode s = s) ∨
    (∃ category subcode more rest, s.cin = (category :: subcode :: more) :: rest ∧
      receiveOpcode s = { s with cin := rest, opv := some (opvOf category subcode) }) ∨
    (∃ d rest, s.cin = d :: rest ∧ d.length < 2 ∧
      receiveOpcode s = raiseFatal (.shortFrame d.length 2) { s with cin := rest }) := by
  unfold receiveOpcode
  obtain ⟨h, e⟩ | ⟨d, rest, h, hn, e⟩ | ⟨d, rest, h, hn, e⟩ := recvThen_cases opcodeBytes _ s
  · exact .inl ⟨h, e⟩
  · match d, hn with
    | category :: subcode :: more, _ => exact .inr (.inl ⟨category, subcode, more, rest, h, e⟩)
  · exact .inr (.inr ⟨d, rest, h, hn, e⟩)

/-- What a lookup does: run the opcode of the table, enter the polled handler, or halt (R106, R92, R212). -/
theorem lookupOpcode_cases (v : BitVec 16) (s : State) :
    (∃ i, instrOfOpv v = some i ∧ lookupOpcode v s = exec i s) ∨
    (instrOfOpv v = none ∧ s.par.opcodePolled = some v ∧ lookupOpcode v s = .next (goto (.polled .recv) s)) ∨
    (instrOfOpv v = none ∧ s.par.opcodePolled ≠ some v ∧
      lookupOpcode v s = .next (raiseFatal (.unknownOpcode v) s)) := by
  unfold lookupOpcode
  split
  · rename_i i hi
    exact .inl ⟨i, hi, rfl⟩
  · rename_i hi
    split
    · rename_i hp
      exact .inr (.inl ⟨hi, hp, rfl⟩)
    · rename_i hp
      exact .inr (.inr ⟨hi, hp, rfl⟩)

/-- The two steps of a fetch (R106, R73). -/
theorem fetch_cases (s : State) :
    (s.opv = none ∧ fetch s = .next (receiveOpcode s)) ∨
    (∃ v, s.opv = some v ∧ fetch s = lookupOpcode v { s with opv := none }) := by
  unfold fetch
  split
  · rename_i h
    exact .inl ⟨h, rfl⟩
  · rename_i v h
    exact .inr ⟨v, h, rfl⟩

/-- With no timed read in progress, `k` ticks advance the clocks and change nothing else (R140, R141). -/
theorem tick_iterate (k : Nat) (s : State) (h : s.fill = none) : tick^[k] s = afterTicks k s := by
  induction k with
  | zero => cases s; simp [afterTicks]
  | succ k ih =>
    have hf : (afterTicks k s).fill = none := h
    rw [Function.iterate_succ_apply', ih, tick]
    simp only [advanceClocks_fill, hf]
    simp [advanceClocks, afterTicks, Function.iterate_succ_apply', BitVec.add_assoc, BitVec.ofNat_add]

/-- The output events of a reset: the changes it makes, after what was recorded before (R45, R240). -/
theorem externalReset_events (s : State) :
    (externalReset s).events = s.events ++ (if s.pol = true then [.polOut false] else []) ++
      (if s.tpen = true then [.tpOut .inactive] else []) := by
  cases hp : s.pol <;> cases ht : s.tpen <;> simp [externalReset, setPol, setTpen, tpLevel, hp, ht]

/-! ### Waits and hangs (R117) -/

/-- At a wait the dispatcher has no step (R64, R72). -/
theorem waitsInHandler_dispatchStep (s : State) (h : waitsInHandler s = true) : dispatchStep s = .next s := by
  unfold dispatchStep
  split
  · cases hd : s.dstate with
    | idle => simp [waitsInHandler, hd] at h
    | halted => rfl
    | exec a =>
      cases a with
      | potRd k => simp [waitsInHandler, hd] at h
      | busScan k => simp [waitsInHandler, hd] at h
      | potWrGain k =>
        cases k <;> simp [waitsInHandler, hd] at h
        all_goals simp [Activity.instr, exec, execPotWrGain, hd, potWrLine, recvThen, h]
      | potWrThr k =>
        cases k <;> simp [waitsInHandler, hd] at h
        all_goals simp [Activity.instr, exec, execPotWrThr, hd, potWrLine, recvThen, h]
      | acqStream k =>
        cases k <;> simp [waitsInHandler, hd] at h
        all_goals simp [Activity.instr, exec, execAcqStream, hd, streamLine, recvThen, h]
      | acqBurst k =>
        cases k <;> simp [waitsInHandler, hd] at h
        all_goals simp [Activity.instr, exec, execAcqBurst, hd, burstLine, recvThen]
        · simp [h]
        · intro h1
          exact absurd h1 (BitVec.not_le.mpr h)
        · intro h1 h2
          exact h.elim (absurd h1) (absurd h2)
      | polLo k => simp [waitsInHandler, hd] at h
      | polHi k => simp [waitsInHandler, hd] at h
      | rate k =>
        cases k <;> simp [waitsInHandler, hd] at h
        simp [Activity.instr, exec, execRate, hd, rateLine, h]
      | tpOff k => simp [waitsInHandler, hd] at h
      | tpOn k => simp [waitsInHandler, hd] at h
      | lblGet k => simp [waitsInHandler, hd] at h
      | lblSet k =>
        cases k <;> simp [waitsInHandler, hd] at h
        simp [Activity.instr, exec, execLblSet, hd, lblSetLine, recvThen, h]
      | polled k =>
        cases k <;> simp [waitsInHandler, hd] at h
        all_goals simp [polledLine, recvThen, h]
  · rfl

/-- The dispatcher is halted, or blocked in `IDLE` with nothing to read (R113, R106). -/
theorem blocked_runMove (m : Move) (s t : State) (hm : sentIn m = [])
    (h : s.dstate = .halted ∨ (s.dstate = .idle ∧ s.opv = none ∧ s.cin = [])) (hs : runMove m s = .next t) :
    t.dstate = .halted ∨ (t.dstate = .idle ∧ t.opv = none ∧ t.cin = []) := by
  cases m with
  | dispatch =>
    simp only [runMove, dispatchStep] at hs
    split at hs
    · obtain hd | ⟨hd, ho, hc⟩ := h
      · simp only [hd] at hs
        cases hs
        exact .inl hd
      · simp only [hd, fetch, ho, receiveOpcode, recvThen, hc] at hs
        cases hs
        exact .inr ⟨hd, ho, hc⟩
    · cases hs
      exact h
  | defer =>
    cases hs
    obtain e | ⟨k, -, -, e⟩ | ⟨-, -, -, -, e⟩ := deferStep_cases s <;> rw [e]
    · exact h
    · cases k <;> try exact h
      simp only [deferLine]
      split <;> exact h
    · exact h
  | trigIsr =>
    cases hs
    obtain e | ⟨-, e⟩ | ⟨-, -, -, e⟩ := trigIsrStep_cases s
    · rwa [e]
    · obtain ⟨q, l, n, e'⟩ := trigServiceExit_shape s
      rw [e, e']
      exact h
    · obtain ⟨a, b, c, d, l, n, e'⟩ := trigEnter_shape s
      rw [e, e']
      obtain ⟨-, e''⟩ | ⟨-, e''⟩ := scheduleDefer_cases _ <;> rw [e'']
      · exact h
      · exact .inl rfl
  | rateIsr =>
    cases hs
    obtain e | ⟨-, e⟩ | ⟨-, -, -, e⟩ := rateIsrStep_cases s
    · rwa [e]
    · obtain ⟨q, l, n, e'⟩ := rateServiceExit_shape s
      rw [e, e']
      exact h
    · rw [e]
      exact h
  | tick =>
    cases hs
    obtain e | ⟨f, -, -, -, e⟩ := tick_cases s
    · rw [e]
      exact h
    · obtain ⟨l, n, c, p, e'⟩ := capture_shape f.buf f.i (advanceClocks s)
      rw [e, e']
      exact h
  | deliver d => cases hm
  | trigEdge e =>
    cases hs
    obtain e' | ⟨-, -, c, l, n, e'⟩ | ⟨-, -, e'⟩ := trigEdge_cases e s
    · rwa [e']
    · rw [e']
      exact h
    · obtain ⟨q, l, n, e'', -⟩ := trigEnable_shape s
      rw [e', e'']
      exact h
  | rateEdge e =>
    cases hs
    obtain e' | ⟨-, -, c, l, n, e'⟩ | ⟨-, -, e'⟩ := rateEdge_cases e s
    · rwa [e']
    · rw [e']
      exact h
    · obtain ⟨q, l, n, e'', -⟩ := rateEnable_shape s
      rw [e', e'']
      exact h
  | reset =>
    cases hs
    exact .inr ⟨rfl, rfl, rfl⟩

/-- What the host has sent grows with the run. -/
theorem sentBy_prefix (r : Nat → State) (n k : Nat) : sentBy r n <+: sentBy r (n + k) := by
  induction k with
  | zero => exact List.prefix_refl _
  | succ k ih => exact ih.trans (List.prefix_append _ _)

/-- Once the script is sent, the host sends nothing more. -/
theorem sentIn_eq_nil_of_sent (script : List Datagram) (r : Nat → State) (hr : IsScriptRun script r) (n k : Nat)
    (hn : sentBy r n = script) : sentIn (moveAt r (n + k)) = [] := by
  have h1 := (sentBy_prefix r n k).length_le
  have h2 := (hr.2 (n + k + 1)).length_le
  simp only [sentBy, List.length_append] at h2
  rw [hn] at h1
  exact List.eq_nil_of_length_eq_zero (by omega)

/-- A run that could end stays blocked or halted: no handler starts again (R117). -/
theorem canEnd_blocked (script : List Datagram) (r : Nat → State) (hr : IsScriptRun script r) (n : Nat)
    (h : CanEnd script r n) (k : Nat) :
    (r (n + k)).dstate = .halted ∨
      ((r (n + k)).dstate = .idle ∧ (r (n + k)).opv = none ∧ (r (n + k)).cin = []) := by
  induction k with
  | zero =>
    have := h.2
    simp only [atRest, Bool.and_eq_true, beq_iff_eq, List.isEmpty_iff] at this
    exact .inr (by simp [this])
  | succ k ih =>
    have hs := hr.1 (n + k)
    have hm := sentIn_eq_nil_of_sent script r hr n k h.1
    obtain ⟨m, l, d, e⟩ := takeMove_shape (r (n + k))
    simp only [moveAt, e] at hm
    simp only [step, e] at hs
    exact blocked_runMove m _ _ hm (by exact ih) hs

/-- A hang has no end (R117). -/
theorem hang_hasNoEnd (script : List Datagram) (r : Nat → State) (h : IsHang script r) : HasNoEnd script r := by
  intro n hn
  obtain ⟨hr, k, hk⟩ := h
  have hw := hk (n + k) (Nat.le_add_left k n)
  obtain hd | ⟨hd, -⟩ := canEnd_blocked script r hr n hn.1 k <;> simp [waitsInHandler, hd] at hw

end Sys2Proof.Machine
end

