-- ==== Sys2Proof/Laws/PerInstr.lean ====
section
/-! SUPPORT. Statements about every opcode, one lemma per constructor. -/

/-- Decoding the encoding of an opcode gives it back, and its row of the table has its format (R87, R88). -/
def Sys2Proof.Laws.DecodeEncode.Statement (i : Sys2Proof.Instr) : Prop :=
  Sys2Proof.decodeOpcode (Sys2Proof.encode i) = .ok i ∧
    ∃ r ∈ Sys2Proof.opcodeTable, r.instr = i ∧ r.format = i.format ∧
      Sys2Proof.encode i = [r.category, r.subcode]

namespace Sys2Proof.Laws.DecodeEncode

theorem potRd : Statement .potRd := ⟨rfl, ⟨0, 0, .potRd, .q0⟩, by decide, rfl, rfl, rfl⟩
theorem busScan : Statement .busScan := ⟨rfl, ⟨0, 2, .busScan, .q0⟩, by decide, rfl, rfl, rfl⟩
theorem potWrGain : Statement .potWrGain := ⟨rfl, ⟨1, 0, .potWrGain, .q1⟩, by decide, rfl, rfl, rfl⟩
theorem potWrThr : Statement .potWrThr := ⟨rfl, ⟨1, 1, .potWrThr, .q1⟩, by decide, rfl, rfl, rfl⟩
theorem acqStream : Statement .acqStream := ⟨rfl, ⟨2, 0, .acqStream, .q4⟩, by decide, rfl, rfl, rfl⟩
theorem acqBurst : Statement .acqBurst := ⟨rfl, ⟨2, 1, .acqBurst, .q8⟩, by decide, rfl, rfl, rfl⟩
theorem polLo : Statement .polLo := ⟨rfl, ⟨4, 0, .polLo, .q0⟩, by decide, rfl, rfl, rfl⟩
theorem polHi : Statement .polHi := ⟨rfl, ⟨4, 1, .polHi, .q0⟩, by decide, rfl, rfl, rfl⟩
theorem rate : Statement .rate := ⟨rfl, ⟨5, 1, .rate, .q0⟩, by decide, rfl, rfl, rfl⟩
theorem tpOff : Statement .tpOff := ⟨rfl, ⟨6, 0, .tpOff, .q0⟩, by decide, rfl, rfl, rfl⟩
theorem tpOn : Statement .tpOn := ⟨rfl, ⟨6, 1, .tpOn, .q0⟩, by decide, rfl, rfl, rfl⟩
theorem lblGet : Statement .lblGet := ⟨rfl, ⟨7, 0, .lblGet, .q0⟩, by decide, rfl, rfl, rfl⟩
theorem lblSet : Statement .lblSet := ⟨rfl, ⟨7, 1, .lblSet, .ql⟩, by decide, rfl, rfl, rfl⟩

end Sys2Proof.Laws.DecodeEncode
end

