-- ==== Sys2Proof/Tests/Slice0.lean ====
section
/-! SUPPORT. Tests: the checks of a configuration and of a written command, decoded words written out from R88, the
vectors of 95_test_vectors.md one step at a time (each comment names the vector), and for every obligation with
hypotheses a state and operands that meet them. -/

open Sys2Proof
open Sys2Proof.Machine

namespace Sys2Proof.Tests

/-! ### Helpers -/

/-- The next state of an outcome. -/
def nextOf (o : Host.Outcome State Fault Refusal) : Option State :=
  match o with
  | .next s => some s
  | _ => none

/-- The example board of 95_test_vectors.md: addresses 0x2C and 0x2D, `B = 8`, `DEFER_DEPTH = 2`, two pairs a chunk. -/
def board : Board := ⟨Params.sample, by decide⟩

/-- The example board with the polled opcode 0x0909 and the shortest settling delay. -/
def polledBoard : Board := ⟨{ Params.sample with opcodePolled := some 0x0909, settleUs := 200000 }, by decide⟩

/-- The reset state of the example board with both devices, and with its drawn buffers fixed. -/
def base : State :=
  { State.powerUp board [(0x2C, 0x80), (0x2D, 0x20)] 0 with sb := [1, 2, 3, 4], bb := List.replicate 8 0 }

/-- `base` at a line of a handler, `DISPATCH` to move. -/
def at' (a : Activity) : State := { base with dstate := .exec a, schedule := [.dispatch] }

/-- `base` in a burst, armed, at the wait for the count. -/
def armed : State := { base with dstate := .exec (.acqBurst .waitCount), mode := .burst, trigArmed := true }

/-- `base` in a rate window, armed. -/
def rateArmedState : State := { base with dstate := .exec (.rate (.wait 0)), mode := .rate, rateArmed := true }

/-! ### A configuration that breaks one constraint of R6 is refused with that constraint -/

theorem test_sample_accepted : Params.sample.broken = [] := by decide
theorem test_gain_zero : { Params.sample with gainAddr := 0 }.broken = [.gainAddrNonzero] := by decide
theorem test_thr_zero : { Params.sample with thrAddr := 0 }.broken = [.thrAddrNonzero] := by decide
theorem test_same_address : { Params.sample with thrAddr := 0x2C }.broken = [.addrsDiffer] := by decide
theorem test_settle_short : { Params.sample with settleUs := 199999 }.broken = [.settleInRange] := by decide
theorem test_settle_long : { Params.sample with settleUs := 500001 }.broken = [.settleInRange] := by decide
theorem test_burst_odd : { Params.sample with burstBuf := 10 }.broken = [.burstBufQuads] := by decide
theorem test_burst_small :
    { Params.sample with burstBuf := 4, burstCkpt := 0 }.broken = [.burstBufMin] := by decide
theorem test_ckpt_odd : { Params.sample with burstCkpt := 2 }.broken = [.burstCkptQuads] := by decide
theorem test_ckpt_outside : { Params.sample with burstCkpt := 8 }.broken = [.burstCkptInside] := by decide
theorem test_depth_zero : { Params.sample with deferDepth := 0 }.broken = [.deferDepthMin] := by decide
theorem test_chunk_zero : { Params.sample with chunkPairs := 0 }.broken = [.chunkPairsMin] := by decide
theorem test_period_zero : { Params.sample with streamPeriodUs := 0 }.broken = [.streamPeriodMin] := by decide
theorem test_polled_odd : { Params.sample with polledBuf := 6 }.broken = [.polledBufQuads] := by decide
theorem test_polled_small : { Params.sample with polledBuf := 0 }.broken = [.polledBufMin] := by decide
theorem test_polled_period : { Params.sample with polledPeriodUs := 0 }.broken = [.polledPeriodMin] := by decide
theorem test_count_bytes : { Params.sample with polledCountBytes := 9 }.broken = [.polledCountRange] := by decide
theorem test_polled_taken :
    { Params.sample with opcodePolled := some 0x0102 }.broken = [.polledOpcodeFree] := by decide
theorem test_window_zero : { Params.sample with rateWindowS := 0 }.broken = [.rateWindowMin] := by decide
theorem test_pulse_zero : { Params.sample with clrPulseUs := 0 }.broken = [.clrPulseMin] := by decide
theorem test_label_zero : { Params.sample with labelLen := 0 }.broken = [.labelLenMin] := by decide
theorem test_same_port : { Params.sample with streamPort := 1 }.broken = [.portsDiffer] := by decide

/-- A label of another length than `LABEL_LEN` is refused; padded as R95 says it is accepted. -/
theorem test_label_check :
    Command.check 4 (.lblSet [0x52, 0x55]) = some (.labelLength 2 4) ∧
    Command.wellFormed 4 (.lblSet (padLabel 4 [0x52, 0x55])) = true := by decide

/-! ### Words written out from the table of R88 decode to their opcodes -/

theorem test_decode_potRd : decodeOpcode [0x00, 0x00] = .ok .potRd := rfl
theorem test_decode_busScan : decodeOpcode [0x00, 0x02] = .ok .busScan := rfl
theorem test_decode_potWrGain : decodeOpcode [0x01, 0x00] = .ok .potWrGain := rfl
theorem test_decode_potWrThr : decodeOpcode [0x01, 0x01] = .ok .potWrThr := rfl
theorem test_decode_acqStream : decodeOpcode [0x02, 0x00] = .ok .acqStream := rfl
theorem test_decode_acqBurst : decodeOpcode [0x02, 0x01] = .ok .acqBurst := rfl
theorem test_decode_polLo : decodeOpcode [0x04, 0x00] = .ok .polLo := rfl
theorem test_decode_polHi : decodeOpcode [0x04, 0x01, 0xFF, 0xFF] = .ok .polHi := rfl
theorem test_decode_rate : decodeOpcode [0x05, 0x01] = .ok .rate := rfl
theorem test_decode_tpOff : decodeOpcode [0x06, 0x00] = .ok .tpOff := rfl
theorem test_decode_tpOn : decodeOpcode [0x06, 0x01] = .ok .tpOn := rfl
theorem test_decode_lblGet : decodeOpcode [0x07, 0x00] = .ok .lblGet := rfl
theorem test_decode_lblSet : decodeOpcode [0x07, 0x01] = .ok .lblSet := rfl

/-- V1, V2, V3: a value outside the table and a short datagram are refused by name. -/
theorem test_decode_refused :
    decodeOpcode [0x03, 0x00] = .error (.unknownOpcode 0x0003) ∧
    decodeOpcode [0x00, 0x01] = .error (.unknownOpcode 0x0100) ∧ decodeOpcode [0x05] = .error (.shortFrame 1) := by
  exact ⟨rfl, rfl, rfl⟩

/-- V7, V5, V6: the datagrams of `ACQ.BURST 40`, and the operands of two `ACQ.STREAM` payloads. -/
theorem test_encode_operands :
    encodeCommand (.acqBurst 40) = [[0x02, 0x01], [0x28, 0, 0, 0, 0, 0, 0, 0]] ∧
    operandN32 [0x0A, 0, 0, 0] = 10 ∧ operandN32 [0xFF, 0xFF, 0xFF, 0xFF] = 4294967295 := by decide

/-! ### Scripts (R95, R97) -/

/-- P1's line, V7's command, a comment, a hex operand, a byte list, and an operand out of range. -/
theorem test_script_lines :
    readLine 4 "LBL.SET \"RUN1\" ; 07 01".toList = .ok (some (.lblSet [0x52, 0x55, 0x4E, 0x31])) ∧
    readLine 4 "ACQ.BURST 40".toList = .ok (some (.acqBurst 40)) ∧ readLine 4 "  ; note".toList = .ok none ∧
    readLine 4 "POT.WR.GAIN 0x80".toList = .ok (some (.potWrGain 0x80)) ∧
    readLine 2 "LBL.SET [00 fF]".toList = .ok (some (.lblSet [0x00, 0xFF])) ∧
    readLine 4 "POT.WR.THR 256".toList = .error .outOfRange := by
  refine ⟨rfl, rfl, rfl, rfl, rfl, rfl⟩
theorem test_script_polarity :
    scriptDatagrams 4 ["POL.HI".toList, "".toList, "POL.LO".toList] = .ok [[0x04, 0x01], [0x04, 0x00]] ∧
    hostCommands (.setPolarity true) = [.polHi] := ⟨rfl, rfl⟩

/-! ### Vectors, one step each -/

/-- V1: an unknown opcode is received, then halts the block and sends nothing. -/
theorem test_v1_receive :
    (nextOf (step { base with schedule := [.dispatch], cin := [[0x03, 0x00], [0x00, 0x02]] })).map
      (fun t => (t.opv, t.dstate, t.cin)) = some (some 0x0003, .idle, [[0x00, 0x02]]) := by decide
theorem test_v1 :
    (nextOf (step { base with schedule := [.dispatch], opv := some 0x0003, cin := [[0x00, 0x02]] })).map
      (fun t => (t.faults, t.dstate, t.cout, t.cin)) =
    some ([.unknownOpcode 0x0003], .halted, [], [[0x00, 0x02]]) := by decide

/-- V18: an empty payload of a potentiometer write halts with `ShortFrame(0, 1)`. -/
theorem test_v18 :
    (nextOf (exec .potWrThr { at' (.potWrThr .recv) with cin := [[]] })).map (fun t => (t.faults, t.dstate)) =
    some ([.shortFrame 0 1], .halted) := by decide

/-- V13: positions 0x00 and 0xFF are returned as they are. -/
theorem test_v13_gain :
    (nextOf (exec .potRd { at' (.potRd .readGain) with pots := [(0x2C, 0x00), (0x2D, 0xFF)] })).map (·.dstate) =
    some (.exec (.potRd (.gotGain (some 0x00)))) := by decide
theorem test_v13_send :
    (nextOf (exec .potRd (at' (.potRd (.gotBoth 0x00 (some 0xFF)))))).map (·.cout) = some [[0x00, 0xFF]] := by decide

/-- V14: an absent gain device is an abort: counted, nothing sent, no fault. -/
theorem test_v14 :
    (nextOf (exec .potRd (at' (.potRd (.gotGain none))))).map (fun t => (t.buserr, t.cout, t.dstate, t.faults)) =
    some (1, [], .idle, []) := by decide

/-- V12, V11, V10: the response of a scan. -/
theorem test_v12 : scanResponse [0x50, 0x2D, 0x2C] = [0x50, 0x2D] ∧ scanResponse [0x10] = [0x10, 0x00] ∧
    scanResponse [] = [0x00, 0x00] := by decide
theorem test_scan_probe :
    (nextOf (exec .busScan (at' (.busScan (.probe [0x2D, 0x2C] []))))).map (·.dstate) =
    some (.exec (.busScan (.probe [0x2C] [0x2D]))) := by decide

/-- V16: the write, and its record two ticks later with the `NOW` of the write. -/
theorem test_v16 :
    (nextOf (exec .potWrGain { at' (.potWrGain (.write 0xFF)) with pots := [(0x2C, 0x10)] })).map
      (fun t => (t.pots, t.lastwr, t.dstate)) =
    some ([(0x2C, 0xFF)], none, .exec (.potWrGain (.record 0 0x10 0xFF))) := by decide
theorem test_v16_record :
    (nextOf (exec .potWrGain { at' (.potWrGain (.record 0 0x10 0xFF)) with now := 2 })).map (·.lastwr) =
    some (some { t := 0, a := 0x2C, old := 0x10, new := 0xFF }) := by decide

/-- V17: an absent device: no record. -/
theorem test_v17 :
    (nextOf (exec .potWrThr { at' (.potWrThr (.write 0x20)) with pots := [(0x2C, 0x10)] })).map
      (fun t => (t.pots, t.lastwr, t.dstate)) =
    some ([(0x2C, 0x10)], none, .exec (.potWrThr .absent)) := by decide

/-- V19: a read 250000 µs after a write admits the old and the new position. -/
def v19 (keep : Bool) : State :=
  { at' (.potRd .readGain) with
    cfg := polledBoard, now := 250000, lastwr := some { t := 0, a := 0x2C, old := 0x10, new := 0x80 }, coinIn := [keep] }
theorem test_v19_old :
    (nextOf (exec .potRd (v19 false))).map (·.dstate) = some (.exec (.potRd (.gotGain (some 0x10)))) := by decide
theorem test_v19_new :
    (nextOf (exec .potRd (v19 true))).map (·.dstate) = some (.exec (.potRd (.gotGain (some 0x80)))) := by decide

/-- V20, V21: the sampling timer's carry and wrap. -/
theorem test_v20 : timerAdvance (0, 999999) = (1, 0) ∧ timerAdvance (0xFFFFFFFF, 999999) = (0, 0) := by decide

/-- V22 to V27: the packer, and the bytes of a record. -/
theorem test_v22 : pack 0 0 0x123 = (0, 0x123) ∧ pack 0 100 0x456 = (0, 0x00064456) ∧
    pack 1 50 0xFFF = (1, 0x00032FFF) ∧ pack 2 999999 1 = (2, 0xF423F001) ∧ pack 0 0 4095 = (0, 0xFFF) ∧
    pack 4294967295 999999 4095 = (0xFFFFFFFF, 0xF423FFFF) := by decide
theorem test_v24_bytes : pairBytes (1, 0x00032FFF) = [0x01, 0, 0, 0, 0xFF, 0x2F, 0x03, 0] := by decide

/-- V29: the start of a stream zeroes the timer, captures sample 0 and plans sample 1; the chunk is sent as 16 bytes. -/
theorem test_v29_start :
    (nextOf (exec .acqStream { at' (.acqStream .loop) with
        mode := .stream, starget := 2, tsec := 7, adcIn := [0x123, 0x456] })).map
      (fun t => (t.tsec, t.chunk, t.fill)) =
    some (0, [(0, 0x123), (0, 0)], some { buf := .chunk, n := 2, i := 1, due := 100, period := 100 }) := by decide
theorem test_v29_send :
    (nextOf (exec .acqStream { at' (.acqStream .send) with chunk := [(0, 0x123), (0, 0x00064456)] })).map (·.sout) =
    some [[0, 0, 0, 0, 0x23, 0x01, 0, 0, 0, 0, 0, 0, 0x56, 0x44, 0x06, 0]] := by decide

/-- R153's example: the tick at which sample 1 is due captures it. -/
theorem test_tick_captures :
    (nextOf (step { base with
        schedule := [.tick], now := 99, tusec := 99, adcIn := [0x456], chunk := [(0, 0x123), (0, 0)]
        fill := some { buf := .chunk, n := 2, i := 1, due := 100, period := 100 } })).map
      (fun t => (t.chunk, t.fill.map (·.i))) = some ([(0, 0x123), (0, 0x00064456)], some 2) := by decide

/-- R158: an edge enables an entry; P4: trigger 1 samples its group, counts and schedules; V37: a full queue halts with
the incremented count, and `MODE` is `NONE` then (R24). -/
theorem test_trig_edge :
    (nextOf (step { armed with schedule := [.trigEdge .rising] })).map (fun t => (t.trigReq, t.pcount, t.trigArmed)) =
    some (1, 0, true) := by decide
theorem test_p4_trigger :
    (nextOf (step { armed with schedule := [.trigIsr], trigReq := 1, adcIn := [1, 2, 3, 4] })).map
      (fun t => (t.sb, t.pcount, t.dq, t.trigInsvc)) = some ([1, 2, 3, 4], 1, 1, true) := by decide
theorem test_v37 :
    (nextOf (step { armed with
        schedule := [.trigIsr], trigReq := 1, adcIn := [1, 2, 3, 4], dq := 2, pcount := 2 })).map
      (fun t => (t.faults, t.dstate, t.mode)) = some ([.deferOverflow 3], .halted, .none) := by decide

/-- P4: the flush at the checkpoint, V35; V40: an edge during service is latched or lost. -/
theorem test_v35_flush :
    (nextOf (step { armed with
        schedule := [.defer], bb := [0, 0, 0, 0, 1, 2, 3, 4], dcont := some (.flush 4) })).map (·.cout) =
    some [[0, 0, 0, 0, 0, 0, 0, 0, 1, 0, 2, 0, 3, 0, 4, 0]] := by decide
theorem test_v40 :
    (nextOf (step { armed with
        schedule := [.trigEdge .rising], trigArmed := false, trigInsvc := true, coinIn := [true] })).map
      (·.trigPend) = some true ∧
    (nextOf (step { armed with
        schedule := [.trigEdge .rising], trigArmed := false, trigInsvc := true, coinIn := [false] })).map
      (·.trigPend) = some false := by decide

/-- S11: `(4 * count) mod 8`. -/
theorem test_s11 : (burstPosition 8 1, burstPosition 8 2, burstPosition 8 3) = (4, 0, 4) := by decide

/-- V34: with target 0 the wait of a burst is passed at once; V38: with target 1 and no edge it is not. -/
theorem test_v34 :
    (nextOf (exec .acqBurst { armed with btarget := 0 })).map (·.dstate) = some (.exec (.acqBurst .disarm)) ∧
    (nextOf (exec .acqBurst { armed with btarget := 1 })).map (·.dstate) = some (.exec (.acqBurst .waitCount)) := by
  decide

/-- V41: the polled buffer on the command channel. -/
theorem test_v41 :
    (nextOf (step { at' (.polled (.send 1)) with pbuf := [1, 2, 3, 4] })).map (·.cout) =
    some [[1, 0, 2, 0, 3, 0, 4, 0]] := by decide

/-- V44 to V47: the one-bit commands. -/
theorem test_v44 : (nextOf (exec .polHi (at' (.polHi .write)))).map (fun t => (t.pol, t.events)) =
    some (true, [.polOut true]) := by decide
theorem test_v45 : (nextOf (exec .polLo { at' (.polLo .write) with pol := true })).map (·.pol) = some false := by decide
theorem test_v46 : (nextOf (exec .tpOn (at' (.tpOn .write)))).map tpOut = some (.emitting []) := by decide
theorem test_v47 : (nextOf (exec .tpOff { at' (.tpOff .write) with tpen := true })).map tpOut = some .inactive := by
  decide

/-- V48 to V55: the rounding. -/
theorem test_v48 : [roundTie .halfEven 15 3, roundTie .halfUp 0 3, roundTie .halfEven 1 3, roundTie .halfEven 2 3,
    roundTie .halfEven 5 2, roundTie .halfUp 5 2, roundTie .halfEven 7 2, roundTie .halfUp 1000 1] =
    [5, 0, 0, 1, 2, 3, 4, 1000] := by decide
theorem test_v55_send :
    (nextOf (exec .rate (at' (.rate (.send 1000))))).map (·.cout) = some [[0xE8, 0x03, 0x00, 0x00]] := by decide

/-- R191, R193: an entry counts one and gives one pulse. -/
theorem test_rate_edge :
    (nextOf (step { rateArmedState with schedule := [.rateIsr], rateReq := 1 })).map (fun t => (t.rcount, t.events)) =
    some (1, [.clrPulse 1]) := by decide

/-- V59, V57: the label as stored, and its first byte stored. -/
theorem test_v59 :
    (nextOf (exec .lblGet { at' (.lblGet .send) with label := [0x00, 0xFF, 0x0A, 0x80] })).map (·.cout) =
    some [[0x00, 0xFF, 0x0A, 0x80]] := by decide
theorem test_v57 :
    (nextOf (exec .lblSet { at' (.lblSet .recv) with cin := [[0x41, 0x42, 0x43, 0x44, 0x45]] })).map (·.dstate) =
    some (.exec (.lblSet (.store 0 [0x41, 0x42, 0x43, 0x44]))) := by decide

/-- V61, V62: a reset inside a burst abandons the handler. -/
theorem test_v62 :
    (nextOf (step { armed with schedule := [.reset], pcount := 3, cout := [[1]] })).map
      (fun t => (t.dstate, t.pcount, t.trigArmed, t.cout)) = some (.idle, 0, false, []) := by decide

/-- The reset state takes a numbered word as its first instruction. -/
theorem test_fetch_word :
    (step (base.withFetchWord 16 0x0104)) =
      exec .polHi { base with schedule := [], cin := [], dstate := .idle } := rfl

theorem test_fetch_word_reset :
    step (State.reset.withFetchWord 16 0x0107) =
      exec .lblSet { State.reset with cin := [leBytes Config.board.params.labelLen 0] } := rfl

/-! ### Witnesses: for every obligation with hypotheses, a state and operands that meet them -/

theorem base_inv : base.Inv := by constructor <;> decide
theorem armed_inv : armed.Inv := by constructor <;> decide
theorem rateArmed_inv : rateArmedState.Inv := by constructor <;> decide

/-- A halted state with the invariant. -/
def haltedState : State := { base with dstate := .halted, faults := [.shortFrame 1 2], schedule := [.deliver [1]] }
theorem halted_inv : haltedState.Inv := by constructor <;> decide

/-- A stream waiting for its second sample, with the invariant. -/
def streaming : State :=
  { base with
    dstate := .exec (.acqStream (.wait 2)), mode := .stream, starget := 2
    fill := some { buf := .chunk, n := 2, i := 1, due := 100, period := 100 } }
theorem streaming_inv : streaming.Inv := by constructor <;> decide

theorem witness_RequestRoundTrip :
    Command.wellFormed 4 (.acqBurst (BitVec.allOnes 64)) = true ∧ Command.wellFormed 4 (.acqStream 0) = true ∧
    Command.wellFormed 4 (.lblSet [0, 0xFF, 0x0A, 0x80]) = true ∧ Command.wellFormed 4 (.potWrGain 0xFF) = true := by
  decide

theorem witness_OpcodeTableTotal : ∀ i, encode i ≠ [0xFF, 0xFF] := by intro i; cases i <;> decide

/-- A request at the head of `CIN`. -/
def requested (bytes : Datagram) : State := { base with schedule := [.dispatch], cin := [bytes] }

/-- An opcode received and not yet looked up. -/
def received (v : BitVec 16) : State := { base with schedule := [.dispatch], opv := some v }

theorem witness_StepRunsOpcode :
    (let s : State := { requested [0x07, 0x01] with schedule := [.dispatch, .dispatch] }
     s.schedule = .dispatch :: .dispatch :: [] ∧ awaitsRequest s = true ∧ s.cin = [0x07, 0x01] :: [] ∧
       decodeOpcode [0x07, 0x01] = .ok .lblSet) ∧
    (requested [0x07, 0x01, 0x09]).cin = (0x07 :: 0x01 :: [0x09]) :: [] ∧
    dispatchReady (received 0x0107) = true ∧ (received 0x0107).dstate = .idle ∧
    (received 0x0107).opv = some (opvOf 0x07 0x01) ∧ encode .lblSet = [0x07, 0x01] := by
  exact ⟨⟨rfl, rfl, rfl, rfl⟩, rfl, rfl, rfl, rfl, rfl⟩
theorem witness_StepRunsOpcode_line :
    (at' (.rate .divide)).schedule = .dispatch :: [] ∧ dispatchReady (at' (.rate .divide)) = true ∧
    (at' (.rate .divide)).dstate = .exec (.rate .divide) ∧ (Activity.rate .divide).instr = some .rate := by
  exact ⟨rfl, rfl, rfl, rfl⟩

theorem witness_ExecCompletes : base.dstate = .idle ∧ haltedState.dstate = .halted ∧
    (at' (.polled .recv)).dstate = .exec (.polled .recv) ∧ (Activity.polled .recv).instr ≠ some .polHi ∧
    (at' (.polHi .ret)).dstate = .exec (.polHi .ret) ∧ (Activity.polHi .ret).instr = some .polHi := by
  exact ⟨rfl, rfl, rfl, by decide, rfl, rfl⟩

theorem witness_StepTakesMove : (requested []).schedule = .dispatch :: [] ∧ base.schedule = [] := ⟨rfl, rfl⟩

theorem witness_InterruptHoldsProcessor :
    ({ armed with trigArmed := false, trigInsvc := true, schedule := [.dispatch] } : State).trigInsvc = true ∧
    ({ armed with dcont := some .readCount, schedule := [.dispatch] } : State).dcont ≠ none ∧
    ({ rateArmedState with rateInsvc := true, schedule := [.defer] } : State).schedule = .defer :: [] ∧
    ({ rateArmedState with rateInsvc := true, schedule := [.defer] } : State).rateInsvc = true := by
  exact ⟨rfl, by decide, rfl, rfl⟩

theorem witness_RaiseAction : (Condition.shortFrame 0 1).kind = .fatal ∧ (Condition.unknownOpcode 0).kind = .fatal ∧
    (Condition.deferOverflow 0).kind = .fatal ∧ (Condition.busDeviceAbsent 1).kind = .abort := by decide

theorem witness_UnknownOpcodeHalts :
    dispatchReady (received 0x0909) = true ∧ (received 0x0909).dstate = .idle ∧
    (received 0x0909).opv = some (opvOf 0x09 0x09) ∧
    (∀ i, encode i ≠ [0x09, 0x09]) ∧ (received 0x0909).par.opcodePolled ≠ some (opvOf 0x09 0x09) := by
  exact ⟨rfl, rfl, rfl, by intro i; cases i <;> decide, by decide⟩

theorem witness_ReceiveWaitsOrHalts :
    dispatchReady (requested [0x04]) = true ∧ (requested [0x04]).dstate = .idle ∧ (requested [0x04]).opv = none ∧
    (requested [0x04]).cin = [0x04] :: [] ∧ ([0x04] : Datagram).length < 2 ∧ (at' (.lblSet .recv)).cin = [] ∧
    (at' (.lblSet .recv)).dstate = .exec (.lblSet .recv) ∧ dispatchReady (at' (.lblSet .recv)) = true ∧
    ([1, 2, 3] : Datagram).length < base.par.labelLen := by
  exact ⟨rfl, rfl, rfl, rfl, by decide, rfl, rfl, rfl, by decide⟩
/-- One byte too few for each payload: 0 of 1, 3 of 4, 7 of 8. -/
theorem witness_ReceiveWaitsOrHalts_payloads :
    (at' (.potWrGain .recv)).dstate = .exec (.potWrGain .recv) ∧ ([] : Datagram).length < 1 ∧
    (at' (.acqStream .recv)).dstate = .exec (.acqStream .recv) ∧ ([1, 2, 3] : Datagram).length < 4 ∧
    (at' (.acqBurst .recv)).dstate = .exec (.acqBurst .recv) ∧ ([1, 2, 3, 4, 5, 6, 7] : Datagram).length < 8 ∧
    (at' (.polled .recv)).dstate = .exec (.polled .recv) ∧ ([] : Datagram).length < base.par.polledCountBytes := by
  exact ⟨rfl, by decide, rfl, by decide, rfl, by decide, rfl, by decide⟩

theorem witness_HaltedIsAbsorbing : haltedState.Inv ∧ haltedState.dstate = .halted ∧
    (takeMove haltedState).1 ≠ .reset ∧ ∃ t, step haltedState = .next t := by
  exact ⟨halted_inv, rfl, by decide, _, rfl⟩

theorem witness_BusTransactions :
    (∀ w, base.lastwr = some w → 500000 ≤ (base.now.toNat : Int) - (w.t.toNat : Int)) ∧
    (let s : State := { base with now := 500000, lastwr := some { t := 0, a := 0x2C, old := 1, new := 2 } }
     ∀ w, s.lastwr = some w → 500000 ≤ (s.now.toNat : Int) - (w.t.toNat : Int)) ∧
    (let s : State := { base with
       now := 499999, coinIn := [true, false], lastwr := some { t := 0, a := 0x2C, old := 1, new := 2 } }
     s.lastwr = some { t := 0, a := 0x2C, old := 1, new := 2 } ∧
       (s.now.toNat : Int) - ((0 : BitVec 64).toNat : Int) < 500000 ∧ s.coinIn = true :: false :: []) := by
  refine ⟨(by intro w h; cases h), ?_, rfl, by decide, rfl⟩
  intro s w h
  cases h
  decide

theorem witness_PotReadLines :
    (at' (.potRd .readGain)).dstate = .exec (.potRd .readGain) ∧
    (at' (.potRd (.gotGain (some 0)))).dstate = .exec (.potRd (.gotGain (some 0))) ∧
    (at' (.potRd (.gotBoth 1 none))).dstate = .exec (.potRd (.gotBoth 1 none)) ∧
    (at' (.potRd (.gotBoth 1 (some 2)))).dstate = .exec (.potRd (.gotBoth 1 (some 2))) := ⟨rfl, rfl, rfl, rfl⟩

theorem witness_BusScanLines :
    (at' (.busScan (.probe [1] []))).dstate = .exec (.busScan (.probe (1 :: []) [])) ∧
    (at' (.busScan (.probe [] [5]))).dstate = .exec (.busScan (.probe [] [5])) := ⟨rfl, rfl⟩

theorem witness_PotWriteLines :
    (at' (.potWrGain (.write 7))).par.gainAddr = 0x2C ∧ settleWindow (at' (.potWrGain (.write 7))) = none ∧
    (at' (.potWrGain (.write 7))).pots.read 0x2C = some 0x80 ∧
    ({ at' (.potWrThr (.write 7)) with pots := [(0x2C, 1)] } : State).pots.read 0x2D = none ∧
    ({ at' (.potWrThr .recv) with cin := [[7, 8]] } : State).cin = (7 :: [8]) :: [] ∧
    (at' (.potWrThr (.record 0 1 7))).dstate = .exec (.potWrThr (.record 0 1 7)) ∧
    (let s : State := { at' (.potWrThr .settle) with
       now := 500000, lastwr := some { t := 0, a := 0x2D, old := 1, new := 7 } }
     s.lastwr = some { t := 0, a := 0x2D, old := 1, new := 7 } ∧
       (s.par.settleUs : Int) = (s.now.toNat : Int) - ((0 : BitVec 64).toNat : Int)) := by
  exact ⟨rfl, rfl, rfl, rfl, rfl, rfl, rfl, by decide⟩

/-- A write line 200000 µs after an earlier write, on a board with the shortest settling delay. -/
def windowWrite : State :=
  { at' (.potWrGain (.write 7)) with
    cfg := polledBoard, now := 200000, coinIn := [true, false]
    lastwr := some { t := 0, a := 0x2C, old := 1, new := 0x80 } }
theorem witness_PotWriteInWindow :
    windowWrite.dstate = .exec (.potWrGain (.write 7)) ∧
    windowWrite.lastwr = some { t := 0, a := 0x2C, old := 1, new := 0x80 } ∧
    (windowWrite.now.toNat : Int) - ((0 : BitVec 64).toNat : Int) < 500000 ∧
    windowWrite.coinIn = true :: false :: [] ∧ windowWrite.pots.read windowWrite.par.gainAddr = some 0x80 ∧
    ({ windowWrite with pots := [(0x2D, 0x20)] } : State).pots.read windowWrite.par.gainAddr = none := by
  exact ⟨rfl, rfl, by decide, rfl, rfl, rfl⟩

theorem witness_PotReadRun :
    (let s : State := { requested [0x00, 0x00] with schedule := List.replicate 6 .dispatch ++ [] }
     awaitsRequest s = true ∧ settleWindow s = none ∧ s.cin = [0x00, 0x00] :: [] ∧
       s.pots.read s.par.gainAddr = some 0x80 ∧ s.pots.read s.par.thrAddr = some 0x20) ∧
    (let s : State := { requested [0x00, 0x00] with schedule := List.replicate 4 .dispatch ++ [], pots := [(0x2D, 1)] }
     s.pots.read s.par.gainAddr = none) ∧
    (let s : State := { requested [0x00, 0x00] with schedule := List.replicate 5 .dispatch ++ [], pots := [(0x2C, 1)] }
     s.pots.read s.par.gainAddr = some 1 ∧ s.pots.read s.par.thrAddr = none) := by
  exact ⟨⟨rfl, rfl, rfl, rfl, rfl⟩, rfl, rfl, rfl⟩

theorem witness_BusScanRun :
    let s : State := { requested [0x00, 0x02] with schedule := List.replicate 131 .dispatch ++ [] }
    awaitsRequest s = true ∧ settleWindow s = none ∧ s.cin = [0x00, 0x02] :: [] ∧
      s.schedule = List.replicate 131 .dispatch ++ [] := ⟨rfl, rfl, rfl, rfl⟩

theorem witness_PotWriteRun :
    (let s : State := { base with
       cin := [encode .potWrThr, [0x55]]
       schedule := List.replicate 5 .dispatch ++ List.replicate base.par.settleUs .tick ++
         List.replicate 2 .dispatch ++ [] }
     awaitsRequest s = true ∧ settleWindow s = none ∧ s.fill = none ∧ s.now.toNat + s.par.settleUs < 2 ^ 64 ∧
       s.cin = encode .potWrThr :: (0x55 :: []) :: [] ∧ s.pots.read s.par.thrAddr = some 0x20) ∧
    (let s : State := { base with
       schedule := List.replicate 5 .dispatch ++ List.replicate (base.par.settleUs - 1) .tick ++
         List.replicate 4 .dispatch ++ [] }
     base.par.settleUs - 1 < s.par.settleUs) ∧
    ({ base with pots := [] } : State).pots.read base.par.gainAddr = none := by
  exact ⟨⟨rfl, rfl, rfl, by decide, rfl, rfl⟩, by decide, rfl⟩

theorem witness_SettleHazardUnreachable :
    settleOk base = true ∧ base.par.settleUs = 500000 ∧ base.now.toNat + 1 < 2 ^ 64 ∧
    settleOk (at' (.potRd .readGain)) = true ∧ atBusTransaction (at' (.potRd .readGain)) = true ∧
    settleOk (at' (.potWrGain (.record 0 1 7))) = true ∧ ∃ t, step (at' (.potRd .readGain)) = .next t := by
  exact ⟨rfl, rfl, by decide, rfl, rfl, rfl, _, rfl⟩

theorem witness_PotWriters : ∃ t, step (at' (.potWrGain (.write 7))) = .next t := ⟨_, rfl⟩

/-- A timed read with its next sample due at the next tick, at the end of a second. -/
def dueState (buf : FillBuf) : State :=
  { base with
    schedule := [.tick], now := 99, tusec := 999999, adcIn := [0x456]
    fill := some { buf := buf, n := 2, i := 1, due := 100, period := 100 } }
theorem witness_TickEffect :
    (dueState .chunk).schedule = .tick :: [] ∧ (dueState .chunk).tusec = 999999 ∧ base.fill = none ∧
    (dueState .pbuf).fill = some { buf := .pbuf, n := 2, i := 1, due := 100, period := 100 } ∧
    (dueState .pbuf).now + 1 = 100 ∧
    ({ dueState .chunk with now := 98 } : State).now + 1 ≠ 100 := by
  exact ⟨rfl, rfl, rfl, rfl, by decide, by decide⟩

theorem witness_TimerCountsMicros : timerOk base = true ∧ timerOk (dueState .chunk) = true := by decide

theorem witness_UnpackPacked : (999999 : BitVec 20).toNat ≤ 999999 ∧ (0 : BitVec 20).toNat ≤ 999999 := by decide

theorem witness_TimedReadOnTime :
    1 ≤ 2 ∧ 2 ≤ base.chunk.length ∧ 2 ≤ base.pbuf.length ∧ 1 ≤ 100 ∧ 2 * 100 < 2 ^ 64 ∧ timerOk base = true ∧
    ({ base with adcIn := [5, 6, 7] } : State).adcIn = [5, 6] ++ [7] ∧ ([5, 6] : List Sample).length = 2 := by
  decide

theorem witness_StreamLines :
    ({ at' (.acqStream .recv) with cin := [[2, 0, 0, 0, 9]] } : State).cin = [2, 0, 0, 0, 9] :: [] ∧
    4 ≤ ([2, 0, 0, 0, 9] : Datagram).length ∧
    (let s : State := { at' (.acqStream .loop) with starget := 3, sdone := 2 }
     s.sdone.toNat < s.starget.toNat ∧ 1 = min s.par.chunkPairs (s.starget.toNat - s.sdone.toNat)) ∧
    (let s : State := { at' (.acqStream .loop) with starget := 3, sdone := 3 }
     s.starget.toNat ≤ s.sdone.toNat) := by
  decide

/-- Three samples in chunks of two, with 7 ticks before the second chunk. -/
theorem witness_StreamRun :
    (let s : State := { base with
       cin := [[0x02, 0x00], [0, 0, 0, 0], [9]], schedule := List.replicate 8 .dispatch ++ [] }
     awaitsRequest s = true ∧ s.cin = [0x02, 0x00] :: [0, 0, 0, 0] :: [[9]]) ∧
    (let count : Nat → Nat := fun c => min 2 (3 - c * 2)
     let gap : Nat → Nat := fun c => if c = 0 then 0 else 7
     let start : Nat → Nat := fun c => ((List.range c).map fun k => (count k - 1) * 100 + 7).sum
     let s : State := { base with
       cin := [0x02, 0x00] :: leBytes 4 (3 : BitVec 32).toNat :: [], adcIn := [0x123, 0x456, 0x789]
       schedule := List.replicate 7 .dispatch ++
         ((List.range 2).flatMap fun c => List.replicate (gap c) .tick ++ .dispatch ::
           List.replicate ((count c - 1) * 100) .tick ++ List.replicate 4 .dispatch) ++ .dispatch :: [] }
     awaitsRequest s = true ∧ 1 ≤ (3 : BitVec 32).toNat ∧ s.par.streamPeriodUs = 100 ∧ s.par.streamPeriodUs < 2 ^ 64 ∧
       s.adcIn = [0x123, 0x456, 0x789] ++ [] ∧
       2 = ((3 : BitVec 32).toNat + s.par.chunkPairs - 1) / s.par.chunkPairs ∧
       (∀ c, count c = min s.par.chunkPairs ((3 : BitVec 32).toNat - c * s.par.chunkPairs)) ∧ gap 0 = 0 ∧
       start 0 = 0 ∧ (∀ c, start (c + 1) = start c + (count c - 1) * s.par.streamPeriodUs + gap (c + 1)) ∧
       107 = ((List.range 2).map fun c => gap c + (count c - 1) * s.par.streamPeriodUs).sum) := by
  refine ⟨⟨rfl, rfl⟩, rfl, by decide, rfl, by decide, rfl, by decide, fun c => rfl, rfl, rfl, ?_, by decide⟩
  intro c
  simp only [List.range_succ, List.map_append, List.sum_append, List.map_cons, List.map_nil, List.sum_singleton]
  exact (Nat.add_assoc _ _ _).symm

theorem witness_StreamChannelWriters :
    let s : State := { streaming with dstate := .exec (.acqStream .send), fill := none, schedule := [.dispatch] }
    s.Inv ∧ (takeMove s).1 ≠ .reset ∧ ∃ t, step s = .next t := by
  refine ⟨by constructor <;> decide, by decide, _, rfl⟩

theorem witness_BurstLines :
    ({ at' (.acqBurst .recv) with cin := [[3, 0, 0, 0, 0, 0, 0, 0]] } : State).cin = [3, 0, 0, 0, 0, 0, 0, 0] :: [] ∧
    8 ≤ ([3, 0, 0, 0, 0, 0, 0, 0] : Datagram).length ∧ armed.dstate = .exec (.acqBurst .waitCount) ∧
    (at' (.acqBurst .waitDefer)).dq = 0 ∧ (at' (.acqBurst .waitDefer)).dcont = none := by
  exact ⟨rfl, by decide, rfl, rfl, rfl⟩

theorem witness_TriggerEntry :
    let s : State := { armed with schedule := [.trigIsr], trigReq := 1, adcIn := [1, 2, 3, 4] }
    s.schedule = .trigIsr :: [] ∧ s.trigInsvc = false ∧ s.trigArmed = true ∧ 0 < s.trigReq ∧
      s.adcIn = 1 :: 2 :: 3 :: 4 :: [] ∧
      s.dq < s.par.deferDepth ∧ ¬ ({ s with dq := 2 } : State).dq < s.par.deferDepth := by
  exact ⟨rfl, rfl, rfl, by decide, rfl, by decide, by decide⟩

/-- The edges. -/
theorem witness_TriggerService :
    Edge.falling ≠ armed.par.trigEdge ∧ base.trigInsvc = false ∧ base.trigArmed = false ∧
    (let s : State := { armed with
       trigArmed := false, trigInsvc := true, coinIn := [true], schedule := [.trigEdge .rising] }
     Edge.rising = s.par.trigEdge ∧ s.schedule = .trigEdge .rising :: [] ∧ s.trigPend = false ∧
       s.coinIn = true :: [] ∧ ({ s with trigPend := true } : State).trigPend = true) ∧
    (let s : State := { armed with schedule := [.trigEdge .rising], coinIn := [false] }
     s.trigInsvc = false ∧ s.trigArmed = true ∧ s.trigReq = 0 ∧ 0 < ({ s with trigReq := 1 } : State).trigReq) := by
  exact ⟨by decide, rfl, rfl, ⟨rfl, rfl, rfl, rfl, rfl⟩, rfl, rfl, rfl, by decide⟩
/-- The steps of `TRIG_ISR`. -/
theorem witness_TriggerService_isr :
    (let s : State := { armed with trigArmed := false, trigInsvc := true, coinIn := [true], schedule := [.trigIsr] }
     s.schedule = .trigIsr :: [] ∧ s.trigInsvc = true ∧ s.trigPend = false ∧ s.trigReq = 0 ∧
       ({ s with trigPend := true } : State).trigPend = true ∧ 0 < ({ s with trigReq := 1 } : State).trigReq) ∧
    ({ armed with schedule := [.trigIsr] } : State).trigInsvc = false ∧ armed.trigReq = 0 := by
  exact ⟨⟨rfl, rfl, rfl, rfl, rfl, by decide⟩, rfl, rfl⟩

theorem witness_DeferLines :
    let s : State := { armed with schedule := [.defer], dq := 1 }
    s.schedule = .defer :: [] ∧ s.trigInsvc = false ∧ s.rateInsvc = false ∧ s.dcont = none ∧ 0 < s.dq ∧
      ({ s with dcont := some (.copy 4 3) } : State).dcont = some (.copy 4 3) ∧
      ({ s with dcont := some (.flush 4) } : State).dcont = some (.flush s.par.burstCkpt) := by
  exact ⟨rfl, rfl, rfl, rfl, by decide, rfl, rfl⟩

theorem witness_BurstGroupsDelivered :
    let s : State := { armed with
      adcIn := [1, 2, 3, 4, 5, 6, 7, 8] ++ []
      schedule := (List.replicate 2
        (.trigEdge armed.par.trigEdge :: .trigIsr :: .trigIsr :: List.replicate 9 .defer)).flatten ++ [] }
    s.dstate = .exec (.acqBurst .waitCount) ∧ s.trigArmed = true ∧ s.trigInsvc = false ∧ s.trigPend = false ∧
      s.trigReq = 0 ∧ s.rateInsvc = false ∧ s.dq = 0 ∧ s.dcont = none ∧ s.pcount = 0 ∧
      s.bb.length = s.par.burstBuf ∧ ([1, 2, 3, 4, 5, 6, 7, 8] : List Sample).length = 4 * 2 := by
  exact ⟨rfl, rfl, rfl, rfl, rfl, rfl, rfl, rfl, rfl, rfl, rfl⟩

/-- The example board with a polled opcode, at a line of the polled handler. -/
def polledAt (k : PolledK) : State := { at' (.polled k) with cfg := polledBoard }
theorem witness_PolledLines :
    (let s : State := { received 0x0909 with cfg := polledBoard }
     s.schedule = .dispatch :: [] ∧ dispatchReady s = true ∧ s.dstate = .idle ∧
       s.opv = some (opvOf 0x09 0x09) ∧ s.par.opcodePolled = some (opvOf 0x09 0x09)) ∧
    (let s : State := { polledAt .recv with cin := [[2]] }
     dispatchReady s = true ∧ s.cin = [2] :: [] ∧ s.par.polledCountBytes ≤ ([2] : Datagram).length) ∧
    (polledAt (.loop 0)).dstate = .exec (.polled (.loop 0)) ∧
    (polledAt (.loop 1)).dstate = .exec (.polled (.loop (0 + 1))) := by
  exact ⟨⟨rfl, rfl, rfl, rfl, rfl⟩, ⟨rfl, rfl, by decide⟩, rfl, rfl⟩

/-- A polled run of two buffers of four samples. -/
theorem witness_PolledRun :
    let s : State := { base with
      cfg := polledBoard, cin := [[0x09, 0x09], [2, 0xFF]], adcIn := [1, 2, 3, 4, 5, 6, 7, 8, 9]
      schedule := List.replicate 5 .dispatch ++ (List.replicate 2
        (.dispatch :: List.replicate 30 .tick ++ List.replicate 3 .dispatch)).flatten ++ .dispatch :: [] }
    awaitsRequest s = true ∧ s.par.opcodePolled = some (opvOf 0x09 0x09) ∧ s.cin = [0x09, 0x09] :: [2, 0xFF] :: [] ∧
      s.par.polledCountBytes ≤ ([2, 0xFF] : Datagram).length ∧
      2 = leNat (([2, 0xFF] : Datagram).take s.par.polledCountBytes) ∧ s.fill = none ∧
      s.par.polledPeriodUs < 2 ^ 64 ∧ s.adcIn = [1, 2, 3, 4, 5, 6, 7, 8] ++ [9] ∧
      ([1, 2, 3, 4, 5, 6, 7, 8] : List Sample).length = 2 * s.par.polledBuf ∧
      30 = (s.par.polledBuf - 1) * s.par.polledPeriodUs := by
  exact ⟨rfl, rfl, rfl, by decide, by decide, rfl, by decide, rfl, rfl, rfl⟩

theorem witness_PolarityLines : (at' (.polLo .write)).dstate = .exec (.polLo .write) ∧
    (at' (.polHi .write)).dstate = .exec (.polHi .write) ∧ (at' (.polHi .ret)).dstate = .exec (.polHi .ret) :=
  ⟨rfl, rfl, rfl⟩

theorem witness_TestPulseLines : (at' (.tpOff .write)).dstate = .exec (.tpOff .write) ∧
    (at' (.tpOn .write)).dstate = .exec (.tpOn .write) ∧ (at' (.tpOff .ret)).dstate = .exec (.tpOff .ret) :=
  ⟨rfl, rfl, rfl⟩

theorem witness_BitCommandRuns :
    let s : State := { requested [0x04, 0x01] with schedule := List.replicate 4 .dispatch ++ [] }
    awaitsRequest s = true ∧ s.schedule = List.replicate 4 .dispatch ++ [] ∧
      s.cin = [0x04, if true then 0x01 else 0x00] :: [] ∧
      ({ s with cin := [[0x06, 0x00]] } : State).cin = [0x06, if false then 0x01 else 0x00] :: [] :=
  ⟨rfl, rfl, rfl, rfl⟩

theorem witness_ControlBitWriters :
    (takeMove (at' (.polHi .write))).1 ≠ .reset ∧
    ∃ t, step (at' (.polHi .write)) = .next t ∧ t.pol ≠ (at' (.polHi .write)).pol := by
  exact ⟨by decide, _, rfl, by decide⟩

theorem witness_LabelLines :
    ({ at' (.lblSet .recv) with cin := [[1, 2, 3, 4]] } : State).cin = [1, 2, 3, 4] :: [] ∧
    base.par.labelLen ≤ ([1, 2, 3, 4] : Datagram).length ∧
    (at' (.lblSet (.store 3 [1, 2, 3, 4]))).dstate = .exec (.lblSet (.store 3 [1, 2, 3, 4])) ∧
    (at' (.lblGet .send)).dstate = .exec (.lblGet .send) := by
  exact ⟨rfl, by decide, rfl, rfl⟩

theorem witness_LabelSetGetRun :
    let s : State := { base with
      cin := [[0x07, 0x01], [0x41, 0x42, 0x43, 0x44, 0x45], [0x07, 0x00]]
      schedule := List.replicate (base.par.labelLen + 8) .dispatch ++ [] }
    awaitsRequest s = true ∧ s.label.length = s.par.labelLen ∧
      s.par.labelLen ≤ ([0x41, 0x42, 0x43, 0x44, 0x45] : Datagram).length ∧
      s.cin = [0x07, 0x01] :: [0x41, 0x42, 0x43, 0x44, 0x45] :: [0x07, 0x00] :: [] := by
  exact ⟨rfl, rfl, by decide, rfl⟩

theorem witness_RateLines :
    (at' (.rate (.wait 0))).dstate = .exec (.rate (.wait 0)) ∧
    (let s : State := { at' (.rate (.wait 0)) with now := 3000000 }
     ((s.par.rateWindowS * 1000000 : Nat) : Int) = (s.now.toNat : Int) - ((0 : BitVec 64).toNat : Int)) ∧
    (at' (.rate (.send 5))).dstate = .exec (.rate (.send 5)) := by
  exact ⟨rfl, by decide, rfl⟩

theorem witness_RateInterrupt :
    Edge.falling ≠ rateArmedState.par.rateEdge ∧ base.rateInsvc = false ∧ base.rateArmed = false ∧
    (let s : State := { rateArmedState with
       rateArmed := false, rateInsvc := true, coinIn := [false], schedule := [.rateEdge .rising] }
     Edge.rising = s.par.rateEdge ∧ s.schedule = .rateEdge .rising :: [] ∧ s.ratePend = false ∧
       s.coinIn = false :: [] ∧ ({ s with ratePend := true } : State).ratePend = true) ∧
    (let s : State := { rateArmedState with schedule := [.rateEdge .rising], coinIn := [true] }
     s.rateInsvc = false ∧ s.rateArmed = true ∧ s.rateReq = 0 ∧ 0 < ({ s with rateReq := 1 } : State).rateReq) := by
  exact ⟨by decide, rfl, rfl, ⟨rfl, rfl, rfl, rfl, rfl⟩, rfl, rfl, rfl, by decide⟩
/-- The steps of `RATE_ISR`. -/
theorem witness_RateInterrupt_isr :
    (let s : State := { rateArmedState with rateReq := 1, schedule := [.rateIsr] }
     s.schedule = .rateIsr :: [] ∧ s.rateInsvc = false ∧ s.rateArmed = true ∧ 0 < s.rateReq) ∧
    (let s : State := { rateArmedState with
       rateArmed := false, rateInsvc := true, coinIn := [true], schedule := [.rateIsr] }
     s.rateInsvc = true ∧ s.ratePend = false ∧ s.rateReq = 0 ∧ ({ s with ratePend := true } : State).ratePend = true ∧
       0 < ({ s with rateReq := 1 } : State).rateReq) ∧
    ({ rateArmedState with schedule := [.rateIsr] } : State).rateReq = 0 := by
  exact ⟨⟨rfl, rfl, rfl, by decide⟩, ⟨rfl, rfl, rfl, rfl, by decide⟩, rfl⟩

/-- An exact half: 5 edges in 2 seconds. -/
theorem witness_RoundTieNearest :
    1 ≤ 2 ∧ 2 * |((5 : Nat) : Int) - (roundTie .halfEven 5 2 * 2 : Nat)| = (2 : Nat) ∧
    2 * |((5 : Nat) : Int) - (roundTie .halfUp 5 2 * 2 : Nat)| = (2 : Nat) := by decide

/-- 15 edges, 100000 microseconds apart. -/
theorem witness_RateRun :
    let s : State := { requested [0x05, 0x01] with
      schedule := List.replicate 6 .dispatch ++
        ((List.replicate 15 100000).flatMap fun g =>
          List.replicate g .tick ++ [.rateEdge base.par.rateEdge, .rateIsr, .rateIsr]) ++
        List.replicate (3000000 - (List.replicate 15 100000).sum) .tick ++ List.replicate 5 .dispatch ++ [] }
    awaitsRequest s = true ∧ s.cin = [0x05, 0x01] :: [] ∧ (List.replicate 15 100000).length < 2 ^ 32 ∧
      s.rateReq = 0 ∧ s.ratePend = false ∧ s.fill = none ∧ 3000000 = s.par.rateWindowS * 1000000 ∧
      (List.replicate 15 100000).sum ≤ 3000000 ∧ s.now.toNat + 3000000 < 2 ^ 64 := by
  exact ⟨rfl, rfl, by decide, rfl, rfl, rfl, rfl, by decide, by decide⟩

theorem witness_ResetEffect : ({ armed with schedule := [.reset, .tick] } : State).schedule = .reset :: [.tick] := rfl

theorem witness_InvKept : armed.Inv ∧ streaming.Inv ∧ rateArmedState.Inv ∧ haltedState.Inv ∧ base.Inv ∧
    ∃ t, step { armed with schedule := [.dispatch] } = .next t :=
  ⟨armed_inv, streaming_inv, rateArmed_inv, halted_inv, base_inv, _, rfl⟩

theorem witness_OneInterruptSource : base.mode ≠ .burst ∧ base.mode ≠ .rate ∧ armed.trigArmed = true ∧
    ¬(armed.trigArmed = true ∧ armed.trigInsvc = true) ∧ ¬(armed.rateArmed = true ∧ armed.rateInsvc = true) := by
  decide

theorem witness_ModesOwnBuffers :
    let s : State := { streaming with now := 99, schedule := [.tick], adcIn := [7] }
    s.Inv ∧ (takeMove s).1 ≠ .reset ∧ ∃ t, step s = .next t ∧ t.chunk ≠ s.chunk := by
  refine ⟨by constructor <;> decide, by decide, _, rfl, by decide⟩

theorem witness_ModesReadOwnBuffers :
    let s : State := { armed with schedule := [.dispatch] }
    s.Inv ∧ (takeMove s).1 ≠ .reset ∧ (∀ k, s.dstate ≠ .exec (.acqStream k)) ∧ (∀ k, s.dstate ≠ .exec (.polled k)) ∧
      (∀ k, s.dstate ≠ .exec (.rate k)) ∧ ∃ t, step s = .next t := by
  refine ⟨by constructor <;> decide, by decide, ?_, ?_, ?_, _, rfl⟩ <;> intro k h <;> cases h

/-- The burst's clause: a state outside a burst. -/
theorem witness_ModesReadOwnBuffers_outside_burst :
    let s : State := { streaming with schedule := [.tick] }
    s.Inv ∧ (takeMove s).1 ≠ .reset ∧ (∀ k, s.dstate ≠ .exec (.acqBurst k)) ∧ ∃ t, step s = .next t := by
  refine ⟨by constructor <;> decide, by decide, ?_, _, rfl⟩
  intro k h
  cases h

theorem witness_RecordsOnlyGrow :
    (takeMove (at' (.lblGet .send))).1 ≠ .reset ∧ ∃ t, step (at' (.lblGet .send)) = .next t := ⟨by decide, _, rfl⟩

theorem witness_DrainEmptiesQueue :
    let s : State := { at' (.acqStream .drain) with cin := [[1], [2]], schedule := [.dispatch, .deliver [3]] }
    dispatchReady s = true ∧ s.dstate = .exec (.acqStream .drain) ∧
      s.schedule = .dispatch :: .deliver [3] :: [] := ⟨rfl, rfl, rfl⟩

theorem witness_CounterWriters :
    ∃ t, step { armed with schedule := [.trigIsr], trigReq := 1, adcIn := [1, 2, 3, 4] } = .next t ∧ t.pcount = armed.pcount + 1 := ⟨_, rfl, by decide⟩

theorem witness_NowCountsTicks :
    Move.reset ∉ ([.tick, .dispatch, .tick, .trigEdge .rising] : List Move) ∧
    ({ armed with schedule := [.tick, .dispatch, .tick, .trigEdge .rising, .reset] } : State).schedule =
      [.tick, .dispatch, .tick, .trigEdge .rising] ++ [.reset] := by
  exact ⟨by decide, rfl⟩

/-- Every opcode once, two labels among them. -/
def serialCommands : List Command :=
  [.lblSet [0x52, 0x55, 0x4E, 0x31], .lblGet, .potRd, .busScan, .potWrGain 0xFF, .potWrThr 7, .acqStream 0, .acqBurst 0,
    .polHi, .polLo, .rate, .tpOn, .tpOff, .lblSet [1, 2, 3, 4], .lblGet]
theorem witness_SerialRequestsInOrder :
    let s : State := { base with schedule := serialCommands.flatMap (serialMoves base.par) ++ [] }
    atRest s = true ∧ s.dcont = none ∧ s.par.settleUs = 500000 ∧ settleWindow s = none ∧
      s.label.length = s.par.labelLen ∧
      (∀ c ∈ serialCommands, c.wellFormed s.par.labelLen = true ∧ (∀ n, c = .acqStream n → n = 0) ∧
        (∀ n, c = .acqBurst n → n = 0)) ∧
      s.now.toNat + (serialCommands.map (serviceTicks s.par)).sum < 2 ^ 64 := by
  refine ⟨rfl, rfl, rfl, rfl, rfl, ?_, by decide⟩
  intro c hc
  simp only [serialCommands, List.mem_cons, List.not_mem_nil, or_false] at hc
  rcases hc with rfl | rfl | rfl | rfl | rfl | rfl | rfl | rfl | rfl | rfl | rfl | rfl | rfl | rfl | rfl <;>
    exact ⟨rfl, fun n h => by cases h <;> rfl, fun n h => by cases h <;> rfl⟩

/-- R45, R240: a reset drops both outputs and records it; what was recorded before stays. -/
theorem test_reset_events :
    (externalReset { base with pol := true, tpen := true, events := [.clrPulse 5] }).events =
      [.clrPulse 5, .polOut false, .tpOut .inactive] ∧ (externalReset base).events = [] := by decide

/-- R117: a run of one request ends at the first rest after its datagram, not at the rest before it. -/
theorem test_endOfRun :
    ((endOfRun [[0x04, 0x01]] 6 []
      { base with schedule := [.deliver [0x04, 0x01], .dispatch, .dispatch, .dispatch, .dispatch, .tick] }).map
        fun t => (t.pol, t.schedule)) = some (true, [.tick]) := by decide

/-- R117, R248: a burst short of its target waits, and so does a payload read with no datagram; with the target reached
(R167) or a datagram there (R64), neither waits. -/
theorem test_waitsInHandler :
    waitsInHandler { armed with btarget := 2, pcount := 1 } = true ∧
      waitsInHandler (at' (.acqBurst .recv)) = true ∧
      waitsInHandler { armed with btarget := 2, pcount := 2 } = false ∧
      waitsInHandler { at' (.acqBurst .recv) with cin := [[2]] } = false := by decide

end Sys2Proof.Tests
end

/-! SUPPORT. `step` as a total function: it always answers a next state (log entry 16), and a handler's step is the line
that `DSTATE` names. The statements about every step are proved of `nextState`, move by move. -/

namespace Sys2Proof.Machine

/-- The first line of each opcode's handler (R106). -/
def entryLine : Instr → Activity
  | .potRd => .potRd .readGain
  | .busScan => .busScan (.probe scanOrder [])
  | .potWrGain => .potWrGain .recv
  | .potWrThr => .potWrThr .recv
  | .acqStream => .acqStream .recv
  | .acqBurst => .acqBurst .recv
  | .polLo => .polLo .write
  | .polHi => .polHi .write
  | .rate => .rate .zeroCount
  | .tpOff => .tpOff .write
  | .tpOn => .tpOn .write
  | .lblGet => .lblGet .send
  | .lblSet => .lblSet .recv

/-- The line of a handler that `EXEC(op, k)` names, one case per handler (R21, R22). -/
def handlerLine (a : Activity) (s : State) : State :=
  match a with
  | .potRd k => potRdLine k s
  | .busScan k => busScanLine k s
  | .potWrGain k => potWrLine .potWrGain s.par.gainAddr k s
  | .potWrThr k => potWrLine .potWrThr s.par.thrAddr k s
  | .acqStream k => streamLine k s
  | .acqBurst k => burstLine k s
  | .polLo k => bitLine .polLo (setPol false) k s
  | .polHi k => bitLine .polHi (setPol true) k s
  | .rate k => rateLine k s
  | .tpOff k => bitLine .tpOff (setTpen false) k s
  | .tpOn k => bitLine .tpOn (setTpen true) k s
  | .lblGet k => lblGetLine k s
  | .lblSet k => lblSetLine k s
  | .polled k => polledLine k s

/-- In `IDLE`, `exec` enters the handler of the opcode (R106). -/
theorem exec_of_idle (i : Instr) (s : State) (hd : s.dstate = .idle) : exec i s = .next (goto (entryLine i) s) := by
  cases i <;>
    simp [exec, entryLine, hd, execPotRd, execBusScan, execPotWrGain, execPotWrThr, execAcqStream, execAcqBurst,
      execPolLo, execPolHi, execRate, execTpOff, execTpOn, execLblGet, execLblSet]

/-- At a line of its own handler, `exec` runs that line (R105). -/
theorem exec_of_running (a : Activity) (i : Instr) (s : State) (hd : s.dstate = .exec a) (hi : a.instr = some i) :
    exec i s = .next (handlerLine a s) := by
  cases a <;> cases hi <;>
    simp [exec, handlerLine, hd, execPotRd, execBusScan, execPotWrGain, execPotWrThr, execAcqStream, execAcqBurst,
      execPolLo, execPolHi, execRate, execTpOff, execTpOn, execLblGet, execLblSet]

/-- What the lookup of an opcode value leaves (R106, R92, R212). -/
def lookupNext (v : BitVec 16) (s : State) : State :=
  match instrOfOpv v with
  | some i => goto (entryLine i) s
  | none => if s.par.opcodePolled = some v then goto (.polled .recv) s else raiseFatal (.unknownOpcode v) s

theorem lookupOpcode_eq (v : BitVec 16) (s : State) (hd : s.dstate = .idle) :
    lookupOpcode v s = .next (lookupNext v s) := by
  unfold lookupNext
  obtain ⟨i, hi, e⟩ | ⟨hn, hp, e⟩ | ⟨hn, hp, e⟩ := lookupOpcode_cases v s
  · rw [e, exec_of_idle i s hd, hi]
  · rw [e, hn, if_pos hp]
  · rw [e, hn, if_neg hp]

/-- What a step of the fetch leaves (R106). -/
def fetchNext (s : State) : State :=
  match s.opv with
  | none => receiveOpcode s
  | some v => lookupNext v { s with opv := none }

theorem fetch_eq (s : State) (hd : s.dstate = .idle) : fetch s = .next (fetchNext s) := by
  unfold fetchNext
  obtain ⟨ho, e⟩ | ⟨v, ho, e⟩ := fetch_cases s <;> rw [e, ho]
  exact lookupOpcode_eq v _ hd

/-- What a step of `DISPATCH` leaves (R105). -/
def dispatchNext (s : State) : State :=
  if dispatchReady s then
    match s.dstate with
    | .idle => fetchNext s
    | .exec a => handlerLine a s
    | .halted => s
  else s

theorem dispatchStep_eq (s : State) : dispatchStep s = .next (dispatchNext s) := by
  unfold dispatchNext
  cases hr : dispatchReady s with
  | false => simp [dispatchStep, hr]
  | true =>
    cases hd : s.dstate with
    | idle => simp [dispatchStep, hr, hd, fetch_eq s hd]
    | halted => simp [dispatchStep, hr, hd]
    | exec a =>
      cases hi : a.instr with
      | none =>
        cases a <;> cases hi
        simp [dispatchStep, hr, hd, handlerLine]
      | some i =>
        simp only [if_true, ← exec_of_running a i s hd hi]
        cases a <;> cases hi <;> simp [dispatchStep, hr, hd, Activity.instr]

/-- The state that a move leaves (R73, R77). -/
def nextState (m : Move) (s : State) : State :=
  match m with
  | .dispatch => dispatchNext s
  | .defer => deferStep s
  | .trigIsr => trigIsrStep s
  | .rateIsr => rateIsrStep s
  | .tick => tick s
  | .deliver d => deliver d s
  | .trigEdge e => trigEdge e s
  | .rateEdge e => rateEdge e s
  | .reset => externalReset s

theorem runMove_eq (m : Move) (s : State) : runMove m s = .next (nextState m s) := by
  cases m with
  | dispatch => exact dispatchStep_eq s
  | _ => rfl

/-- Every step answers a next state, the one that its move leaves. -/
theorem step_eq (s : State) : step s = .next (nextState (takeMove s).1 (takeMove s).2) := runMove_eq _ _

/-- A step's next state: its move, from a state that differs in the schedule and the count of free values alone. -/
theorem step_next (s t : State) (h : step s = .next t) :
    ∃ l n, t = nextState (takeMove s).1 { s with schedule := l, drawn := n } := by
  obtain ⟨m, l, n, e⟩ := takeMove_shape s
  rw [step_eq, e] at h
  cases h
  exact ⟨l, n, by rw [e]⟩

end Sys2Proof.Machine

/-! SUPPORT. The invariant, kept by every move: the reset state, the ends of a handler, then one lemma per handler and
one per agent. A handler's lemma is about the state `goto a s`, so that each invariant at the line `a` and at the next
one is the same check of the fields of `s`, and a case names only the invariants that the line's writes touch. -/

namespace Sys2Proof.Machine

/-! ### The reset state -/

theorem powerUpBuffer_length (n start len : Nat) : (powerUpBuffer n start len).length = len := by
  simp [powerUpBuffer]

/-- A sample in its container is below 4096 (R70). -/
theorem zext16_toNat_lt (x : Sample) : (zext16 x).toNat < 4096 := by
  have hx := x.isLt
  simp only [zext16, BitVec.toNat_setWidth]
  omega

theorem powerUpBuffer_twelveBit (n start len : Nat) :
    (powerUpBuffer n start len).all (fun x => decide (x.toNat < 4096)) = true := by
  simp only [powerUpBuffer, List.all_map, List.all_eq_true, Function.comp_apply, decide_eq_true_eq]
  exact fun i _ => zext16_toNat_lt _

/-- Every reset state on a bus in canonical form meets the invariant. -/
theorem inv_powerUp (cfg : Board) (pots : Memory) (n : Nat) (hb : pots.wf = true) :
    (State.powerUp cfg pots n).Inv where
  mode := rfl
  opv := rfl
  interrupts := rfl
  defer := by simp [deferOk, State.powerUp]
  fill := rfl
  stream := rfl
  label := rfl
  sizes := by simp [buffersSized, State.powerUp, powerUpBuffer_length]
  samples := by
    simp only [samplesTwelveBit, State.powerUp, powerUpBuffer_twelveBit, Bool.true_and]
    simp
  timer := rfl
  faults := rfl
  bus := hb

theorem inv_externalReset (s : State) (h : s.Inv) : (externalReset s).Inv :=
  { inv_powerUp s.cfg (redrawPositions s.resets s.pots) s.resets (by simpa using h.bus) with }

/-! ### The buffers -/

/-- The sizes of the buffers, one by one. -/
theorem buffersSized_iff (s : State) :
    buffersSized s = true ↔ s.sb.length = burstGroup ∧ s.bb.length = s.par.burstBuf ∧
      s.chunk.length = s.par.chunkPairs ∧ s.pbuf.length = s.par.polledBuf ∧ s.label.length = s.par.labelLen := by
  simp [buffersSized, and_assoc]

theorem buffersSized_writeLabel (s : State) (j : Nat) (v : Byte) (h : buffersSized s = true) :
    buffersSized { s with label := bufWrite s.label j v } = true := by
  obtain ⟨hsb, hbb, hchunk, hpbuf, hlabel⟩ := (buffersSized_iff s).mp h
  exact (buffersSized_iff _).mpr ⟨hsb, hbb, hchunk, hpbuf, List.length_set.trans hlabel⟩

/-! ### The ends of a handler -/

/-- Lines at which no interrupt can be armed, no callback can be outstanding and no timed read is in progress: those
outside the windows of R157, R190, R153 and R169. -/
def quietLine : Activity → Bool
  | .acqStream (.wait _) => false
  | .acqStream (.fillOff _) => false
  | .acqBurst .waitCount => false
  | .acqBurst .disarm => false
  | .acqBurst .waitDefer => false
  | .rate (.wait _) => false
  | .rate .disarm => false
  | .polled (.wait _) => false
  | .polled (.fillOff _) => false
  | _ => true

theorem inBurstWindow_of_quiet (a : Activity) (s : State) (ha : quietLine a = true) :
    inBurstWindow (goto a s) = false := by
  cases a with
  | acqBurst k =>
    cases k with
    | waitCount => cases ha
    | disarm => cases ha
    | _ => rfl
  | _ => rfl

theorem inRateWindow_of_quiet (a : Activity) (s : State) (ha : quietLine a = true) :
    inRateWindow (goto a s) = false := by
  cases a with
  | rate k =>
    cases k with
    | wait t0 => cases ha
    | disarm => cases ha
    | _ => rfl
  | _ => rfl

theorem mayHoldCallbacks_of_quiet (a : Activity) (s : State) (ha : quietLine a = true) :
    mayHoldCallbacks (goto a s) = false := by
  cases a with
  | acqBurst k =>
    cases k with
    | waitCount => cases ha
    | disarm => cases ha
    | waitDefer => cases ha
    | _ => rfl
  | _ => rfl

theorem atDeferPoint_of_quiet (a : Activity) (s : State) (ha : quietLine a = true) :
    atDeferPoint (goto a s) = false := by
  cases a with
  | acqBurst k =>
    cases k with
    | waitCount => cases ha
    | waitDefer => cases ha
    | _ => rfl
  | _ => rfl

theorem interruptsOk_of_quiet (a : Activity) (s : State) (ha : quietLine a = true) :
    interruptsOk (goto a s) = interruptsOk (handlerReturn s) := by
  rw [interruptsOk, interruptsOk, inBurstWindow_of_quiet a s ha, inRateWindow_of_quiet a s ha]
  rfl

theorem deferOk_of_quiet (a : Activity) (s : State) (ha : quietLine a = true) :
    deferOk (goto a s) = deferOk (handlerReturn s) := by
  rw [deferOk, deferOk, mayHoldCallbacks_of_quiet a s ha, atDeferPoint_of_quiet a s ha]
  rfl

theorem fillOk_of_quiet (a : Activity) (s : State) (ha : quietLine a = true) :
    fillOk (goto a s) = fillOk (handlerReturn s) := by
  cases a with
  | acqStream k =>
    cases k with
    | wait m => cases ha
    | fillOff m => cases ha
    | _ => rfl
  | polled k =>
    cases k with
    | wait cnt => cases ha
    | fillOff cnt => cases ha
    | _ => rfl
  | _ => rfl

/-- `DSTATE` is `IDLE`, so an opcode may wait for its lookup (R106). -/
theorem opvOk_of_idle (s : State) (hd : s.dstate = .idle) : opvOk s = true := by
  simp [opvOk, hd]

/-- A handler may return from any line outside the windows (R107). -/
theorem inv_handlerReturn (a : Activity) (s : State) (ha : quietLine a = true) (h : (goto a s).Inv) :
    (handlerReturn s).Inv :=
  { h with
    mode := rfl
    opv := opvOk_of_idle _ rfl
    interrupts := (interruptsOk_of_quiet a s ha).symm.trans h.interrupts
    defer := (deferOk_of_quiet a s ha).symm.trans h.defer
    fill := (fillOk_of_quiet a s ha).symm.trans h.fill
    stream := rfl
    label := rfl }

/-- The abort action keeps the invariant, as the return does (R210, R213). -/
theorem inv_raiseAbort (a : Activity) (s : State) (ha : quietLine a = true) (h : (goto a s).Inv) :
    (raiseAbort s).Inv :=
  { inv_handlerReturn a s ha h with }

/-- No opcode waits for its lookup while a handler runs (R106). -/
theorem opv_of_running (a : Activity) (s : State) (h : (goto a s).Inv) : s.opv = none := by
  simpa [opvOk] using h.opv

/-- No fault is recorded while a handler runs (R43). -/
theorem faults_of_running (a : Activity) (s : State) (h : (goto a s).Inv) : s.faults = [] :=
  List.isEmpty_iff.mp h.faults

/-- The queue is within its bound (R36). -/
theorem dq_le_of_inv (s : State) (h : s.Inv) : s.dq ≤ s.par.deferDepth := by
  have := h.defer
  simp only [deferOk, Bool.and_eq_true, decide_eq_true_eq] at this
  exact this.1.1

/-- The fatal action keeps the invariant where no fault is recorded and no opcode waits (R210). -/
theorem inv_raiseFatal (c : Condition) (s : State) (h : s.Inv) (ho : s.opv = none) (hf : s.faults = []) :
    (raiseFatal c s).Inv :=
  { h with
    mode := rfl
    opv := by simp [opvOk, ho]
    interrupts := rfl
    defer := by
      have hq : decide (s.dq ≤ s.par.deferDepth) = true := decide_eq_true (dq_le_of_inv s h)
      simp only [deferOk, mayHoldCallbacks, raiseFatal_dstate, raiseFatal_dcont, raiseFatal_dq,
        Bool.or_true, Bool.and_true]
      exact hq
    fill := rfl
    stream := rfl
    label := rfl
    faults := by simp [faultsOk, hf, addFault] }

/-- A receive keeps the invariant where the line after it does (R64). -/
theorem inv_recvThen (n : Nat) (k : List Byte → State → State) (a : Activity) (s : State) (h : (goto a s).Inv)
    (hk : ∀ d rest, d.length = n → (k d { goto a s with cin := rest }).Inv) : (recvThen n k (goto a s)).Inv := by
  obtain ⟨-, e⟩ | ⟨d, rest, -, hn, e⟩ | ⟨d, rest, -, -, e⟩ := recvThen_cases n k (goto a s) <;> rw [e]
  · exact h
  · exact hk _ _ (List.length_take_of_le hn)
  · exact inv_raiseFatal _ _ { h with } (opv_of_running a s h) (faults_of_running a s h)

/-! ### The potentiometer handlers -/

/-- A read transaction changes the positions and the environment's draws alone (R127). -/
theorem busRead_shape (a : BusAddr) (s : State) :
    ∃ r l n p, busRead a s = (r, { s with coinIn := l, drawn := n, pots := p }) ∧ p.wf = s.pots.wf := by
  obtain ⟨l, n, p, e, hp⟩ := settleHazard_shape s
  exact ⟨_, l, n, p, by rw [busRead, e], Memory.wf_congr hp⟩

/-- A probe changes the positions and the environment's draws alone (R126). -/
theorem busProbe_shape (a : BusAddr) (s : State) :
    ∃ r l n p, busProbe a s = (r, { s with coinIn := l, drawn := n, pots := p }) ∧ p.wf = s.pots.wf := by
  obtain ⟨l, n, p, e, hp⟩ := settleHazard_shape s
  exact ⟨_, l, n, p, by rw [busProbe, e], Memory.wf_congr hp⟩

theorem inv_potRdLine (k : PotRdK) (s : State) (h : (goto (.potRd k) s).Inv) :
    (potRdLine k (goto (.potRd k) s)).Inv := by
  cases k with
  | readGain =>
    obtain ⟨r, l, n, p, e, hp⟩ := busRead_shape (goto (.potRd .readGain) s).par.gainAddr (goto (.potRd .readGain) s)
    simp only [potRdLine, e]
    exact { h with bus := hp.trans h.bus }
  | gotGain g =>
    cases g with
    | none => exact inv_raiseAbort _ s rfl h
    | some g =>
      obtain ⟨r, l, n, p, e, hp⟩ := busRead_shape (goto (.potRd (.gotGain (some g))) s).par.thrAddr
        (goto (.potRd (.gotGain (some g))) s)
      simp only [potRdLine, e]
      exact { h with bus := hp.trans h.bus }
  | gotBoth g t =>
    cases t with
    | none => exact inv_raiseAbort _ s rfl h
    | some t => exact { h with }
  | ret => exact inv_handlerReturn _ s rfl h

theorem inv_busScanLine (k : ScanK) (s : State) (h : (goto (.busScan k) s).Inv) :
    (busScanLine k (goto (.busScan k) s)).Inv := by
  cases k with
  | probe rest found =>
    cases rest with
    | nil => exact { h with }
    | cons a rest =>
      obtain ⟨r, l, n, p, e, hp⟩ := busProbe_shape a (goto (.busScan (.probe (a :: rest) found)) s)
      simp only [busScanLine, e]
      exact { h with bus := hp.trans h.bus }
  | ret => exact inv_handlerReturn _ s rfl h

/-- The line of either write handler: `mk` is the handler, whose lines ask nothing of the state but `MODE = NONE`. -/
theorem inv_potWrLine (mk : PotWrK → Activity) (addr : BusAddr) (hmk : mk = .potWrGain ∨ mk = .potWrThr) (k : PotWrK)
    (s : State) (h : (goto (mk k) s).Inv) : (potWrLine mk addr k (goto (mk k) s)).Inv := by
  have hgo : ∀ k k' : PotWrK, ∀ u : State, (goto (mk k) u).Inv → (goto (mk k') u).Inv := by
    rcases hmk with rfl | rfl <;> exact fun _ _ _ hu => { hu with }
  have hq : ∀ k, quietLine (mk k) = true := by rcases hmk with rfl | rfl <;> exact fun _ => rfl
  cases k with
  | recv =>
    simp only [potWrLine]
    refine inv_recvThen 1 _ (mk .recv) s h ?_
    exact fun d rest _ => hgo .recv (.write (operandPos d)) { s with cin := rest } { h with }
  | write pos =>
    obtain ⟨k', l, n, p, e, hp, -⟩ := potWriteIssue_shape addr pos (goto (mk (.write pos)) s)
    simp only [potWrLine, e]
    exact hgo (.write pos) k' { s with coinIn := l, drawn := n, pots := p }
      { h with bus := (Memory.wf_congr hp).trans h.bus }
  | record t old new =>
    exact hgo (.record t old new) .settle (recordWrite t addr old new s) { h with }
  | absent => exact inv_raiseAbort _ s (hq .absent) h
  | settle =>
    simp only [potWrLine]
    split
    · exact hgo .settle .ret s h
    · exact h
  | ret => exact inv_handlerReturn _ s (hq .ret) h

/-! ### The one-bit handlers and the label -/

theorem inv_bitLine_pol (mk : BitK → Activity) (hmk : mk = .polLo ∨ mk = .polHi) (b : Bool) (k : BitK) (s : State)
    (h : (goto (mk k) s).Inv) : (bitLine mk (setPol b) k (goto (mk k) s)).Inv := by
  cases k with
  | write => rcases hmk with rfl | rfl <;> exact { h with }
  | ret => rcases hmk with rfl | rfl <;> exact inv_handlerReturn _ s rfl h

theorem inv_bitLine_tpen (mk : BitK → Activity) (hmk : mk = .tpOff ∨ mk = .tpOn) (b : Bool) (k : BitK) (s : State)
    (h : (goto (mk k) s).Inv) : (bitLine mk (setTpen b) k (goto (mk k) s)).Inv := by
  cases k with
  | write => rcases hmk with rfl | rfl <;> exact { h with }
  | ret => rcases hmk with rfl | rfl <;> exact inv_handlerReturn _ s rfl h

theorem inv_lblGetLine (k : LblGetK) (s : State) (h : (goto (.lblGet k) s).Inv) :
    (lblGetLine k (goto (.lblGet k) s)).Inv := by
  cases k with
  | send => exact { h with }
  | ret => exact inv_handlerReturn _ s rfl h

/-- The label handler's index is inside the label, and its payload has the label's length. -/
theorem labelOk_store_iff (j : Nat) (d : List Byte) (s : State) :
    labelOk (goto (.lblSet (.store j d)) s) = true ↔ j < s.par.labelLen ∧ d.length = s.par.labelLen := by
  rw [labelOk, goto_dstate, Bool.and_eq_true, decide_eq_true_eq, beq_iff_eq]
  rfl

theorem inv_lblSetLine (k : LblSetK) (s : State) (h : (goto (.lblSet k) s).Inv) :
    (lblSetLine k (goto (.lblSet k) s)).Inv := by
  cases k with
  | recv =>
    simp only [lblSetLine]
    refine inv_recvThen _ _ (.lblSet .recv) s h ?_
    intro d rest hd
    exact { h with label := (labelOk_store_iff 0 d s).mpr ⟨s.cfg.labelLen_min, hd⟩ }
  | store j d =>
    obtain ⟨-, hd⟩ := (labelOk_store_iff j d s).mp h.label
    have hsizes := buffersSized_writeLabel s j (bufRead d j 0) h.sizes
    simp only [lblSetLine]
    split
    · rename_i hj
      exact { h with label := (labelOk_store_iff (j + 1) d s).mpr ⟨hj, hd⟩, sizes := hsizes }
    · exact { h with label := rfl, sizes := hsizes }
  | ret => exact inv_handlerReturn _ s rfl h

end Sys2Proof.Machine

/-! SUPPORT. The invariant over the lines of the acquisition handlers and of `RATE`. -/

namespace Sys2Proof.Machine

/-! ### The checks of the invariant in words -/

/-- A state at a line of a handler. -/
theorem goto_self (a : Activity) (s : State) (hd : s.dstate = .exec a) : goto a s = s := by
  cases s
  cases hd
  rfl

/-- What `interruptsOk` says: an interrupt is armed, in service or enabled only in its window, and pending only in
service (R35, R49, R222). -/
theorem interruptsOk_iff (s : State) :
    interruptsOk s = true ↔
      (s.trigArmed = true ∨ s.trigInsvc = true ∨ s.trigReq ≠ 0 → inBurstWindow s = true) ∧
      (s.trigPend = true → s.trigInsvc = true) ∧
      (s.rateArmed = true ∨ s.rateInsvc = true ∨ s.rateReq ≠ 0 → inRateWindow s = true) ∧
      (s.ratePend = true → s.rateInsvc = true) := by
  simp only [interruptsOk, Bool.and_eq_true, Bool.or_eq_true, Bool.not_eq_true', bne_iff_ne, ← Bool.not_eq_true]
  tauto

/-- What `deferOk` says: the queue is bounded, callbacks are outstanding only in a burst, and one runs only at a wait
with its indices inside the buffers (R36, R61, R165). -/
theorem deferOk_iff (s : State) :
    deferOk s = true ↔
      s.dq ≤ s.par.deferDepth ∧ (s.dq = 0 ∨ mayHoldCallbacks s = true) ∧
      ∀ k, s.dcont = some k → atDeferPoint s = true ∧ deferIndexOk s.par.burstBuf k = true := by
  cases hk : s.dcont <;> simp [deferOk, hk, and_assoc]

/-- What `samplesTwelveBit` says, buffer by buffer. -/
theorem samplesTwelveBit_iff (s : State) :
    samplesTwelveBit s = true ↔
      (∀ x ∈ s.sb, x.toNat < 4096) ∧ (∀ x ∈ s.bb, x.toNat < 4096) ∧ ∀ x ∈ s.pbuf, x.toNat < 4096 := by
  simp [samplesTwelveBit, and_assoc]

/-- What `fillInBounds` says of a timed read (R61, R144). -/
theorem fillInBounds_iff (f : Fill) (b : FillBuf) (n len : Nat) :
    fillInBounds f b n len = true ↔ f.buf = b ∧ f.n = n ∧ 1 ≤ f.i ∧ f.i ≤ n ∧ n ≤ len := by
  simp [fillInBounds, and_assoc]

/-- `DISPATCH` steps only with no interrupt in service and no callback running (R36, R73). -/
theorem dispatchReady_iff (s : State) :
    dispatchReady s = true ↔ s.trigInsvc = false ∧ s.rateInsvc = false ∧ s.dcont = none := by
  simp [dispatchReady, inService, and_assoc]

/-! ### Writes to the buffers -/

/-- A write of a sample keeps a buffer's elements below 4096 (R70). -/
theorem twelveBit_bufWrite (buf : List Cell16) (i : Nat) (v : Cell16) (h : ∀ x ∈ buf, x.toNat < 4096)
    (hv : v.toNat < 4096) : ∀ x ∈ bufWrite buf i v, x.toNat < 4096 := by
  intro x hx
  obtain hx | rfl := List.mem_or_eq_of_mem_set hx
  · exact h x hx
  · exact hv

theorem buffersSized_writeChunk (s : State) (i : Nat) (v : Pair) (h : buffersSized s = true) :
    buffersSized { s with chunk := bufWrite s.chunk i v } = true := by
  obtain ⟨hsb, hbb, hchunk, hpbuf, hlabel⟩ := (buffersSized_iff s).mp h
  exact (buffersSized_iff _).mpr ⟨hsb, hbb, List.length_set.trans hchunk, hpbuf, hlabel⟩

theorem buffersSized_writePbuf (s : State) (i : Nat) (v : Cell16) (h : buffersSized s = true) :
    buffersSized { s with pbuf := bufWrite s.pbuf i v } = true := by
  obtain ⟨hsb, hbb, hchunk, hpbuf, hlabel⟩ := (buffersSized_iff s).mp h
  exact (buffersSized_iff _).mpr ⟨hsb, hbb, hchunk, List.length_set.trans hpbuf, hlabel⟩

theorem buffersSized_writeBb (s : State) (i : Nat) (v : Cell16) (h : buffersSized s = true) :
    buffersSized { s with bb := bufWrite s.bb i v } = true := by
  obtain ⟨hsb, hbb, hchunk, hpbuf, hlabel⟩ := (buffersSized_iff s).mp h
  exact (buffersSized_iff _).mpr ⟨hsb, List.length_set.trans hbb, hchunk, hpbuf, hlabel⟩

theorem samplesTwelveBit_writePbuf (s : State) (i : Nat) (x : Sample) (h : samplesTwelveBit s = true) :
    samplesTwelveBit { s with pbuf := bufWrite s.pbuf i (zext16 x) } = true := by
  obtain ⟨hsb, hbb, hpbuf⟩ := (samplesTwelveBit_iff s).mp h
  exact (samplesTwelveBit_iff _).mpr ⟨hsb, hbb, twelveBit_bufWrite _ _ _ hpbuf (zext16_toNat_lt x)⟩

/-! ### Starting a timed read -/

/-- A started read into the chunk has written its first record (R144). -/
theorem startFill_chunk (n p : Nat) (s : State) :
    ∃ x l d, startFill .chunk n p s =
      { s with
        adcIn := l, drawn := d, chunk := bufWrite s.chunk 0 (pack s.tsec s.tusec x)
        fill := some { buf := .chunk, n := n, i := 1, due := s.now + BitVec.ofNat 64 p, period := p } } := by
  obtain ⟨x, l, d, e⟩ := capture_chunk 0 s
  exact ⟨x, l, d, by rw [startFill, e]⟩

/-- A started read into the polled buffer has written its first sample (R144). -/
theorem startFill_pbuf (n p : Nat) (s : State) :
    ∃ x l d, startFill .pbuf n p s =
      { s with
        adcIn := l, drawn := d, pbuf := bufWrite s.pbuf 0 (zext16 x)
        fill := some { buf := .pbuf, n := n, i := 1, due := s.now + BitVec.ofNat 64 p, period := p } } := by
  obtain ⟨x, l, d, e⟩ := capture_pbuf 0 s
  exact ⟨x, l, d, by rw [startFill, e]⟩

/-- The start of a chunk writes the chunk and the timed read, and zeroes the sampling timer or leaves it (R142,
R153). -/
theorem streamStart_shape (m : Nat) (s : State) :
    ∃ sec usec v l d due, streamStart m s =
      { s with
        tsec := sec, tusec := usec, adcIn := l, drawn := d
        chunk := bufWrite (List.replicate s.par.chunkPairs (0, 0)) 0 v
        fill := some { buf := .chunk, n := m, i := 1, due := due, period := s.par.streamPeriodUs } } ∧
      (usec = s.tusec ∨ usec = 0) := by
  unfold streamStart
  by_cases hz : s.sdone = 0
  · simp only [if_pos hz]
    obtain ⟨x, l, d, e⟩ := startFill_chunk m s.par.streamPeriodUs
      { s with chunk := List.replicate s.par.chunkPairs (0, 0), tsec := 0, tusec := 0 }
    exact ⟨0, 0, _, l, d, _, e, .inr rfl⟩
  · simp only [if_neg hz]
    obtain ⟨x, l, d, e⟩ := startFill_chunk m s.par.streamPeriodUs
      { s with chunk := List.replicate s.par.chunkPairs (0, 0) }
    exact ⟨s.tsec, s.tusec, _, l, d, _, e, .inl rfl⟩

/-- The start of a polled iteration writes the polled buffer and the timed read (R169). -/
theorem polledStart_shape (s : State) :
    ∃ x l d due, polledStart s =
      { s with
        adcIn := l, drawn := d
        pbuf := bufWrite (List.replicate s.par.polledBuf 0) 0 (zext16 x)
        fill := some { buf := .pbuf, n := s.par.polledBuf, i := 1, due := due, period := s.par.polledPeriodUs } } := by
  obtain ⟨x, l, d, e⟩ := startFill_pbuf s.par.polledBuf s.par.polledPeriodUs
    { s with pbuf := List.replicate s.par.polledBuf 0 }
  exact ⟨x, l, d, _, e⟩

/-! ### Streaming -/

/-- The next chunk has at least one sample and does not pass the target (R153, R155). -/
theorem streamCount_bounds (s : State) (h : s.sdone < s.starget) :
    1 ≤ streamCount s ∧ streamCount s ≤ s.par.chunkPairs ∧ s.sdone.toNat + streamCount s ≤ s.starget.toNat := by
  have hc : 1 ≤ s.par.chunkPairs := s.cfg.chunkPairs_min
  have hlt := BitVec.lt_def.mp h
  unfold streamCount
  omega

/-- Counting a chunk that fits under the target does not wrap (R153, R155). -/
theorem add_ofNat_le_target (done target : BitVec 32) (m : Nat) (h : done.toNat + m ≤ target.toNat) :
    done + BitVec.ofNat 32 m ≤ target := by
  have ht := target.isLt
  rw [BitVec.le_def, BitVec.toNat_add, BitVec.toNat_ofNat]
  omega

theorem inv_streamLine (k : StreamK) (s : State) (h : (goto (.acqStream k) s).Inv) :
    (streamLine k (goto (.acqStream k) s)).Inv := by
  cases k with
  | recv =>
    simp only [streamLine]
    refine inv_recvThen _ _ (.acqStream .recv) s h ?_
    exact fun d rest _ => { h with stream := rfl }
  | setTarget n => exact { h with stream := rfl }
  | zeroDone =>
    have hz : (0 : BitVec 32) ≤ s.starget := by simp [BitVec.le_def]
    exact { h with stream := decide_eq_true hz }
  | drain => exact { h with }
  | setMode => exact { h with mode := rfl }
  | loop =>
    simp only [streamLine]
    split
    · rename_i hlt
      obtain ⟨hone, hsize, hsum⟩ := streamCount_bounds _ hlt
      obtain ⟨sec, usec, v, l, d, due, e, hu⟩ := streamStart_shape (streamCount (goto (.acqStream .loop) s))
        (goto (.acqStream .loop) s)
      rw [e]
      have hsizes : buffersSized { s with chunk := bufWrite (List.replicate s.par.chunkPairs (0, 0)) 0 v } = true := by
        obtain ⟨hsb, hbb, -, hpbuf, hlabel⟩ := (buffersSized_iff _).mp h.sizes
        exact (buffersSized_iff _).mpr ⟨hsb, hbb, List.length_set.trans List.length_replicate, hpbuf, hlabel⟩
      have htimer : timerOk { s with tusec := usec } = true := by
        obtain rfl | rfl := hu
        · exact h.timer
        · rfl
      exact { h with
        fill := (fillInBounds_iff _ _ _ _).mpr ⟨rfl, rfl, Nat.le_refl 1, hone, hsize⟩
        stream := Bool.and_eq_true_iff.mpr ⟨decide_eq_true hone, decide_eq_true hsum⟩
        sizes := hsizes
        timer := htimer }
    · exact inv_handlerReturn _ s rfl h
  | wait m =>
    simp only [streamLine]
    split
    · exact { h with }
    · exact h
  | fillOff m => exact { h with fill := rfl }
  | addDone m =>
    have hm : s.sdone.toNat + m ≤ s.starget.toNat := of_decide_eq_true (Bool.and_eq_true_iff.mp h.stream).2
    exact { h with stream := decide_eq_true (add_ofNat_le_target _ _ m hm) }
  | send => exact { h with }

/-! ### Polled mode -/

theorem inv_polledLine (k : PolledK) (s : State) (h : (goto (.polled k) s).Inv) :
    (polledLine k (goto (.polled k) s)).Inv := by
  cases k with
  | recv =>
    simp only [polledLine]
    refine inv_recvThen _ _ (.polled .recv) s h ?_
    exact fun d rest _ => { h with }
  | drain cnt => exact { h with }
  | setMode cnt => exact { h with mode := rfl }
  | loop cnt =>
    cases cnt with
    | zero => exact inv_handlerReturn _ s rfl h
    | succ cnt =>
      obtain ⟨x, l, d, due, e⟩ := polledStart_shape (goto (.polled (.loop (cnt + 1))) s)
      simp only [polledLine, e]
      obtain ⟨hsb, hbb, hchunk, -, hlabel⟩ := (buffersSized_iff _).mp h.sizes
      obtain ⟨hsb', hbb', -⟩ := (samplesTwelveBit_iff _).mp h.samples
      have hone : 1 ≤ s.par.polledBuf := Nat.le_trans (by decide) s.cfg.polledBuf_min
      have hzero : ∀ y ∈ List.replicate s.par.polledBuf (0 : Cell16), y.toNat < 4096 := by
        intro y hy
        rw [List.eq_of_mem_replicate hy]
        decide
      exact { h with
        fill := (fillInBounds_iff _ _ _ _).mpr ⟨rfl, rfl, Nat.le_refl 1, hone, Nat.le_refl _⟩
        sizes := (buffersSized_iff _).mpr
          ⟨hsb, hbb, hchunk, List.length_set.trans List.length_replicate, hlabel⟩
        samples := (samplesTwelveBit_iff _).mpr
          ⟨hsb', hbb', twelveBit_bufWrite _ _ _ hzero (zext16_toNat_lt x)⟩ }
  | wait cnt =>
    simp only [polledLine]
    split
    · exact { h with }
    · exact h
  | fillOff cnt => exact { h with fill := rfl }
  | send cnt => exact { h with }

/-! ### Burst and rate -/

/-- Inside its window an interrupt may be armed: the arming step of a burst (R157). -/
theorem inv_burstLine_arm (s : State) (h : (goto (.acqBurst .arm) s).Inv) :
    (goto (.acqBurst .waitCount) (armTrig s)).Inv := by
  obtain ⟨-, hp, hr, hrp⟩ := (interruptsOk_iff _).mp h.interrupts
  obtain ⟨hq, hh, hc⟩ := (deferOk_iff _).mp h.defer
  exact { h with
    interrupts := (interruptsOk_iff _).mpr ⟨fun _ => rfl, hp, hr, hrp⟩
    defer := (deferOk_iff _).mpr ⟨hq, .inr rfl, fun k hk => absurd (hc k hk).1 Bool.false_ne_true⟩ }

/-- The disarming step of a burst, with no interrupt in service (R157, R166). -/
theorem inv_burstLine_disarm (s : State) (h : (goto (.acqBurst .disarm) s).Inv) (ht : s.trigInsvc = false) :
    (goto (.acqBurst .waitDefer) (disarmTrig s)).Inv := by
  obtain ⟨-, hp, hr, hrp⟩ := (interruptsOk_iff _).mp h.interrupts
  obtain ⟨hq, hh, hc⟩ := (deferOk_iff _).mp h.defer
  refine { h with
    interrupts := (interruptsOk_iff _).mpr ⟨?_, hp, hr, hrp⟩
    defer := (deferOk_iff _).mpr ⟨hq, .inr rfl, ?_⟩ }
  · rintro (ha | hi | hn)
    · cases ha
    · cases ht.symm.trans hi
    · exact absurd rfl hn
  · exact fun k hk => absurd (hc k hk).1 Bool.false_ne_true

theorem inv_burstLine (k : BurstK) (s : State) (h : (goto (.acqBurst k) s).Inv) (hr : dispatchReady s = true) :
    (burstLine k (goto (.acqBurst k) s)).Inv := by
  obtain ⟨htrig, -, hcont⟩ := (dispatchReady_iff s).mp hr
  cases k with
  | recv =>
    simp only [burstLine]
    refine inv_recvThen _ _ (.acqBurst .recv) s h ?_
    exact fun d rest _ => { h with }
  | setTarget n => exact { h with }
  | drain => exact { h with }
  | zeroCount => exact { h with }
  | setMode => exact { h with mode := rfl }
  | arm => exact inv_burstLine_arm s h
  | waitCount =>
    simp only [burstLine]
    split
    · obtain ⟨hq, -, -⟩ := (deferOk_iff _).mp h.defer
      have hnone : ∀ k, s.dcont ≠ some k := by simp [hcont]
      exact { h with defer := (deferOk_iff _).mpr ⟨hq, .inr rfl, fun k hk => absurd hk (hnone k)⟩ }
    · exact h
  | disarm => exact inv_burstLine_disarm s h htrig
  | waitDefer =>
    simp only [burstLine]
    split
    · rename_i hw
      obtain ⟨hq, -, -⟩ := (deferOk_iff _).mp h.defer
      have hnone : ∀ k, s.dcont ≠ some k := by simp [hcont]
      exact { h with defer := (deferOk_iff _).mpr ⟨hq, .inl hw.1, fun k hk => absurd hk (hnone k)⟩ }
    · exact h
  | drainLast => exact { h with }
  | ret => exact inv_handlerReturn _ s rfl h

theorem inv_rateLine (k : RateK) (s : State) (h : (goto (.rate k) s).Inv) (hr : dispatchReady s = true) :
    (rateLine k (goto (.rate k) s)).Inv := by
  obtain ⟨-, hrate, -⟩ := (dispatchReady_iff s).mp hr
  cases k with
  | zeroCount => exact { h with }
  | setMode => exact { h with mode := rfl }
  | readT0 => exact { h with }
  | arm t0 =>
    obtain ⟨ht, htp, -, hp⟩ := (interruptsOk_iff _).mp h.interrupts
    exact { h with interrupts := (interruptsOk_iff _).mpr ⟨ht, htp, fun _ => rfl, hp⟩ }
  | wait t0 =>
    simp only [rateLine]
    split
    · exact { h with }
    · exact h
  | disarm =>
    obtain ⟨ht, htp, -, hp⟩ := (interruptsOk_iff _).mp h.interrupts
    refine { h with interrupts := (interruptsOk_iff _).mpr ⟨ht, htp, ?_, hp⟩ }
    rintro (ha | hi | hn)
    · cases ha
    · cases hrate.symm.trans hi
    · exact absurd rfl hn
  | divide => exact { h with }
  | send r => exact { h with }
  | ret => exact inv_handlerReturn _ s rfl h

end Sys2Proof.Machine

/-! SUPPORT. The invariant over the dispatcher, the steps of `TIMER`, `DEFER` and the interrupts, the edges and a whole
step. -/

namespace Sys2Proof.Machine

/-! ### The dispatcher -/

theorem inv_handlerLine (a : Activity) (s : State) (h : (goto a s).Inv) (hr : dispatchReady s = true) :
    (handlerLine a (goto a s)).Inv := by
  cases a with
  | potRd k => exact inv_potRdLine k s h
  | busScan k => exact inv_busScanLine k s h
  | potWrGain k => exact inv_potWrLine _ _ (.inl rfl) k s h
  | potWrThr k => exact inv_potWrLine _ _ (.inr rfl) k s h
  | acqStream k => exact inv_streamLine k s h
  | acqBurst k => exact inv_burstLine k s h hr
  | polLo k => exact inv_bitLine_pol _ (.inl rfl) _ k s h
  | polHi k => exact inv_bitLine_pol _ (.inr rfl) _ k s h
  | rate k => exact inv_rateLine k s h hr
  | tpOff k => exact inv_bitLine_tpen _ (.inl rfl) _ k s h
  | tpOn k => exact inv_bitLine_tpen _ (.inr rfl) _ k s h
  | lblGet k => exact inv_lblGetLine k s h
  | lblSet k => exact inv_lblSetLine k s h
  | polled k => exact inv_polledLine k s h

/-- In `IDLE` no fault is recorded (R43). -/
theorem faults_of_idle (s : State) (h : s.Inv) (hd : s.dstate = .idle) : s.faults = [] := by
  simpa [faultsOk, hd] using h.faults

/-- In `IDLE` the state is one that a handler has just returned (R24, R107). -/
theorem handlerReturn_self (s : State) (h : s.Inv) (hd : s.dstate = .idle) : handlerReturn s = s := by
  have hm : s.mode = .none := by simpa [modeOk, hd] using h.mode
  cases s
  cases hd
  cases hm
  rfl

theorem inv_receiveOpcode (s : State) (h : s.Inv) (hd : s.dstate = .idle) (ho : s.opv = none) :
    (receiveOpcode s).Inv := by
  obtain ⟨-, e⟩ | ⟨c, u, more, rest, -, e⟩ | ⟨d, rest, -, -, e⟩ := receiveOpcode_cases s <;> rw [e]
  · exact h
  · exact { h with opv := opvOk_of_idle _ hd }
  · exact inv_raiseFatal _ _ { h with } ho (faults_of_idle s h hd)

/-- The polled handler and the handlers of the table are entered at lines that ask nothing that `IDLE` does not
(R106). -/
theorem inv_enter (a : Activity) (ha : a = .polled .recv ∨ ∃ i, a = entryLine i) (s : State) (h : (handlerReturn s).Inv)
    (hm : s.mode = .none) (ho : s.opv = none) : (goto a s).Inv := by
  have hopv : ∀ b, opvOk (goto b s) = true := fun b => by simp [opvOk, ho]
  have hmode : (s.mode == .none) = true := by rw [hm]; rfl
  obtain rfl | ⟨i, rfl⟩ := ha
  · exact { h with mode := hmode, opv := hopv _ }
  · cases i <;> exact { h with mode := hmode, opv := hopv _ }

theorem inv_lookupNext (v : BitVec 16) (s : State) (h : s.Inv) (hd : s.dstate = .idle) (ho : s.opv = none) :
    (lookupNext v s).Inv := by
  have hret : (handlerReturn s).Inv := (handlerReturn_self s h hd).symm ▸ h
  have hm : s.mode = .none := by simpa [modeOk, hd] using h.mode
  unfold lookupNext
  split
  · exact inv_enter _ (.inr ⟨_, rfl⟩) s hret hm ho
  · split
    · exact inv_enter _ (.inl rfl) s hret hm ho
    · exact inv_raiseFatal _ s h ho (faults_of_idle s h hd)

theorem inv_fetchNext (s : State) (h : s.Inv) (hd : s.dstate = .idle) : (fetchNext s).Inv := by
  unfold fetchNext
  split
  · rename_i ho
    exact inv_receiveOpcode s h hd ho
  · exact inv_lookupNext _ _ { h with opv := rfl } hd rfl

theorem inv_dispatchNext (s : State) (h : s.Inv) : (dispatchNext s).Inv := by
  unfold dispatchNext
  split
  · rename_i hr
    split
    · rename_i hd
      exact inv_fetchNext s h hd
    · rename_i a hd
      rw [← goto_self a s hd] at h ⊢
      exact inv_handlerLine a s h hr
    · exact h
  · exact h

/-! ### The timer -/

/-- A tick keeps `TUSEC` within the second (R38, R141). -/
theorem timerOk_advanceClocks (s : State) (h : timerOk s = true) : timerOk (advanceClocks s) = true := by
  have hle : s.tusec.toNat ≤ 999999 := of_decide_eq_true h
  simp only [timerOk, advanceClocks_tusec, timerAdvance, decide_eq_true_eq]
  split
  · exact Nat.zero_le _
  · rename_i hne
    have hone : (1 : BitVec 20).toNat = 1 := rfl
    have hne' : s.tusec.toNat ≠ 999999 := fun hc => hne (BitVec.eq_of_toNat_eq hc)
    simp only [BitVec.toNat_add]
    omega

theorem inv_advanceClocks (s : State) (h : s.Inv) : (advanceClocks s).Inv :=
  { h with timer := timerOk_advanceClocks s h.timer }

/-- A timed read with a sample still to take stays inside its buffer when it takes one (R61, R144). -/
theorem fillInBounds_next (f : Fill) (b : FillBuf) (n len : Nat) (due : BitVec 64) (h : fillInBounds f b n len = true)
    (hlt : f.i < f.n) : fillInBounds { f with i := f.i + 1, due := due } b n len = true := by
  obtain ⟨hb, hn, h1, -, hl⟩ := (fillInBounds_iff f b n len).mp h
  exact (fillInBounds_iff _ b n len).mpr ⟨hb, hn, Nat.le_succ_of_le h1, hn ▸ hlt, hl⟩

/-- A timed read is in progress only at the wait of the streaming or the polled handler and at the line after it, into
that handler's buffer (R32, R51). -/
theorem fill_of_fillOk (s : State) (f : Fill) (h : fillOk s = true) (hf : s.fill = some f) :
    (∃ m, (s.dstate = .exec (.acqStream (.wait m)) ∨ s.dstate = .exec (.acqStream (.fillOff m))) ∧
      fillInBounds f .chunk m s.par.chunkPairs = true) ∨
    (∃ cnt, (s.dstate = .exec (.polled (.wait cnt)) ∨ s.dstate = .exec (.polled (.fillOff cnt))) ∧
      fillInBounds f .pbuf s.par.polledBuf s.par.polledBuf = true) := by
  unfold fillOk at h
  rw [hf] at h
  split at h <;> rename_i hd
  · exact .inl ⟨_, .inl hd, h⟩
  · exact .inl ⟨_, .inr hd, h⟩
  · exact .inr ⟨_, .inl hd, h⟩
  · exact .inr ⟨_, .inr hd, h⟩
  · cases h

/-- Taking one more sample keeps the timed read inside its buffer (R144). -/
theorem fillOk_next (s : State) (f : Fill) (due : BitVec 64) (h : fillOk s = true) (hf : s.fill = some f)
    (hlt : f.i < f.n) : fillOk { s with fill := some { f with i := f.i + 1, due := due } } = true := by
  obtain ⟨m, hd | hd, hb⟩ | ⟨cnt, hd | hd, hb⟩ := fill_of_fillOk s f h hf <;> rw [fillOk, hd] <;>
    exact fillInBounds_next f _ _ _ due hb hlt

/-- A capture keeps every invariant: it writes one element of its buffer (R144). -/
theorem inv_capture (b : FillBuf) (i : Nat) (s : State) (h : s.Inv) : (capture b i s).Inv := by
  cases b with
  | chunk =>
    obtain ⟨x, l, n, e⟩ := capture_chunk i s
    rw [e]
    exact { h with sizes := buffersSized_writeChunk s i _ h.sizes }
  | pbuf =>
    obtain ⟨x, l, n, e⟩ := capture_pbuf i s
    rw [e]
    exact { h with
      sizes := buffersSized_writePbuf s i _ h.sizes
      samples := samplesTwelveBit_writePbuf s i x h.samples }

theorem inv_tick (s : State) (h : s.Inv) : (tick s).Inv := by
  obtain e | ⟨f, hf, -, hlt, e⟩ := tick_cases s <;> rw [e]
  · exact inv_advanceClocks s h
  · have hc := inv_capture f.buf f.i (advanceClocks s) (inv_advanceClocks s h)
    obtain ⟨l, n, c, p, ec⟩ := capture_shape f.buf f.i (advanceClocks s)
    rw [ec] at hc ⊢
    exact { hc with fill := fillOk_next s f _ h.fill hf hlt }

/-! ### The deferred callback -/

/-- The group that a callback copies lies inside the burst buffer (R61, R163). -/
theorem burstPosition_inside (cfg : Board) (c : BitVec 64) :
    burstPosition cfg.params.burstBuf c % 4 = 0 ∧ burstPosition cfg.params.burstBuf c + 4 ≤ cfg.params.burstBuf := by
  have hq := cfg.burstBuf_quads
  have hlt : burstPosition cfg.params.burstBuf c < cfg.params.burstBuf :=
    Nat.mod_lt _ (Nat.lt_of_lt_of_le (by decide) cfg.burstBuf_min)
  have hp : burstPosition cfg.params.burstBuf c % 4 = 0 := by
    rw [burstPosition, Nat.mod_mod_of_dvd _ (Nat.dvd_of_mod_eq_zero hq)]
    exact Nat.mul_mod_right 4 _
  omega

/-- An element read from a buffer of samples is below 4096 (R70). -/
theorem twelveBit_bufRead (buf : List Cell16) (j : Nat) (h : ∀ x ∈ buf, x.toNat < 4096) :
    (bufRead buf j 0).toNat < 4096 := by
  unfold bufRead
  rw [List.getD_eq_getElem?_getD]
  cases hj : buf[j]? with
  | none => decide
  | some x => exact h x (List.mem_of_getElem? hj)

/-- A callback may move to any line whose position is inside the buffers (R61, R163). -/
theorem inv_setDcont (s : State) (k : DeferK) (h : s.Inv) (hp : atDeferPoint s = true)
    (hk : deferIndexOk s.par.burstBuf k = true) : ({ s with dcont := some k } : State).Inv := by
  obtain ⟨hq, hh, -⟩ := (deferOk_iff s).mp h.defer
  refine { h with defer := (deferOk_iff _).mpr ⟨hq, hh, ?_⟩ }
  rintro k' hk'
  cases hk'
  exact ⟨hp, hk⟩

theorem inv_deferLine (k : DeferK) (s : State) (h : s.Inv) (hc : s.dcont = some k) : (deferLine k s).Inv := by
  obtain ⟨hq, hh, hall⟩ := (deferOk_iff s).mp h.defer
  obtain ⟨hp, hk⟩ := hall k hc
  cases k with
  | readCount => exact inv_setDcont s _ h hp rfl
  | place c =>
    obtain ⟨hmod, hin⟩ := burstPosition_inside s.cfg c
    exact inv_setDcont s _ h hp (by simp [deferIndexOk, hmod, hin])
  | copy p j =>
    have hb : ({ s with bb := bufWrite s.bb (p + j) (bufRead s.sb j 0) } : State).Inv := by
      obtain ⟨hsb, hbb, hpbuf⟩ := (samplesTwelveBit_iff s).mp h.samples
      exact { h with
        sizes := buffersSized_writeBb s _ _ h.sizes
        samples := (samplesTwelveBit_iff _).mpr
          ⟨hsb, twelveBit_bufWrite _ _ _ hbb (twelveBit_bufRead _ _ hsb), hpbuf⟩ }
    refine inv_setDcont _ _ hb hp ?_
    simp only [deferIndexOk, Bool.and_eq_true] at hk
    split
    · rename_i hj
      simp only [deferIndexOk, hk.1, Bool.true_and]
      exact decide_eq_true hj
    · simp only [deferIndexOk, hk.1, Bool.and_self]
  | flush p =>
    simp only [deferLine]
    split
    · exact inv_setDcont (cmdSend (bytes16Seq s.bb) s) _ { h with } hp rfl
    · exact inv_setDcont s _ h hp rfl
  | finish =>
    exact { h with defer := (deferOk_iff _).mpr ⟨hq, hh, fun k hk => by cases hk⟩ }

theorem inv_deferStep (s : State) (h : s.Inv) : (deferStep s).Inv := by
  obtain e | ⟨k, -, hc, e⟩ | ⟨-, -, hp, -, e⟩ := deferStep_cases s <;> rw [e]
  · exact h
  · exact inv_deferLine k s h hc
  · obtain ⟨hq, hh, hall⟩ := (deferOk_iff s).mp h.defer
    have hd : ({ s with dq := s.dq - 1 } : State).Inv :=
      { h with defer := (deferOk_iff _).mpr ⟨Nat.le_trans (Nat.sub_le _ _) hq, hh.imp_left (by simp [·]), hall⟩ }
    exact inv_setDcont _ _ hd hp rfl

/-! ### The interrupts -/

/-- The samples of a group, in their containers (R159, R70). -/
theorem twelveBit_map_zext16 (xs : List Sample) : ∀ x ∈ xs.map zext16, x.toNat < 4096 := by
  intro x hx
  obtain ⟨y, -, rfl⟩ := List.mem_map.mp hx
  exact zext16_toNat_lt y

/-- The burst window's lines (R157). -/
theorem dstate_of_burstWindow (s : State) (h : inBurstWindow s = true) :
    s.dstate = .exec (.acqBurst .waitCount) ∨ s.dstate = .exec (.acqBurst .disarm) := by
  unfold inBurstWindow at h
  split at h <;> rename_i hd
  · exact .inl hd
  · exact .inr hd
  · cases h

/-- The rate window's lines (R190). -/
theorem dstate_of_rateWindow (s : State) (h : inRateWindow s = true) :
    (∃ t0, s.dstate = .exec (.rate (.wait t0))) ∨ s.dstate = .exec (.rate .disarm) := by
  unfold inRateWindow at h
  cases hd : s.dstate with
  | exec a =>
    cases a with
    | rate k =>
      cases k with
      | wait t0 => exact .inl ⟨t0, rfl⟩
      | disarm => exact .inr rfl
      | _ => simp [hd] at h
    | _ => simp [hd] at h
  | _ => simp [hd] at h

/-- Callbacks may be outstanding throughout the burst window (R165). -/
theorem mayHoldCallbacks_of_burstWindow (s : State) (h : inBurstWindow s = true) : mayHoldCallbacks s = true := by
  obtain hd | hd := dstate_of_burstWindow s h <;> rw [mayHoldCallbacks, hd]

theorem inv_trigEnter (s : State) (h : s.Inv) (ha : s.trigArmed = true) : (trigEnter s).Inv := by
  obtain ⟨a, b, c, d, l, n, e⟩ := trigEnter_shape s
  rw [e]
  obtain ⟨ht, -, hr, hrp⟩ := (interruptsOk_iff s).mp h.interrupts
  have hw : inBurstWindow s = true := ht (.inl ha)
  have hbody : ({ s with
      trigArmed := false, trigInsvc := true, trigReq := s.trigReq - 1, adcIn := l, drawn := n
      sb := [zext16 a, zext16 b, zext16 c, zext16 d], pcount := s.pcount + 1 } : State).Inv := by
    obtain ⟨-, hbb, hchunk, hpbuf, hlabel⟩ := (buffersSized_iff s).mp h.sizes
    obtain ⟨-, hbb', hpbuf'⟩ := (samplesTwelveBit_iff s).mp h.samples
    exact { h with
      interrupts := (interruptsOk_iff _).mpr ⟨fun _ => hw, fun _ => rfl, hr, hrp⟩
      sizes := (buffersSized_iff _).mpr ⟨rfl, hbb, hchunk, hpbuf, hlabel⟩
      samples := (samplesTwelveBit_iff _).mpr ⟨twelveBit_map_zext16 [a, b, c, d], hbb', hpbuf'⟩ }
  obtain ⟨hq, e'⟩ | ⟨-, e'⟩ := scheduleDefer_cases _ <;> rw [e']
  · obtain ⟨-, -, hall⟩ := (deferOk_iff s).mp h.defer
    exact { hbody with
      defer := (deferOk_iff _).mpr ⟨hq, .inr (mayHoldCallbacks_of_burstWindow s hw), hall⟩ }
  · obtain ⟨k, hd⟩ : ∃ k, s.dstate = .exec (.acqBurst k) := (dstate_of_burstWindow s hw).elim (⟨_, ·⟩) (⟨_, ·⟩)
    have hrun : (goto (.acqBurst k) s).Inv := (goto_self _ s hd).symm ▸ h
    exact inv_raiseFatal _ _ hbody (opv_of_running _ s hrun) (faults_of_running _ s hrun)

theorem inv_trigIsrStep (s : State) (h : s.Inv) : (trigIsrStep s).Inv := by
  obtain e | ⟨hs, e⟩ | ⟨-, -, ha, e⟩ := trigIsrStep_cases s
  · exact e.symm ▸ h
  · obtain ⟨q, l, n, e'⟩ := trigServiceExit_shape s
    obtain ⟨ht, -, hr, hrp⟩ := (interruptsOk_iff s).mp h.interrupts
    rw [e, e']
    exact { h with
      interrupts := (interruptsOk_iff _).mpr
        ⟨fun _ => ht (.inr (.inl hs)), fun hp => absurd hp Bool.false_ne_true, hr, hrp⟩ }
  · exact e.symm ▸ inv_trigEnter s h ha

theorem inv_rateIsrStep (s : State) (h : s.Inv) : (rateIsrStep s).Inv := by
  obtain ⟨ht, htp, hr, -⟩ := (interruptsOk_iff s).mp h.interrupts
  obtain e | ⟨hs, e⟩ | ⟨-, -, ha, e⟩ := rateIsrStep_cases s
  · exact e.symm ▸ h
  · obtain ⟨q, l, n, e'⟩ := rateServiceExit_shape s
    rw [e, e']
    exact { h with
      interrupts := (interruptsOk_iff _).mpr
        ⟨ht, htp, fun _ => hr (.inr (.inl hs)), fun hp => absurd hp Bool.false_ne_true⟩ }
  · rw [e]
    exact { h with
      interrupts := (interruptsOk_iff _).mpr ⟨ht, htp, fun _ => hr (.inl ha), fun _ => rfl⟩ }

theorem inv_trigEdge (e : Edge) (s : State) (h : s.Inv) : (trigEdge e s).Inv := by
  obtain ⟨ht, htp, hr, hrp⟩ := (interruptsOk_iff s).mp h.interrupts
  obtain e' | ⟨hs, -, c, l, n, e'⟩ | ⟨-, ha, e'⟩ := trigEdge_cases e s <;> rw [e']
  · exact h
  · exact { h with interrupts := (interruptsOk_iff _).mpr ⟨ht, fun _ => hs, hr, hrp⟩ }
  · obtain ⟨q, l, n, e'', -⟩ := trigEnable_shape s
    rw [e'']
    exact { h with interrupts := (interruptsOk_iff _).mpr ⟨fun _ => ht (.inl ha), htp, hr, hrp⟩ }

theorem inv_rateEdge (e : Edge) (s : State) (h : s.Inv) : (rateEdge e s).Inv := by
  obtain ⟨ht, htp, hr, hrp⟩ := (interruptsOk_iff s).mp h.interrupts
  obtain e' | ⟨hs, -, c, l, n, e'⟩ | ⟨-, ha, e'⟩ := rateEdge_cases e s <;> rw [e']
  · exact h
  · exact { h with interrupts := (interruptsOk_iff _).mpr ⟨ht, htp, hr, fun _ => hs⟩ }
  · obtain ⟨q, l, n, e'', -⟩ := rateEnable_shape s
    rw [e'']
    exact { h with interrupts := (interruptsOk_iff _).mpr ⟨ht, htp, fun _ => hr (.inl ha), hrp⟩ }

/-! ### A whole step -/

theorem inv_nextState (m : Move) (s : State) (h : s.Inv) : (nextState m s).Inv := by
  cases m with
  | dispatch => exact inv_dispatchNext s h
  | defer => exact inv_deferStep s h
  | trigIsr => exact inv_trigIsrStep s h
  | rateIsr => exact inv_rateIsrStep s h
  | tick => exact inv_tick s h
  | deliver d => exact { h with }
  | trigEdge e => exact inv_trigEdge e s h
  | rateEdge e => exact inv_rateEdge e s h
  | reset => exact inv_externalReset s h

/-- Settles O51: the reset state is the power-up state on a bus in canonical form. -/
theorem resetMeetsInv : Obligations.ResetMeetsInv := inv_powerUp Config.board powerOnBus 0 powerOnBus_wf

/-- Settles O52, move by move. -/
theorem invKept : Obligations.InvKept := by
  intro s t h hst
  obtain ⟨l, n, rfl⟩ := step_next s t hst
  exact inv_nextState _ _ { h with }

end Sys2Proof.Machine

/-! SUPPORT. Ownership of the modes' buffers, counters, targets and queue (R51): overwriting what belongs to modes that
are not running commutes with every move but a reset. Both that the other modes' moves read nothing of it and that they
write nothing of it follow. -/

namespace Sys2Proof.Machine

/-! ### What the modes own, and overwriting it -/

/-- What streaming owns (R51). -/
structure StreamOwned where
  chunk : List Pair
  starget : BitVec 32
  sdone : BitVec 32

/-- What burst mode owns (R51). -/
structure BurstOwned where
  sb : List Cell16
  bb : List Cell16
  pcount : BitVec 64
  btarget : BitVec 64
  dq : Nat

/-- New values for what some of the modes own; `none` leaves a mode's own as it is. -/
structure Overwriting where
  stream : Option StreamOwned := none
  polled : Option (List Cell16) := none
  burst : Option BurstOwned := none
  rate : Option (BitVec 32) := none

/-- The state with new values for what some of the modes own. -/
def overwrite (o : Overwriting) (s : State) : State :=
  { s with
    chunk := o.stream.elim s.chunk StreamOwned.chunk
    starget := o.stream.elim s.starget StreamOwned.starget
    sdone := o.stream.elim s.sdone StreamOwned.sdone
    pbuf := o.polled.getD s.pbuf
    sb := o.burst.elim s.sb BurstOwned.sb
    bb := o.burst.elim s.bb BurstOwned.bb
    pcount := o.burst.elim s.pcount BurstOwned.pcount
    btarget := o.burst.elim s.btarget BurstOwned.btarget
    dq := o.burst.elim s.dq BurstOwned.dq
    rcount := o.rate.getD s.rcount }

/-- An overwriting leaves alone what the mode of the running handler owns. -/
structure Overwriting.Fits (o : Overwriting) (d : DState) : Prop where
  stream : o.stream = none ∨ ∀ k, d ≠ .exec (.acqStream k)
  polled : o.polled = none ∨ ∀ k, d ≠ .exec (.polled k)
  burst : o.burst = none ∨ ∀ k, d ≠ .exec (.acqBurst k)
  rate : o.rate = none ∨ ∀ k, d ≠ .exec (.rate k)

@[simp] theorem overwrite_dstate (o : Overwriting) (s : State) : (overwrite o s).dstate = s.dstate := rfl
@[simp] theorem overwrite_cin (o : Overwriting) (s : State) : (overwrite o s).cin = s.cin := rfl
@[simp] theorem overwrite_opv (o : Overwriting) (s : State) : (overwrite o s).opv = s.opv := rfl
@[simp] theorem overwrite_fill (o : Overwriting) (s : State) : (overwrite o s).fill = s.fill := rfl
@[simp] theorem overwrite_dcont (o : Overwriting) (s : State) : (overwrite o s).dcont = s.dcont := rfl
@[simp] theorem overwrite_adcIn (o : Overwriting) (s : State) : (overwrite o s).adcIn = s.adcIn := rfl
@[simp] theorem overwrite_coinIn (o : Overwriting) (s : State) : (overwrite o s).coinIn = s.coinIn := rfl
@[simp] theorem overwrite_schedule (o : Overwriting) (s : State) : (overwrite o s).schedule = s.schedule := rfl
@[simp] theorem overwrite_trigReq (o : Overwriting) (s : State) : (overwrite o s).trigReq = s.trigReq := rfl
@[simp] theorem overwrite_rateReq (o : Overwriting) (s : State) : (overwrite o s).rateReq = s.rateReq := rfl
@[simp] theorem overwrite_trigInsvc (o : Overwriting) (s : State) : (overwrite o s).trigInsvc = s.trigInsvc := rfl
@[simp] theorem overwrite_rateInsvc (o : Overwriting) (s : State) : (overwrite o s).rateInsvc = s.rateInsvc := rfl
@[simp] theorem overwrite_trigArmed (o : Overwriting) (s : State) : (overwrite o s).trigArmed = s.trigArmed := rfl
@[simp] theorem overwrite_rateArmed (o : Overwriting) (s : State) : (overwrite o s).rateArmed = s.rateArmed := rfl

/-! ### The primitives -/

theorem coin_overwrite (o : Overwriting) (s : State) :
    coin (overwrite o s) = ((coin s).1, overwrite o (coin s).2) := by
  simp only [coin, overwrite_coinIn]
  cases s.coinIn <;> rfl

theorem adcSample_overwrite (o : Overwriting) (s : State) :
    adcSample (overwrite o s) = ((adcSample s).1, overwrite o (adcSample s).2) := by
  simp only [adcSample, overwrite_adcIn]
  cases s.adcIn <;> rfl

theorem recvThen_overwrite (o : Overwriting) (n : Nat) (k : List Byte → State → State) (s : State)
    (hk : ∀ d u, k d (overwrite o u) = overwrite o (k d u)) :
    recvThen n k (overwrite o s) = overwrite o (recvThen n k s) := by
  simp only [recvThen, overwrite_cin]
  cases s.cin with
  | nil => rfl
  | cons d rest =>
    rw [apply_ite (overwrite o), ← hk]
    rfl

@[simp] theorem settleWindow_overwrite (o : Overwriting) (s : State) :
    settleWindow (overwrite o s) = settleWindow s := rfl

theorem settleHazard_overwrite (o : Overwriting) (s : State) :
    settleHazard (overwrite o s) = overwrite o (settleHazard s) := by
  simp only [settleHazard, settleWindow_overwrite]
  cases settleWindow s with
  | none => rfl
  | some w =>
    simp only [coin_overwrite]
    rfl

theorem busRead_overwrite (o : Overwriting) (a : BusAddr) (s : State) :
    busRead a (overwrite o s) = ((busRead a s).1, overwrite o (busRead a s).2) := by
  simp only [busRead, settleHazard_overwrite]
  rfl

theorem busProbe_overwrite (o : Overwriting) (a : BusAddr) (s : State) :
    busProbe a (overwrite o s) = ((busProbe a s).1, overwrite o (busProbe a s).2) := by
  simp only [busProbe, settleHazard_overwrite]
  rfl

theorem busWrite_overwrite (o : Overwriting) (a : BusAddr) (v : Byte) (s : State) :
    busWrite a v (overwrite o s) = ((busWrite a v s).1, overwrite o (busWrite a v s).2) := by
  have hp : (overwrite o (settleHazard s)).pots = (settleHazard s).pots := rfl
  simp only [busWrite, settleHazard_overwrite, settleWindow_overwrite, hp]
  cases (settleHazard s).pots.read a with
  | none => rfl
  | some g =>
    cases settleWindow s with
    | none => rfl
    | some w =>
      simp only [coin_overwrite, apply_ite (overwrite o)]
      rfl

theorem potWriteIssue_overwrite (o : Overwriting) (a : BusAddr) (v : Byte) (s : State) :
    potWriteIssue a v (overwrite o s) = ((potWriteIssue a v s).1, overwrite o (potWriteIssue a v s).2) := by
  simp only [potWriteIssue, busWrite_overwrite]
  rfl

/-- A capture commutes with an overwriting that leaves its own buffer alone (R144). -/
theorem capture_overwrite (o : Overwriting) (b : FillBuf) (i : Nat) (s : State) (hc : b = .chunk → o.stream = none)
    (hp : b = .pbuf → o.polled = none) : capture b i (overwrite o s) = overwrite o (capture b i s) := by
  obtain ⟨stream, polled, burst, rate⟩ := o
  simp only [capture, adcSample_overwrite]
  cases b with
  | chunk =>
    cases hc rfl
    rfl
  | pbuf =>
    cases hp rfl
    rfl

theorem startFill_overwrite (o : Overwriting) (b : FillBuf) (n p : Nat) (s : State) (hc : b = .chunk → o.stream = none)
    (hp : b = .pbuf → o.polled = none) : startFill b n p (overwrite o s) = overwrite o (startFill b n p s) := by
  simp only [startFill, capture_overwrite o b 0 s hc hp]
  rfl

/-! ### The handlers that are no acquisition mode -/

theorem potRdLine_overwrite (o : Overwriting) (k : PotRdK) (s : State) :
    potRdLine k (overwrite o s) = overwrite o (potRdLine k s) := by
  cases k with
  | readGain =>
    simp only [potRdLine, busRead_overwrite]
    rfl
  | gotGain g =>
    cases g with
    | none => rfl
    | some g =>
      simp only [potRdLine, busRead_overwrite]
      rfl
  | gotBoth g t => cases t <;> rfl
  | ret => rfl

theorem busScanLine_overwrite (o : Overwriting) (k : ScanK) (s : State) :
    busScanLine k (overwrite o s) = overwrite o (busScanLine k s) := by
  cases k with
  | probe rest found =>
    cases rest with
    | nil => rfl
    | cons a rest =>
      simp only [busScanLine, busProbe_overwrite]
      rfl
  | ret => rfl

theorem potWrLine_overwrite (o : Overwriting) (mk : PotWrK → Activity) (addr : BusAddr) (k : PotWrK) (s : State) :
    potWrLine mk addr k (overwrite o s) = overwrite o (potWrLine mk addr k s) := by
  cases k with
  | recv =>
    simp only [potWrLine]
    exact recvThen_overwrite o _ _ s fun _ _ => rfl
  | write pos =>
    simp only [potWrLine, potWriteIssue_overwrite]
    rfl
  | record t old new => rfl
  | absent => rfl
  | settle =>
    simp only [potWrLine]
    rw [apply_ite (overwrite o)]
    rfl
  | ret => rfl

theorem bitLine_overwrite (o : Overwriting) (mk : BitK → Activity) (put : State → State)
    (hput : ∀ u, put (overwrite o u) = overwrite o (put u)) (k : BitK) (s : State) :
    bitLine mk put k (overwrite o s) = overwrite o (bitLine mk put k s) := by
  cases k with
  | write => exact congrArg (goto (mk .ret)) (hput s)
  | ret => rfl

theorem lblGetLine_overwrite (o : Overwriting) (k : LblGetK) (s : State) :
    lblGetLine k (overwrite o s) = overwrite o (lblGetLine k s) := by
  cases k <;> rfl

theorem lblSetLine_overwrite (o : Overwriting) (k : LblSetK) (s : State) :
    lblSetLine k (overwrite o s) = overwrite o (lblSetLine k s) := by
  cases k with
  | recv =>
    simp only [lblSetLine]
    exact recvThen_overwrite o _ _ s fun _ _ => rfl
  | store j d => rfl
  | ret => rfl

/-! ### The acquisition handlers and `RATE`, each with its own left alone -/

theorem streamStart_overwrite (o : Overwriting) (ho : o.stream = none) (m : Nat) (s : State) :
    streamStart m (overwrite o s) = overwrite o (streamStart m s) := by
  obtain ⟨stream, polled, burst, rate⟩ := o
  cases ho
  by_cases hz : s.sdone = 0
  · have hz' : (overwrite ⟨none, polled, burst, rate⟩ s).sdone = 0 := hz
    simp only [streamStart, if_pos hz, if_pos hz']
    rw [← startFill_overwrite ⟨none, polled, burst, rate⟩ .chunk _ _ _ (fun _ => rfl) nofun]
    rfl
  · have hz' : ¬ (overwrite ⟨none, polled, burst, rate⟩ s).sdone = 0 := hz
    simp only [streamStart, if_neg hz, if_neg hz']
    rw [← startFill_overwrite ⟨none, polled, burst, rate⟩ .chunk _ _ _ (fun _ => rfl) nofun]
    rfl

theorem streamLine_overwrite (o : Overwriting) (ho : o.stream = none) (k : StreamK) (s : State) :
    streamLine k (overwrite o s) = overwrite o (streamLine k s) := by
  have hstart := streamStart_overwrite o ho (streamCount s) s
  obtain ⟨stream, polled, burst, rate⟩ := o
  cases ho
  cases k with
  | recv =>
    simp only [streamLine]
    exact recvThen_overwrite _ _ _ s fun _ _ => rfl
  | loop =>
    simp only [streamLine]
    rw [apply_ite (overwrite _)]
    exact congrArg (fun u => if s.sdone < s.starget then goto (.acqStream (.wait (streamCount s))) u else _) hstart
  | wait m =>
    simp only [streamLine]
    rw [apply_ite (overwrite _)]
    rfl
  | _ => rfl

theorem polledLine_overwrite (o : Overwriting) (ho : o.polled = none) (k : PolledK) (s : State) :
    polledLine k (overwrite o s) = overwrite o (polledLine k s) := by
  obtain ⟨stream, polled, burst, rate⟩ := o
  cases ho
  cases k with
  | recv =>
    simp only [polledLine]
    exact recvThen_overwrite _ _ _ s fun _ _ => rfl
  | loop cnt =>
    cases cnt with
    | zero => rfl
    | succ cnt =>
      exact congrArg (goto (.polled (.wait (cnt + 1))))
        (startFill_overwrite _ .pbuf _ _ { s with pbuf := List.replicate s.par.polledBuf 0 } nofun
          (fun _ => rfl))
  | wait cnt =>
    simp only [polledLine]
    rw [apply_ite (overwrite _)]
    rfl
  | _ => rfl

theorem burstLine_overwrite (o : Overwriting) (ho : o.burst = none) (k : BurstK) (s : State) :
    burstLine k (overwrite o s) = overwrite o (burstLine k s) := by
  obtain ⟨stream, polled, burst, rate⟩ := o
  cases ho
  cases k with
  | recv =>
    simp only [burstLine]
    exact recvThen_overwrite _ _ _ s fun _ _ => rfl
  | waitCount =>
    simp only [burstLine]
    rw [apply_ite (overwrite _)]
    rfl
  | waitDefer =>
    simp only [burstLine]
    rw [apply_ite (overwrite _)]
    rfl
  | _ => rfl

theorem rateLine_overwrite (o : Overwriting) (ho : o.rate = none) (k : RateK) (s : State) :
    rateLine k (overwrite o s) = overwrite o (rateLine k s) := by
  obtain ⟨stream, polled, burst, rate⟩ := o
  cases ho
  cases k with
  | wait t0 =>
    simp only [rateLine]
    rw [apply_ite (overwrite _)]
    rfl
  | _ => rfl

/-! ### The dispatcher -/

theorem handlerLine_overwrite (o : Overwriting) (a : Activity) (s : State) (hf : o.Fits (.exec a)) :
    handlerLine a (overwrite o s) = overwrite o (handlerLine a s) := by
  cases a with
  | potRd k => exact potRdLine_overwrite o k s
  | busScan k => exact busScanLine_overwrite o k s
  | potWrGain k => exact potWrLine_overwrite o _ _ k s
  | potWrThr k => exact potWrLine_overwrite o _ _ k s
  | acqStream k => exact streamLine_overwrite o (hf.stream.resolve_right fun h => h k rfl) k s
  | acqBurst k => exact burstLine_overwrite o (hf.burst.resolve_right fun h => h k rfl) k s
  | polLo k => exact bitLine_overwrite o _ (setPol false) (fun _ => rfl) k s
  | polHi k => exact bitLine_overwrite o _ (setPol true) (fun _ => rfl) k s
  | rate k => exact rateLine_overwrite o (hf.rate.resolve_right fun h => h k rfl) k s
  | tpOff k => exact bitLine_overwrite o _ (setTpen false) (fun _ => rfl) k s
  | tpOn k => exact bitLine_overwrite o _ (setTpen true) (fun _ => rfl) k s
  | lblGet k => exact lblGetLine_overwrite o k s
  | lblSet k => exact lblSetLine_overwrite o k s
  | polled k => exact polledLine_overwrite o (hf.polled.resolve_right fun h => h k rfl) k s

theorem lookupNext_overwrite (o : Overwriting) (v : BitVec 16) (s : State) :
    lookupNext v (overwrite o s) = overwrite o (lookupNext v s) := by
  unfold lookupNext
  cases instrOfOpv v with
  | some i => rfl
  | none =>
    simp only [apply_ite (overwrite o)]
    rfl

theorem fetchNext_overwrite (o : Overwriting) (s : State) : fetchNext (overwrite o s) = overwrite o (fetchNext s) := by
  simp only [fetchNext, overwrite_opv]
  cases s.opv with
  | none => exact recvThen_overwrite o _ _ s fun _ _ => rfl
  | some v => exact lookupNext_overwrite o v { s with opv := none }

theorem dispatchNext_overwrite (o : Overwriting) (s : State) (hf : o.Fits s.dstate) :
    dispatchNext (overwrite o s) = overwrite o (dispatchNext s) := by
  have hr : dispatchReady (overwrite o s) = dispatchReady s := rfl
  simp only [dispatchNext, hr, overwrite_dstate, apply_ite (overwrite o)]
  cases hd : s.dstate with
  | idle => simp only [fetchNext_overwrite]
  | exec a => simp only [handlerLine_overwrite o a s (hd ▸ hf)]
  | halted => rfl

/-! ### The other agents -/

theorem tick_overwrite (o : Overwriting) (s : State) (h : s.Inv) (hf : o.Fits s.dstate) :
    tick (overwrite o s) = overwrite o (tick s) := by
  have hclocks : advanceClocks (overwrite o s) = overwrite o (advanceClocks s) := rfl
  simp only [tick, hclocks, overwrite_fill, advanceClocks_fill]
  cases hs : s.fill with
  | none => rfl
  | some f =>
    have hchunk : f.buf = .chunk → o.stream = none := by
      intro hb
      obtain ⟨m, hd, -⟩ | ⟨cnt, -, hin⟩ := fill_of_fillOk s f h.fill hs
      · exact hf.stream.resolve_right fun hn => hd.elim (hn _) (hn _)
      · cases hb.symm.trans ((fillInBounds_iff _ _ _ _).mp hin).1
    have hpbuf : f.buf = .pbuf → o.polled = none := by
      intro hb
      obtain ⟨m, -, hin⟩ | ⟨cnt, hd, -⟩ := fill_of_fillOk s f h.fill hs
      · cases hb.symm.trans ((fillInBounds_iff _ _ _ _).mp hin).1
      · exact hf.polled.resolve_right fun hn => hd.elim (hn _) (hn _)
    simp only [apply_ite (overwrite o), capture_overwrite o f.buf f.i _ hchunk hpbuf]
    rfl

theorem adcGroup_overwrite (o : Overwriting) (s : State) :
    adcGroup (overwrite o s) = ((adcGroup s).1, overwrite o (adcGroup s).2) := by
  simp only [adcGroup, adcSample_overwrite]

theorem scheduleDefer_overwrite (o : Overwriting) (ho : o.burst = none) (s : State) :
    scheduleDefer (overwrite o s) = overwrite o (scheduleDefer s) := by
  obtain ⟨stream, polled, burst, rate⟩ := o
  cases ho
  simp only [scheduleDefer]
  rw [apply_ite (overwrite _)]
  rfl

theorem trigEnter_overwrite (o : Overwriting) (ho : o.burst = none) (s : State) :
    trigEnter (overwrite o s) = overwrite o (trigEnter s) := by
  have henter : trigServiceEnter (overwrite o s) = overwrite o (trigServiceEnter s) := rfl
  have hsample : trigSample (overwrite o (trigServiceEnter s)) = overwrite o (trigSample (trigServiceEnter s)) := by
    simp only [trigSample, adcGroup_overwrite]
    obtain ⟨stream, polled, burst, rate⟩ := o
    cases ho
    rfl
  rw [trigEnter, henter, hsample, scheduleDefer_overwrite o ho, trigEnter]

theorem trigEnable_overwrite (o : Overwriting) (s : State) :
    trigEnable (overwrite o s) = overwrite o (trigEnable s) := by
  simp only [trigEnable, coin_overwrite, apply_ite (overwrite o)]
  rfl

theorem rateEnable_overwrite (o : Overwriting) (s : State) :
    rateEnable (overwrite o s) = overwrite o (rateEnable s) := by
  simp only [rateEnable, coin_overwrite, apply_ite (overwrite o)]
  rfl

theorem trigServiceExit_overwrite (o : Overwriting) (s : State) :
    trigServiceExit (overwrite o s) = overwrite o (trigServiceExit s) := by
  simp only [trigServiceExit, apply_ite (overwrite o), ← trigEnable_overwrite]
  rfl

theorem rateServiceExit_overwrite (o : Overwriting) (s : State) :
    rateServiceExit (overwrite o s) = overwrite o (rateServiceExit s) := by
  simp only [rateServiceExit, apply_ite (overwrite o), ← rateEnable_overwrite]
  rfl

/-- Outside the burst window the trigger interrupt is neither armed nor in service (R35, R49). -/
theorem trig_off_outside_window (s : State) (h : s.Inv) (hw : inBurstWindow s ≠ true) :
    s.trigArmed = false ∧ s.trigInsvc = false := by
  obtain ⟨ht, -⟩ := (interruptsOk_iff s).mp h.interrupts
  exact ⟨eq_false_of_ne_true fun ha => hw (ht (.inl ha)), eq_false_of_ne_true fun hi => hw (ht (.inr (.inl hi)))⟩

/-- Outside the rate window the rate interrupt is neither armed nor in service (R35, R49). -/
theorem rate_off_outside_window (s : State) (h : s.Inv) (hw : inRateWindow s ≠ true) :
    s.rateArmed = false ∧ s.rateInsvc = false := by
  obtain ⟨-, -, hr, -⟩ := (interruptsOk_iff s).mp h.interrupts
  exact ⟨eq_false_of_ne_true fun ha => hw (hr (.inl ha)), eq_false_of_ne_true fun hi => hw (hr (.inr (.inl hi)))⟩

theorem trigIsrStep_overwrite (o : Overwriting) (s : State) (h : s.Inv) (hf : o.Fits s.dstate) :
    trigIsrStep (overwrite o s) = overwrite o (trigIsrStep s) := by
  simp only [trigIsrStep, overwrite_trigInsvc, overwrite_trigReq, overwrite_trigArmed]
  obtain ho | hd := hf.burst
  · simp only [apply_ite (overwrite o), trigServiceExit_overwrite, trigEnter_overwrite o ho]
  · have hw : inBurstWindow s ≠ true := fun hw => (dstate_of_burstWindow s hw).elim (hd _) (hd _)
    simp [trig_off_outside_window s h hw]

theorem rateIsrStep_overwrite (o : Overwriting) (s : State) (h : s.Inv) (hf : o.Fits s.dstate) :
    rateIsrStep (overwrite o s) = overwrite o (rateIsrStep s) := by
  simp only [rateIsrStep, overwrite_rateInsvc, overwrite_rateReq, overwrite_rateArmed]
  obtain ho | hd := hf.rate
  · have henter : rateEnter (overwrite o s) = overwrite o (rateEnter s) := by
      obtain ⟨stream, polled, burst, rate⟩ := o
      cases ho
      rfl
    simp only [apply_ite (overwrite o), rateServiceExit_overwrite, henter]
  · have hw : inRateWindow s ≠ true := fun hw =>
      (dstate_of_rateWindow s hw).elim (fun ⟨_, hk⟩ => hd _ hk) (hd _)
    simp [rate_off_outside_window s h hw]

theorem deferLine_overwrite (o : Overwriting) (ho : o.burst = none) (k : DeferK) (s : State) :
    deferLine k (overwrite o s) = overwrite o (deferLine k s) := by
  obtain ⟨stream, polled, burst, rate⟩ := o
  cases ho
  cases k with
  | flush p =>
    by_cases hp : p = s.par.burstCkpt
    · have hp' : p = (overwrite ⟨stream, polled, none, rate⟩ s).par.burstCkpt := hp
      simp only [deferLine, if_pos hp, if_pos hp']
      rfl
    · have hp' : ¬ p = (overwrite ⟨stream, polled, none, rate⟩ s).par.burstCkpt := hp
      simp only [deferLine, if_neg hp, if_neg hp']
      rfl
  | _ => rfl

/-- A callback starts and runs only at a wait of the burst handler (R165). -/
theorem dstate_of_deferPoint (s : State) (h : atDeferPoint s = true) : ∃ k, s.dstate = .exec (.acqBurst k) := by
  unfold atDeferPoint at h
  split at h <;> rename_i hd
  · exact ⟨_, hd⟩
  · exact ⟨_, hd⟩
  · cases h

/-- Outside a burst `DEFER` has no step (R165). -/
theorem deferStep_outside_burst (s : State) (hc : ∀ k, s.dcont = some k → atDeferPoint s = true)
    (hd : ∀ k, s.dstate ≠ .exec (.acqBurst k)) : deferStep s = s := by
  have hp : ¬ atDeferPoint s = true := fun hp => (dstate_of_deferPoint s hp).elim hd
  obtain e | ⟨k, -, hk, -⟩ | ⟨-, -, hp', -⟩ := deferStep_cases s
  · exact e
  · exact absurd (hc k hk) hp
  · exact absurd hp' hp

theorem deferStep_overwrite (o : Overwriting) (s : State) (h : s.Inv) (hf : o.Fits s.dstate) :
    deferStep (overwrite o s) = overwrite o (deferStep s) := by
  obtain ho | hd := hf.burst
  · have hline := fun k => deferLine_overwrite o ho k s
    obtain ⟨stream, polled, burst, rate⟩ := o
    cases ho
    have hs : inService (overwrite ⟨stream, polled, none, rate⟩ s) = inService s := rfl
    simp only [deferStep, hs, overwrite_dcont, apply_ite (overwrite _)]
    cases s.dcont with
    | none =>
      simp only [apply_ite (overwrite _)]
      rfl
    | some k => simp only [hline]
  · obtain ⟨-, -, hc⟩ := (deferOk_iff s).mp h.defer
    have hp := fun k hk => (hc k hk).1
    rw [deferStep_outside_burst s hp hd, deferStep_outside_burst (overwrite o s) hp hd]

theorem trigEdge_overwrite (o : Overwriting) (e : Edge) (s : State) :
    trigEdge e (overwrite o s) = overwrite o (trigEdge e s) := by
  simp only [trigEdge, coin_overwrite, apply_ite (overwrite o), ← trigEnable_overwrite]
  rfl

theorem rateEdge_overwrite (o : Overwriting) (e : Edge) (s : State) :
    rateEdge e (overwrite o s) = overwrite o (rateEdge e s) := by
  simp only [rateEdge, coin_overwrite, apply_ite (overwrite o), ← rateEnable_overwrite]
  rfl

/-! ### A whole step -/

theorem nextState_overwrite (o : Overwriting) (m : Move) (s : State) (h : s.Inv) (hm : m ≠ .reset)
    (hf : o.Fits s.dstate) : nextState m (overwrite o s) = overwrite o (nextState m s) := by
  cases m with
  | dispatch => exact dispatchNext_overwrite o s hf
  | defer => exact deferStep_overwrite o s h hf
  | trigIsr => exact trigIsrStep_overwrite o s h hf
  | rateIsr => exact rateIsrStep_overwrite o s h hf
  | tick => exact tick_overwrite o s h hf
  | deliver d => rfl
  | trigEdge e => exact trigEdge_overwrite o e s
  | rateEdge e => exact rateEdge_overwrite o e s
  | reset => exact absurd rfl hm

theorem takeMove_overwrite (o : Overwriting) (s : State) :
    takeMove (overwrite o s) = ((takeMove s).1, overwrite o (takeMove s).2) := by
  simp only [takeMove, overwrite_schedule]
  cases s.schedule <;> rfl

/-- No step but a reset depends on what the modes own that are not running (R51). -/
theorem step_overwrite (o : Overwriting) (s t : State) (h : s.Inv) (hst : step s = .next t)
    (hm : (takeMove s).1 ≠ .reset) (hf : o.Fits s.dstate) : step (overwrite o s) = .next (overwrite o t) := by
  obtain ⟨m, l, n, e⟩ := takeMove_shape s
  rw [step_eq, e] at hst
  cases hst
  rw [step_eq, takeMove_overwrite, e]
  rw [e] at hm
  exact congrArg _ (nextState_overwrite o m _ { h with } hm hf)

/-- Settles O55: each mode's own is one overwriting. -/
theorem modesReadOwnBuffers : Obligations.ModesReadOwnBuffers := by
  intro s t h hst hm
  refine ⟨fun c n d hd => ?_, fun p hd => ?_, fun x y c n q hd => ?_, fun r hd => ?_⟩
  · exact step_overwrite { stream := some ⟨c, n, d⟩ } s t h hst hm ⟨.inr hd, .inl rfl, .inl rfl, .inl rfl⟩
  · exact step_overwrite { polled := some p } s t h hst hm ⟨.inl rfl, .inr hd, .inl rfl, .inl rfl⟩
  · exact step_overwrite { burst := some ⟨x, y, c, n, q⟩ } s t h hst hm ⟨.inl rfl, .inl rfl, .inr hd, .inl rfl⟩
  · exact step_overwrite { rate := some r } s t h hst hm ⟨.inl rfl, .inl rfl, .inl rfl, .inr hd⟩

/-- Settles O54, from O55: a step that commutes with writing back a mode's own values has not changed them. -/
theorem modesOwnBuffers : Obligations.ModesOwnBuffers := by
  intro s t h hst hm
  obtain ⟨hstream, hpolled, hburst, hrate⟩ := modesReadOwnBuffers s t h hst hm
  refine ⟨fun hne => ?_, fun hne => ?_, fun hne => ?_, fun hne => ?_⟩ <;> by_contra hd <;>
    simp only [not_exists] at hd
  · have e := Host.Outcome.next.inj (hst.symm.trans (hstream s.chunk s.starget s.sdone hd))
    rw [e] at hne
    simp at hne
  · have e := Host.Outcome.next.inj (hst.symm.trans (hpolled s.pbuf hd))
    rw [e] at hne
    simp at hne
  · have e := Host.Outcome.next.inj (hst.symm.trans (hburst s.sb s.bb s.pcount s.btarget s.dq hd))
    rw [e] at hne
    simp at hne
  · have e := Host.Outcome.next.inj (hst.symm.trans (hrate s.rcount hd))
    rw [e] at hne
    simp at hne

end Sys2Proof.Machine

/-! SUPPORT. What every step but a reset changes of the configuration, the clocks, the control bits, the records, the
counters and the arm bits: one structure whose clauses hold by default where the step writes none of their fields, so
that each case names only what it writes. -/

namespace Sys2Proof.Machine

/-! ### The effect of a step -/

/-- Between `s` and `t` events are only added, and one of `POL_OUT` or `TP_OUT` exactly where that output changes, with
its new level (R45). -/
def OutputsRecorded (s t : State) : Prop :=
  ∃ es, t.events = s.events ++ es ∧ (∀ b, OutEvent.polOut b ∈ es ↔ polOut t ≠ polOut s ∧ b = polOut t) ∧
    (∀ l, OutEvent.tpOut l ∈ es ↔ tpOut t ≠ tpOut s ∧ l = tpOut t)

/-- Where the outputs stay as they are, events that are none of theirs may be added. -/
theorem outputsRecorded_of_same (s t : State) (es : List OutEvent) (he : t.events = s.events ++ es)
    (hp : polOut t = polOut s) (ht : tpOut t = tpOut s) (hpe : ∀ b, OutEvent.polOut b ∉ es)
    (hte : ∀ l, OutEvent.tpOut l ∉ es) : OutputsRecorded s t :=
  ⟨es, he, fun b => by simp [hpe b, hp], fun l => by simp [hte l, ht]⟩

theorem outputsRecorded_of_eq (s t : State) (he : t.events = s.events) (hp : polOut t = polOut s)
    (ht : tpOut t = tpOut s) : OutputsRecorded s t :=
  outputsRecorded_of_same s t [] (by simpa using he) hp ht nofun nofun

/-- What a step of the move `m` that is no reset can change, clause by clause; a step that writes none of a clause's
fields meets it by default. -/
structure StepEffect (m : Move) (s t : State) : Prop where
  cfg : t.cfg = s.cfg := by rfl
  schedule : t.schedule = s.schedule := by rfl
  now : m ≠ .tick → t.now = s.now := by exact fun _ => rfl
  pol : t.pol ≠ s.pol → s.dstate = .exec (.polLo .write) ∨ s.dstate = .exec (.polHi .write) := by
    exact fun h => absurd rfl h
  tpen : t.tpen ≠ s.tpen → s.dstate = .exec (.tpOff .write) ∨ s.dstate = .exec (.tpOn .write) := by
    exact fun h => absurd rfl h
  label : t.label ≠ s.label → ∃ j d, s.dstate = .exec (.lblSet (.store j d)) := by exact fun h => absurd rfl h
  outputs : OutputsRecorded s t := by exact outputsRecorded_of_eq _ _ rfl rfl rfl
  cout : s.cout <+: t.cout := by exact List.prefix_refl _
  sout : s.sout <+: t.sout := by exact List.prefix_refl _
  faults : s.faults <+: t.faults := by exact List.prefix_refl _
  halted : t.faults ≠ s.faults → t.dstate = .halted := by exact fun h => absurd rfl h
  buserr : t.buserr = s.buserr ∨ (t.buserr = s.buserr + 1 ∧ t.dstate = .idle ∧ t.cout = s.cout) := by exact .inl rfl
  pcount : t.pcount = s.pcount ∨ (s.dstate = .exec (.acqBurst .zeroCount) ∧ t.pcount = 0) ∨
    (m = .trigIsr ∧ s.trigArmed = true ∧ s.trigInsvc = false ∧ 0 < s.trigReq ∧
      (t.trigInsvc = true ∨ t.dstate = .halted) ∧ t.pcount = s.pcount + 1) := by exact .inl rfl
  rcount : t.rcount = s.rcount ∨ (s.dstate = .exec (.rate .zeroCount) ∧ t.rcount = 0) ∨
    (m = .rateIsr ∧ s.rateArmed = true ∧ s.rateInsvc = false ∧ 0 < s.rateReq ∧
      t.rateInsvc = true ∧ t.rcount = s.rcount + 1 ∧ t.events = s.events ++ [.clrPulse s.par.clrPulseUs]) := by
    exact .inl rfl
  trig : ¬(s.trigArmed = true ∧ s.trigInsvc = true) → ¬(t.trigArmed = true ∧ t.trigInsvc = true) := by exact id
  rate : ¬(s.rateArmed = true ∧ s.rateInsvc = true) → ¬(t.rateArmed = true ∧ t.rateInsvc = true) := by exact id

/-! ### Conditions and receives -/

theorem prefix_addFault (c : Condition) (faults : List Condition) : faults <+: addFault c faults := by
  unfold addFault
  split
  · exact List.prefix_refl _
  · exact List.prefix_append _ _

/-- The fatal action, alone or at the end of a step, adds a fault together with `HALTED` (R43, R210). -/
theorem effect_raiseFatal (m : Move) (c : Condition) (s u : State) (h : StepEffect m s u) (hf : u.faults = s.faults)
    (hb : u.buserr = s.buserr) (hr : u.rcount = s.rcount) : StepEffect m s (raiseFatal c u) :=
  { h with
    faults := hf ▸ prefix_addFault c u.faults
    halted := fun _ => rfl
    buserr := .inl hb
    pcount := h.pcount.imp_right (.imp_right fun ⟨hm, ha, hi, hq, _, hp⟩ => ⟨hm, ha, hi, hq, .inr rfl, hp⟩)
    rcount := .inl hr
    trig := fun _ ht => absurd ht.1 Bool.false_ne_true
    rate := fun _ ht => absurd ht.1 Bool.false_ne_true }

/-- The abort action counts one abort, returns and sends nothing (R44, R210, R213). -/
theorem effect_raiseAbort (m : Move) (s : State) : StepEffect m s (raiseAbort s) :=
  { buserr := .inr ⟨rfl, rfl, rfl⟩ }

theorem effect_recvThen (n : Nat) (k : List Byte → State → State) (s : State)
    (hk : ∀ d rest, StepEffect .dispatch s (k d { s with cin := rest })) :
    StepEffect .dispatch s (recvThen n k s) := by
  obtain ⟨-, e⟩ | ⟨d, rest, -, -, e⟩ | ⟨d, rest, -, -, e⟩ := recvThen_cases n k s <;> rw [e]
  · exact {}
  · exact hk _ rest
  · exact effect_raiseFatal _ _ s { s with cin := rest } {} rfl rfl rfl

/-! ### The handlers -/

theorem effect_potRdLine (k : PotRdK) (s : State) : StepEffect .dispatch s (potRdLine k s) := by
  cases k with
  | readGain =>
    obtain ⟨r, l, n, p, e, -⟩ := busRead_shape s.par.gainAddr s
    simp only [potRdLine, e]
    exact {}
  | gotGain g =>
    cases g with
    | none => exact effect_raiseAbort _ s
    | some g =>
      obtain ⟨r, l, n, p, e, -⟩ := busRead_shape s.par.thrAddr s
      simp only [potRdLine, e]
      exact {}
  | gotBoth g t =>
    cases t with
    | none => exact effect_raiseAbort _ s
    | some t => exact { cout := List.prefix_append _ _ }
  | ret => exact {}

theorem effect_busScanLine (k : ScanK) (s : State) : StepEffect .dispatch s (busScanLine k s) := by
  cases k with
  | probe rest found =>
    cases rest with
    | nil => exact { cout := List.prefix_append _ _ }
    | cons a rest =>
      obtain ⟨r, l, n, p, e, -⟩ := busProbe_shape a s
      simp only [busScanLine, e]
      exact {}
  | ret => exact {}

theorem effect_potWrLine (mk : PotWrK → Activity) (addr : BusAddr) (k : PotWrK) (s : State) :
    StepEffect .dispatch s (potWrLine mk addr k s) := by
  cases k with
  | recv =>
    simp only [potWrLine]
    exact effect_recvThen _ _ s fun _ _ => {}
  | write pos =>
    obtain ⟨k', l, n, p, e, -, -⟩ := potWriteIssue_shape addr pos s
    simp only [potWrLine, e]
    exact {}
  | record t old new => exact {}
  | absent => exact effect_raiseAbort _ s
  | settle =>
    simp only [potWrLine]
    split <;> exact {}
  | ret => exact {}

/-- A write of `POL` records the change of `POL_OUT`, where it makes one (R45, R180, R181). -/
theorem outputsRecorded_setPol (b : Bool) (s : State) : OutputsRecorded s (setPol b s) := by
  by_cases hb : s.pol = b
  · exact outputsRecorded_of_eq s _ (if_pos hb) hb.symm rfl
  · refine ⟨[.polOut b], if_neg hb, fun c => ?_, fun l => ?_⟩
    · simp [polOut, Ne.symm hb]
    · simp [tpOut]

/-- `TP_OUT` tells `TPEN` (R185). -/
theorem tpLevel_ne (cfg : Board) (b c : Bool) (h : b ≠ c) : tpLevel cfg b ≠ tpLevel cfg c := by
  cases b <;> cases c <;> simp_all [tpLevel]

/-- A write of `TPEN` records the change of `TP_OUT`, where it makes one (R45, R183, R184). -/
theorem outputsRecorded_setTpen (b : Bool) (s : State) : OutputsRecorded s (setTpen b s) := by
  by_cases hb : s.tpen = b
  · exact outputsRecorded_of_eq s _ (if_pos hb) rfl (congrArg (tpLevel s.cfg) hb.symm)
  · refine ⟨[.tpOut (tpLevel s.cfg b)], if_neg hb, fun c => ?_, fun l => ?_⟩
    · simp [polOut]
    · simp [tpOut, tpLevel_ne s.cfg b s.tpen (Ne.symm hb)]

theorem effect_bitLine_pol (mk : BitK → Activity) (hmk : mk = .polLo ∨ mk = .polHi) (b : Bool) (k : BitK) (s : State)
    (hd : s.dstate = .exec (mk k)) : StepEffect .dispatch s (bitLine mk (setPol b) k s) := by
  cases k with
  | write =>
    exact {
      pol := fun _ => by
        rcases hmk with rfl | rfl
        exacts [.inl hd, .inr hd]
      outputs := outputsRecorded_setPol b s }
  | ret => exact {}

theorem effect_bitLine_tpen (mk : BitK → Activity) (hmk : mk = .tpOff ∨ mk = .tpOn) (b : Bool) (k : BitK) (s : State)
    (hd : s.dstate = .exec (mk k)) : StepEffect .dispatch s (bitLine mk (setTpen b) k s) := by
  cases k with
  | write =>
    exact {
      tpen := fun _ => by
        rcases hmk with rfl | rfl
        exacts [.inl hd, .inr hd]
      outputs := outputsRecorded_setTpen b s }
  | ret => exact {}

theorem effect_lblGetLine (k : LblGetK) (s : State) : StepEffect .dispatch s (lblGetLine k s) := by
  cases k with
  | send => exact { cout := List.prefix_append _ _ }
  | ret => exact {}

theorem effect_lblSetLine (k : LblSetK) (s : State) (hd : s.dstate = .exec (.lblSet k)) :
    StepEffect .dispatch s (lblSetLine k s) := by
  cases k with
  | recv =>
    simp only [lblSetLine]
    exact effect_recvThen _ _ s fun _ _ => {}
  | store j d => exact { label := fun _ => ⟨j, d, hd⟩ }
  | ret => exact {}

theorem effect_streamLine (k : StreamK) (s : State) : StepEffect .dispatch s (streamLine k s) := by
  cases k with
  | recv =>
    simp only [streamLine]
    exact effect_recvThen _ _ s fun _ _ => {}
  | loop =>
    obtain ⟨sec, usec, v, l, d, due, e, -⟩ := streamStart_shape (streamCount s) s
    simp only [streamLine, e]
    split <;> exact {}
  | wait m =>
    simp only [streamLine]
    split <;> exact {}
  | send => exact { sout := List.prefix_append _ _ }
  | _ => exact {}

theorem effect_polledLine (k : PolledK) (s : State) : StepEffect .dispatch s (polledLine k s) := by
  cases k with
  | recv =>
    simp only [polledLine]
    exact effect_recvThen _ _ s fun _ _ => {}
  | loop cnt =>
    cases cnt with
    | zero => exact {}
    | succ cnt =>
      obtain ⟨x, l, d, due, e⟩ := polledStart_shape s
      simp only [polledLine, e]
      exact {}
  | wait cnt =>
    simp only [polledLine]
    split <;> exact {}
  | send cnt => exact { cout := List.prefix_append _ _ }
  | _ => exact {}

theorem effect_burstLine (k : BurstK) (s : State) (hd : s.dstate = .exec (.acqBurst k))
    (hr : dispatchReady s = true) : StepEffect .dispatch s (burstLine k s) := by
  obtain ⟨htrig, -, -⟩ := (dispatchReady_iff s).mp hr
  cases k with
  | recv =>
    simp only [burstLine]
    exact effect_recvThen _ _ s fun _ _ => {}
  | zeroCount => exact { pcount := .inr (.inl ⟨hd, rfl⟩) }
  | arm => exact { trig := fun _ ht => absurd (htrig.symm.trans ht.2) Bool.false_ne_true }
  | waitCount =>
    simp only [burstLine]
    split <;> exact {}
  | disarm => exact { trig := fun _ ht => absurd ht.1 Bool.false_ne_true }
  | waitDefer =>
    simp only [burstLine]
    split <;> exact {}
  | _ => exact {}

theorem effect_rateLine (k : RateK) (s : State) (hd : s.dstate = .exec (.rate k)) (hr : dispatchReady s = true) :
    StepEffect .dispatch s (rateLine k s) := by
  obtain ⟨-, hrate, -⟩ := (dispatchReady_iff s).mp hr
  cases k with
  | zeroCount => exact { rcount := .inr (.inl ⟨hd, rfl⟩) }
  | arm t0 => exact { rate := fun _ ht => absurd (hrate.symm.trans ht.2) Bool.false_ne_true }
  | wait t0 =>
    simp only [rateLine]
    split <;> exact {}
  | disarm => exact { rate := fun _ ht => absurd ht.1 Bool.false_ne_true }
  | send r => exact { cout := List.prefix_append _ _ }
  | _ => exact {}

/-! ### The dispatcher -/

theorem effect_handlerLine (a : Activity) (s : State) (hd : s.dstate = .exec a) (hr : dispatchReady s = true) :
    StepEffect .dispatch s (handlerLine a s) := by
  cases a with
  | potRd k => exact effect_potRdLine k s
  | busScan k => exact effect_busScanLine k s
  | potWrGain k => exact effect_potWrLine _ _ k s
  | potWrThr k => exact effect_potWrLine _ _ k s
  | acqStream k => exact effect_streamLine k s
  | acqBurst k => exact effect_burstLine k s hd hr
  | polLo k => exact effect_bitLine_pol _ (.inl rfl) _ k s hd
  | polHi k => exact effect_bitLine_pol _ (.inr rfl) _ k s hd
  | rate k => exact effect_rateLine k s hd hr
  | tpOff k => exact effect_bitLine_tpen _ (.inl rfl) _ k s hd
  | tpOn k => exact effect_bitLine_tpen _ (.inr rfl) _ k s hd
  | lblGet k => exact effect_lblGetLine k s
  | lblSet k => exact effect_lblSetLine k s hd
  | polled k => exact effect_polledLine k s

theorem effect_fetchNext (s : State) : StepEffect .dispatch s (fetchNext s) := by
  unfold fetchNext
  split
  · exact effect_recvThen _ _ s fun _ _ => {}
  · unfold lookupNext
    split
    · exact {}
    · split
      · exact {}
      · exact effect_raiseFatal _ _ s { s with opv := none } {} rfl rfl rfl

theorem effect_dispatchNext (s : State) : StepEffect .dispatch s (dispatchNext s) := by
  unfold dispatchNext
  split
  · rename_i hr
    split
    · exact effect_fetchNext s
    · rename_i a hd
      exact effect_handlerLine a s hd hr
    · exact {}
  · exact {}

/-! ### The other agents -/

theorem effect_deferStep (s : State) : StepEffect .defer s (deferStep s) := by
  obtain e | ⟨k, -, -, e⟩ | ⟨-, -, -, -, e⟩ := deferStep_cases s <;> rw [e]
  · exact {}
  · cases k with
    | flush p =>
      simp only [deferLine]
      split
      · exact { cout := List.prefix_append _ _ }
      · exact {}
    | _ => exact {}
  · exact {}

theorem effect_trigIsrStep (s : State) : StepEffect .trigIsr s (trigIsrStep s) := by
  obtain e | ⟨-, e⟩ | ⟨hi, hq, ha, e⟩ := trigIsrStep_cases s <;> rw [e]
  · exact {}
  · obtain ⟨q, l, n, e'⟩ := trigServiceExit_shape s
    rw [e']
    exact { trig := fun _ ht => absurd ht.2 Bool.false_ne_true }
  · obtain ⟨a, b, c, d, l, n, e'⟩ := trigEnter_shape s
    rw [e']
    have hbody : StepEffect .trigIsr s { s with
        trigArmed := false, trigInsvc := true, trigReq := s.trigReq - 1, adcIn := l, drawn := n
        sb := [zext16 a, zext16 b, zext16 c, zext16 d], pcount := s.pcount + 1 } :=
      { pcount := .inr (.inr ⟨rfl, ha, hi, hq, .inl rfl, rfl⟩)
        trig := fun _ ht => absurd ht.1 Bool.false_ne_true }
    obtain ⟨-, e''⟩ | ⟨-, e''⟩ := scheduleDefer_cases _ <;> rw [e'']
    · exact { hbody with }
    · exact effect_raiseFatal _ _ s _ hbody rfl rfl rfl

theorem effect_rateIsrStep (s : State) : StepEffect .rateIsr s (rateIsrStep s) := by
  obtain e | ⟨-, e⟩ | ⟨hi, hq, ha, e⟩ := rateIsrStep_cases s <;> rw [e]
  · exact {}
  · obtain ⟨q, l, n, e'⟩ := rateServiceExit_shape s
    rw [e']
    exact { rate := fun _ ht => absurd ht.2 Bool.false_ne_true }
  · exact {
      outputs := outputsRecorded_of_same s _ [.clrPulse s.par.clrPulseUs] rfl rfl rfl (by simp) (by simp)
      rcount := .inr (.inr ⟨rfl, ha, hi, hq, rfl, rfl, rfl⟩)
      rate := fun _ ht => absurd ht.1 Bool.false_ne_true }

theorem effect_tick (s : State) : StepEffect .tick s (tick s) := by
  obtain e | ⟨f, -, -, -, e⟩ := tick_cases s <;> rw [e]
  · exact { now := fun h => absurd rfl h }
  · obtain ⟨l, n, c, p, e'⟩ := capture_shape f.buf f.i (advanceClocks s)
    rw [e']
    exact { now := fun h => absurd rfl h }

theorem effect_trigEdge (e : Edge) (s : State) : StepEffect (.trigEdge e) s (trigEdge e s) := by
  obtain e' | ⟨-, -, c, l, n, e'⟩ | ⟨-, -, e'⟩ := trigEdge_cases e s <;> rw [e']
  · exact {}
  · exact {}
  · obtain ⟨q, l, n, e'', -⟩ := trigEnable_shape s
    rw [e'']
    exact {}

theorem effect_rateEdge (e : Edge) (s : State) : StepEffect (.rateEdge e) s (rateEdge e s) := by
  obtain e' | ⟨-, -, c, l, n, e'⟩ | ⟨-, -, e'⟩ := rateEdge_cases e s <;> rw [e']
  · exact {}
  · exact {}
  · obtain ⟨q, l, n, e'', -⟩ := rateEnable_shape s
    rw [e'']
    exact {}

/-! ### A whole step -/

theorem effect_nextState (m : Move) (s : State) (hm : m ≠ .reset) : StepEffect m s (nextState m s) := by
  cases m with
  | dispatch => exact effect_dispatchNext s
  | defer => exact effect_deferStep s
  | trigIsr => exact effect_trigIsrStep s
  | rateIsr => exact effect_rateIsrStep s
  | tick => exact effect_tick s
  | deliver d => exact {}
  | trigEdge e => exact effect_trigEdge e s
  | rateEdge e => exact effect_rateEdge e s
  | reset => exact absurd rfl hm

/-- What a reset adds to the events are the drops of the outputs that it makes (R45, R240). -/
theorem outputsRecorded_externalReset (s : State) : OutputsRecorded s (externalReset s) := by
  refine ⟨_, (externalReset_events s).trans (List.append_assoc _ _ _), fun b => ?_, fun l => ?_⟩
  · have hs : polOut s = s.pol := rfl
    have ht : polOut (externalReset s) = false := rfl
    rw [hs, ht]
    cases s.pol <;> cases s.tpen <;> simp
  · have hs : tpOut s = if s.tpen then .emitting s.par.tpWaveform else .inactive := rfl
    have ht : tpOut (externalReset s) = .inactive := rfl
    rw [hs, ht]
    cases s.pol <;> cases s.tpen <;> simp

/-- Settles O42: the clauses of the control bits. -/
theorem controlBitWriters : Obligations.ControlBitWriters := by
  intro s t hst hm
  obtain ⟨l, n, rfl⟩ := step_next s t hst
  have e := effect_nextState _ { s with schedule := l, drawn := n } hm
  exact ⟨e.pol, e.tpen, e.label⟩

/-- Settles O56: the clauses of the records, and the record that a reset leaves. -/
theorem recordsOnlyGrow : Obligations.RecordsOnlyGrow := by
  intro s t hst
  obtain ⟨l, n, rfl⟩ := step_next s t hst
  have effect := effect_nextState (takeMove s).1 { s with schedule := l, drawn := n }
  by_cases hm : (takeMove s).1 = .reset
  · rw [hm]
    exact ⟨rfl, outputsRecorded_externalReset { s with schedule := l, drawn := n }, fun h => absurd rfl h⟩
  · have e := effect hm
    exact ⟨e.cfg, e.outputs, fun _ => ⟨e.cout, e.sout, e.faults, e.halted, e.buserr⟩⟩

/-- Settles O58: the clauses of the counters, and the zeroes of a reset. -/
theorem counterWriters : Obligations.CounterWriters := by
  intro s t hst
  obtain ⟨l, n, rfl⟩ := step_next s t hst
  by_cases hm : (takeMove s).1 = .reset
  · rw [hm]
    exact ⟨.inr (.inr (.inr ⟨rfl, rfl⟩)), .inr (.inr (.inr ⟨rfl, rfl⟩))⟩
  · have e := effect_nextState _ { s with schedule := l, drawn := n } hm
    exact ⟨e.pcount.imp_right (.imp_right .inl), e.rcount.imp_right (.imp_right .inl)⟩

/-- Every move but a tick leaves `NOW`, and a tick adds one (R37, R140). -/
theorem nextState_now (m : Move) (s : State) (hm : m ≠ .reset) :
    (nextState m s).now = s.now + BitVec.ofNat 64 ([m].count .tick) := by
  by_cases ht : m = .tick
  · subst ht
    obtain e | ⟨f, -, -, -, e⟩ := tick_cases s
    · exact congrArg State.now e
    · obtain ⟨l, n, c, p, e'⟩ := capture_shape f.buf f.i (advanceClocks s)
      rw [e'] at e
      exact congrArg State.now e
  · rw [(effect_nextState m s hm).now ht, List.count_eq_zero_of_not_mem (by simpa using Ne.symm ht)]
    simp

/-- Settles O59, by induction on the listed moves. -/
theorem nowCountsTicks : Obligations.NowCountsTicks := by
  intro s ms ms' hm hs
  induction ms generalizing s with
  | nil => exact ⟨s, rfl, hs, by simp⟩
  | cons m ms ih =>
    obtain ⟨hne, hms⟩ : m ≠ .reset ∧ .reset ∉ ms := by simpa [eq_comm] using hm
    have hstep : step s = .next (nextState m { s with schedule := ms ++ ms' }) :=
      (step_listed s m _ hs).trans (runMove_eq _ _)
    obtain ⟨t, hrun, hsched, hnow⟩ := ih (nextState m { s with schedule := ms ++ ms' }) hms
      (effect_nextState m _ hne).schedule
    refine ⟨t, (runFor_succ _ _ _ hstep).trans hrun, hsched, ?_⟩
    have hone : (nextState m { s with schedule := ms ++ ms' }).now = s.now + BitVec.ofNat 64 ([m].count .tick) :=
      nextState_now m _ hne
    calc t.now = s.now + BitVec.ofNat 64 ([m].count .tick) + BitVec.ofNat 64 (ms.count .tick) := by rw [hnow, hone]
      _ = s.now + BitVec.ofNat 64 ([m].count .tick + ms.count .tick) := by rw [BitVec.add_assoc, BitVec.ofNat_add]
      _ = s.now + BitVec.ofNat 64 ((m :: ms).count .tick) := by rw [← List.count_append, List.singleton_append]

/-! ### One interrupt source -/

/-- The trigger interrupt's window lies in a burst (R24, R157). -/
theorem mode_of_burstWindow (s : State) (h : s.Inv) (hw : inBurstWindow s = true) : s.mode = .burst := by
  have hm := h.mode
  obtain hd | hd := dstate_of_burstWindow s hw <;> rw [modeOk, hd] at hm <;> exact beq_iff_eq.mp hm

/-- The rate interrupt's window lies in a rate measurement (R24, R190). -/
theorem mode_of_rateWindow (s : State) (h : s.Inv) (hw : inRateWindow s = true) : s.mode = .rate := by
  have hm := h.mode
  obtain ⟨t0, hd⟩ | hd := dstate_of_rateWindow s hw <;> rw [modeOk, hd] at hm <;> exact beq_iff_eq.mp hm

/-- Settles O53: from the windows of the invariant, and the clauses of the arm bits. -/
theorem oneInterruptSource : Obligations.OneInterruptSource := by
  have htrig : ∀ s : State, s.Inv → s.mode ≠ .burst → s.trigArmed = false ∧ s.trigInsvc = false := fun s h hm =>
    trig_off_outside_window s h fun hw => hm (mode_of_burstWindow s h hw)
  have hrate : ∀ s : State, s.Inv → s.mode ≠ .rate → s.rateArmed = false ∧ s.rateInsvc = false := fun s h hm =>
    rate_off_outside_window s h fun hw => hm (mode_of_rateWindow s h hw)
  refine ⟨fun s h => ⟨htrig s h, hrate s h, fun hon => hrate s h ?_⟩, fun s t h ht hr hst => ?_⟩
  · obtain ⟨hw, -⟩ := (interruptsOk_iff s).mp h.interrupts
    rw [mode_of_burstWindow s h (hw (hon.imp_right .inl))]
    decide
  · obtain ⟨l, n, rfl⟩ := step_next s t hst
    by_cases hm : (takeMove s).1 = .reset
    · rw [hm]
      exact ⟨fun hb => absurd hb.1 Bool.false_ne_true, fun hb => absurd hb.1 Bool.false_ne_true⟩
    · have e := effect_nextState _ { s with schedule := l, drawn := n } hm
      exact ⟨e.trig ht, e.rate hr⟩

end Sys2Proof.Machine

/-! SUPPORT. The memory family (20_memory.md): which step may write the streaming channel (R67, R94), when `DISPATCH`
and `DEFER` are held (R36, R73), and what a `Drain` leaves (R65). -/

namespace Sys2Proof.Machine

/-! ### Shared operations keep the streaming channel -/

/-- A receive writes no streaming channel where the line after it writes none (R64). -/
theorem recvThen_sout (n : Nat) (k : List Byte → State → State) (s : State) (hk : ∀ d u, (k d u).sout = u.sout) :
    (recvThen n k s).sout = s.sout := by
  obtain ⟨-, e⟩ | ⟨d, rest, -, -, e⟩ | ⟨d, rest, -, -, e⟩ := recvThen_cases n k s <;> rw [e]
  · exact hk _ _
  · rfl

@[simp] theorem busRead_sout (a : BusAddr) (s : State) : (busRead a s).2.sout = s.sout := by
  obtain ⟨r, l, n, p, e, -⟩ := busRead_shape a s
  rw [e]

@[simp] theorem busProbe_sout (a : BusAddr) (s : State) : (busProbe a s).2.sout = s.sout := by
  obtain ⟨r, l, n, p, e, -⟩ := busProbe_shape a s
  rw [e]

@[simp] theorem potWriteIssue_sout (a : BusAddr) (v : Byte) (s : State) : (potWriteIssue a v s).2.sout = s.sout := by
  obtain ⟨k, l, n, p, e, -⟩ := potWriteIssue_shape a v s
  rw [e]

@[simp] theorem streamStart_sout (m : Nat) (s : State) : (streamStart m s).sout = s.sout := by
  obtain ⟨sec, usec, v, l, d, due, e, -⟩ := streamStart_shape m s
  rw [e]

@[simp] theorem polledStart_sout (s : State) : (polledStart s).sout = s.sout := by
  obtain ⟨x, l, d, due, e⟩ := polledStart_shape s
  rw [e]

@[simp] theorem trigEnable_sout (s : State) : (trigEnable s).sout = s.sout := by
  obtain ⟨q, l, n, e, -⟩ := trigEnable_shape s
  rw [e]

@[simp] theorem rateEnable_sout (s : State) : (rateEnable s).sout = s.sout := by
  obtain ⟨q, l, n, e, -⟩ := rateEnable_shape s
  rw [e]

@[simp] theorem trigEnter_sout (s : State) : (trigEnter s).sout = s.sout := by
  obtain ⟨a, b, c, d, l, n, e⟩ := trigEnter_shape s
  rw [e]
  obtain ⟨-, e'⟩ | ⟨-, e'⟩ := scheduleDefer_cases _ <;> rw [e']
  rfl

/-! ### The handlers -/

theorem potRdLine_sout (k : PotRdK) (s : State) : (potRdLine k s).sout = s.sout := by
  cases k with
  | readGain => exact busRead_sout _ s
  | gotGain g =>
    cases g with
    | none => rfl
    | some g => exact busRead_sout _ s
  | gotBoth g t => cases t <;> rfl
  | ret => rfl

theorem busScanLine_sout (k : ScanK) (s : State) : (busScanLine k s).sout = s.sout := by
  cases k with
  | probe rest found =>
    cases rest with
    | nil => rfl
    | cons a rest => exact busProbe_sout a s
  | ret => rfl

theorem potWrLine_sout (mk : PotWrK → Activity) (addr : BusAddr) (k : PotWrK) (s : State) :
    (potWrLine mk addr k s).sout = s.sout := by
  cases k with
  | recv => exact recvThen_sout _ _ s fun _ _ => rfl
  | write pos => exact potWriteIssue_sout addr pos s
  | settle =>
    simp only [potWrLine]
    split <;> rfl
  | _ => rfl

theorem bitLine_sout (mk : BitK → Activity) (put : State → State) (hput : ∀ u, (put u).sout = u.sout) (k : BitK)
    (s : State) : (bitLine mk put k s).sout = s.sout := by
  cases k with
  | write => exact hput s
  | ret => rfl

theorem lblSetLine_sout (k : LblSetK) (s : State) : (lblSetLine k s).sout = s.sout := by
  cases k with
  | recv => exact recvThen_sout _ _ s fun _ _ => rfl
  | _ => rfl

theorem burstLine_sout (k : BurstK) (s : State) : (burstLine k s).sout = s.sout := by
  cases k with
  | recv => exact recvThen_sout _ _ s fun _ _ => rfl
  | waitCount =>
    simp only [burstLine]
    split <;> rfl
  | waitDefer =>
    simp only [burstLine]
    split <;> rfl
  | _ => rfl

theorem rateLine_sout (k : RateK) (s : State) : (rateLine k s).sout = s.sout := by
  cases k with
  | wait t0 =>
    simp only [rateLine]
    split <;> rfl
  | _ => rfl

theorem polledLine_sout (k : PolledK) (s : State) : (polledLine k s).sout = s.sout := by
  cases k with
  | recv => exact recvThen_sout _ _ s fun _ _ => rfl
  | loop cnt =>
    cases cnt with
    | zero => rfl
    | succ cnt => exact polledStart_sout s
  | wait cnt =>
    simp only [polledLine]
    split <;> rfl
  | _ => rfl

/-- Of the lines of `ACQ.STREAM`, only the send writes the streaming channel (R153). -/
theorem streamLine_sout (k : StreamK) (s : State) (hk : k ≠ .send) : (streamLine k s).sout = s.sout := by
  cases k with
  | recv => exact recvThen_sout _ _ s fun _ _ => rfl
  | loop =>
    simp only [streamLine]
    split
    · exact streamStart_sout (streamCount s) s
    · rfl
  | wait m =>
    simp only [streamLine]
    split <;> rfl
  | send => exact absurd rfl hk
  | _ => rfl

theorem handlerLine_sout (a : Activity) (s : State) (ha : a ≠ .acqStream .send) : (handlerLine a s).sout = s.sout := by
  cases a with
  | potRd k => exact potRdLine_sout k s
  | busScan k => exact busScanLine_sout k s
  | potWrGain k => exact potWrLine_sout _ _ k s
  | potWrThr k => exact potWrLine_sout _ _ k s
  | acqStream k => exact streamLine_sout k s fun hk => ha (congrArg Activity.acqStream hk)
  | acqBurst k => exact burstLine_sout k s
  | polLo k => exact bitLine_sout _ _ (setPol_sout _) k s
  | polHi k => exact bitLine_sout _ _ (setPol_sout _) k s
  | rate k => exact rateLine_sout k s
  | tpOff k => exact bitLine_sout _ _ (setTpen_sout _) k s
  | tpOn k => exact bitLine_sout _ _ (setTpen_sout _) k s
  | lblGet k => cases k <;> rfl
  | lblSet k => exact lblSetLine_sout k s
  | polled k => exact polledLine_sout k s

/-! ### The agents -/

theorem fetchNext_sout (s : State) : (fetchNext s).sout = s.sout := by
  unfold fetchNext
  split
  · exact recvThen_sout _ _ s fun _ _ => rfl
  · unfold lookupNext
    split
    · rfl
    · split <;> rfl

/-- A dispatcher step leaves the streaming channel, or is the send line of `ACQ.STREAM` (R67, R153). -/
theorem dispatchNext_sout (s : State) :
    (dispatchNext s).sout = s.sout ∨
      (s.dstate = .exec (.acqStream .send) ∧ (dispatchNext s).sout = s.sout ++ [chunkBytes s.chunk]) := by
  unfold dispatchNext
  split
  · split
    · exact .inl (fetchNext_sout s)
    · rename_i a hd
      by_cases ha : a = .acqStream .send
      · subst ha
        exact .inr ⟨hd, rfl⟩
      · exact .inl (handlerLine_sout a s ha)
    · exact .inl rfl
  · exact .inl rfl

theorem deferStep_sout (s : State) : (deferStep s).sout = s.sout := by
  obtain e | ⟨k, -, -, e⟩ | ⟨-, -, -, -, e⟩ := deferStep_cases s <;> rw [e]
  cases k with
  | flush p =>
    simp only [deferLine]
    split <;> rfl
  | _ => rfl

theorem trigIsrStep_sout (s : State) : (trigIsrStep s).sout = s.sout := by
  obtain e | ⟨-, e⟩ | ⟨-, -, -, e⟩ := trigIsrStep_cases s <;> rw [e]
  · obtain ⟨q, l, n, e'⟩ := trigServiceExit_shape s
    rw [e']
  · exact trigEnter_sout s

theorem rateIsrStep_sout (s : State) : (rateIsrStep s).sout = s.sout := by
  obtain e | ⟨-, e⟩ | ⟨-, -, -, e⟩ := rateIsrStep_cases s <;> rw [e]
  · obtain ⟨q, l, n, e'⟩ := rateServiceExit_shape s
    rw [e']
  · rfl

theorem tick_sout (s : State) : (tick s).sout = s.sout := by
  obtain e | ⟨f, -, -, -, e⟩ := tick_cases s <;> rw [e]
  · rfl
  · obtain ⟨l, n, c, p, e'⟩ := capture_shape f.buf f.i (advanceClocks s)
    rw [e']
    rfl

theorem trigEdge_sout (e : Edge) (s : State) : (trigEdge e s).sout = s.sout := by
  obtain e' | ⟨-, -, c, l, n, e'⟩ | ⟨-, -, e'⟩ := trigEdge_cases e s <;> rw [e']
  exact trigEnable_sout s

theorem rateEdge_sout (e : Edge) (s : State) : (rateEdge e s).sout = s.sout := by
  obtain e' | ⟨-, -, c, l, n, e'⟩ | ⟨-, -, e'⟩ := rateEdge_cases e s <;> rw [e']
  exact rateEnable_sout s

/-! ### A whole step -/

/-- A move that is no reset leaves the streaming channel, or appends the bytes of the chunk at the send line of
`ACQ.STREAM` (R67, R94, R153). -/
theorem nextState_sout (m : Move) (s : State) (hm : m ≠ .reset) :
    (nextState m s).sout = s.sout ∨
      (s.dstate = .exec (.acqStream .send) ∧ (nextState m s).sout = s.sout ++ [chunkBytes s.chunk]) := by
  cases m with
  | dispatch => exact dispatchNext_sout s
  | defer => exact .inl (deferStep_sout s)
  | trigIsr => exact .inl (trigIsrStep_sout s)
  | rateIsr => exact .inl (rateIsrStep_sout s)
  | tick => exact .inl (tick_sout s)
  | deliver d => exact .inl rfl
  | trigEdge e => exact .inl (trigEdge_sout e s)
  | rateEdge e => exact .inl (rateEdge_sout e s)
  | reset => exact absurd rfl hm

/-- A pair takes 8 bytes on the channel (R11, R67). -/
theorem chunkBytes_length (ps : List Pair) : (chunkBytes ps).length = 8 * ps.length := by
  induction ps with
  | nil => rfl
  | cons p ps ih =>
    calc (chunkBytes (p :: ps)).length = (pairBytes p).length + (chunkBytes ps).length := by
          simp only [chunkBytes, List.flatMap_cons, List.length_append]
      _ = 8 + 8 * ps.length := by rw [ih, pairBytes, List.length_append, leBytes_length, leBytes_length]
      _ = 8 * (p :: ps).length := by rw [List.length_cons]; omega

/-- Settles O31: the writers of the channel, and the size of the chunk by the invariant. -/
theorem streamChannelWriters : Obligations.StreamChannelWriters := by
  intro s t h hst hm
  obtain ⟨-, -, hchunk, -, -⟩ := (buffersSized_iff s).mp h.sizes
  obtain ⟨l, n, rfl⟩ := step_next s t hst
  refine (nextState_sout _ { s with schedule := l, drawn := n } hm).imp_right fun ⟨hd, e⟩ => ⟨hd, _, e, ?_⟩
  rw [chunkBytes_length, hchunk]

/-! ### The move taken, and what holds the processor -/

/-- Settles O7: the two ways a move is taken. -/
theorem stepTakesMove : Obligations.StepTakesMove := by
  refine fun s => ⟨fun m ms h => step_listed s m ms h, fun h => ?_⟩
  rw [step, takeMove, h]

/-- With an interrupt in service or a callback running, `DISPATCH` stands still (R36, R73). -/
theorem dispatchNext_of_held (s : State) (h : s.trigInsvc = true ∨ s.rateInsvc = true ∨ s.dcont ≠ none) :
    dispatchNext s = s := by
  refine if_neg fun hr => ?_
  obtain ⟨htrig, hrate, hdcont⟩ := (dispatchReady_iff s).mp hr
  obtain h | h | h := h
  · exact Bool.false_ne_true (htrig.symm.trans h)
  · exact Bool.false_ne_true (hrate.symm.trans h)
  · exact h hdcont

/-- With an interrupt in service, `DEFER` stands still (R73). -/
theorem deferStep_of_inService (s : State) (h : s.trigInsvc = true ∨ s.rateInsvc = true) : deferStep s = s :=
  if_pos (Bool.or_eq_true_iff.mpr h)

/-- Settles O8: the held agents stand still, so the step takes the move off the schedule and no more. -/
theorem interruptHoldsProcessor : Obligations.InterruptHoldsProcessor := by
  refine fun s ms => ⟨fun hs h => ?_, fun hs h => ?_⟩ <;> rw [step_listed s _ ms hs, runMove_eq, nextState]
  · rw [dispatchNext_of_held { s with schedule := ms } h]
  · rw [deferStep_of_inService { s with schedule := ms } h]

/-! ### A drain -/

/-- A listed step of a `DISPATCH` that is not held runs the line that `DSTATE` names (R36, R105). -/
theorem step_dispatch_running (s : State) (a : Activity) (ms : List Move) (hs : s.schedule = .dispatch :: ms)
    (hr : dispatchReady s = true) (hd : s.dstate = .exec a) :
    step s = .next (handlerLine a { s with schedule := ms }) := by
  have hnext : dispatchNext { s with schedule := ms } = handlerLine a { s with schedule := ms } := by
    rw [dispatchNext, hd]
    exact if_pos hr
  rw [step_listed s _ ms hs, runMove_eq, nextState, hnext]

/-- Each of the four drain lines empties `CIN` and goes to its next line (R65, R153, R157, R169). -/
theorem handlerLine_drain (a b : Activity) (s : State)
    (hab : (a = .acqStream .drain ∧ b = .acqStream .setMode) ∨ (a = .acqBurst .drain ∧ b = .acqBurst .zeroCount) ∨
      (a = .acqBurst .drainLast ∧ b = .acqBurst .ret) ∨ (∃ c, a = .polled (.drain c) ∧ b = .polled (.setMode c))) :
    handlerLine a s = goto b (drain s) := by
  obtain ⟨rfl, rfl⟩ | ⟨rfl, rfl⟩ | ⟨rfl, rfl⟩ | ⟨c, rfl, rfl⟩ := hab <;> rfl

/-- Settles O57: the drain line, then the delivery to the empty queue. -/
theorem drainEmptiesQueue : Obligations.DrainEmptiesQueue := by
  intro s ms a b d hr hab hd hs
  have hdrain := step_dispatch_running s a (.deliver d :: ms) hs hr hd
  rw [handlerLine_drain a b _ hab] at hdrain
  rw [runFor_succ 1 s _ hdrain, runFor_succ 0 _ _ (step_listed _ (.deliver d) ms rfl)]
  rfl

end Sys2Proof.Machine

/-! SUPPORT. The encoding family (30_encoding.md): the opcode value and its table (R86, R88, R91), the operands (R90), and
the reading of a written command's datagrams (R87, R96). -/

namespace Sys2Proof.Machine

/-! ### The opcode value -/

/-- Bytes that fit a width are read without loss (R90). -/
theorem toNat_ofNat_leNat (w : Nat) (d : List Byte) (h : 256 ^ d.length ≤ 2 ^ w) :
    (BitVec.ofNat w (leNat d)).toNat = leNat d := by
  rw [BitVec.toNat_ofNat, Nat.mod_eq_of_lt (Nat.lt_of_lt_of_le (leNat_lt d) h)]

/-- `OPV` in numbers (R86). -/
theorem opvOf_toNat (category subcode : Byte) :
    (opvOf category subcode).toNat = category.toNat + 256 * subcode.toNat := by
  rw [opvOf, toNat_ofNat_leNat 16 _ (by simp)]
  simp [leNat]

/-- The low byte of `OPV` is the category (R86). -/
@[simp] theorem opvCategory_opvOf (category subcode : Byte) : opvCategory (opvOf category subcode) = category := by
  apply BitVec.eq_of_toNat_eq
  have hlt := category.isLt
  simp only [opvCategory, BitVec.extractLsb'_toNat, opvOf_toNat, Nat.shiftRight_zero]
  omega

/-- The high byte of `OPV` is the subcode (R86). -/
@[simp] theorem opvSubcode_opvOf (category subcode : Byte) : opvSubcode (opvOf category subcode) = subcode := by
  apply BitVec.eq_of_toNat_eq
  have hcat := category.isLt
  have hsub := subcode.isLt
  simp only [opvSubcode, BitVec.extractLsb'_toNat, opvOf_toNat, Nat.shiftRight_eq_div_pow]
  omega

/-- An opcode value determines its two bytes. -/
theorem opvOf_inj {c u c' u' : Byte} (h : opvOf c u = opvOf c' u') : c = c' ∧ u = u' :=
  ⟨by simpa using congrArg opvCategory h, by simpa using congrArg opvSubcode h⟩

/-! ### The opcode table -/

/-- The laws of the thirteen opcodes as one. -/
theorem decodeEncode_statement : (i : Instr) → Laws.DecodeEncode.Statement i
  | .potRd => Laws.DecodeEncode.potRd
  | .busScan => Laws.DecodeEncode.busScan
  | .potWrGain => Laws.DecodeEncode.potWrGain
  | .potWrThr => Laws.DecodeEncode.potWrThr
  | .acqStream => Laws.DecodeEncode.acqStream
  | .acqBurst => Laws.DecodeEncode.acqBurst
  | .polLo => Laws.DecodeEncode.polLo
  | .polHi => Laws.DecodeEncode.polHi
  | .rate => Laws.DecodeEncode.rate
  | .tpOff => Laws.DecodeEncode.tpOff
  | .tpOn => Laws.DecodeEncode.tpOn
  | .lblGet => Laws.DecodeEncode.lblGet
  | .lblSet => Laws.DecodeEncode.lblSet

@[simp] theorem decodeOpcode_encode (i : Instr) : decodeOpcode (encode i) = .ok i := (decodeEncode_statement i).1

/-- Every row holds the two bytes of its opcode's datagram (R88). -/
theorem encode_of_mem_opcodeTable : ∀ r ∈ opcodeTable, encode r.instr = [r.category, r.subcode] := by decide

/-- A datagram of two bytes or more decodes to what its opcode value stands for (R85, R106). -/
theorem decodeOpcode_eq_ok_iff (category subcode : Byte) (more : List Byte) (i : Instr) :
    decodeOpcode (category :: subcode :: more) = .ok i ↔ instrOfOpv (opvOf category subcode) = some i := by
  cases h : instrOfOpv (opvOf category subcode) <;> simp [decodeOpcode, h]

/-- A datagram whose opcode value is illegal is refused with that value (R91). -/
theorem decodeOpcode_of_instrOfOpv_none (category subcode : Byte) (more : List Byte)
    (h : instrOfOpv (opvOf category subcode) = none) :
    decodeOpcode (category :: subcode :: more) = .error (.unknownOpcode (opvOf category subcode)) := by
  simp [decodeOpcode, h]

/-- The lookup answers an opcode exactly on the two bytes of its row (R88). -/
theorem instrOfOpv_eq_some_iff (category subcode : Byte) (i : Instr) :
    instrOfOpv (opvOf category subcode) = some i ↔ encode i = [category, subcode] := by
  constructor
  · intro h
    obtain ⟨r, hrow, rfl⟩ := Option.map_eq_some_iff.mp h
    have hopv : opvOf r.category r.subcode = opvOf category subcode := by simpa using List.find?_some hrow
    obtain ⟨rfl, rfl⟩ := opvOf_inj hopv
    exact encode_of_mem_opcodeTable r (List.mem_of_find?_eq_some hrow)
  · intro h
    rw [← decodeOpcode_eq_ok_iff category subcode [], ← h, decodeOpcode_encode]

/-- Settles O2: the fields of the opcode value, and the lookup by its rows. -/
theorem opcodeTableTotal : Obligations.OpcodeTableTotal := by
  refine fun category subcode more => ⟨opvOf_toNat _ _, opvCategory_opvOf _ _, opvSubcode_opvOf _ _, fun i => ?_,
    fun hno => decodeOpcode_of_instrOfOpv_none _ _ _ ?_⟩
  · rw [decodeOpcode_eq_ok_iff, instrOfOpv_eq_some_iff]
  · exact Option.eq_none_iff_forall_ne_some.mpr fun i hi => hno i ((instrOfOpv_eq_some_iff _ _ i).mp hi)

/-- Settles O3: the decoder evaluated on the sixteen words. -/
theorem opcodeWordsDecode : Obligations.OpcodeWordsDecode := by
  unfold Obligations.OpcodeWordsDecode
  decide

/-! ### Operands -/

/-- The bytes of a value that fits them are read back to it (R11). -/
theorem ofNat_leNat_leBytes {w : Nat} (k : Nat) (v : BitVec w) (h : 2 ^ w ≤ 256 ^ k) :
    BitVec.ofNat w (leNat (leBytes k v.toNat)) = v := by
  rw [leNat_leBytes, Nat.mod_eq_of_lt (Nat.lt_of_lt_of_le v.isLt h), BitVec.ofNat_toNat, BitVec.setWidth_eq]

theorem operandN32_leBytes (n : BitVec 32) : operandN32 (leBytes 4 n.toNat) = n :=
  ofNat_leNat_leBytes 4 n (by decide)

theorem operandN64_leBytes (n : BitVec 64) : operandN64 (leBytes 8 n.toNat) = n :=
  ofNat_leNat_leBytes 8 n (by decide)

/-- Settles O4: Q4 and Q8 read their bytes without loss, and read the bytes of every value back. -/
theorem operandAssembly : Obligations.OperandAssembly := by
  refine ⟨fun _ => rfl, fun b0 b1 b2 b3 => ?_, fun b0 b1 b2 b3 b4 b5 b6 b7 => ?_, fun _ => rfl,
    fun n => ⟨_, leBytes_length 4 _, operandN32_leBytes n⟩, fun n => ⟨_, leBytes_length 8 _, operandN64_leBytes n⟩⟩
  · rw [operandN32, toNat_ofNat_leNat 32 _ (by simp)]
    simp only [leNat]
    omega
  · rw [operandN64, toNat_ofNat_leNat 64 _ (by simp)]
    simp only [leNat]
    omega

/-! ### Requests -/

/-- A request without a payload is its opcode datagram alone (R87). -/
theorem decodeRequest_encode_of_noPayload (labelLen : Nat) (i : Instr) (rest : List Datagram)
    (h : i.payloadLen labelLen = none) : decodeRequest labelLen (encode i :: rest) = .ok (commandOf i [], rest) := by
  simp [decodeRequest, h]

/-- A payload datagram of the format's length is read whole (R87, R93). -/
theorem decodeRequest_encode_of_payload (labelLen : Nat) (i : Instr) (d : Datagram) (rest : List Datagram)
    (h : i.payloadLen labelLen = some d.length) :
    decodeRequest labelLen (encode i :: d :: rest) = .ok (commandOf i d, rest) := by
  simp [decodeRequest, h]

/-- A well-formed command has a payload exactly if its opcode's format has one, and of that length (R93, R95). -/
theorem payloadLen_instr (labelLen : Nat) (c : Command) (h : c.wellFormed labelLen = true) :
    c.instr.payloadLen labelLen = c.payload.map List.length := by
  cases c with
  | lblSet text =>
    have hlen : text.length = labelLen := by simpa [Command.wellFormed, Command.check] using h
    exact congrArg some hlen.symm
  | _ => rfl

/-- The opcode and the payload of a command make the command (R90, R96). -/
theorem commandOf_payload (c : Command) : commandOf c.instr (c.payload.getD []) = c := by
  cases c with
  | acqStream n => exact congrArg Command.acqStream (operandN32_leBytes n)
  | acqBurst n => exact congrArg Command.acqBurst (operandN64_leBytes n)
  | _ => rfl

/-- Settles O1, by whether the command has a payload. -/
theorem requestRoundTrip : Obligations.RequestRoundTrip := by
  intro labelLen c rest hwf
  have hlen := payloadLen_instr labelLen c hwf
  have hcmd : (Except.ok (commandOf c.instr (c.payload.getD []), rest) : Except RequestError _) = .ok (c, rest) := by
    rw [commandOf_payload]
  rw [encodeCommand]
  cases hp : c.payload with
  | none =>
    rw [hp] at hlen hcmd
    exact (decodeRequest_encode_of_noPayload labelLen c.instr rest hlen).trans hcmd
  | some d =>
    rw [hp] at hlen hcmd
    exact (decodeRequest_encode_of_payload labelLen c.instr d rest hlen).trans hcmd

end Sys2Proof.Machine

/-! SUPPORT. The polled handler, line by line (R92, R112, R169, R170). -/

namespace Sys2Proof.Machine

/-- A configured `OPCODE_POLLED` is no opcode of the table (R6). -/
theorem instrOfOpv_opcodePolled (b : Board) (v : BitVec 16) (h : b.params.opcodePolled = some v) :
    instrOfOpv v = none := by
  simpa [Params.meets, h] using b.meets .polledOpcodeFree

/-- The lookup of `OPCODE_POLLED` enters the polled handler (R92). -/
theorem lookupNext_opcodePolled (v : BitVec 16) (s : State) (h : s.par.opcodePolled = some v) :
    lookupNext v s = goto (.polled .recv) s := by
  rw [lookupNext, instrOfOpv_opcodePolled s.cfg v h]
  exact if_pos h

/-- A listed step of a `DISPATCH` that is not held, in `IDLE`, looks up the opcode value it holds (R106). -/
theorem step_dispatch_lookup (s : State) (v : BitVec 16) (ms : List Move) (hs : s.schedule = .dispatch :: ms)
    (hr : dispatchReady s = true) (hd : s.dstate = .idle) (hv : s.opv = some v) :
    step s = .next (lookupNext v { s with schedule := ms, opv := none }) := by
  have hnext : dispatchNext { s with schedule := ms } = lookupNext v { s with schedule := ms, opv := none } := by
    rw [dispatchNext, hd]
    refine (if_pos hr).trans ?_
    simp only [fetchNext, hv]
  rw [step_listed s _ ms hs, runMove_eq, nextState, hnext]

/-- A receive with a datagram long enough at the head of `CIN` takes it (R64). -/
theorem recvThen_of_long (n : Nat) (k : List Byte → State → State) (s : State) (d : Datagram) (rest : List Datagram)
    (hc : s.cin = d :: rest) (hn : n ≤ d.length) : recvThen n k s = k (d.take n) { s with cin := rest } := by
  rw [recvThen, hc]
  exact if_pos hn

/-- A conversion changes the environment's fields alone, and a listed one is the head of the list (R143). -/
theorem adcSample_spec (s : State) : ∃ x l n, adcSample s = (x, { s with adcIn := l, drawn := n }) ∧
    ∀ y ys, s.adcIn = y :: ys → x = y ∧ l = ys ∧ n = s.drawn := by
  cases h : s.adcIn with
  | nil =>
    obtain ⟨x, l, n, e⟩ := adcSample_shape s
    exact ⟨x, l, n, e, fun _ _ hc => nomatch hc⟩
  | cons y ys =>
    refine ⟨y, ys, s.drawn, adcSample_listed s y ys h, fun _ _ hc => ?_⟩
    cases hc
    exact ⟨rfl, rfl, rfl⟩

/-- The start of an iteration clears the buffer, puts one conversion at its head and starts the timed read (R144,
R169). -/
theorem polledStart_spec (s : State) : ∃ x l n,
    (∀ y ys, s.adcIn = y :: ys → x = y ∧ l = ys ∧ n = s.drawn) ∧
    polledStart s = { s with
      adcIn := l, drawn := n
      pbuf := (List.replicate s.par.polledBuf 0).set 0 (x.setWidth 16)
      fill := some { buf := .pbuf, n := s.par.polledBuf, i := 1,
                     due := s.now + BitVec.ofNat 64 s.par.polledPeriodUs, period := s.par.polledPeriodUs } } := by
  obtain ⟨x, l, n, e, hlisted⟩ := adcSample_spec { s with pbuf := List.replicate s.par.polledBuf 0 }
  refine ⟨x, l, n, hlisted, ?_⟩
  simp only [polledStart, startFill, capture, e]
  rfl

/-- Settles O37: the lookup, then the line that `DSTATE` names. -/
theorem polledLines : Obligations.PolledLines := by
  intro s ms hs hr
  have hline (k : PolledK) (hd : s.dstate = .exec (.polled k)) :
      step s = .next (polledLine k { s with schedule := ms }) := step_dispatch_running s _ ms hs hr hd
  refine ⟨fun category subcode hd hv hp => ?_, fun d rest hd hc hn => ?_, fun c => hline (.drain c),
    fun c => hline (.setMode c), hline (.loop 0), fun c hd => ?_, fun c => hline (.wait c),
    fun c => hline (.fillOff c), fun c => hline (.send c)⟩
  · exact (step_dispatch_lookup s _ ms hs hr hd hv).trans (congrArg _ (lookupNext_opcodePolled _ _ hp))
  · rw [hline .recv hd, polledLine, recvThen_of_long _ _ { s with schedule := ms } d rest hc hn]
    rfl
  · obtain ⟨x, l, n, hlisted, e⟩ := polledStart_spec { s with schedule := ms }
    refine ⟨x, l, n, hlisted, ?_⟩
    rw [hline (.loop (c + 1)) hd, polledLine, e]
    rfl

end Sys2Proof.Machine

/-! SUPPORT. The dispatcher family (40_dispatcher.md): the fetch and the running handler (R105, R106), where `exec` has
no step (log entry 16), an opcode outside the table (R212), and `HALTED` (R113). -/

namespace Sys2Proof.Machine

/-! ### Where `exec` answers -/

/-- While halted no opcode has a step (R113, log entry 16). -/
theorem exec_of_halted (i : Instr) (s : State) (hd : s.dstate = .halted) : exec i s = .fault .halted := by
  cases i <;>
    simp [exec, hd, execPotRd, execBusScan, execPotWrGain, execPotWrThr, execAcqStream, execAcqBurst,
      execPolLo, execPolHi, execRate, execTpOff, execTpOn, execLblGet, execLblSet]

/-- While another handler runs an opcode has no step (R108, log entry 16). -/
theorem exec_of_otherHandler (a : Activity) (i : Instr) (s : State) (hd : s.dstate = .exec a) (ha : a.instr ≠ some i) :
    exec i s = .fault .otherHandler := by
  cases i <;>
    simp only [exec, hd, execPotRd, execBusScan, execPotWrGain, execPotWrThr, execAcqStream, execAcqBurst,
      execPolLo, execPolHi, execRate, execTpOff, execTpOn, execLblGet, execLblSet] <;>
    split <;> simp_all [Activity.instr]

/-- Settles O6: `exec` by where the dispatcher is, and the totality of `step`. -/
theorem execCompletes : Obligations.ExecCompletes := by
  refine ⟨fun i s => ⟨fun h => ?_, exec_of_halted i s, fun a => exec_of_otherHandler a i s⟩,
    fun s => ⟨_, step_eq s⟩⟩
  obtain hd | ⟨a, hd, ha⟩ := h
  · exact ⟨_, exec_of_idle i s hd⟩
  · exact ⟨_, exec_of_running a i s hd ha⟩

/-! ### The fetch -/

/-- What `awaitsRequest` says: `IDLE` with no opcode received, and nothing holds the dispatcher (R105, R36, R73). -/
theorem awaitsRequest_iff (s : State) :
    awaitsRequest s = true ↔ s.dstate = .idle ∧ s.opv = none ∧ dispatchReady s = true := by
  simp [awaitsRequest, and_assoc]

/-- In `IDLE` with no opcode received, a listed step of `DISPATCH` takes the opcode datagram and holds its value
(R106, R64). -/
theorem step_dispatch_receive (s : State) (category subcode : Byte) (more : List Byte) (rest : List Datagram)
    (ms : List Move) (hs : s.schedule = .dispatch :: ms) (hw : awaitsRequest s = true)
    (hc : s.cin = (category :: subcode :: more) :: rest) :
    step s = .next { s with schedule := ms, cin := rest, opv := some (opvOf category subcode) } := by
  obtain ⟨hd, ho, hr⟩ := (awaitsRequest_iff s).mp hw
  have hnext : dispatchNext { s with schedule := ms } = receiveOpcode { s with schedule := ms } := by
    rw [dispatchNext, hd]
    refine (if_pos hr).trans ?_
    simp only [fetchNext, ho]
  rw [step_listed s _ ms hs, runMove_eq, nextState, hnext, receiveOpcode,
    recvThen_of_long _ _ { s with schedule := ms } _ rest hc (Nat.le_add_left 2 more.length)]
  rfl

/-- The lookup of an opcode of the table is `exec` of that opcode (R106). -/
theorem step_dispatch_exec (s : State) (v : BitVec 16) (i : Instr) (ms : List Move) (hs : s.schedule = .dispatch :: ms)
    (hr : dispatchReady s = true) (hd : s.dstate = .idle) (hv : s.opv = some v) (hi : instrOfOpv v = some i) :
    step s = exec i { s with schedule := ms, opv := none } := by
  rw [step_dispatch_lookup s v ms hs hr hd hv, lookupNext, hi, exec_of_idle i { s with schedule := ms, opv := none } hd]

/-- A datagram that decodes to an opcode has at least the two bytes of it (R85). -/
theorem exists_bytes_of_decodeOpcode_eq_ok (d : Datagram) (i : Instr) (h : decodeOpcode d = .ok i) :
    ∃ category subcode more, d = category :: subcode :: more := by
  match d, h with
  | category :: subcode :: more, _ => exact ⟨category, subcode, more, rfl⟩

/-- Settles O5: the receive, the lookup, and the line of the running handler. -/
theorem stepRunsOpcode : Obligations.StepRunsOpcode := by
  refine ⟨fun s ms d rest i hs hw hc hi => ?_,
    fun s ms c u more rest hs hw hc => step_dispatch_receive s c u more rest ms hs hw hc,
    fun s ms c u i hs hr hd hv hi => step_dispatch_exec s _ i ms hs hr hd hv ((instrOfOpv_eq_some_iff c u i).mpr hi),
    fun s ms a i hs hr hd hi => ?_⟩
  · obtain ⟨hd, ho, hr⟩ := (awaitsRequest_iff s).mp hw
    obtain ⟨c, u, more, rfl⟩ := exists_bytes_of_decodeOpcode_eq_ok d i hi
    have hexec := step_dispatch_exec { s with schedule := .dispatch :: ms, cin := rest, opv := some (opvOf c u) } _ i ms
      rfl hr hd rfl ((decodeOpcode_eq_ok_iff c u more i).mp hi)
    exact ⟨_, step_dispatch_receive s c u more rest _ hs hw hc, by rw [hexec, ho]⟩
  · rw [step_dispatch_running s a ms hs hr hd, exec_of_running a i { s with schedule := ms } hd hi]

/-- Settles O10: the lookup of a value that is no row's and not the polled opcode. -/
theorem unknownOpcodeHalts : Obligations.UnknownOpcodeHalts := by
  intro s ms c u hs hr hd hv hno hp
  have hnone : instrOfOpv (opvOf c u) = none :=
    Option.eq_none_iff_forall_ne_some.mpr fun i hi => hno i ((instrOfOpv_eq_some_iff c u i).mp hi)
  rw [step_dispatch_lookup s _ ms hs hr hd hv, lookupNext, hnone]
  exact congrArg _ (if_neg hp)

/-! ### `HALTED` -/

/-- While halted, no timed read is in progress, no callback runs and no interrupt is armed or in service (R113,
R210). -/
theorem halted_quiet (s : State) (h : s.Inv) (hd : s.dstate = .halted) :
    s.fill = none ∧ s.dcont = none ∧ (s.trigArmed = false ∧ s.trigInsvc = false) ∧
      s.rateArmed = false ∧ s.rateInsvc = false := by
  obtain ⟨-, -, hc⟩ := (deferOk_iff s).mp h.defer
  refine ⟨by simpa [fillOk, hd] using h.fill, Option.eq_none_iff_forall_ne_some.mpr fun k hk => ?_,
    trig_off_outside_window s h (by simp [inBurstWindow, hd]),
    rate_off_outside_window s h (by simp [inRateWindow, hd])⟩
  simpa [atDeferPoint, hd] using (hc k hk).1

/-- What a move other than a reset leaves of a halted block: a tick advances the clocks, a delivery adds its datagram,
every other move changes nothing (R113). -/
theorem nextState_of_halted (m : Move) (s : State) (h : s.Inv) (hd : s.dstate = .halted) (hm : m ≠ .reset) :
    (m = .tick ∧ nextState m s = advanceClocks s) ∨ (∃ d, m = .deliver d ∧ nextState m s = deliver d s) ∨
      (m ≠ .tick ∧ (∀ d, m ≠ .deliver d) ∧ nextState m s = s) := by
  obtain ⟨hfill, hdcont, ⟨hta, hti⟩, hra, hri⟩ := halted_quiet s h hd
  cases m with
  | tick =>
    refine .inl ⟨rfl, ?_⟩
    obtain e | ⟨f, hf, -⟩ := tick_cases s
    · exact e
    · rw [hfill] at hf
      cases hf
  | deliver d => exact .inr (.inl ⟨d, rfl, rfl⟩)
  | reset => exact absurd rfl hm
  | dispatch => exact .inr (.inr ⟨nofun, nofun, by simp [nextState, dispatchNext, hd]⟩)
  | defer => exact .inr (.inr ⟨nofun, nofun, deferStep_outside_burst s (by simp [hdcont]) (by simp [hd])⟩)
  | trigIsr => exact .inr (.inr ⟨nofun, nofun, by simp [nextState, trigIsrStep, hta, hti]⟩)
  | rateIsr => exact .inr (.inr ⟨nofun, nofun, by simp [nextState, rateIsrStep, hra, hri]⟩)
  | trigEdge e => exact .inr (.inr ⟨nofun, nofun, by simp [nextState, trigEdge, hta, hti]⟩)
  | rateEdge e => exact .inr (.inr ⟨nofun, nofun, by simp [nextState, rateEdge, hra, hri]⟩)

/-- Settles O12: the three kinds of moves of a halted block. -/
theorem haltedIsAbsorbing : Obligations.HaltedIsAbsorbing := by
  intro s t h hd hm hst
  obtain ⟨l, n, rfl⟩ := step_next s t hst
  obtain ⟨-, hdcont, ⟨hta, hti⟩, hra, hri⟩ := halted_quiet s h hd
  obtain ⟨hmove, e⟩ | ⟨d, hmove, e⟩ | ⟨ht, hdel, e⟩ :=
    nextState_of_halted _ { s with schedule := l, drawn := n } { h with } hd hm <;> rw [e]
  · rw [hmove]
    exact ⟨hd, rfl, rfl, rfl, rfl, rfl, rfl, rfl, rfl, rfl, hdcont, hta, hra, hti, hri, rfl, rfl⟩
  · rw [hmove]
    exact ⟨hd, rfl, rfl, rfl, rfl, rfl, rfl, rfl, rfl, rfl, hdcont, hta, hra, hti, hri, rfl, rfl⟩
  · refine ⟨hd, rfl, rfl, rfl, rfl, rfl, rfl, rfl, rfl, rfl, hdcont, hta, hra, hti, hri, (if_neg ht).symm, ?_⟩
    split
    · rename_i d hmove
      exact absurd hmove (hdel d)
    · rfl

end Sys2Proof.Machine

/-! SUPPORT. Requests issued serially (R108, R114, R115): listed moves that take one state to another whatever comes
after them, the host's sending, waiting and ticking in these terms, then one lemma per handler's way from its first line
to its return or its wait. -/

namespace Sys2Proof.Machine

/-! ### Listed moves that take one state to another -/

/-- The listed moves take `s` to `t`, whatever moves are listed after them (R77). -/
def Drives (moves : List Move) (s t : State) : Prop :=
  ∀ ms, runFor moves.length { s with schedule := moves ++ ms } = .next { t with schedule := ms }

theorem Drives.refl (s : State) : Drives [] s s := fun _ => rfl

theorem Drives.append {l l' : List Move} {s t u : State} (h : Drives l s t) (h' : Drives l' t u) :
    Drives (l ++ l') s u := by
  intro ms
  rw [List.length_append, List.append_assoc, runFor_add _ _ _ _ (h (l' ++ ms))]
  exact h' ms

/-- One move, whose step does not depend on what is listed after it. -/
theorem Drives.one {m : Move} {s t : State}
    (h : ∀ ms, nextState m { s with schedule := ms } = { t with schedule := ms }) : Drives [m] s t := by
  intro ms
  have hstep : step { s with schedule := m :: ms } = .next { t with schedule := ms } :=
    (step_listed _ m ms rfl).trans ((runMove_eq _ _).trans (congrArg _ (h ms)))
  exact runFor_succ 0 _ _ hstep

/-- `k` moves of `DISPATCH` take `s` to `t`. -/
abbrev Dispatches (k : Nat) (s t : State) : Prop := Drives (List.replicate k .dispatch) s t

theorem Dispatches.trans {j k : Nat} {s t u : State} (h : Dispatches j s t) (h' : Dispatches k t u) :
    Dispatches (j + k) s u := by
  rw [Dispatches, List.replicate_add]
  exact h.append h'

/-- The line of the running handler, then the rest of the way. -/
theorem Dispatches.line {a : Activity} {k : Nat} {s t u : State} (hr : dispatchReady s = true)
    (hline : ∀ ms, handlerLine a { goto a s with schedule := ms } = { t with schedule := ms }) (h : Dispatches k t u) :
    Dispatches (k + 1) (goto a s) u := by
  refine Drives.append (Drives.one fun ms => ?_) h
  exact (if_pos hr).trans (hline ms)

/-- A move of `DISPATCH` changes nothing, whatever is listed after it: it waits, or has no step. -/
def Stands (s : State) : Prop := ∀ ms, dispatchNext { s with schedule := ms } = { s with schedule := ms }

theorem Stands.dispatches {s : State} (h : Stands s) (n : Nat) : Dispatches n s s := by
  induction n with
  | zero => exact Drives.refl s
  | succ n ih =>
    have hone : Drives [.dispatch] s s := .one h
    exact hone.append ih

/-- A handler stands at a line that leaves the state as it is. -/
theorem stands_goto {a : Activity} {s : State} (hr : dispatchReady s = true)
    (hline : ∀ ms, handlerLine a { goto a s with schedule := ms } = { goto a s with schedule := ms }) :
    Stands (goto a s) := fun ms => (if_pos hr).trans (hline ms)

/-- With no timed read in progress, ticks advance the clocks alone (R140). -/
theorem drives_ticks (k : Nat) (s : State) (hf : s.fill = none) :
    Drives (List.replicate k .tick) s (afterTicks k s) := by
  rw [← tick_iterate k s hf]
  induction k generalizing s with
  | zero => exact Drives.refl s
  | succ k ih =>
    have htick (u : State) (hu : u.fill = none) : tick u = advanceClocks u := tick_iterate 1 u hu
    have hone : Drives [.tick] s (tick s) := .one fun ms => by
      rw [nextState, htick s hf, htick { s with schedule := ms } hf]
      rfl
    exact hone.append (ih (tick s) (by rw [htick s hf]; exact hf))

theorem afterTicks_zero (s : State) : afterTicks 0 s = s := by
  simp [afterTicks]

/-- Without a wrap of `NOW`, ticks add their number to what has elapsed (R9, R140). -/
theorem elapsed_afterTicks (k : Nat) (s : State) (t : BitVec 64) (h : s.now.toNat + k < 2 ^ 64) :
    elapsed (afterTicks k s) t = elapsed s t + k := by
  simp only [elapsed, afterTicks, BitVec.toNat_add, BitVec.toNat_ofNat]
  omega

/-! ### The block at rest -/

/-- `s` with every field of a state at rest at its value (R117), and no callback running. -/
def resting (s : State) : State :=
  { s with
    dstate := .idle, mode := .none, cin := [], opv := none, dq := 0, dcont := none, fill := none
    trigArmed := false, trigInsvc := false, trigPend := false, trigReq := 0
    rateArmed := false, rateInsvc := false, ratePend := false, rateReq := 0 }

/-- At rest with no callback running, these fields are what they are. -/
theorem resting_self (s : State) (h : atRest s = true) (hc : s.dcont = none) : resting s = s := by
  cases s
  simp_all [atRest, resting]

/-- At rest `DISPATCH` waits for an opcode (R105). -/
theorem stands_of_atRest (s : State) (h : atRest s = true) (hc : s.dcont = none) : Stands s := by
  rw [← resting_self s h hc]
  exact fun _ => rfl

/-- At rest, an opcode's datagram at the head of `CIN` is received (R106). -/
theorem drives_receive (i : Instr) (rest : List Datagram) (s : State) :
    Drives [.dispatch] { resting s with cin := encode i :: rest }
      { resting s with cin := rest, opv := some (operandOpv (encode i)) } := by
  cases i <;> exact .one fun _ => rfl

/-- The opcode value of an opcode's datagram is found in the table (R86, R88). -/
theorem instrOfOpv_encode (i : Instr) : instrOfOpv (operandOpv (encode i)) = some i := by
  cases i <;> rfl

/-- The received opcode is looked up, and its handler entered (R106). -/
theorem drives_lookup (i : Instr) (rest : List Datagram) (s : State) :
    Drives [.dispatch] { resting s with cin := rest, opv := some (operandOpv (encode i)) }
      (goto (entryLine i) { resting s with cin := rest }) := .one fun ms => by
  have hlookup : lookupNext (operandOpv (encode i)) { resting s with cin := rest, schedule := ms } =
      goto (entryLine i) { resting s with cin := rest, schedule := ms } := by
    rw [lookupNext, instrOfOpv_encode]
  exact hlookup

/-- The request is delivered, its opcode received and looked up: its handler is at its first line with the payload in
`CIN` (R87, R96, R106). -/
theorem drives_request (c : Command) (s : State) :
    Drives ((encodeCommand c).map Move.deliver ++ List.replicate 2 Move.dispatch) (resting s)
      (goto (entryLine c.instr) { resting s with cin := c.payload.toList }) := by
  have hdeliver : Drives ((encodeCommand c).map .deliver) (resting s) { resting s with cin := encodeCommand c } := by
    rw [encodeCommand]
    cases c.payload <;> exact fun _ => rfl
  exact hdeliver.append ((drives_receive c.instr _ s).append (drives_lookup c.instr _ s))

/-- One request issued serially: its handler goes to `w`, where it waits or has returned; time passes; it goes on to
`t`, where it has returned. -/
theorem drives_serialMoves {c : Command} {s w t : State} {k j : Nat} (hk : k ≤ 138 + s.par.labelLen) (hj : j ≤ 5)
    (hlines : Dispatches k (goto (entryLine c.instr) { resting s with cin := c.payload.toList }) w)
    (hw : Stands w) (hfill : w.fill = none)
    (hret : Dispatches j (afterTicks (serviceTicks s.par c) w) t) (ht : Stands t) :
    Drives (serialMoves s.par c) (resting s) t := by
  obtain ⟨k', hk'⟩ := Nat.exists_eq_add_of_le hk
  obtain ⟨j', hj'⟩ := Nat.exists_eq_add_of_le hj
  have hmoves : serialMoves s.par c =
      ((encodeCommand c).map Move.deliver ++ List.replicate 2 Move.dispatch) ++
        List.replicate (k + k') Move.dispatch ++
        List.replicate (serviceTicks s.par c) Move.tick ++ List.replicate (j + j') Move.dispatch := by
    have hcount : 140 + s.par.labelLen = 2 + (k + k') := by omega
    rw [serialMoves, hcount, List.replicate_add 2, ← List.append_assoc, ← hj']
  have hfirst : Dispatches (k + k') (goto (entryLine c.instr) { resting s with cin := c.payload.toList }) w :=
    hlines.trans (hw.dispatches k')
  have hlast : Dispatches (j + j') (afterTicks (serviceTicks s.par c) w) t := hret.trans (ht.dispatches j')
  rw [hmoves]
  exact (((drives_request c s).append hfirst).append (drives_ticks _ w hfill)).append hlast

/-! ### The potentiometer handlers, outside a settle window -/

theorem busRead_outside (a : BusAddr) (s : State) (h : settleWindow s = none) : busRead a s = (s.pots.read a, s) := by
  rw [busRead, settleHazard_outside s h]

theorem busProbe_outside (a : BusAddr) (s : State) (h : settleWindow s = none) :
    busProbe a s = ((s.pots.read a).isSome, s) := by
  rw [busProbe, settleHazard_outside s h]

/-- `POT.RD` with an absent device is an abort (R131, R213). -/
theorem served_potRd_absent (s : State)
    (h : s.pots.read s.par.gainAddr = none ∨ s.pots.read s.par.thrAddr = none) :
    served .potRd s = { s with buserr := s.buserr + 1 } := by
  rw [served]
  split
  · rename_i hg ht
    rw [hg, ht] at h
    simp at h
  · rfl

/-- `POT.RD` with both devices sends both positions (R131). -/
theorem served_potRd_present (s : State) (g t : Byte) (hg : s.pots.read s.par.gainAddr = some g)
    (ht : s.pots.read s.par.thrAddr = some t) : served .potRd s = cmdSend [g, t] s := by
  rw [served, hg, ht]

/-- `POT.RD` from its first line to its return, with both devices or with an abort (R131). -/
theorem dispatches_potRd (s : State) (hw : settleWindow s = none) :
    ∃ k ≤ 4, Dispatches k (goto (.potRd .readGain) (resting s)) (served .potRd (resting s)) := by
  have hgain {k t} (h : Dispatches k (goto (.potRd (.gotGain (s.pots.read s.par.gainAddr))) (resting s)) t) :
      Dispatches (k + 1) (goto (.potRd .readGain) (resting s)) t := by
    refine .line rfl (fun ms => ?_) h
    rw [handlerLine, potRdLine, busRead_outside]
    · rfl
    · exact hw
  have hthr {k t} (g : Byte) (h : Dispatches k (goto (.potRd (.gotBoth g (s.pots.read s.par.thrAddr))) (resting s)) t) :
      Dispatches (k + 1) (goto (.potRd (.gotGain (some g))) (resting s)) t := by
    refine .line rfl (fun ms => ?_) h
    rw [handlerLine, potRdLine, busRead_outside]
    · rfl
    · exact hw
  cases hg : s.pots.read s.par.gainAddr with
  | none =>
    rw [hg] at hgain
    rw [served_potRd_absent (resting s) (.inl hg)]
    exact ⟨2, by decide, hgain (.line rfl (fun _ => rfl) (.refl _))⟩
  | some g =>
    rw [hg] at hgain
    cases ht : s.pots.read s.par.thrAddr with
    | none =>
      rw [ht] at hthr
      rw [served_potRd_absent (resting s) (.inr ht)]
      exact ⟨3, by decide, hgain (hthr g (.line rfl (fun _ => rfl) (.refl _)))⟩
    | some t =>
      rw [ht] at hthr
      rw [served_potRd_present (resting s) g t hg ht]
      refine ⟨4, by decide, hgain (hthr g ?_)⟩
      refine .line (t := goto (.potRd .ret) (cmdSend [g, t] (resting s))) rfl (fun _ => rfl) ?_
      exact .line rfl (fun _ => rfl) (.refl _)

/-- `BUS.SCAN` from some address on: the rest of the addresses is probed, the devices that answer are found (R132). -/
theorem dispatches_probes (rest found : List BusAddr) (s : State) (hr : dispatchReady s = true)
    (hw : settleWindow s = none) :
    Dispatches rest.length (goto (.busScan (.probe rest found)) s)
      (goto (.busScan (.probe [] (found ++ rest.filter fun a => (s.pots.read a).isSome))) s) := by
  induction rest generalizing found with
  | nil =>
    rw [List.filter_nil, List.append_nil]
    exact Drives.refl _
  | cons a rest ih =>
    have hprobe : ∀ ms, handlerLine (.busScan (.probe (a :: rest) found))
        { goto (.busScan (.probe (a :: rest) found)) s with schedule := ms } =
        { goto (.busScan (.probe rest (if (s.pots.read a).isSome then found ++ [a] else found))) s with
          schedule := ms } := fun ms => by
      rw [handlerLine, busScanLine, busProbe_outside]
      · rfl
      · exact hw
    have hfound : found ++ (a :: rest).filter (fun a => (s.pots.read a).isSome) =
        (if (s.pots.read a).isSome then found ++ [a] else found) ++ rest.filter (fun a => (s.pots.read a).isSome) := by
      cases h : (s.pots.read a).isSome <;> simp [h]
    rw [hfound]
    exact .line hr hprobe (ih _)

/-- `SCAN_ORDER` has 127 addresses (R6). -/
theorem scanOrder_length : scanOrder.length = 127 := by
  rw [scanOrder, List.length_map, List.length_range]

/-- `BUS.SCAN` from its first line to its return (R132). -/
theorem dispatches_busScan (s : State) (hw : settleWindow s = none) :
    Dispatches (scanOrder.length + 2) (goto (.busScan (.probe scanOrder [])) (resting s))
      (served .busScan (resting s)) := by
  have hprobes := dispatches_probes scanOrder [] (resting s) rfl hw
  have hsend : Dispatches 2 (goto (.busScan (.probe [] (scanOrder.filter fun a => (s.pots.read a).isSome))) (resting s))
      (served .busScan (resting s)) := by
    refine .line (t := goto (.busScan .ret) (served .busScan (resting s))) rfl (fun _ => rfl) ?_
    exact .line rfl (fun _ => rfl) (.refl _)
  exact hprobes.trans hsend

theorem potWriteIssue_present (a : BusAddr) (v old : Byte) (s : State) (h : settleWindow s = none)
    (hold : s.pots.read a = some old) :
    potWriteIssue a v s = (.record s.now old v, { s with pots := s.pots.write a v }) := by
  rw [potWriteIssue, busWrite_outside_present a v old s h hold, hold]
  rfl

theorem potWriteIssue_absent (a : BusAddr) (v : Byte) (s : State) (h : settleWindow s = none)
    (habs : s.pots.read a = none) : potWriteIssue a v s = (.absent, s) := by
  rw [potWriteIssue, busWrite_outside_absent a v s h habs]
  rfl

/-- No time has passed since the present instant. -/
theorem elapsed_now (s : State) : elapsed s s.now = 0 := Int.sub_self _

/-- At the instant of a write its settling delay has not passed (R130). -/
theorem settled_recordWrite (a : BusAddr) (old new : Byte) (s : State) :
    settled (recordWrite s.now a old new s) = false := by
  have hpos := s.cfg.settleUs_range.1
  refine decide_eq_false fun hle => ?_
  have hle' : (s.cfg.params.settleUs : Int) ≤ elapsed s s.now := hle
  rw [elapsed_now] at hle'
  omega

/-- `SETTLE_US` ticks after a write its settling delay has passed (R130, R140). -/
theorem settled_afterTicks (a : BusAddr) (old new : Byte) (s : State) (h : s.now.toNat + s.par.settleUs < 2 ^ 64) :
    settled (afterTicks s.par.settleUs (recordWrite s.now a old new s)) = true := by
  have helapsed := elapsed_afterTicks s.par.settleUs s s.now h
  rw [elapsed_now, Int.zero_add] at helapsed
  exact decide_eq_true (Int.le_of_eq helapsed.symm)

section Write

/-! `mk` is a potentiometer write handler and `addr` its fixed address. -/

variable {mk : PotWrK → Activity} {addr : Params → BusAddr} {s : State}
  (hmk : ∀ k u, handlerLine (mk k) u = potWrLine mk (addr u.par) k u)
include hmk

/-- A potentiometer write to a device that answers, from its payload to its settling delay (R130, R133, R134). -/
theorem dispatches_potWrite_present (pos old : Byte) (hw : settleWindow s = none)
    (hold : s.pots.read (addr s.par) = some old) :
    Dispatches 3 (goto (mk .recv) { resting s with cin := [[pos]] })
      (goto (mk .settle)
        (recordWrite s.now (addr s.par) old pos { resting s with pots := s.pots.write (addr s.par) pos })) := by
  refine .line (t := goto (mk (.write pos)) (resting s)) rfl (fun ms => hmk _ _) ?_
  refine .line (t := goto (mk (.record s.now old pos)) { resting s with pots := s.pots.write (addr s.par) pos }) rfl
    (fun ms => ?_) (.line rfl (fun ms => hmk _ _) (.refl _))
  rw [hmk, potWrLine, potWriteIssue_present _ _ old]
  · rfl
  · exact hw
  · exact hold

/-- A potentiometer write to an absent device, from its payload to its abort (R130, R213). -/
theorem dispatches_potWrite_absent (pos : Byte) (hw : settleWindow s = none) (habs : s.pots.read (addr s.par) = none) :
    Dispatches 3 (goto (mk .recv) { resting s with cin := [[pos]] }) { resting s with buserr := s.buserr + 1 } := by
  refine .line (t := goto (mk (.write pos)) (resting s)) rfl (fun ms => hmk _ _) ?_
  refine .line (t := goto (mk .absent) (resting s)) rfl (fun ms => ?_) (.line rfl (fun ms => hmk _ _) (.refl _))
  rw [hmk, potWrLine, potWriteIssue_absent]
  · rfl
  · exact hw
  · exact habs

/-- Before the settling delay has passed the handler waits (R130). -/
theorem stands_potWrite_settle (hr : dispatchReady s = true) (hs : settled s = false) :
    Stands (goto (mk .settle) s) :=
  stands_goto hr fun _ => (hmk _ _).trans (if_neg (ne_true_of_eq_false hs))

/-- Once the settling delay has passed the handler returns (R130). -/
theorem dispatches_potWrite_settled (hr : dispatchReady s = true) (hs : settled s = true) :
    Dispatches 2 (goto (mk .settle) s) (handlerReturn s) := by
  refine .line (t := goto (mk .ret) s) hr (fun ms => (hmk _ _).trans (if_pos hs)) ?_
  exact .line hr (fun ms => hmk _ _) (.refl _)

end Write

/-! ### The one-bit handlers and the label -/

/-- A handler that writes `POL`, from its first line to its return (R180, R181). -/
theorem dispatches_polBit {mk : BitK → Activity} {b : Bool} (s : State)
    (hmk : ∀ k u, handlerLine (mk k) u = bitLine mk (setPol b) k u) :
    Dispatches 2 (goto (mk .write) (resting s)) (setPol b (resting s)) := by
  refine .line (t := goto (mk .ret) (setPol b (resting s))) rfl (fun ms => hmk _ _) ?_
  exact .line rfl (fun ms => hmk _ _) (.refl _)

/-- A handler that writes `TPEN`, likewise (R183, R184). -/
theorem dispatches_tpBit {mk : BitK → Activity} {b : Bool} (s : State)
    (hmk : ∀ k u, handlerLine (mk k) u = bitLine mk (setTpen b) k u) :
    Dispatches 2 (goto (mk .write) (resting s)) (setTpen b (resting s)) := by
  refine .line (t := goto (mk .ret) (setTpen b (resting s))) rfl (fun ms => hmk _ _) ?_
  exact .line rfl (fun ms => hmk _ _) (.refl _)

/-- `LBL.GET` from its first line to its return (R200). -/
theorem dispatches_lblGet (s : State) :
    Dispatches 2 (goto (.lblGet .send) (resting s)) (cmdSend s.label (resting s)) := by
  refine .line (t := goto (.lblGet .ret) (cmdSend s.label (resting s))) rfl (fun _ => rfl) ?_
  exact .line rfl (fun _ => rfl) (.refl _)

/-- A store of element `j` makes the first `j + 1` elements those of the payload (R61). -/
theorem bufWrite_prefix (d l : List Byte) (j : Nat) (hd : j < d.length) (hl : j < l.length) :
    bufWrite (d.take j ++ l.drop j) j (bufRead d j 0) = d.take (j + 1) ++ l.drop (j + 1) := by
  have hlen : (d.take j).length = j := List.length_take_of_le (Nat.le_of_lt hd)
  have hread : bufRead d j 0 = d[j] := by simp [bufRead, hd]
  rw [bufWrite, hread, List.set_append_right _ _ (Nat.le_of_eq hlen), hlen, Nat.sub_self,
    List.drop_eq_getElem_cons hl, List.set_cons_zero, List.take_succ_eq_append_getElem hd, List.append_assoc,
    List.singleton_append]

/-- One store of `LBL.SET`, with the elements before it stored (R61, R201). -/
theorem dispatches_store (j : Nat) (d : List Byte) (s : State) (hr : dispatchReady s = true) (hd : j < d.length)
    (hl : j < s.label.length) :
    Dispatches 1 (goto (.lblSet (.store j d)) { s with label := d.take j ++ s.label.drop j })
      (goto (.lblSet (if j + 1 < s.par.labelLen then .store (j + 1) d else .ret))
        { s with label := d.take (j + 1) ++ s.label.drop (j + 1) }) := by
  rw [← bufWrite_prefix d s.label j hd hl]
  exact .line hr (fun _ => rfl) (.refl _)

/-- The stores of `LBL.SET` from element `j` on: it and `m` more make the label the payload (R201). -/
theorem dispatches_stores (m j : Nat) (d : List Byte) (s : State) (hr : dispatchReady s = true)
    (hj : j + m + 1 = s.par.labelLen) (hd : d.length = s.par.labelLen) (hl : s.label.length = s.par.labelLen) :
    Dispatches (m + 1) (goto (.lblSet (.store j d)) { s with label := d.take j ++ s.label.drop j })
      (goto (.lblSet .ret) { s with label := d }) := by
  have hstore := dispatches_store j d s hr (by omega) (by omega)
  induction m generalizing j with
  | zero =>
    have hall : d.take (j + 1) ++ s.label.drop (j + 1) = d := by
      rw [List.take_of_length_le (by omega), List.drop_of_length_le (by omega), List.append_nil]
    rwa [if_neg (by omega), hall] at hstore
  | succ m ih =>
    rw [if_pos (by omega)] at hstore
    rw [Nat.add_comm]
    exact hstore.trans (ih (j + 1) (by omega) (dispatches_store (j + 1) d s hr (by omega) (by omega)))

/-- `LBL.SET` from its payload to its return (R201). -/
theorem dispatches_lblSet (text : List Byte) (s : State) (ht : text.length = s.par.labelLen)
    (hl : s.label.length = s.par.labelLen) :
    Dispatches (s.par.labelLen + 2) (goto (.lblSet .recv) { resting s with cin := [text] })
      { resting s with label := text } := by
  obtain ⟨m, hm⟩ := Nat.exists_eq_add_of_le' s.cfg.labelLen_min
  have hstores := dispatches_stores m 0 text (resting s) rfl (by rw [Nat.zero_add]; exact hm.symm) ht hl
  have hret : Dispatches 1 (goto (.lblSet .ret) { resting s with label := text }) { resting s with label := text } :=
    .line rfl (fun _ => rfl) (.refl _)
  rw [show s.par.labelLen = m + 1 from hm]
  refine .line (t := goto (.lblSet (.store 0 text)) (resting s)) rfl (fun ms => ?_) (hstores.trans hret)
  rw [handlerLine, lblSetLine, recvThen_of_long _ _ _ text []]
  · exact congrArg (fun d => { goto (.lblSet (.store 0 d)) (resting s) with schedule := ms })
      (List.take_of_length_le (Nat.le_of_eq ht))
  · rfl
  · exact Nat.le_of_eq ht.symm

/-! ### The acquisition handlers with a target of 0 -/

/-- `ACQ.STREAM` with a target of 0, from its payload to its return (R153, R155). -/
theorem dispatches_acqStream_zero (s : State) :
    Dispatches 6 (goto (.acqStream .recv) { resting s with cin := [leBytes 4 0] })
      { resting s with starget := 0, sdone := 0 } := by
  refine .line (t := goto (.acqStream (.setTarget 0)) (resting s)) rfl (fun _ => rfl) ?_
  refine .line (t := goto (.acqStream .zeroDone) { resting s with starget := 0 }) rfl (fun _ => rfl) ?_
  refine .line (t := goto (.acqStream .drain) { resting s with starget := 0, sdone := 0 }) rfl (fun _ => rfl) ?_
  refine .line (t := goto (.acqStream .setMode) { resting s with starget := 0, sdone := 0 }) rfl (fun _ => rfl) ?_
  refine .line (t := goto (.acqStream .loop) { resting s with starget := 0, sdone := 0, mode := .stream }) rfl
    (fun _ => rfl) ?_
  exact .line rfl (fun _ => rfl) (.refl _)

/-- `ACQ.BURST` with a target of 0, from its payload to its return: it meets its target at once, and no callback is
outstanding (R157, R167). -/
theorem dispatches_acqBurst_zero (s : State) :
    Dispatches 11 (goto (.acqBurst .recv) { resting s with cin := [leBytes 8 0] })
      { resting s with btarget := 0, pcount := 0 } := by
  refine .line (t := goto (.acqBurst (.setTarget 0)) (resting s)) rfl (fun _ => rfl) ?_
  refine .line (t := goto (.acqBurst .drain) { resting s with btarget := 0 }) rfl (fun _ => rfl) ?_
  refine .line (t := goto (.acqBurst .zeroCount) { resting s with btarget := 0 }) rfl (fun _ => rfl) ?_
  refine .line (t := goto (.acqBurst .setMode) { resting s with btarget := 0, pcount := 0 }) rfl (fun _ => rfl) ?_
  refine .line (t := goto (.acqBurst .arm) { resting s with btarget := 0, pcount := 0, mode := .burst }) rfl
    (fun _ => rfl) ?_
  refine .line (t := goto (.acqBurst .waitCount)
    { resting s with btarget := 0, pcount := 0, mode := .burst, trigArmed := true }) rfl (fun _ => rfl) ?_
  refine .line (t := goto (.acqBurst .disarm)
    { resting s with btarget := 0, pcount := 0, mode := .burst, trigArmed := true }) rfl (fun _ => rfl) ?_
  refine .line (t := goto (.acqBurst .waitDefer) { resting s with btarget := 0, pcount := 0, mode := .burst }) rfl
    (fun _ => rfl) ?_
  refine .line (t := goto (.acqBurst .drainLast) { resting s with btarget := 0, pcount := 0, mode := .burst }) rfl
    (fun _ => rfl) ?_
  refine .line (t := goto (.acqBurst .ret) { resting s with btarget := 0, pcount := 0, mode := .burst }) rfl
    (fun _ => rfl) ?_
  exact .line rfl (fun _ => rfl) (.refl _)

/-! ### The rate handler -/

/-- `RATE` from its first line to its wait (R190). -/
theorem dispatches_rate_wait (s : State) :
    Dispatches 4 (goto (.rate .zeroCount) (resting s))
      (goto (.rate (.wait s.now)) { resting s with rcount := 0, mode := .rate, rateArmed := true }) := by
  refine .line (t := goto (.rate .setMode) { resting s with rcount := 0 }) rfl (fun _ => rfl) ?_
  refine .line (t := goto (.rate .readT0) { resting s with rcount := 0, mode := .rate }) rfl (fun _ => rfl) ?_
  refine .line (t := goto (.rate (.arm s.now)) { resting s with rcount := 0, mode := .rate }) rfl (fun _ => rfl) ?_
  exact .line rfl (fun _ => rfl) (.refl _)

@[simp] theorem rateWindowUs_afterTicks (k : Nat) (s : State) : rateWindowUs (afterTicks k s) = rateWindowUs s := rfl

/-- Inside its window the rate handler waits (R190). -/
theorem stands_rate_wait (t0 : BitVec 64) (s : State) (hr : dispatchReady s = true)
    (h : elapsed s t0 < (rateWindowUs s : Int)) : Stands (goto (.rate (.wait t0)) s) :=
  stands_goto hr fun _ => if_neg (Int.not_le.mpr h)

/-- No edge in the window is a rate of 0, under either tie rule (R192). -/
theorem roundTie_zero (tie : TieRule) (window : Nat) (h : 1 ≤ window) : roundTie tie 0 window = 0 := by
  have hlt : 2 * (0 % window) < window := by rw [Nat.zero_mod]; omega
  have hround : roundTie tie 0 window = 0 / window := if_pos hlt
  rw [hround, Nat.zero_div]

/-- `RATE` from the end of its window to its return, with no edge counted (R190). -/
theorem dispatches_rate_return (t0 : BitVec 64) (s : State) (h : (rateWindowUs s : Int) ≤ elapsed s t0) :
    Dispatches 5 (goto (.rate (.wait t0)) { resting s with rcount := 0, mode := .rate, rateArmed := true })
      (cmdSend [0, 0, 0, 0] { resting s with rcount := 0 }) := by
  refine .line (t := goto (.rate .disarm) { resting s with rcount := 0, mode := .rate, rateArmed := true }) rfl
    (fun _ => if_pos h) ?_
  refine .line (t := goto (.rate .divide) { resting s with rcount := 0, mode := .rate }) rfl (fun _ => rfl) ?_
  refine .line (t := goto (.rate (.send 0)) { resting s with rcount := 0, mode := .rate }) rfl (fun ms => ?_) ?_
  · have hzero : roundTie s.par.rateTie (0 : BitVec 32).toNat s.par.rateWindowS = 0 :=
      roundTie_zero _ _ s.cfg.rateWindowS_min
    exact congrArg (fun r => { goto (.rate (.send (BitVec.ofNat 32 r))) { resting s with rcount := 0, mode := .rate }
      with schedule := ms }) hzero
  refine .line (t := goto (.rate .ret) (cmdSend [0, 0, 0, 0] { resting s with rcount := 0, mode := .rate })) rfl
    (fun _ => rfl) ?_
  exact .line rfl (fun _ => rfl) (.refl _)

end Sys2Proof.Machine

/-! SUPPORT. Serial requests (R114, R115): what a served command keeps, that each request of a list is served to its
return, and the end of the run of the script (R117). -/

namespace Sys2Proof.Machine

/-! ### What a served command keeps -/

/-- What a served command can change, clause by clause, as far as the next request depends on it; a command that writes
none of a clause's fields meets it by default. -/
structure ServedEffect (c : Command) (s t : State) : Prop where
  cfg : t.cfg = s.cfg := by rfl
  rest : atRest t = atRest s := by rfl
  dcont : t.dcont = s.dcont := by rfl
  now : t.now = s.now + BitVec.ofNat 64 (serviceTicks s.par c) := by exact (BitVec.add_zero _).symm
  lastwr : t.lastwr = s.lastwr ∨ (serviceTicks s.par c = s.par.settleUs ∧
    ∃ a old new, t.lastwr = some { t := s.now, a := a, old := old, new := new }) := by exact .inl rfl
  label : t.label = s.label ∨ c = .lblSet t.label := by exact .inl rfl

theorem effect_servedWrite (c : Command) (addr : BusAddr) (pos : Byte) (s : State)
    (hc : serviceTicks s.par c = s.par.settleUs) : ServedEffect c s (servedWrite addr pos s) := by
  have hnow : s.now + BitVec.ofNat 64 s.par.settleUs = s.now + BitVec.ofNat 64 (serviceTicks s.par c) := by rw [hc]
  rw [servedWrite]
  split
  · exact { now := hnow, lastwr := .inr ⟨hc, _, _, _, rfl⟩ }
  · exact { now := hnow }

theorem effect_served (c : Command) (s : State) : ServedEffect c s (served c s) := by
  cases c with
  | potRd => rw [served]; split <;> exact {}
  | potWrGain pos => exact effect_servedWrite _ _ pos s rfl
  | potWrThr pos => exact effect_servedWrite _ _ pos s rfl
  | rate => exact { now := rfl }
  | lblSet text => exact { label := .inr rfl }
  | _ => exact {}

/-- Outside a settle window the last write is older than the hazard's bound (R129). -/
theorem settleWindow_eq_none_iff (s : State) :
    settleWindow s = none ↔ ∀ w, s.lastwr = some w → (settleHazardUs : Int) ≤ elapsed s w.t := by
  cases h : s.lastwr <;> simp [settleWindow, h]

/-- A command that may stand in a list of serial requests: well formed, with a target of 0 where it has one. -/
def Serial (labelLen : Nat) (c : Command) : Prop :=
  c.wellFormed labelLen = true ∧ (∀ n, c = .acqStream n → n = 0) ∧ (∀ n, c = .acqBurst n → n = 0)

/-- The block is ready for serial requests that take `ticks` ticks in all: at rest, outside a settle window, and `NOW`
does not wrap before they are served (R9, R115, R129). -/
structure SerialReady (ticks : Nat) (s : State) : Prop where
  rest : atRest s = true
  dcont : s.dcont = none
  settle : s.par.settleUs = 500000
  window : settleWindow s = none
  label : s.label.length = s.par.labelLen
  time : s.now.toNat + ticks < 2 ^ 64

/-- After a served request the block is ready for the next one (R114, R130). -/
theorem serialReady_served {c : Command} {ticks : Nat} {s : State} (h : SerialReady (serviceTicks s.par c + ticks) s)
    (hc : Serial s.par.labelLen c) : SerialReady ticks (served c s) := by
  have e := effect_served c s
  have hpar : (served c s).par = s.par := congrArg Board.params e.cfg
  have htime := h.time
  have hnow : (served c s).now.toNat = s.now.toNat + serviceTicks s.par c := by
    rw [e.now, BitVec.toNat_add, BitVec.toNat_ofNat]
    omega
  refine ⟨e.rest.trans h.rest, e.dcont.trans h.dcont, by rw [hpar, h.settle], ?_, ?_, by omega⟩
  · refine (settleWindow_eq_none_iff _).mpr fun w hw => ?_
    obtain hsame | ⟨hticks, a, old, new, hwrite⟩ := e.lastwr
    · have hold := (settleWindow_eq_none_iff s).mp h.window w (hsame ▸ hw)
      simp only [elapsed] at hold ⊢
      omega
    · obtain rfl := Option.some.inj (hwrite.symm.trans hw)
      rw [h.settle] at hticks
      simp only [elapsed, hnow, hticks, settleHazardUs]
      omega
  · rw [hpar]
    obtain hsame | hset := e.label
    · rw [hsame, h.label]
    · have hwf := hc.1
      rw [hset] at hwf
      simpa [Command.wellFormed, Command.check] using hwf

/-- What a served request leaves is at rest: `DISPATCH` waits for an opcode, and no timed read is in progress. -/
theorem stands_served {c : Command} {ticks : Nat} {s : State} (h : SerialReady ticks s) :
    Stands (served c (resting s)) ∧ (served c (resting s)).fill = none := by
  have hself := resting_self s h.rest h.dcont
  have e := effect_served c (resting s)
  have hrest : atRest (served c (resting s)) = true := by rw [e.rest, hself, h.rest]
  have hdcont : (served c (resting s)).dcont = none := e.dcont
  refine ⟨stands_of_atRest _ hrest hdcont, ?_⟩
  rw [← resting_self _ hrest hdcont]
  rfl

/-! ### Each request is served to its return -/

/-- A request whose handler returns without a wait is served. -/
theorem drives_served_of_return {c : Command} {k ticks : Nat} {s : State} (h : SerialReady ticks s)
    (hk : k ≤ 138 + s.par.labelLen)
    (hlines : Dispatches k (goto (entryLine c.instr) { resting s with cin := c.payload.toList }) (served c (resting s)))
    (hticks : serviceTicks s.par c = 0) : Drives (serialMoves s.par c) (resting s) (served c (resting s)) := by
  obtain ⟨hstands, hfill⟩ := stands_served (c := c) h
  refine drives_serialMoves (j := 0) hk (Nat.zero_le 5) hlines hstands hfill ?_ hstands
  rw [hticks, afterTicks_zero]
  exact Drives.refl _

theorem servedWrite_present (addr : BusAddr) (pos old : Byte) (s : State) (hold : s.pots.read addr = some old) :
    servedWrite addr pos s =
      afterTicks s.par.settleUs (recordWrite s.now addr old pos { s with pots := s.pots.write addr pos }) := by
  rw [servedWrite, hold]

theorem servedWrite_absent (addr : BusAddr) (pos : Byte) (s : State) (habs : s.pots.read addr = none) :
    servedWrite addr pos s = afterTicks s.par.settleUs { s with buserr := s.buserr + 1 } := by
  rw [servedWrite, habs]

/-- A potentiometer write is served (R130, R133, R134): to an absent device it is an abort, else it waits for its
settling delay and returns. -/
theorem drives_potWrite {mk : PotWrK → Activity} {addr : Params → BusAddr} {c : Command} {pos : Byte} {s : State}
    {ticks : Nat} (hmk : ∀ k u, handlerLine (mk k) u = potWrLine mk (addr u.par) k u)
    (hentry : entryLine c.instr = mk .recv) (hpay : c.payload = some [pos])
    (hserved : served c (resting s) = servedWrite (addr s.par) pos (resting s))
    (hticks : serviceTicks s.par c = s.par.settleUs) (h : SerialReady (serviceTicks s.par c + ticks) s) :
    Drives (serialMoves s.par c) (resting s) (served c (resting s)) := by
  obtain ⟨hstands, -⟩ := stands_served (c := c) h
  have htime : s.now.toNat + s.par.settleUs < 2 ^ 64 := by
    have hready := h.time
    omega
  cases hold : s.pots.read (addr s.par) with
  | none =>
    have hlines : Dispatches 3 (goto (entryLine c.instr) { resting s with cin := c.payload.toList })
        { resting s with buserr := s.buserr + 1 } := by
      rw [hentry, hpay]
      exact dispatches_potWrite_absent hmk pos h.window hold
    refine drives_serialMoves (j := 0) (by omega) (by decide) hlines (fun _ => rfl) rfl ?_ hstands
    rw [hserved, hticks, servedWrite_absent _ pos (resting s) hold]
    exact Drives.refl _
  | some old =>
    have hlines : Dispatches 3 (goto (entryLine c.instr) { resting s with cin := c.payload.toList })
        (goto (mk .settle)
          (recordWrite s.now (addr s.par) old pos { resting s with pots := s.pots.write (addr s.par) pos })) := by
      rw [hentry, hpay]
      exact dispatches_potWrite_present hmk pos old h.window hold
    refine drives_serialMoves (j := 2) (by omega) (by decide) hlines
      (stands_potWrite_settle hmk rfl (settled_recordWrite _ _ _ _)) rfl ?_ hstands
    rw [hserved, hticks, servedWrite_present _ pos old (resting s) hold]
    exact dispatches_potWrite_settled (s := afterTicks _ _) hmk rfl (settled_afterTicks _ _ _ _ htime)

/-- A rate measurement without edges is served: it waits for its window and answers 0 (R190, R192). -/
theorem drives_rate {ticks : Nat} {s : State} (h : SerialReady (serviceTicks s.par .rate + ticks) s) :
    Drives (serialMoves s.par .rate) (resting s) (served .rate (resting s)) := by
  -- The window stays a variable: its product by 10^6 must not be evaluated.
  obtain ⟨window, hwindow⟩ : ∃ window, window = rateWindowUs s := ⟨_, rfl⟩
  have hticks : serviceTicks s.par .rate = window := hwindow.symm
  have hserved : served .rate (resting s) =
      cmdSend [0, 0, 0, 0] (afterTicks window { resting s with rcount := 0 }) := by
    rw [hwindow]
    rfl
  have htime := h.time
  rw [hticks] at htime
  have hstart : elapsed s s.now < (rateWindowUs s : Int) := by
    rw [elapsed_now]
    exact Int.natCast_pos.mpr (Nat.mul_pos s.cfg.rateWindowS_min (by decide))
  have hend : (rateWindowUs (afterTicks window s) : Int) = elapsed (afterTicks window s) s.now := by
    rw [elapsed_afterTicks _ _ _ (by omega), elapsed_now, Int.zero_add, rateWindowUs_afterTicks, hwindow]
  refine drives_serialMoves (j := 5) (by omega) (Nat.le_refl 5) (dispatches_rate_wait s)
    (stands_rate_wait s.now _ rfl hstart) rfl ?_ (stands_served h).1
  rw [hserved, hticks]
  exact dispatches_rate_return s.now (afterTicks window s) (Int.le_of_eq hend)

/-- Every serial request is served, from a ready block (R106, R108, R114). -/
theorem drives_served {c : Command} {ticks : Nat} {s : State} (h : SerialReady (serviceTicks s.par c + ticks) s)
    (hc : Serial s.par.labelLen c) : Drives (serialMoves s.par c) s (served c s) := by
  obtain ⟨hwf, hstream, hburst⟩ := hc
  suffices hrun : Drives (serialMoves s.par c) (resting s) (served c (resting s)) by
    rwa [resting_self s h.rest h.dcont] at hrun
  cases c with
  | potRd =>
    obtain ⟨k, hk, hlines⟩ := dispatches_potRd s h.window
    exact drives_served_of_return h (by omega) hlines rfl
  | busScan =>
    refine drives_served_of_return h ?_ (dispatches_busScan s h.window) rfl
    rw [scanOrder_length]
    omega
  | potWrGain pos => exact drives_potWrite (addr := Params.gainAddr) (fun _ _ => rfl) rfl rfl rfl rfl h
  | potWrThr pos => exact drives_potWrite (addr := Params.thrAddr) (fun _ _ => rfl) rfl rfl rfl rfl h
  | acqStream n =>
    obtain rfl := hstream n rfl
    exact drives_served_of_return h (by omega) (dispatches_acqStream_zero s) rfl
  | acqBurst n =>
    obtain rfl := hburst n rfl
    exact drives_served_of_return h (by omega) (dispatches_acqBurst_zero s) rfl
  | polLo => exact drives_served_of_return h (by omega) (dispatches_polBit (mk := .polLo) s fun _ _ => rfl) rfl
  | polHi => exact drives_served_of_return h (by omega) (dispatches_polBit (mk := .polHi) s fun _ _ => rfl) rfl
  | rate => exact drives_rate h
  | tpOff => exact drives_served_of_return h (by omega) (dispatches_tpBit (mk := .tpOff) s fun _ _ => rfl) rfl
  | tpOn => exact drives_served_of_return h (by omega) (dispatches_tpBit (mk := .tpOn) s fun _ _ => rfl) rfl
  | lblGet => exact drives_served_of_return h (by omega) (dispatches_lblGet s) rfl
  | lblSet text =>
    refine drives_served_of_return h (by omega) (dispatches_lblSet text s ?_ h.label) rfl
    simpa [Command.wellFormed, Command.check] using hwf

/-- A list of serial requests is served, one after the other in its order (R114). -/
theorem drives_requests (p : Params) (cs : List Command) (s : State) (hp : s.par = p)
    (h : SerialReady (cs.map (serviceTicks p)).sum s) (hcs : ∀ c ∈ cs, Serial p.labelLen c) :
    Drives (cs.flatMap (serialMoves p)) s (cs.foldl (fun u c => served c u) s) ∧
      atRest (cs.foldl (fun u c => served c u) s) = true := by
  induction cs generalizing s with
  | nil => exact ⟨Drives.refl s, h.rest⟩
  | cons c cs ih =>
    subst hp
    obtain ⟨hc, hrest⟩ := List.forall_mem_cons.mp hcs
    rw [List.map_cons, List.sum_cons] at h
    have hpar : (served c s).par = s.par := congrArg Board.params (effect_served c s).cfg
    obtain ⟨hdrives, hend⟩ := ih (served c s) hpar (serialReady_served h hc) hrest
    exact ⟨(drives_served h hc).append hdrives, hend⟩

/-! ### The end of the run -/

/-- No move changes the rest of the schedule (R77). -/
theorem nextState_schedule (m : Move) (s : State) : (nextState m s).schedule = s.schedule := by
  by_cases hm : m = .reset
  · rw [hm]
    rfl
  · exact (effect_nextState m s hm).schedule

/-- Where the listed moves send the rest of a script and end at rest, the run of the script has an end (R117). -/
theorem endOfRun_isSome (script sent : List Datagram) (moves ms : List Move) (s t : State)
    (hs : s.schedule = moves ++ ms) (hrun : runFor moves.length s = .next t) (hrest : atRest t = true)
    (hsent : sent ++ moves.flatMap sentIn = script) : (endOfRun script moves.length sent s).isSome = true := by
  induction moves generalizing sent s with
  | nil =>
    cases hrun
    rw [List.flatMap_nil, List.append_nil] at hsent
    simp [endOfRun, hsent, hrest]
  | cons m moves ih =>
    have hstep : step s = .next (nextState m { s with schedule := moves ++ ms }) :=
      (step_listed s m _ hs).trans (runMove_eq _ _)
    have hmove : (takeMove s).1 = m := by rw [takeMove_listed s m _ hs]
    rw [List.length_cons, runFor_succ _ _ _ hstep] at hrun
    rw [List.flatMap_cons, ← List.append_assoc] at hsent
    rw [List.length_cons, endOfRun]
    split
    · rfl
    · rw [hstep, hmove]
      exact ih _ _ (nextState_schedule m _) hrun hsent

/-- The datagrams that a request's moves send are the command's own (R96). -/
theorem sentIn_serialMoves (p : Params) (c : Command) : (serialMoves p c).flatMap sentIn = encodeCommand c := by
  simp [serialMoves, List.flatMap_append, List.flatMap_map, List.flatMap_replicate, sentIn]

/-- Settles O60, by induction on the list of requests. -/
theorem serialRequestsInOrder : Obligations.SerialRequestsInOrder := by
  rintro s t cs ms _ hrest hdcont hsettle hwindow hlabel hcs htime rfl hs rfl
  obtain ⟨hdrives, hend⟩ := drives_requests s.par cs s rfl ⟨hrest, hdcont, hsettle, hwindow, hlabel, htime⟩ hcs
  have hrun := hdrives ms
  rw [← hs] at hrun
  refine ⟨hrun, hend, endOfRun_isSome _ [] _ ms s _ hs hrun hend ?_⟩
  rw [List.nil_append, List.flatMap_assoc]
  simp only [sentIn_serialMoves]

end Sys2Proof.Machine

/-! SUPPORT. What every step does to the potentiometer bus, the record of the last write, and the place of a write
handler (R47, R126 to R130): one structure for all moves, then the settling delay, and the invariant of the settle
window from both. -/

namespace Sys2Proof.Machine

/-! ### What a step does to the bus -/

/-- What a step of the move `m` can do to the bus and to `LASTWR`, clause by clause; a step that writes none of a
clause's fields, and goes to no line with a write to record, meets it by default. -/
structure BusEffect (m : Move) (s t : State) : Prop where
  addresses : t.pots.map Prod.fst = s.pots.map Prod.fst := by rfl
  pots : t.pots = s.pots ∨ (m = .dispatch ∧ atBusTransaction s = true) := by exact .inl rfl
  lastwr : t.lastwr = s.lastwr ∨
    ∃ w, t.lastwr = some w ∧ writeToRecord s = some w.t ∧ settlingOrHalted t = true := by exact .inl rfl
  toRecord : writeToRecord t = none ∨ writeToRecord t = some s.now ∨ writeToRecord t = writeToRecord s := by
    exact .inl rfl

/-- A step that changes neither the bus nor `LASTWR`, and leaves its handler where it is. -/
theorem busEffect_of_same {m : Move} {s t : State} (hpots : t.pots = s.pots) (hlast : t.lastwr = s.lastwr)
    (hd : t.dstate = s.dstate) : BusEffect m s t where
  addresses := by rw [hpots]
  pots := .inl hpots
  lastwr := .inl hlast
  toRecord := .inr (.inr (by rw [writeToRecord, hd, writeToRecord]))

theorem busEffect_recvThen (n : Nat) (k : List Byte → State → State) (s : State)
    (hk : ∀ d rest, BusEffect .dispatch s (k d { s with cin := rest })) :
    BusEffect .dispatch s (recvThen n k s) := by
  obtain ⟨-, e⟩ | ⟨d, rest, -, -, e⟩ | ⟨d, rest, -, -, e⟩ := recvThen_cases n k s <;> rw [e]
  · exact busEffect_of_same rfl rfl rfl
  · exact hk _ rest
  · exact {}

/-! ### The potentiometer handlers -/

/-- A line that begins a probe or a read, and goes to a line without a write to record (R125, R129). -/
theorem busEffect_settleHazard (a : Activity) (s : State) (hbegin : atBusTransaction s = true)
    (ha : ∀ u, writeToRecord (goto a u) = none) : BusEffect .dispatch s (goto a (settleHazard s)) := by
  obtain ⟨l, n, p, e, hp⟩ := settleHazard_shape s
  rw [e]
  exact { addresses := hp, pots := .inr ⟨rfl, hbegin⟩, toRecord := .inl (ha _) }

theorem busEffect_potRdLine (k : PotRdK) (s : State) (hd : s.dstate = .exec (.potRd k)) :
    BusEffect .dispatch s (potRdLine k s) := by
  cases k with
  | readGain => exact busEffect_settleHazard _ s (by rw [atBusTransaction, hd]) fun _ => rfl
  | gotGain g =>
    cases g with
    | none => exact {}
    | some g => exact busEffect_settleHazard _ s (by rw [atBusTransaction, hd]) fun _ => rfl
  | gotBoth g t => cases t <;> exact {}
  | ret => exact {}

theorem busEffect_busScanLine (k : ScanK) (s : State) (hd : s.dstate = .exec (.busScan k)) :
    BusEffect .dispatch s (busScanLine k s) := by
  cases k with
  | probe rest found =>
    cases rest with
    | nil => exact {}
    | cons a rest => exact busEffect_settleHazard _ s (by rw [atBusTransaction, hd]) fun _ => rfl
  | ret => exact {}

/-- The lines of a write handler (R130): the write begins a transaction and may leave a write to record, with the `NOW`
of this step; the record takes that time into `LASTWR` and goes to the settling delay. -/
theorem busEffect_potWrLine (mk : PotWrK → Activity) (hmk : mk = .potWrGain ∨ mk = .potWrThr) (addr : BusAddr)
    (k : PotWrK) (s : State) (hd : s.dstate = .exec (mk k)) : BusEffect .dispatch s (potWrLine mk addr k s) := by
  cases k with
  | recv =>
    simp only [potWrLine]
    exact busEffect_recvThen _ _ s fun _ _ => by rcases hmk with rfl | rfl <;> exact {}
  | write pos =>
    obtain ⟨k', l, n, p, e, hp, hk'⟩ := potWriteIssue_shape addr pos s
    simp only [potWrLine, e]
    refine { addresses := hp, pots := .inr ⟨rfl, ?_⟩, toRecord := ?_ }
    · rcases hmk with rfl | rfl <;> rw [atBusTransaction, hd]
    · rcases hk' with rfl | rfl <;> rcases hmk with rfl | rfl
      exacts [.inr (.inl rfl), .inr (.inl rfl), .inl rfl, .inl rfl]
  | record t old new =>
    have hsettle : settlingOrHalted (goto (mk .settle) (recordWrite t addr old new s)) = true := by
      rcases hmk with rfl | rfl <;> rfl
    have htime : writeToRecord s = some t := by rcases hmk with rfl | rfl <;> rw [writeToRecord, hd]
    exact {
      lastwr := .inr ⟨_, rfl, htime, hsettle⟩
      toRecord := .inl (by rcases hmk with rfl | rfl <;> rfl) }
  | absent => exact {}
  | settle =>
    simp only [potWrLine]
    split
    · rcases hmk with rfl | rfl <;> exact {}
    · exact busEffect_of_same rfl rfl rfl
  | ret => exact {}

/-! ### The other handlers -/

theorem busEffect_streamLine (k : StreamK) (s : State) : BusEffect .dispatch s (streamLine k s) := by
  cases k with
  | recv =>
    simp only [streamLine]
    exact busEffect_recvThen _ _ s fun _ _ => {}
  | loop =>
    obtain ⟨sec, usec, v, l, d, due, e, -⟩ := streamStart_shape (streamCount s) s
    simp only [streamLine, e]
    split <;> exact {}
  | wait m =>
    simp only [streamLine]
    split
    · exact {}
    · exact busEffect_of_same rfl rfl rfl
  | _ => exact {}

theorem busEffect_burstLine (k : BurstK) (s : State) : BusEffect .dispatch s (burstLine k s) := by
  cases k with
  | recv =>
    simp only [burstLine]
    exact busEffect_recvThen _ _ s fun _ _ => {}
  | waitCount =>
    simp only [burstLine]
    split
    · exact {}
    · exact busEffect_of_same rfl rfl rfl
  | waitDefer =>
    simp only [burstLine]
    split
    · exact {}
    · exact busEffect_of_same rfl rfl rfl
  | _ => exact {}

theorem busEffect_rateLine (k : RateK) (s : State) : BusEffect .dispatch s (rateLine k s) := by
  cases k with
  | wait t0 =>
    simp only [rateLine]
    split
    · exact {}
    · exact busEffect_of_same rfl rfl rfl
  | _ => exact {}

theorem busEffect_polledLine (k : PolledK) (s : State) : BusEffect .dispatch s (polledLine k s) := by
  cases k with
  | recv =>
    simp only [polledLine]
    exact busEffect_recvThen _ _ s fun _ _ => {}
  | loop cnt =>
    cases cnt with
    | zero => exact {}
    | succ cnt =>
      obtain ⟨x, l, d, due, e⟩ := polledStart_shape s
      simp only [polledLine, e]
      exact {}
  | wait cnt =>
    simp only [polledLine]
    split
    · exact {}
    · exact busEffect_of_same rfl rfl rfl
  | _ => exact {}

theorem busEffect_lblSetLine (k : LblSetK) (s : State) : BusEffect .dispatch s (lblSetLine k s) := by
  cases k with
  | recv =>
    simp only [lblSetLine]
    exact busEffect_recvThen _ _ s fun _ _ => {}
  | store j d =>
    simp only [lblSetLine]
    split <;> exact {}
  | ret => exact {}

/-! ### The dispatcher -/

theorem busEffect_handlerLine (a : Activity) (s : State) (hd : s.dstate = .exec a) :
    BusEffect .dispatch s (handlerLine a s) := by
  cases a with
  | potRd k => exact busEffect_potRdLine k s hd
  | busScan k => exact busEffect_busScanLine k s hd
  | potWrGain k => exact busEffect_potWrLine _ (.inl rfl) _ k s hd
  | potWrThr k => exact busEffect_potWrLine _ (.inr rfl) _ k s hd
  | acqStream k => exact busEffect_streamLine k s
  | acqBurst k => exact busEffect_burstLine k s
  | rate k => exact busEffect_rateLine k s
  | lblSet k => exact busEffect_lblSetLine k s
  | polled k => exact busEffect_polledLine k s
  | polLo k => cases k <;> exact {}
  | polHi k => cases k <;> exact {}
  | tpOff k => cases k <;> exact {}
  | tpOn k => cases k <;> exact {}
  | lblGet k => cases k <;> exact {}

/-- No handler begins with a write to record (R106). -/
theorem writeToRecord_entryLine (i : Instr) (s : State) : writeToRecord (goto (entryLine i) s) = none := by
  cases i <;> rfl

theorem busEffect_fetchNext (s : State) : BusEffect .dispatch s (fetchNext s) := by
  unfold fetchNext
  split
  · exact busEffect_recvThen _ _ s fun _ _ => busEffect_of_same rfl rfl rfl
  · unfold lookupNext
    split
    · exact { toRecord := .inl (writeToRecord_entryLine _ _) }
    · split <;> exact {}

theorem busEffect_dispatchNext (s : State) : BusEffect .dispatch s (dispatchNext s) := by
  unfold dispatchNext
  split
  · split
    · exact busEffect_fetchNext s
    · rename_i a hd
      exact busEffect_handlerLine a s hd
    · exact busEffect_of_same rfl rfl rfl
  · exact busEffect_of_same rfl rfl rfl

/-! ### The other agents -/

/-- The agents beside `DISPATCH` leave the bus, `LASTWR` and the running handler alone, or halt (R47, R125, R210). -/
structure BusLeft (s t : State) : Prop where
  pots : t.pots = s.pots := by rfl
  lastwr : t.lastwr = s.lastwr := by rfl
  dstate : t.dstate = s.dstate ∨ t.dstate = .halted := by exact .inl rfl

theorem BusLeft.effect {m : Move} {s t : State} (h : BusLeft s t) : BusEffect m s t := by
  obtain hd | hd := h.dstate
  · exact busEffect_of_same h.pots h.lastwr hd
  · exact {
      addresses := by rw [h.pots]
      pots := .inl h.pots
      lastwr := .inl h.lastwr
      toRecord := .inl (by rw [writeToRecord, hd]) }

theorem busLeft_deferStep (s : State) : BusLeft s (deferStep s) := by
  obtain e | ⟨k, -, -, e⟩ | ⟨-, -, -, -, e⟩ := deferStep_cases s <;> rw [e]
  · exact {}
  · cases k with
    | flush p =>
      simp only [deferLine]
      split <;> exact {}
    | _ => exact {}
  · exact {}

theorem busLeft_trigIsrStep (s : State) : BusLeft s (trigIsrStep s) := by
  obtain e | ⟨-, e⟩ | ⟨-, -, -, e⟩ := trigIsrStep_cases s <;> rw [e]
  · exact {}
  · obtain ⟨q, l, n, e'⟩ := trigServiceExit_shape s
    rw [e']
    exact {}
  · obtain ⟨a, b, c, d, l, n, e'⟩ := trigEnter_shape s
    rw [e']
    obtain ⟨-, e''⟩ | ⟨-, e''⟩ := scheduleDefer_cases _ <;> rw [e'']
    · exact {}
    · exact { dstate := .inr rfl }

theorem busLeft_rateIsrStep (s : State) : BusLeft s (rateIsrStep s) := by
  obtain e | ⟨-, e⟩ | ⟨-, -, -, e⟩ := rateIsrStep_cases s <;> rw [e]
  · exact {}
  · obtain ⟨q, l, n, e'⟩ := rateServiceExit_shape s
    rw [e']
    exact {}
  · exact {}

theorem busLeft_tick (s : State) : BusLeft s (tick s) := by
  obtain e | ⟨f, -, -, -, e⟩ := tick_cases s <;> rw [e]
  · exact {}
  · obtain ⟨l, n, c, p, e'⟩ := capture_shape f.buf f.i (advanceClocks s)
    rw [e']
    exact {}

theorem busLeft_trigEdge (e : Edge) (s : State) : BusLeft s (trigEdge e s) := by
  obtain e' | ⟨-, -, c, l, n, e'⟩ | ⟨-, -, e'⟩ := trigEdge_cases e s <;> rw [e']
  · exact {}
  · exact {}
  · obtain ⟨q, l, n, e'', -⟩ := trigEnable_shape s
    rw [e'']
    exact {}

theorem busLeft_rateEdge (e : Edge) (s : State) : BusLeft s (rateEdge e s) := by
  obtain e' | ⟨-, -, c, l, n, e'⟩ | ⟨-, -, e'⟩ := rateEdge_cases e s <;> rw [e']
  · exact {}
  · exact {}
  · obtain ⟨q, l, n, e'', -⟩ := rateEnable_shape s
    rw [e'']
    exact {}

/-! ### A whole step -/

theorem busLeft_nextState (m : Move) (s : State) (hd : m ≠ .dispatch) (hr : m ≠ .reset) :
    BusLeft s (nextState m s) := by
  cases m with
  | dispatch => exact absurd rfl hd
  | defer => exact busLeft_deferStep s
  | trigIsr => exact busLeft_trigIsrStep s
  | rateIsr => exact busLeft_rateIsrStep s
  | tick => exact busLeft_tick s
  | deliver d => exact {}
  | trigEdge e => exact busLeft_trigEdge e s
  | rateEdge e => exact busLeft_rateEdge e s
  | reset => exact absurd rfl hr

theorem busEffect_nextState (m : Move) (s : State) (hr : m ≠ .reset) : BusEffect m s (nextState m s) := by
  by_cases hd : m = .dispatch
  · subst hd
    exact busEffect_dispatchNext s
  · exact (busLeft_nextState m s hd hr).effect

/-- Settles O22: the clauses of the bus, and the positions that a reset draws again. -/
theorem potWriters : Obligations.PotWriters := by
  intro s t hst
  obtain ⟨l, n, rfl⟩ := step_next s t hst
  by_cases hm : (takeMove s).1 = .reset
  · rw [hm]
    exact ⟨redrawPositions_addresses s.resets s.pots, .inr (.inr rfl)⟩
  · have e := busEffect_nextState _ { s with schedule := l, drawn := n } hm
    exact ⟨e.addresses, e.pots.imp_right .inl⟩

/-! ### The settling delay -/

/-- Where a write handler is in its settling delay, or the block is halted (R130). -/
theorem settlingOrHalted_iff (s : State) :
    settlingOrHalted s = true ↔
      s.dstate = .exec (.potWrGain .settle) ∨ s.dstate = .exec (.potWrThr .settle) ∨ s.dstate = .halted := by
  unfold settlingOrHalted
  split <;> simp_all

/-- The wait of a write handler is left only once its settling delay has passed (R130). -/
theorem settling_potWrLine (mk : PotWrK → Activity) (addr : BusAddr) (s : State) (h : settlingOrHalted s = true) :
    settlingOrHalted (potWrLine mk addr .settle s) = true ∨ settled s = true := by
  by_cases hs : settled s = true
  · exact .inr hs
  · have hwait : potWrLine mk addr .settle s = s := if_neg hs
    exact .inl (by rwa [hwait])

theorem settling_dispatchNext (s : State) (h : settlingOrHalted s = true) :
    settlingOrHalted (dispatchNext s) = true ∨ settled s = true := by
  unfold dispatchNext
  split
  · obtain hd | hd | hd := (settlingOrHalted_iff s).mp h <;> simp only [hd]
    · exact settling_potWrLine .potWrGain s.par.gainAddr s h
    · exact settling_potWrLine .potWrThr s.par.thrAddr s h
    · exact .inl h
  · exact .inl h

/-- A settling delay ends by a halt or once it has passed (R130). -/
theorem settling_nextState (m : Move) (s : State) (hr : m ≠ .reset) (h : settlingOrHalted s = true) :
    settlingOrHalted (nextState m s) = true ∨ settled s = true := by
  by_cases hm : m = .dispatch
  · subst hm
    exact settling_dispatchNext s h
  · obtain hd | hd := (busLeft_nextState m s hm hr).dstate
    · exact .inl (by rwa [settlingOrHalted, hd])
    · exact .inl (by rw [settlingOrHalted, hd])

/-- A delay that has passed is that of the last write (R130). -/
theorem settleUs_le_of_settled {s : State} {w : LastWrite} (hs : settled s = true) (hw : s.lastwr = some w) :
    (s.par.settleUs : Int) ≤ elapsed s w.t := by
  rw [settled, hw] at hs
  exact of_decide_eq_true hs

/-! ### The invariant of the settle window -/

/-- The invariant in words. -/
theorem settleOk_iff (s : State) :
    settleOk s = true ↔ (∀ t, writeToRecord s = some t → t.toNat ≤ s.now.toNat) ∧
      ∀ w, s.lastwr = some w → w.t.toNat ≤ s.now.toNat ∧
        ((settleHazardUs : Int) ≤ elapsed s w.t ∨ settlingOrHalted s = true) := by
  unfold settleOk
  cases writeToRecord s <;> cases s.lastwr <;> simp

/-- A step keeps the invariant where time does not go back, a write to record is not from the future, and the settling
delay of the last write is left only once it has passed. -/
theorem settleOk_of_effect {m : Move} {s t : State} (h : settleOk s = true) (hdefault : s.par.settleUs = 500000)
    (hnow : s.now.toNat ≤ t.now.toNat) (he : BusEffect m s t)
    (hsettle : settlingOrHalted s = true → settlingOrHalted t = true ∨ settled s = true) : settleOk t = true := by
  obtain ⟨hrecord, hlast⟩ := (settleOk_iff s).mp h
  have helapsed (u : BitVec 64) : elapsed s u ≤ elapsed t u := by
    simp only [elapsed]
    omega
  refine (settleOk_iff t).mpr ⟨fun u hu => ?_, fun w hw => ?_⟩
  · obtain e | e | e := he.toRecord <;> rw [e] at hu
    · cases hu
    · cases hu
      exact hnow
    · exact (hrecord u hu).trans hnow
  · obtain e | ⟨w', hw', htime, hset⟩ := he.lastwr
    · rw [e] at hw
      obtain ⟨hpast, hold⟩ := hlast w hw
      refine ⟨hpast.trans hnow, ?_⟩
      obtain hold | hset := hold
      · exact .inl (hold.trans (helapsed _))
      · refine (hsettle hset).symm.imp_left fun hs => ?_
        have hle := settleUs_le_of_settled hs hw
        rw [hdefault] at hle
        exact hle.trans (helapsed _)
    · cases hw'.symm.trans hw
      exact ⟨(hrecord _ htime).trans hnow, .inr hset⟩

/-- Where a transaction begins, no handler is in its settling delay and the block is not halted (R125). -/
theorem not_settlingOrHalted_of_atBusTransaction (s : State) (h : atBusTransaction s = true) :
    settlingOrHalted s ≠ true := fun hs => by
  obtain hd | hd | hd := (settlingOrHalted_iff s).mp hs <;> rw [atBusTransaction, hd] at h <;> cases h

/-- Without a wrap, `NOW` does not go back (R37, R140). -/
theorem now_le_nextState (m : Move) (s : State) (hm : m ≠ .reset) (h : s.now.toNat + 1 < 2 ^ 64) :
    s.now.toNat ≤ (nextState m s).now.toNat := by
  have hcount : [m].count .tick ≤ 1 := List.count_le_length
  rw [nextState_now m s hm, BitVec.toNat_add, BitVec.toNat_ofNat]
  omega

/-- Settles O21: every step keeps the invariant, and at a transaction it closes the window. -/
theorem settleHazardUnreachable : Obligations.SettleHazardUnreachable := by
  refine ⟨fun s t h hdefault hwrap hst => ?_, fun s h htrans => ?_, rfl⟩
  · obtain ⟨l, n, rfl⟩ := step_next s t hst
    by_cases hm : (takeMove s).1 = .reset
    · rw [hm]
      rfl
    · exact settleOk_of_effect (s := { s with schedule := l, drawn := n }) h hdefault
        (now_le_nextState _ _ hm hwrap) (busEffect_nextState _ _ hm) (settling_nextState _ _ hm)
  · obtain ⟨-, hlast⟩ := (settleOk_iff s).mp h
    exact (settleWindow_eq_none_iff s).mpr fun w hw =>
      (hlast w hw).2.resolve_right (not_settlingOrHalted_of_atBusTransaction s htrans)

end Sys2Proof.Machine

/-! SUPPORT. The bus transactions outside and inside the settle window (R126 to R129), and the lines of the
potentiometer handlers (R130 to R134). -/

namespace Sys2Proof.Machine

/-! ### Transactions outside the settle window -/

/-- A read after a write, whichever the two addresses (R127, R128). -/
theorem Memory.read_write (m : Memory) (a b : BusAddr) (v : Byte) :
    (m.write a v).read b = if b = a then (m.read b).map fun _ => v else m.read b := by
  split
  · subst b
    exact Memory.read_write_same m a v
  · exact Memory.read_write_other m a b v ‹_›

/-- Outside the settle window a write takes effect exactly where a device answers (R128). -/
theorem busWrite_outside (a : BusAddr) (v : Byte) (s : State) (h : settleWindow s = none) :
    busWrite a v s =
      if (s.pots.read a).isSome then (true, { s with pots := s.pots.write a v }) else (false, s) := by
  cases hr : s.pots.read a with
  | none => exact busWrite_outside_absent a v s h hr
  | some g => exact busWrite_outside_present a v g s h hr

/-! ### Transactions inside the settle window -/

/-- The positions that the settle hazard leaves: the device of the write `w` has its old or its new position (R129). -/
def hazardPots (w : LastWrite) (c : Bool) (m : Memory) : Memory := m.write w.a (if c then w.new else w.old)

/-- The hazard leaves every device but the one written last alone (R129). -/
theorem hazardPots_read (w : LastWrite) (c : Bool) (m : Memory) (b : BusAddr) :
    (hazardPots w c m).read b =
      if b = w.a then (m.read b).map (fun _ => if c then w.new else w.old) else m.read b :=
  Memory.read_write m w.a b _

/-- The hazard removes no device and adds none (R115 row 8, R129). -/
theorem hazardPots_isSome (w : LastWrite) (c : Bool) (m : Memory) (a : BusAddr) :
    ((hazardPots w c m).read a).isSome = (m.read a).isSome :=
  Memory.read_write_isSome m w.a a _

/-- A write less than the hazard's bound ago is inside its settle window (R129). -/
theorem settleWindow_eq_some {s : State} {w : LastWrite} (hw : s.lastwr = some w)
    (h : elapsed s w.t < (settleHazardUs : Int)) : settleWindow s = some w := by
  rw [settleWindow, hw]
  exact if_pos h

section Inside

/-! A transaction begins inside the settle window of `w`; the first listed draw is `c`. -/

variable {s : State} {w : LastWrite} {c : Bool} {cs : List Bool} (hw : settleWindow s = some w)
include hw

theorem settleHazard_listed (hc : s.coinIn = c :: cs) :
    settleHazard s = { s with pots := hazardPots w c s.pots, coinIn := cs } := by
  simp only [settleHazard, hw, coin_listed s c cs hc]
  rfl

theorem busRead_inside (a : BusAddr) (hc : s.coinIn = c :: cs) :
    busRead a s = ((hazardPots w c s.pots).read a, { s with pots := hazardPots w c s.pots, coinIn := cs }) := by
  rw [busRead, settleHazard_listed hw hc]

theorem busProbe_inside (a : BusAddr) (hc : s.coinIn = c :: cs) :
    busProbe a s = ((s.pots.read a).isSome, { s with pots := hazardPots w c s.pots, coinIn := cs }) := by
  rw [busProbe, settleHazard_listed hw hc, ← hazardPots_isSome w c s.pots a]

/-- A write to an absent device takes the first draw alone (R128, R129; log entry 17). -/
theorem busWrite_inside_absent (a : BusAddr) (v : Byte) (hc : s.coinIn = c :: cs) (habs : s.pots.read a = none) :
    busWrite a v s = (false, { s with pots := hazardPots w c s.pots, coinIn := cs }) := by
  have hnone : (hazardPots w c s.pots).read a = none := by
    rw [← Option.isNone_iff_eq_none, ← Option.not_isSome, hazardPots_isSome, habs]
    rfl
  simp only [busWrite, settleHazard_listed hw hc, hnone]

/-- A write to a device that answers is acknowledged; a second draw keeps or loses its effect (R128, R129). -/
theorem busWrite_inside_present {c2 : Bool} (a : BusAddr) (v : Byte) (hc : s.coinIn = c :: c2 :: cs)
    (hpres : (s.pots.read a).isSome = true) :
    busWrite a v s =
      (true, { s with
        pots := if c2 then (hazardPots w c s.pots).write a v else hazardPots w c s.pots, coinIn := cs }) := by
  obtain ⟨g, hg⟩ := Option.isSome_iff_exists.mp ((hazardPots_isSome w c s.pots a).trans hpres)
  have hcoin := coin_listed { s with pots := hazardPots w c s.pots, coinIn := c2 :: cs } c2 cs rfl
  simp only [busWrite, settleHazard_listed hw hc, hg, hw, hcoin]
  cases c2 <;> rfl

end Inside

/-- Settles O13: the transactions outside the settle window, then inside it. -/
theorem busTransactions : Obligations.BusTransactions := by
  refine fun s a v => ⟨fun hold => ?_, fun w c1 c2 cs hlast hnew hc => ?_⟩
  · have hout : settleWindow s = none := (settleWindow_eq_none_iff s).mpr hold
    exact ⟨busProbe_outside a s hout, busRead_outside a s hout, busWrite_outside a v s hout⟩
  · have hin : settleWindow s = some w := settleWindow_eq_some hlast hnew
    refine ⟨hazardPots w c1 s.pots, hazardPots_read w c1 s.pots, busProbe_inside hin a hc, busRead_inside hin a hc, ?_⟩
    split
    · exact busWrite_inside_present hin a v hc ‹_›
    · exact busWrite_inside_absent hin a v hc (by simpa using ‹¬(s.pots.read a).isSome = true›)

/-! ### The lines of `POT.RD` and `BUS.SCAN` -/

/-- Settles O14: the entry, then the line that `DSTATE` names. -/
theorem potReadLines : Obligations.PotReadLines := by
  intro s
  have hline (k : PotRdK) (hd : s.dstate = .exec (.potRd k)) : exec .potRd s = .next (potRdLine k s) :=
    exec_of_running _ _ s hd rfl
  refine ⟨exec_of_idle .potRd s, hline .readGain, fun g => hline (.gotGain (some g)), fun habs => ?_,
    fun g h => hline (.gotBoth g (some h)), hline .ret⟩
  obtain hd | ⟨g, hd⟩ := habs
  · exact hline (.gotGain none) hd
  · exact hline (.gotBoth g none) hd

/-- Settles O15: the entry, then the line that `DSTATE` names. -/
theorem busScanLines : Obligations.BusScanLines := by
  intro s
  have hline (k : ScanK) (hd : s.dstate = .exec (.busScan k)) : exec .busScan s = .next (busScanLine k s) :=
    exec_of_running _ _ s hd rfl
  exact ⟨exec_of_idle .busScan s, fun a rest found => hline (.probe (a :: rest) found),
    fun found => hline (.probe [] found), hline .ret⟩

/-! ### The lines of the two writes -/

/-- The opcode `i` is one of the two potentiometer writes, `mk` its handler and `addr` its fixed address in a block with
the parameters `p` (R133, R134). -/
def IsPotWrite (p : Params) (i : Instr) (mk : PotWrK → Activity) (addr : BusAddr) : Prop :=
  (i = .potWrGain ∧ mk = .potWrGain ∧ addr = p.gainAddr) ∨ (i = .potWrThr ∧ mk = .potWrThr ∧ addr = p.thrAddr)

/-- The handler of a potentiometer write begins with its receive (R130). -/
theorem IsPotWrite.entryLine_eq {p : Params} {i : Instr} {mk : PotWrK → Activity} {addr : BusAddr}
    (h : IsPotWrite p i mk addr) : entryLine i = mk .recv := by
  obtain ⟨rfl, rfl, -⟩ | ⟨rfl, rfl, -⟩ := h <;> rfl

/-- The lines of a potentiometer write are those of the shared handler with its own address (R130). -/
theorem IsPotWrite.handlerLine_eq {p : Params} {i : Instr} {mk : PotWrK → Activity} {addr : BusAddr}
    (h : IsPotWrite p i mk addr) :
    ∃ fixed : Params → BusAddr, addr = fixed p ∧ ∀ k u, handlerLine (mk k) u = potWrLine mk (fixed u.par) k u := by
  obtain ⟨-, rfl, rfl⟩ | ⟨-, rfl, rfl⟩ := h
  · exact ⟨Params.gainAddr, rfl, fun _ _ => rfl⟩
  · exact ⟨Params.thrAddr, rfl, fun _ _ => rfl⟩

/-- At a line of a potentiometer write, `exec` runs that line (R105). -/
theorem IsPotWrite.exec_eq {i : Instr} {mk : PotWrK → Activity} {addr : BusAddr} {s : State}
    (h : IsPotWrite s.par i mk addr) (k : PotWrK) (hd : s.dstate = .exec (mk k)) :
    exec i s = .next (potWrLine mk addr k s) := by
  have hi : (mk k).instr = some i := by obtain ⟨rfl, rfl, -⟩ | ⟨rfl, rfl, -⟩ := h <;> rfl
  obtain ⟨fixed, rfl, hmk⟩ := h.handlerLine_eq
  rw [exec_of_running (mk k) i s hd hi, hmk]

/-- The receive takes the first byte of its datagram, however long (R90, R64). -/
theorem potWrLine_recv (mk : PotWrK → Activity) (addr : BusAddr) (pos : Byte) (more : List Byte)
    (rest : List Datagram) (s : State) (hc : s.cin = (pos :: more) :: rest) :
    potWrLine mk addr .recv s = goto (mk (.write pos)) { s with cin := rest } := by
  rw [potWrLine, recvThen_of_long 1 _ s _ rest hc (Nat.le_add_left 1 more.length)]
  rfl

/-- The write to a device that answers, outside the settle window (R128, R130). -/
theorem potWrLine_write_present (mk : PotWrK → Activity) (addr : BusAddr) (pos old : Byte) (s : State)
    (hw : settleWindow s = none) (hold : s.pots.read addr = some old) :
    potWrLine mk addr (.write pos) s =
      goto (mk (.record s.now old pos)) { s with pots := s.pots.write addr pos } := by
  rw [potWrLine, potWriteIssue_present addr pos old s hw hold]

/-- The write to an absent device, outside the settle window (R128, R130). -/
theorem potWrLine_write_absent (mk : PotWrK → Activity) (addr : BusAddr) (pos : Byte) (s : State)
    (hw : settleWindow s = none) (habs : s.pots.read addr = none) :
    potWrLine mk addr (.write pos) s = goto (mk .absent) s := by
  rw [potWrLine, potWriteIssue_absent addr pos s hw habs]

/-- The position that a write to a device that answers sets, and the others' (R128). -/
theorem read_write_of_present {m : Memory} {addr : BusAddr} {old : Byte} (hold : m.read addr = some old) (pos : Byte) :
    (m.write addr pos).read addr = some pos ∧ ∀ b, b ≠ addr → (m.write addr pos).read b = m.read b :=
  ⟨by rw [Memory.read_write_same, hold]; rfl, fun b => Memory.read_write_other m addr b pos⟩

/-- The settling delay is over once `SETTLE_US` has passed since the last write (R130). -/
theorem settled_iff {s : State} {w : LastWrite} (hw : s.lastwr = some w) :
    settled s = true ↔ (s.par.settleUs : Int) ≤ elapsed s w.t := by
  rw [settled, hw]
  exact decide_eq_true_iff

/-- Settles O16: the entry, then the line that `DSTATE` names. -/
theorem potWriteLines : Obligations.PotWriteLines := by
  intro i mk s addr hi
  have hline := IsPotWrite.exec_eq hi
  refine ⟨fun hd => ?_, fun pos more rest hd hc => ?_, fun pos old hd hw hold => ?_,
    fun t old pos => hline (.record t old pos), fun pos hd hw habs => ?_, hline .absent, fun w hd hlast => ?_,
    hline .ret⟩
  · rw [exec_of_idle i s hd, IsPotWrite.entryLine_eq hi]
    rfl
  · rw [hline .recv hd, potWrLine_recv mk addr pos more rest s hc]
    rfl
  · obtain ⟨hsame, hother⟩ := read_write_of_present hold pos
    refine ⟨_, hsame, hother, ?_⟩
    rw [hline (.write pos) hd, potWrLine_write_present mk addr pos old s hw hold]
    rfl
  · rw [hline (.write pos) hd, potWrLine_write_absent mk addr pos s hw habs]
    rfl
  · rw [hline .settle hd, potWrLine]
    exact congrArg _ (if_congr (settled_iff hlast) rfl rfl)

/-- Settles O17: the write transaction inside the window, and the record or the raise that follows. -/
theorem potWriteInWindow : Obligations.PotWriteInWindow := by
  intro i mk s addr pos w c1 hi hd hlast hnew
  have hin : settleWindow s = some w := settleWindow_eq_some hlast hnew
  have hexec : exec i s = .next (potWrLine mk addr (.write pos) s) := IsPotWrite.exec_eq hi _ hd
  refine ⟨fun old c2 cs hc hold => ?_, fun cs hc habs => ?_⟩
  · have hown : (hazardPots w c1 s.pots).read addr =
        some (if addr = w.a then (if c1 then w.new else w.old) else old) := by
      rw [hazardPots_read, hold]
      split <;> rfl
    obtain ⟨hsame, hother⟩ := read_write_of_present hown pos
    refine ⟨if c2 then (hazardPots w c1 s.pots).write addr pos else hazardPots w c1 s.pots, fun b hb => ?_, ?_, ?_⟩
    · rw [← hazardPots_read]
      cases c2
      · rfl
      · exact hother b hb
    · cases c2
      · exact hown
      · exact hsame
    · rw [hexec, potWrLine, potWriteIssue, busWrite_inside_present hin addr pos hc (by rw [hold]; rfl), hold]
      rfl
  · refine ⟨hazardPots w c1 s.pots, hazardPots_read w c1 s.pots, ?_⟩
    rw [hexec, potWrLine, potWriteIssue, busWrite_inside_absent hin addr pos hc habs]
    rfl

end Sys2Proof.Machine

/-! SUPPORT. Whole potentiometer commands from any state that awaits a request (R130 to R135): the moves up to the
handler's first line, then the way of each handler to its return or to its settling delay. -/

namespace Sys2Proof.Machine

/-! ### From the request to the handler -/

/-- What `n` listed moves do to a state that lists them. -/
theorem Drives.run {l : List Move} {s t : State} (h : Drives l s t) {n : Nat} (ms : List Move)
    (hs : s.schedule = l ++ ms) (hn : l.length = n) : runFor n s = .next { t with schedule := ms } := by
  have hrun := h ms
  rwa [← hs, hn] at hrun

/-- A request at the head of `CIN` is received and looked up in two moves: its handler is at its first line (R106). -/
theorem dispatches_request (i : Instr) (s : State) (rest : List Datagram) (hw : awaitsRequest s = true)
    (hc : s.cin = encode i :: rest) : Dispatches 2 s (goto (entryLine i) { s with cin := rest }) := by
  obtain ⟨hd, -, -⟩ := (awaitsRequest_iff s).mp hw
  intro ms
  obtain ⟨u, hreceive, hlookup⟩ := stepRunsOpcode.1 { s with schedule := .dispatch :: .dispatch :: ms } ms _ rest i rfl
    hw hc (decodeOpcode_encode i)
  have henter := hlookup.trans (exec_of_idle i { s with schedule := ms, cin := rest } hd)
  exact (runFor_succ 1 _ _ hreceive).trans (runFor_succ 0 _ _ henter)

/-- A return to the `IDLE` that the request was issued in (R107). -/
theorem handlerReturn_of_idle (s : State) (hd : s.dstate = .idle) : handlerReturn s = { s with mode := .none } := by
  rw [handlerReturn, ← hd]

/-- Moves of `DISPATCH` up to a return, from an `IDLE` (R107). -/
theorem Dispatches.run_return {k : Nat} {s t : State} (h : Dispatches k s (handlerReturn t)) (hd : t.dstate = .idle)
    (ms : List Move) (hs : s.schedule = List.replicate k .dispatch ++ ms) :
    runFor k s = .next { t with schedule := ms, mode := .none } := by
  rw [handlerReturn_of_idle t hd] at h
  exact h.run ms hs List.length_replicate

/-! ### `POT.RD` -/

section Read

/-! Nothing holds the dispatcher, outside a settle window. -/

variable {s : State} (hr : dispatchReady s = true) (hw : settleWindow s = none)
include hr

theorem dispatches_ret {a : Activity} (hret : ∀ u, handlerLine a u = handlerReturn u) :
    Dispatches 1 (goto a s) (handlerReturn s) :=
  .line hr (fun _ => hret _) (.refl _)

/-- An absent device is raised in one line, and the handler has returned (R131, R213). -/
theorem dispatches_abort {a : Activity} (habs : ∀ u, handlerLine a u = raiseAbort u) :
    Dispatches 1 (goto a s) (raiseAbort s) :=
  .line hr (fun _ => habs _) (.refl _)

include hw

theorem dispatches_readGain :
    Dispatches 1 (goto (.potRd .readGain) s) (goto (.potRd (.gotGain (s.pots.read s.par.gainAddr))) s) :=
  .line hr (fun ms => by
    rw [handlerLine, potRdLine, busRead_outside]
    · rfl
    · exact hw) (.refl _)

theorem dispatches_readThr (g : Byte) :
    Dispatches 1 (goto (.potRd (.gotGain (some g))) s) (goto (.potRd (.gotBoth g (s.pots.read s.par.thrAddr))) s) :=
  .line hr (fun ms => by
    rw [handlerLine, potRdLine, busRead_outside]
    · rfl
    · exact hw) (.refl _)

/-- Both devices answer: both positions are sent (R131). -/
theorem dispatches_potRd_both {g h : Byte} (hg : s.pots.read s.par.gainAddr = some g)
    (hh : s.pots.read s.par.thrAddr = some h) :
    Dispatches 4 (goto (.potRd .readGain) s) (handlerReturn (cmdSend [g, h] s)) := by
  have hgain := dispatches_readGain hr hw
  have hthr := dispatches_readThr hr hw g
  rw [hg] at hgain
  rw [hh] at hthr
  have hsend : Dispatches 1 (goto (.potRd (.gotBoth g (some h))) s) (goto (.potRd .ret) (cmdSend [g, h] s)) :=
    .line hr (fun _ => rfl) (.refl _)
  have hret : Dispatches 1 (goto (.potRd .ret) (cmdSend [g, h] s)) (handlerReturn (cmdSend [g, h] s)) :=
    dispatches_ret (s := cmdSend [g, h] s) hr fun _ => rfl
  exact hgain.trans (hthr.trans (hsend.trans hret))

/-- The gain device is absent: the handler ends before the threshold read (R131, R213). -/
theorem dispatches_potRd_noGain (hg : s.pots.read s.par.gainAddr = none) :
    Dispatches 2 (goto (.potRd .readGain) s) (raiseAbort s) := by
  have hgain := dispatches_readGain hr hw
  rw [hg] at hgain
  exact hgain.trans (dispatches_abort hr fun _ => rfl)

/-- The threshold device is absent (R131, R213). -/
theorem dispatches_potRd_noThr {g : Byte} (hg : s.pots.read s.par.gainAddr = some g)
    (hh : s.pots.read s.par.thrAddr = none) : Dispatches 3 (goto (.potRd .readGain) s) (raiseAbort s) := by
  have hgain := dispatches_readGain hr hw
  have hthr := dispatches_readThr hr hw g
  rw [hg] at hgain
  rw [hh] at hthr
  exact hgain.trans (hthr.trans (dispatches_abort hr fun _ => rfl))

end Read

/-- Settles O18: the request, then the handler's way with both devices, without the first, without the second. -/
theorem potReadRun : Obligations.PotReadRun := by
  intro s ms rest hawait hw hc
  obtain ⟨hd, -, hr⟩ := (awaitsRequest_iff s).mp hawait
  have hrequest := dispatches_request .potRd s rest hawait hc
  refine ⟨fun g h hs hg hh => ?_, fun hs hg => ?_, fun g hs hg hh => ?_⟩
  · exact (hrequest.trans (dispatches_potRd_both (s := { s with cin := rest }) hr hw hg hh)).run_return hd ms hs
  · exact Dispatches.run_return (t := { s with cin := rest, buserr := s.buserr + 1 })
      (hrequest.trans (dispatches_potRd_noGain (s := { s with cin := rest }) hr hw hg)) hd ms hs
  · exact Dispatches.run_return (t := { s with cin := rest, buserr := s.buserr + 1 })
      (hrequest.trans (dispatches_potRd_noThr (s := { s with cin := rest }) hr hw hg hh)) hd ms hs

/-! ### `BUS.SCAN` -/

/-- The probes of all addresses, the response and the return (R132). -/
theorem dispatches_busScan_lines (s : State) (hr : dispatchReady s = true) (hw : settleWindow s = none) :
    Dispatches (127 + 2) (goto (.busScan (.probe scanOrder [])) s)
      (handlerReturn (cmdSend (scanResponse (scanOrder.filter fun a => (s.pots.read a).isSome)) s)) := by
  have hprobes := dispatches_probes scanOrder [] s hr hw
  rw [scanOrder_length] at hprobes
  have hsend : Dispatches 1 (goto (.busScan (.probe [] (scanOrder.filter fun a => (s.pots.read a).isSome))) s)
      (goto (.busScan .ret) (cmdSend (scanResponse (scanOrder.filter fun a => (s.pots.read a).isSome)) s)) :=
    .line hr (fun _ => rfl) (.refl _)
  have hret := dispatches_ret (s := cmdSend (scanResponse (scanOrder.filter fun a => (s.pots.read a).isSome)) s)
    (a := .busScan .ret) hr fun _ => rfl
  exact hprobes.trans (hsend.trans hret)

/-- Settles O19: the request, then the probes of all addresses, the response and the return. -/
theorem busScanRun : Obligations.BusScanRun := by
  rintro s ms rest found hawait hw hc hs rfl
  obtain ⟨hd, -, hr⟩ := (awaitsRequest_iff s).mp hawait
  have hlines := dispatches_busScan_lines { s with cin := rest } hr hw
  exact ((dispatches_request .busScan s rest hawait hc).trans hlines).run_return hd ms hs

/-! ### The two writes -/

/-- What an acknowledged write leaves once it is recorded and `k` ticks have passed (R39, R128, R130, R140; log
entry 7). -/
def ticksAfterWrite (k : Nat) (addr : BusAddr) (old pos : Byte) (s : State) : State :=
  { s with
    pots := s.pots.write addr pos
    now := s.now + BitVec.ofNat 64 k
    tsec := (timerAdvance^[k] (s.tsec, s.tusec)).1
    tusec := (timerAdvance^[k] (s.tsec, s.tusec)).2
    lastwr := some { t := s.now, a := addr, old := old, new := pos } }

theorem afterTicks_recordWrite (k : Nat) (addr : BusAddr) (old pos : Byte) (s : State) :
    afterTicks k (recordWrite s.now addr old pos { s with pots := s.pots.write addr pos }) =
      ticksAfterWrite k addr old pos s := rfl

/-- Without a wrap of `NOW`, the settling delay of a write is over from `SETTLE_US` ticks on, and not before (R130). -/
theorem settled_ticksAfterWrite (k : Nat) (addr : BusAddr) (old pos : Byte) (s : State)
    (h : s.now.toNat + k < 2 ^ 64) :
    settled (ticksAfterWrite k addr old pos s) = decide (s.par.settleUs ≤ k) := by
  have helapsed : elapsed (ticksAfterWrite k addr old pos s) s.now = k := by
    have hadd := elapsed_afterTicks k s s.now h
    rwa [elapsed_now, Int.zero_add] at hadd
  rw [Bool.eq_iff_iff, settled_iff (w := { t := s.now, a := addr, old := old, new := pos }) rfl, decide_eq_true_iff,
    helapsed]
  exact Int.ofNat_le

section Write

/-! `mk` is a potentiometer write handler and `addr` its fixed address; nothing holds the dispatcher. -/

variable {s : State} {mk : PotWrK → Activity} {addr : Params → BusAddr} {pos : Byte}
  (hmk : ∀ k u, handlerLine (mk k) u = potWrLine mk (addr u.par) k u) (hr : dispatchReady s = true)
include hmk hr

/-- One line of the handler, whatever is listed after it. -/
theorem dispatches_potWrLine {k : PotWrK} {t : State}
    (hline : ∀ ms, potWrLine mk (addr s.par) k { goto (mk k) s with schedule := ms } = { t with schedule := ms }) :
    Dispatches 1 (goto (mk k) s) t :=
  .line hr (fun ms => (hmk k { goto (mk k) s with schedule := ms }).trans (hline ms)) (.refl _)

/-- The receive takes the position (R130). -/
theorem dispatches_potWr_recv {more : List Byte} {rest : List Datagram} (hc : s.cin = (pos :: more) :: rest) :
    Dispatches 1 (goto (mk .recv) s) (goto (mk (.write pos)) { s with cin := rest }) :=
  dispatches_potWrLine hmk hr fun ms =>
    potWrLine_recv mk _ pos more rest { goto (mk .recv) s with schedule := ms } hc

/-- To a device that answers, outside a settle window: the write, its record, and `k` ticks of the settling delay
(R130). -/
theorem drives_potWr_present {old : Byte} (hw : settleWindow s = none) (hfill : s.fill = none)
    (hold : s.pots.read (addr s.par) = some old) (k : Nat) :
    Drives (List.replicate 2 .dispatch ++ List.replicate k .tick) (goto (mk (.write pos)) s)
      (goto (mk .settle) (ticksAfterWrite k (addr s.par) old pos s)) := by
  have hwrite : Dispatches 1 (goto (mk (.write pos)) s)
      (goto (mk (.record s.now old pos)) { s with pots := s.pots.write (addr s.par) pos }) :=
    dispatches_potWrLine hmk hr fun ms =>
      potWrLine_write_present mk _ pos old { goto (mk (.write pos)) s with schedule := ms } hw hold
  have hrecord : Dispatches 1 (goto (mk (.record s.now old pos)) { s with pots := s.pots.write (addr s.par) pos })
      (goto (mk .settle) (recordWrite s.now (addr s.par) old pos { s with pots := s.pots.write (addr s.par) pos })) :=
    dispatches_potWrLine (s := { s with pots := s.pots.write (addr s.par) pos }) hmk hr fun _ => rfl
  rw [← afterTicks_recordWrite]
  exact (hwrite.trans hrecord).append (drives_ticks k _ hfill)

/-- To an absent device, outside a settle window: the write and the abort (R130, R213). -/
theorem dispatches_potWr_absent (hw : settleWindow s = none) (habs : s.pots.read (addr s.par) = none) :
    Dispatches 2 (goto (mk (.write pos)) s) (raiseAbort s) := by
  have hwrite : Dispatches 1 (goto (mk (.write pos)) s) (goto (mk .absent) s) :=
    dispatches_potWrLine hmk hr fun ms =>
      potWrLine_write_absent mk _ pos { goto (mk (.write pos)) s with schedule := ms } hw habs
  exact hwrite.trans (dispatches_potWrLine hmk hr fun _ => rfl)

/-- With fewer than `SETTLE_US` ticks the handler waits (R130). -/
theorem stands_ticksAfterWrite (a : BusAddr) (old new : Byte) {k : Nat} (hk : k < s.par.settleUs)
    (hwrap : s.now.toNat + s.par.settleUs < 2 ^ 64) : Stands (goto (mk .settle) (ticksAfterWrite k a old new s)) := by
  have hsettled := settled_ticksAfterWrite k a old new s (by omega)
  rw [decide_eq_false (Nat.not_le_of_lt hk)] at hsettled
  exact stands_potWrite_settle (s := ticksAfterWrite k a old new s) hmk hr hsettled

/-- After `SETTLE_US` ticks it returns, to the `IDLE` that the request was issued in (R107, R130). -/
theorem dispatches_ticksAfterWrite (a : BusAddr) (old new : Byte) (hd : s.dstate = .idle)
    (hwrap : s.now.toNat + s.par.settleUs < 2 ^ 64) :
    Dispatches 2 (goto (mk .settle) (ticksAfterWrite s.par.settleUs a old new s))
      { ticksAfterWrite s.par.settleUs a old new s with mode := .none } := by
  have hsettled := settled_ticksAfterWrite s.par.settleUs a old new s hwrap
  rw [decide_eq_true (Nat.le_refl _)] at hsettled
  rw [← handlerReturn_of_idle (ticksAfterWrite s.par.settleUs a old new s) hd]
  exact dispatches_potWrite_settled (s := ticksAfterWrite s.par.settleUs a old new s) hmk hr hsettled

end Write

/-- Settles O20: the request and the write up to its settling delay or its abort; then the ticks, and the return or the
wait that goes on. -/
theorem potWriteRun : Obligations.PotWriteRun := by
  intro s ms i mk addr pos more rest hi hawait hw hc
  obtain ⟨hd, -, hr⟩ := (awaitsRequest_iff s).mp hawait
  obtain ⟨fixed, rfl, hmk⟩ := IsPotWrite.handlerLine_eq hi
  have hrequest := dispatches_request i s _ hawait hc
  rw [IsPotWrite.entryLine_eq hi] at hrequest
  have hrecv : Dispatches 3 s (goto (mk (.write pos)) { s with cin := rest }) :=
    hrequest.trans (dispatches_potWr_recv (s := { s with cin := (pos :: more) :: rest }) hmk hr rfl)
  refine ⟨fun old hfill hwrap hold => ?_, fun habs hs => ?_⟩
  · obtain ⟨hsame, hother⟩ := read_write_of_present hold pos
    have hticks (k : Nat) : Drives (List.replicate 5 .dispatch ++ List.replicate k .tick) s
        (goto (mk .settle) (ticksAfterWrite k (fixed s.par) old pos { s with cin := rest })) :=
      hrecv.append (drives_potWr_present (s := { s with cin := rest }) hmk hr hw hfill hold k)
    refine ⟨_, hsame, hother, fun hs => ?_, fun k j hk hs => ?_⟩
    · have hret := dispatches_ticksAfterWrite (s := { s with cin := rest }) hmk hr (fixed s.par) old pos hd hwrap
      exact ((hticks s.par.settleUs).append hret).run ms hs (by simp)
    · have hstands := stands_ticksAfterWrite (s := { s with cin := rest }) hmk hr (fixed s.par) old pos hk hwrap
      exact ((hticks k).append (hstands.dispatches j)).run ms hs (by simp)
  · exact Dispatches.run_return (t := { s with cin := rest, buserr := s.buserr + 1 })
      (hrecv.trans (dispatches_potWr_absent (s := { s with cin := rest }) hmk hr hw habs)) hd ms hs

end Sys2Proof.Machine

/-! SUPPORT. What R6 guarantees of the periods of a built block. -/

namespace Sys2Proof

theorem Board.streamPeriodUs_min (b : Board) : 1 ≤ b.params.streamPeriodUs := by
  simpa [Params.meets] using b.meets .streamPeriodMin

theorem Board.polledPeriodUs_min (b : Board) : 1 ≤ b.params.polledPeriodUs := by
  simpa [Params.meets] using b.meets .polledPeriodMin

end Sys2Proof

/-! SUPPORT. The packer of TimedSample records (R147 to R152) and the sampling timer's advance (R140, R141), then what
one tick does. -/

namespace Sys2Proof.Machine

/-! ### Records -/

/-- A masked value is itself where it fits under the mask. -/
theorem and_mask_of_lt {n k : Nat} (h : n < 2 ^ k) : n &&& (2 ^ k - 1) = n :=
  (Nat.and_two_pow_sub_one_eq_mod n k).trans (Nat.mod_eq_of_lt h)

/-- The second word of a record is the fraction field above the sample (R147, R148). -/
theorem pack_snd (sec : BitVec 32) (usec : BitVec 20) (adc : Sample) : (pack sec usec adc).2 = usec ++ adc := by
  have husec := usec.isLt
  have hfrac : (usec.setWidth 32 &&& 0xFFFFF).toNat = usec.toNat := by
    rw [BitVec.toNat_and, BitVec.toNat_setWidth, Nat.mod_eq_of_lt (by omega)]
    exact and_mask_of_lt husec
  have hlow : (adc.setWidth 32 &&& 0xFFF).toNat = adc.toNat := by
    rw [BitVec.toNat_and, BitVec.toNat_setWidth, Nat.mod_eq_of_lt (by omega)]
    exact and_mask_of_lt adc.isLt
  have hshift : usec.toNat <<< 12 < 2 ^ 32 := by rw [Nat.shiftLeft_eq]; omega
  apply BitVec.eq_of_toNat_eq
  rw [pack, BitVec.toNat_or, BitVec.toNat_shiftLeft, hfrac, hlow, Nat.mod_eq_of_lt hshift, BitVec.toNat_append]

/-- Settles O25: the second word is the fraction field above the sample, and both fields fit under their masks. -/
theorem packWords : Obligations.PackWords := by
  intro sec usec adc
  have husec : usec.toNat &&& 0xFFFFF = usec.toNat := and_mask_of_lt usec.isLt
  have hadc : adc.toNat &&& 0xFFF = adc.toNat := and_mask_of_lt adc.isLt
  rw [pack_snd, BitVec.toNat_append, husec, hadc]
  exact ⟨rfl, rfl⟩

/-- The four bytes of a word are its bytes from the least significant one up (R11). -/
theorem leBytes_word (w : BitVec 32) :
    leBytes 4 w.toNat = [w.extractLsb' 0 8, w.extractLsb' 8 8, w.extractLsb' 16 8, w.extractLsb' 24 8] := by
  have hbyte (k : Nat) : BitVec.ofNat 8 (w.toNat / 2 ^ k) = w.extractLsb' k 8 :=
    BitVec.eq_of_toNat_eq (by simp [BitVec.extractLsb'_toNat, Nat.shiftRight_eq_div_pow])
  rw [← hbyte 0, ← hbyte 8, ← hbyte 16, ← hbyte 24]
  simp [leBytes, Nat.div_div_eq_div_mul]

/-- Settles O26: each byte of the second word lies in the fraction field, in the sample, or across the two. -/
theorem packWireLayout : Obligations.PackWireLayout := by
  intro sec usec adc
  have hsample : (usec ++ adc).extractLsb' 0 8 = adc.extractLsb' 0 8 :=
    BitVec.extractLsb'_append_eq_of_add_le (by decide)
  have hacross : (usec ++ adc).extractLsb' 8 8 = usec.extractLsb' 0 4 ++ adc.extractLsb' 8 4 :=
    BitVec.extractLsb'_append_eq_ite
  have hmiddle : (usec ++ adc).extractLsb' 16 8 = usec.extractLsb' 4 8 := BitVec.extractLsb'_append_eq_of_le (by decide)
  have htop : (usec ++ adc).extractLsb' 24 8 = usec.extractLsb' 12 8 := BitVec.extractLsb'_append_eq_of_le (by decide)
  rw [pairBytes, leBytes_word, leBytes_word, pack_snd, hsample, hacross, hmiddle, htop]
  rfl

/-- The fraction field of a packed sample is its microsecond value (R148, R152). -/
theorem pairFraction_pack (sec : BitVec 32) (usec : BitVec 20) (adc : Sample) :
    pairFraction (pack sec usec adc) = usec.toNat := by
  rw [pairFraction, pack_snd, BitVec.toNat_and, BitVec.toNat_ushiftRight, BitVec.toNat_append,
    Nat.shiftRight_or_distrib, Nat.shiftLeft_shiftRight, Nat.shiftRight_eq_zero _ _ adc.isLt, Nat.or_zero]
  exact and_mask_of_lt usec.isLt

/-- Settles O27: the two fields of the second word, read back. -/
theorem unpackPacked : Obligations.UnpackPacked := by
  intro sec usec adc _
  refine ⟨?_, ?_⟩
  · rw [unpackAdc, pack_snd, BitVec.extractLsb'_append_eq_of_add_le (by decide), BitVec.extractLsb'_eq_self]
  · rw [unpackTime, pairFraction_pack]
    norm_num [pack]

/-! ### The sampling timer -/

/-- The sampling timer's value at a count of microseconds, modulo `2^32` seconds (R141, R145). -/
def timerAt (micros : Nat) : BitVec 32 × BitVec 20 :=
  (BitVec.ofNat 32 (micros / 10 ^ 6), BitVec.ofNat 20 (micros % 10 ^ 6))

@[simp] theorem timerAt_zero : timerAt 0 = (0, 0) := by simp [timerAt]

/-- The two fields count microseconds together (R141, R145). -/
theorem timerAt_toNat (micros : Nat) :
    (timerAt micros).1.toNat = micros / 10 ^ 6 % 2 ^ 32 ∧ (timerAt micros).2.toNat = micros % 10 ^ 6 := by
  refine ⟨rfl, ?_⟩
  have h : micros % 10 ^ 6 < 2 ^ 20 := Nat.lt_trans (Nat.mod_lt _ (by decide)) (by decide)
  exact Nat.mod_eq_of_lt h

/-- With `TUSEC` within the second, the timer is at its count of microseconds (R141, R145). -/
theorem timerAt_timerMicros (s : State) (h : timerOk s = true) : timerAt (timerMicros s) = (s.tsec, s.tusec) := by
  have hle : s.tusec.toNat ≤ 999999 := of_decide_eq_true h
  have hsec : timerMicros s / 10 ^ 6 = s.tsec.toNat := by unfold timerMicros usPerSecond; omega
  have husec : timerMicros s % 10 ^ 6 = s.tusec.toNat := by unfold timerMicros usPerSecond; omega
  rw [timerAt, hsec, husec, BitVec.ofNat_toNat, BitVec.ofNat_toNat, BitVec.setWidth_eq, BitVec.setWidth_eq]

/-- An advance adds one microsecond (R141). -/
theorem timerAdvance_timerAt (micros : Nat) : timerAdvance (timerAt micros) = timerAt (micros + 1) := by
  obtain ⟨-, husec⟩ := timerAt_toNat micros
  by_cases h : micros % 10 ^ 6 = 999999
  · have hsec : (micros + 1) / 10 ^ 6 = micros / 10 ^ 6 + 1 := by omega
    have hzero : (micros + 1) % 10 ^ 6 = 0 := by omega
    have hlast : (timerAt micros).2 = 999999 := BitVec.eq_of_toNat_eq (husec.trans h)
    rw [timerAdvance, if_pos hlast, timerAt, timerAt, hsec, hzero, BitVec.ofNat_add]
    rfl
  · have hsec : (micros + 1) / 10 ^ 6 = micros / 10 ^ 6 := by omega
    have hnext : (micros + 1) % 10 ^ 6 = micros % 10 ^ 6 + 1 := by omega
    have hne : (timerAt micros).2 ≠ 999999 := fun hc => h (husec.symm.trans (congrArg BitVec.toNat hc))
    rw [timerAdvance, if_neg hne, timerAt, timerAt, hsec, hnext, BitVec.ofNat_add]
    rfl

theorem timerAdvance_iterate (k micros : Nat) : timerAdvance^[k] (timerAt micros) = timerAt (micros + k) := by
  induction k with
  | zero => rfl
  | succ k ih => rw [Function.iterate_succ_apply', ih, timerAdvance_timerAt, Nat.add_assoc]

/-! ### One tick -/

/-- A tick moves the clocks as `advanceClocks` does, whether or not it captures a sample (R140, R141). -/
theorem tick_clocks (s : State) :
    (tick s).now = s.now + 1 ∧ ((tick s).tsec, (tick s).tusec) = timerAdvance (s.tsec, s.tusec) := by
  obtain e | ⟨f, -, -, -, e⟩ := tick_cases s
  · rw [e]
    exact ⟨rfl, rfl⟩
  · obtain ⟨l, n, c, p, ec⟩ := capture_shape f.buf f.i (advanceClocks s)
    rw [e, ec]
    exact ⟨rfl, rfl⟩

/-- Settles O24: a tick advances the timer by one count of microseconds. -/
theorem timerCountsMicros : Obligations.TimerCountsMicros := by
  intro s h
  obtain ⟨hnow, htimer⟩ := tick_clocks s
  rw [← timerAt_timerMicros s h, timerAdvance_timerAt] at htimer
  obtain ⟨hsec, husec⟩ := timerAt_toNat (timerMicros s + 1)
  rw [← htimer] at hsec husec
  refine ⟨decide_eq_true ?_, ?_, hnow⟩
  · exact Nat.le_of_lt_succ (husec.trans_lt (Nat.mod_lt _ (by decide)))
  · have hlt := s.tsec.isLt
    have hle : s.tusec.toNat ≤ 999999 := of_decide_eq_true h
    simp only [timerMicros, usPerSecond] at hsec husec ⊢
    omega

/-- A tick with no sample due, or with every sample of the read taken, advances the clocks alone (R140, R144; log entry
24). -/
theorem tick_of_notDue (s : State) (h : ∀ f, s.fill = some f → ¬(s.now + 1 = f.due ∧ f.i < f.n)) :
    tick s = advanceClocks s := by
  obtain e | ⟨f, hf, hdue, hlt, -⟩ := tick_cases s
  · exact e
  · exact absurd ⟨hdue, hlt⟩ (h f hf)

/-- A tick at which a sample is due captures it in the same step (R144). -/
theorem tick_of_due (s : State) (f : Fill) (hf : s.fill = some f) (hdue : s.now + 1 = f.due) (hlt : f.i < f.n) :
    tick s = { capture f.buf f.i (advanceClocks s) with
      fill := some { f with i := f.i + 1, due := f.due + BitVec.ofNat 64 f.period } } := by
  unfold tick
  simp only [advanceClocks_fill, hf]
  exact if_pos ⟨hdue, hlt⟩

/-- Settles O23: the tick without a capture, then with one, whose conversion is the listed one. -/
theorem tickEffect : Obligations.TickEffect := by
  intro s ms sec usec hs hsec husec
  have hstep : step s = .next (tick { s with schedule := ms }) := step_listed s .tick ms hs
  have hclocks : advanceClocks { s with schedule := ms } =
      { s with schedule := ms, now := s.now + 1, tsec := sec, tusec := usec } := by
    rw [hsec, husec]
    unfold advanceClocks timerAdvance
    split <;> rfl
  have hquiet (h : ∀ f, s.fill = some f → ¬(s.now + 1 = f.due ∧ f.i < f.n)) :
      step s = .next { s with schedule := ms, now := s.now + 1, tsec := sec, tusec := usec } := by
    rw [hstep, ← hclocks]
    exact congrArg _ (tick_of_notDue { s with schedule := ms } h)
  refine ⟨fun hnone => hquiet fun f hf => ?_, fun f hf hnot => hquiet fun g hg => ?_, fun f hf hdue hlt => ?_⟩
  · rw [hnone] at hf
    cases hf
  · rw [hf] at hg
    cases hg
    exact hnot
  · obtain ⟨x, l, n, hx, hlisted⟩ := adcSample_spec (advanceClocks { s with schedule := ms })
    refine ⟨x, l, n, hlisted, ?_⟩
    rw [hstep, tick_of_due { s with schedule := ms } f hf hdue hlt]
    unfold capture
    rw [hx, hclocks]
    cases f.buf <;> rfl

end Sys2Proof.Machine

/-! SUPPORT. A timed read of which nothing but ticks is in the way (R144, R154): what it leaves after `k` ticks. -/

namespace Sys2Proof.Machine

/-! ### Ticks, whatever is listed after them -/

/-- A capture does not look at the schedule. -/
theorem capture_withSchedule (buf : FillBuf) (i : Nat) (s : State) (ms : List Move) :
    capture buf i { s with schedule := ms } = { capture buf i s with schedule := ms } := by
  cases buf <;> cases h : s.adcIn <;> simp [capture, adcSample, h]

/-- A tick does not look at the schedule. -/
theorem tick_withSchedule (s : State) (ms : List Move) :
    tick { s with schedule := ms } = { tick s with schedule := ms } := by
  by_cases h : ∃ f, s.fill = some f ∧ s.now + 1 = f.due ∧ f.i < f.n
  · obtain ⟨f, hf, hdue, hlt⟩ := h
    have hclocks : advanceClocks { s with schedule := ms } = { advanceClocks s with schedule := ms } := rfl
    rw [tick_of_due s f hf hdue hlt, tick_of_due { s with schedule := ms } f hf hdue hlt, hclocks, capture_withSchedule]
  · have hquiet (f : Fill) (hf : s.fill = some f) : ¬(s.now + 1 = f.due ∧ f.i < f.n) := fun hc => h ⟨f, hf, hc⟩
    rw [tick_of_notDue s hquiet, tick_of_notDue { s with schedule := ms } hquiet]
    rfl

theorem drives_tick_iterate (k : Nat) (s : State) : Drives (List.replicate k .tick) s (tick^[k] s) := by
  induction k generalizing s with
  | zero => exact Drives.refl s
  | succ k ih =>
    have hone : Drives [.tick] s (tick s) := .one (tick_withSchedule s)
    exact hone.append (ih (tick s))

/-! ### The state of a read -/

/-- The records of samples `0, 1, …` of a timed read spaced by `p`, the first one stamped with the timer value `t`
(R144, R146). -/
def stamped (p : Nat) (t : BitVec 32 × BitVec 20) (xs : List Sample) : List Pair :=
  xs.mapIdx fun i x => pack (timerAdvance^[i * p] t).1 (timerAdvance^[i * p] t).2 x

@[simp] theorem stamped_length (p : Nat) (t : BitVec 32 × BitVec 20) (xs : List Sample) :
    (stamped p t xs).length = xs.length := by
  simp [stamped]

/-- Sample `i` is stamped with the timer's value `i * p` ticks after the first (R144, R146). -/
theorem stamped_getElem? (p : Nat) (t : BitVec 32 × BitVec 20) (xs : List Sample) (i : Nat) :
    (stamped p t xs)[i]? =
      xs[i]?.map fun x => pack (timerAdvance^[i * p] t).1 (timerAdvance^[i * p] t).2 x := by
  simp [stamped]

theorem stamped_concat (p : Nat) (t : BitVec 32 × BitVec 20) (xs : List Sample) (x : Sample) :
    stamped p t (xs ++ [x]) = stamped p t xs ++
      [pack (timerAdvance^[xs.length * p] t).1 (timerAdvance^[xs.length * p] t).2 x] := by
  simp [stamped]

/-- A buffer of which the first elements have been written over by `new`. -/
def overlay {α : Type} (new old : List α) : List α := new ++ old.drop new.length

theorem overlay_length {α : Type} (new old : List α) (h : new.length ≤ old.length) :
    (overlay new old).length = old.length := by
  simp only [overlay, List.length_append, List.length_drop]
  omega

theorem overlay_getElem?_of_lt {α : Type} (new old : List α) (i : Nat) (h : i < new.length) :
    (overlay new old)[i]? = new[i]? := List.getElem?_append_left h

theorem overlay_getElem?_of_le {α : Type} (new old : List α) (i : Nat) (h : new.length ≤ i) :
    (overlay new old)[i]? = old[i]? := by
  rw [overlay, List.getElem?_append_right h, List.getElem?_drop, Nat.add_sub_cancel' h]

theorem overlay_of_length_eq {α : Type} (new old : List α) (h : new.length = old.length) : overlay new old = new := by
  rw [overlay, h, List.drop_length, List.append_nil]

/-- The write of the next element extends what has been written over (R61). -/
theorem bufWrite_overlay {α : Type} (new old : List α) (v : α) (h : new.length < old.length) :
    bufWrite (overlay new old) new.length v = overlay (new ++ [v]) old := by
  rw [bufWrite, overlay, List.set_append_right _ _ (Nat.le_refl _), Nat.sub_self, List.drop_eq_getElem_cons h,
    List.set_cons_zero, overlay, List.length_append, List.append_assoc]
  rfl

/-- The buffer that a timed read fills, in a state. -/
def bufLength (buf : FillBuf) (s : State) : Nat :=
  match buf with
  | .chunk => s.chunk.length
  | .pbuf => s.pbuf.length

/-- A timed read of `m` samples spaced by `p` that began in `s`, with `i` samples taken and `k` ticks passed (R144). -/
def readAfter (buf : FillBuf) (m p i k : Nat) (s : State) : State :=
  { afterTicks k s with
    adcIn := s.adcIn.drop i
    chunk := match buf with
      | .chunk => overlay (stamped p (s.tsec, s.tusec) (s.adcIn.take i)) s.chunk
      | .pbuf => s.chunk
    pbuf := match buf with
      | .chunk => s.pbuf
      | .pbuf => overlay ((s.adcIn.take i).map zext16) s.pbuf
    fill := some { buf := buf, n := m, i := i, due := s.now + BitVec.ofNat 64 (i * p), period := p } }

theorem dispatchReady_readAfter (buf : FillBuf) (m p i k : Nat) (s : State) :
    dispatchReady (readAfter buf m p i k s) = dispatchReady s := rfl

section Read

/-! The conversions of the read are listed and its buffer holds them. -/

variable {buf : FillBuf} {m p i k : Nat} {s : State}

/-- With its conversion listed, a capture writes one element of the buffer that it fills (R144, R146). -/
theorem capture_listed {x : Sample} {l : List Sample} (h : s.adcIn = x :: l) :
    capture buf i s =
      { s with
        adcIn := l
        chunk := match buf with
          | .chunk => bufWrite s.chunk i (pack s.tsec s.tusec x)
          | .pbuf => s.chunk
        pbuf := match buf with
          | .chunk => s.pbuf
          | .pbuf => bufWrite s.pbuf i (zext16 x) } := by
  unfold capture
  rw [adcSample_listed s x l h]
  cases buf <;> rfl

/-- A capture does not look at `FILL`. -/
theorem capture_withFill {x : Sample} {l : List Sample} (h : s.adcIn = x :: l) (f : Option Fill) :
    capture buf i { s with fill := f } = { capture buf i s with fill := f } := by
  rw [capture_listed h]
  exact capture_listed (s := { s with fill := f }) h

/-- The capture of sample `i` at the time it is due (R144, R146). -/
theorem capture_readAfter (hi : i < s.adcIn.length) (hbuf : i < bufLength buf s) (hk : k = i * p) :
    { capture buf i (readAfter buf m p i k s) with
      fill := some { buf := buf, n := m, i := i + 1, due := s.now + BitVec.ofNat 64 ((i + 1) * p), period := p } } =
    readAfter buf m p (i + 1) k s := by
  have hlisted : (readAfter buf m p i k s).adcIn = s.adcIn[i] :: s.adcIn.drop (i + 1) := List.drop_eq_getElem_cons hi
  have htake : s.adcIn.take (i + 1) = s.adcIn.take i ++ [s.adcIn[i]] := (List.take_append_getElem hi).symm
  have hlen : (s.adcIn.take i).length = i := List.length_take_of_le (Nat.le_of_lt hi)
  rw [capture_listed hlisted]
  cases buf with
  | chunk =>
    have hlen' : (stamped p (s.tsec, s.tusec) (s.adcIn.take i)).length = i := (stamped_length _ _ _).trans hlen
    have hwrite := bufWrite_overlay (stamped p (s.tsec, s.tusec) (s.adcIn.take i)) s.chunk
      (pack (timerAdvance^[k] (s.tsec, s.tusec)).1 (timerAdvance^[k] (s.tsec, s.tusec)).2 s.adcIn[i])
      (hlen'.trans_lt hbuf)
    have hnext := stamped_concat p (s.tsec, s.tusec) (s.adcIn.take i) s.adcIn[i]
    rw [hlen, ← hk] at hnext
    rw [hlen', ← hnext, ← htake] at hwrite
    simp only [readAfter, afterTicks, ← hwrite]
  | pbuf =>
    have hlen' : ((s.adcIn.take i).map zext16).length = i := (List.length_map _).trans hlen
    have hwrite := bufWrite_overlay ((s.adcIn.take i).map zext16) s.pbuf (zext16 s.adcIn[i]) (hlen'.trans_lt hbuf)
    have hnext : (s.adcIn.take (i + 1)).map zext16 = (s.adcIn.take i).map zext16 ++ [zext16 s.adcIn[i]] := by
      rw [htake, List.map_append, List.map_singleton]
    rw [hlen', ← hnext] at hwrite
    simp only [readAfter, afterTicks, ← hwrite]

/-- A read begins with sample 0 (R144). -/
theorem startFill_eq (hi : 0 < s.adcIn.length) (hbuf : 0 < bufLength buf s) :
    startFill buf m p s = readAfter buf m p 1 0 s := by
  have hlisted : s.adcIn = s.adcIn[0] :: s.adcIn.drop 1 := List.drop_eq_getElem_cons hi
  have hzero : readAfter buf m p 0 0 s =
      { s with fill := some { buf := buf, n := m, i := 0, due := s.now + BitVec.ofNat 64 (0 * p), period := p } } := by
    cases buf <;> simp [readAfter, afterTicks, overlay, stamped]
  have hcapture : capture buf 0 (readAfter buf m p 0 0 s) =
      { capture buf 0 s with fill := (readAfter buf m p 0 0 s).fill } := by
    rw [hzero]
    exact capture_withFill hlisted _
  have hfirst := capture_readAfter (m := m) hi hbuf (Nat.zero_mul p).symm
  rw [hcapture, Nat.zero_add, Nat.one_mul] at hfirst
  exact hfirst

theorem advanceClocks_readAfter : advanceClocks (readAfter buf m p i k s) = readAfter buf m p i (k + 1) s := by
  simp [advanceClocks, readAfter, afterTicks, Function.iterate_succ_apply', BitVec.add_assoc, BitVec.ofNat_add]

/-- With `r` ticks, fewer than a wrap of `NOW`, between the next tick and the one that sample `i` is due at, the next
tick is the due one exactly for `r = 0` (R144; log entry 10). -/
theorem due_readAfter_iff {r : Nat} (hr : r < 2 ^ 64) (hk : k + 1 + r = i * p) :
    (readAfter buf m p i k s).now + 1 = s.now + BitVec.ofNat 64 (i * p) ↔ r = 0 := by
  have hnow : (readAfter buf m p i k s).now = s.now + BitVec.ofNat 64 k := rfl
  have hone : (1 : BitVec 64) = BitVec.ofNat 64 1 := rfl
  rw [hnow, ← hk, BitVec.ofNat_add, BitVec.ofNat_add, ← BitVec.add_assoc, ← BitVec.add_assoc, hone,
    BitVec.self_eq_add_right, ← BitVec.toNat_inj, BitVec.toNat_ofNat, Nat.mod_eq_of_lt hr]
  rfl

theorem tick_readAfter_of_due (hi : i < s.adcIn.length) (hbuf : i < bufLength buf s) (hm : i < m) (hk : k + 1 = i * p) :
    tick (readAfter buf m p i k s) = readAfter buf m p (i + 1) (k + 1) s := by
  rw [tick_of_due _ _ rfl ((due_readAfter_iff (r := 0) (by decide) hk).mpr rfl) hm, advanceClocks_readAfter,
    ← capture_readAfter hi hbuf hk, Nat.succ_mul, BitVec.ofNat_add, BitVec.add_assoc]

theorem tick_readAfter_of_notDue (hp : p < 2 ^ 64) (hlt : k + 1 < i * p) (hge : i * p ≤ k + p) :
    tick (readAfter buf m p i k s) = readAfter buf m p i (k + 1) s := by
  obtain ⟨r, hr⟩ := Nat.exists_eq_add_of_lt hlt
  rw [tick_of_notDue, advanceClocks_readAfter]
  rintro f hf ⟨hdue, -⟩
  cases hf
  exact absurd ((due_readAfter_iff (r := r + 1) (by omega) (by omega)).mp hdue) (Nat.succ_ne_zero r)

/-- Up to its last sample a read has taken a sample at every multiple of its period (R144). -/
theorem tick_iterate_startFill (hm : 1 ≤ m) (hi : m ≤ s.adcIn.length) (hbuf : m ≤ bufLength buf s) (hp : 1 ≤ p)
    (hp' : p < 2 ^ 64) (hk : k ≤ (m - 1) * p) :
    tick^[k] (startFill buf m p s) = readAfter buf m p (k / p + 1) k s := by
  induction k with
  | zero => rw [Nat.zero_div]; exact startFill_eq (by omega) (by omega)
  | succ k ih =>
    have hdiv : k / p < m - 1 := (Nat.div_lt_iff_lt_mul hp).mpr hk
    have hmod := Nat.div_add_mod k p
    have hmul : (k / p + 1) * p = p * (k / p) + p := by rw [Nat.succ_mul, Nat.mul_comm]
    have hlt := Nat.mod_lt k hp
    rw [Function.iterate_succ_apply', ih (Nat.le_of_succ_le hk), Nat.succ_div]
    split
    · rename_i hd
      have hkp : k + 1 = (k / p + 1) * p := by rw [← Nat.succ_div_of_dvd hd, Nat.div_mul_cancel hd]
      exact tick_readAfter_of_due (by omega) (by omega) (by omega) hkp
    · rename_i hd
      have hkp : k + 1 ≠ (k / p + 1) * p := fun h => hd (h ▸ Nat.dvd_mul_left p _)
      exact tick_readAfter_of_notDue hp' (by omega) (by omega)

/-- The ticks of a whole read, up to its last sample (R144). -/
theorem drives_read (hm : 1 ≤ m) (hi : m ≤ s.adcIn.length) (hbuf : m ≤ bufLength buf s) (hp : 1 ≤ p)
    (hp' : p < 2 ^ 64) :
    Drives (List.replicate ((m - 1) * p) .tick) (readAfter buf m p 1 0 s) (readAfter buf m p m ((m - 1) * p) s) := by
  have hread := tick_iterate_startFill hm hi hbuf hp hp' (Nat.le_refl ((m - 1) * p))
  rw [Nat.mul_div_cancel _ hp, Nat.sub_add_cancel hm, startFill_eq (by omega) (by omega)] at hread
  rw [← hread]
  exact drives_tick_iterate _ _

end Read

/-- Settles O28: the state after `k` ticks, read field by field. -/
theorem timedReadOnTime : Obligations.TimedReadOnTime := by
  intro s buf m p xs ys hm hbuf hp hwrap htimer hadc hxs
  have hlen : m ≤ s.adcIn.length := by rw [hadc, List.length_append]; omega
  have hp' : p < 2 ^ 64 := Nat.lt_of_le_of_lt (Nat.le_mul_of_pos_left p hm) hwrap
  have hbuf' : m ≤ bufLength buf s := by cases buf <;> exact hbuf
  have hticks {k : Nat} (hk : k ≤ (m - 1) * p) :
      tick^[k] (startFill buf m p s) = readAfter buf m p (k / p + 1) k s :=
    tick_iterate_startFill hm hlen hbuf' hp hp' hk
  have hsample {i : Nat} (hi : i < m) :
      tick^[i * p] (startFill buf m p s) = readAfter buf m p (i + 1) (i * p) s := by
    rw [hticks (Nat.mul_le_mul_right p (by omega)), Nat.mul_div_cancel _ hp]
  have hfew {i k : Nat} (hi : i < m) (hk : k < i * p) :
      ∃ f, (tick^[k] (startFill buf m p s)).fill = some f ∧ f.i ≤ i := by
    rw [hticks (Nat.le_trans (Nat.le_of_lt hk) (Nat.mul_le_mul_right p (by omega)))]
    exact ⟨_, rfl, (Nat.div_lt_iff_lt_mul hp).mpr hk⟩
  have hdrop {i : Nat} (hi : i ≤ m) : s.adcIn.drop i = xs.drop i ++ ys := by
    rw [hadc, List.drop_append_of_le_length (by omega)]
  have hlast : tick^[(m - 1) * p] (startFill buf m p s) = readAfter buf m p m ((m - 1) * p) s := by
    rw [hsample (by omega), Nat.sub_add_cancel hm]
  have htake : s.adcIn.take m = xs := by rw [hadc, ← hxs, List.take_left]
  rw [hlast]
  refine ⟨fun i hi => ?_, beq_self_eq_true m, fun k hk => ?_, ?_, ?_, ?_⟩
  · rw [hsample hi]
    exact ⟨beq_self_eq_true _, hdrop hi, fun k hk => hfew hi hk⟩
  · obtain ⟨f, hf, hle⟩ := hfew (by omega) hk
    rw [fillReached, hf]
    exact beq_false_of_ne (by omega)
  · exact (hdrop (Nat.le_refl m)).trans (by rw [← hxs, List.drop_length, List.nil_append])
  · rintro rfl
    refine ⟨rfl, fun i hi => ?_, fun i x hx => ?_⟩
    · exact overlay_getElem?_of_le _ _ _ (by rw [htake, stamped_length, hxs]; exact hi)
    · have hi : i < xs.length := (List.getElem?_eq_some_iff.mp hx).1
      refine (overlay_getElem?_of_lt _ _ _ (by rw [htake, stamped_length]; exact hi)).trans ?_
      rw [htake, stamped_getElem?, hx, ← timerAt_timerMicros s htimer, timerAdvance_iterate]
      rfl
  · rintro rfl
    refine ⟨rfl, fun i hi => ?_, fun i x hx => ?_⟩
    · exact overlay_getElem?_of_le _ _ _ (by rw [htake, List.length_map, hxs]; exact hi)
    · have hi : i < xs.length := (List.getElem?_eq_some_iff.mp hx).1
      refine (overlay_getElem?_of_lt _ _ _ (by rw [htake, List.length_map]; exact hi)).trans ?_
      rw [htake, List.getElem?_map, hx]
      rfl

end Sys2Proof.Machine

/-! SUPPORT. `ACQ.STREAM` (R153 to R156): its lines, then a whole stream, chunk by chunk. -/

namespace Sys2Proof.Machine

/-! ### The lines -/

/-- The chunk cleared, and the sampling timer zeroed at the start of the stream (R142, R153). -/
def streamCleared (s : State) : State :=
  { s with
    chunk := List.replicate s.par.chunkPairs (0, 0)
    tsec := if s.sdone = 0 then 0 else s.tsec
    tusec := if s.sdone = 0 then 0 else s.tusec }

/-- A chunk starts with the clearing, then its timed read (R153). -/
theorem streamStart_eq (m : Nat) (s : State) :
    streamStart m s = startFill .chunk m s.par.streamPeriodUs (streamCleared s) := by
  by_cases hz : s.sdone = 0
  · simp only [streamStart, streamCleared, if_pos hz]
  · simp only [streamStart, streamCleared, if_neg hz]

/-- The start of a chunk puts one record at the head of the cleared chunk and starts the timed read (R142, R144,
R153). -/
theorem streamStart_spec (m : Nat) (s : State) : ∃ x l n,
    (∀ y ys, s.adcIn = y :: ys → x = y ∧ l = ys ∧ n = s.drawn) ∧
    streamStart m s = { streamCleared s with
      adcIn := l, drawn := n
      chunk := (streamCleared s).chunk.set 0 (pack (streamCleared s).tsec (streamCleared s).tusec x)
      fill := some { buf := .chunk, n := m, i := 1, due := s.now + BitVec.ofNat 64 s.par.streamPeriodUs,
                     period := s.par.streamPeriodUs } } := by
  obtain ⟨x, l, n, e, hlisted⟩ := adcSample_spec (streamCleared s)
  refine ⟨x, l, n, hlisted, ?_⟩
  rw [streamStart_eq]
  simp only [startFill, capture, e]
  rfl

/-- Settles O29: the entry, then the line that `DSTATE` names. -/
theorem streamLines : Obligations.StreamLines := by
  intro s
  have hline (k : StreamK) (hd : s.dstate = .exec (.acqStream k)) : exec .acqStream s = .next (streamLine k s) :=
    exec_of_running _ _ s hd rfl
  refine ⟨exec_of_idle .acqStream s, fun d rest hd hc hn => ?_, fun n => hline (.setTarget n), hline .zeroDone,
    hline .drain, hline .setMode, fun m hd hlt hm => ?_, fun hd hge => ?_, fun m => hline (.wait m),
    fun m => hline (.fillOff m), fun m => hline (.addDone m), hline .send⟩
  · rw [hline .recv hd, streamLine, recvThen_of_long _ _ s d rest hc hn]
    rfl
  · obtain ⟨x, l, n, hlisted, e⟩ := streamStart_spec m s
    refine ⟨x, l, n, hlisted, ?_⟩
    rw [hline .loop hd, streamLine, if_pos (BitVec.lt_def.mpr hlt), streamCount, ← hm, e]
    rfl
  · rw [hline .loop hd, streamLine, if_neg fun hlt => Nat.not_lt.mpr hge (BitVec.lt_def.mp hlt)]
    rfl

/-! ### One chunk -/

/-- The chunk that a state at the loop test goes on to read: its records, then zero pairs (R142, R153). -/
def streamChunk (s : State) : List Pair :=
  overlay
    (stamped s.par.streamPeriodUs ((streamCleared s).tsec, (streamCleared s).tusec) (s.adcIn.take (streamCount s)))
    (List.replicate s.par.chunkPairs (0, 0))

/-- A state at the loop test once the next chunk has been read and sent (R153). -/
def chunkSent (s : State) : State :=
  { afterTicks ((streamCount s - 1) * s.par.streamPeriodUs) (streamCleared s) with
    adcIn := s.adcIn.drop (streamCount s)
    chunk := streamChunk s
    fill := none
    sdone := s.sdone + BitVec.ofNat 32 (streamCount s)
    sout := s.sout ++ [chunkBytes (streamChunk s)] }

/-- Once the read has all its samples: it ends, the samples are counted, and the chunk is sent (R153). -/
theorem dispatches_streamSend {m : Nat} {s : State} (hr : dispatchReady s = true) (h : fillReached m s = true) :
    Dispatches 4 (goto (.acqStream (.wait m)) s) (goto (.acqStream .loop) { s with
      fill := none, sdone := s.sdone + BitVec.ofNat 32 m, sout := s.sout ++ [chunkBytes s.chunk] }) := by
  refine .line (t := goto (.acqStream (.fillOff m)) s) hr (fun _ => if_pos h) ?_
  refine .line (t := goto (.acqStream (.addDone m)) { s with fill := none }) hr (fun _ => rfl) ?_
  refine .line (s := { s with fill := none }) (t := goto (.acqStream .send)
    { s with fill := none, sdone := s.sdone + BitVec.ofNat 32 m }) hr (fun _ => rfl) ?_
  exact .line (s := { s with fill := none, sdone := s.sdone + BitVec.ofNat 32 m }) hr (fun _ => rfl) (.refl _)

section Chunk

/-! A state at the loop test with samples still to take, and the conversions of the next chunk listed. -/

variable {s : State} (hlt : s.sdone < s.starget) (hadc : streamCount s ≤ s.adcIn.length)
include hlt hadc

/-- The start of a chunk is the start of its read (R144, R153). -/
theorem streamStart_read : streamStart (streamCount s) s =
    readAfter .chunk (streamCount s) s.par.streamPeriodUs 1 0 (streamCleared s) := by
  obtain ⟨hone, -, -⟩ := streamCount_bounds s hlt
  have hbuf : 0 < bufLength .chunk (streamCleared s) :=
    Nat.lt_of_lt_of_eq s.cfg.chunkPairs_min List.length_replicate.symm
  rw [streamStart_eq]
  exact startFill_eq (s := streamCleared s) (Nat.lt_of_lt_of_le hone hadc) hbuf

/-- The loop line with samples still to take (R153). -/
theorem streamLine_loop_read : streamLine .loop s = goto (.acqStream (.wait (streamCount s)))
    (readAfter .chunk (streamCount s) s.par.streamPeriodUs 1 0 (streamCleared s)) := by
  rw [streamLine, if_pos hlt, streamStart_read hlt hadc]

/-- From the loop test through one chunk back to the loop test: the start, the ticks of the read, and the four lines
after it (R153). -/
theorem drives_streamChunk (hr : dispatchReady s = true) (hp : s.par.streamPeriodUs < 2 ^ 64) :
    Drives (.dispatch :: List.replicate ((streamCount s - 1) * s.par.streamPeriodUs) .tick ++
      List.replicate 4 .dispatch) (goto (.acqStream .loop) s) (goto (.acqStream .loop) (chunkSent s)) := by
  obtain ⟨hone, hsize, -⟩ := streamCount_bounds s hlt
  have hbuf : streamCount s ≤ bufLength .chunk (streamCleared s) := by simpa [bufLength, streamCleared] using hsize
  have hstart : Dispatches 1 (goto (.acqStream .loop) s) (goto (.acqStream (.wait (streamCount s)))
      (readAfter .chunk (streamCount s) s.par.streamPeriodUs 1 0 (streamCleared s))) := by
    refine .line hr (fun ms => ?_) (.refl _)
    exact streamLine_loop_read (s := { goto (.acqStream .loop) s with schedule := ms }) hlt hadc
  have hticks := drives_read (buf := .chunk) (s := goto (.acqStream (.wait (streamCount s))) (streamCleared s))
    hone hadc hbuf s.cfg.streamPeriodUs_min hp
  have hready := (dispatchReady_readAfter .chunk (streamCount s) s.par.streamPeriodUs (streamCount s)
    ((streamCount s - 1) * s.par.streamPeriodUs) (streamCleared s)).trans hr
  have hsend := dispatches_streamSend (m := streamCount s) hready (beq_self_eq_true (streamCount s))
  exact (hstart.append hticks).append hsend

end Chunk

end Sys2Proof.Machine

/-! SUPPORT. A whole `ACQ.STREAM` (R153 to R155): what stands at the loop test after each chunk. -/

namespace Sys2Proof.Machine

/-! ### The stream after some chunks -/

/-- How many samples the first `c` chunks of a stream take, `s` being its first loop test (R153). -/
def streamTaken (s : State) (c : Nat) : Nat := min s.starget.toNat (c * s.par.chunkPairs)

/-- How many samples chunk `c` takes (R153). -/
def chunkCount (s : State) (c : Nat) : Nat := min s.par.chunkPairs (s.starget.toNat - c * s.par.chunkPairs)

/-- The ticks up to the loop test after `c` chunks, with `gap k` of them before chunk `k` starts (R140, R153). -/
def streamTicks (s : State) (gap : Nat → Nat) (c : Nat) : Nat :=
  ((List.range c).map fun k => gap k + (chunkCount s k - 1) * s.par.streamPeriodUs).sum

/-- The moves of chunk `c`: the ticks before it, its start, the ticks of its read, and the four lines after it
(R153). -/
def chunkMoves (s : State) (gap : Nat → Nat) (c : Nat) : List Move :=
  List.replicate (gap c) .tick ++ .dispatch :: List.replicate ((chunkCount s c - 1) * s.par.streamPeriodUs) .tick ++
    List.replicate 4 .dispatch

/-- The moves of a whole stream: the lines before its first loop test, its chunks, and its return (R153). -/
def streamMoves (s : State) (gap : Nat → Nat) (chunks : Nat) : List Move :=
  List.replicate 7 .dispatch ++ (List.range chunks).flatMap (chunkMoves s gap) ++ List.replicate 1 .dispatch

/-- What chunk `c` holds when it is sent: its records, then zero pairs (R153, R154). -/
def chunkRead (s : State) (gap : Nat → Nat) (c : Nat) : List Pair :=
  overlay (stamped s.par.streamPeriodUs (timerAt (streamTicks s gap c + gap c))
    ((s.adcIn.drop (streamTaken s c)).take (chunkCount s c))) (List.replicate s.par.chunkPairs (0, 0))

/-- The loop test after `c` chunks (R153 to R155). -/
def streamAfter (s : State) (gap : Nat → Nat) (c : Nat) : State :=
  { s with
    sdone := BitVec.ofNat 32 (streamTaken s c)
    now := s.now + BitVec.ofNat 64 (streamTicks s gap c)
    tsec := (timerAt (streamTicks s gap c)).1
    tusec := (timerAt (streamTicks s gap c)).2
    adcIn := s.adcIn.drop (streamTaken s c)
    fill := none
    chunk := chunkRead s gap (c - 1)
    sout := s.sout ++ (List.range c).map fun k => chunkBytes (chunkRead s gap k) }

theorem streamTaken_succ (s : State) (c : Nat) : streamTaken s (c + 1) = streamTaken s c + chunkCount s c := by
  rw [streamTaken, streamTaken, chunkCount, Nat.succ_mul]
  omega

theorem streamTicks_succ (s : State) (gap : Nat → Nat) (c : Nat) :
    streamTicks s gap (c + 1) = streamTicks s gap c + gap c + (chunkCount s c - 1) * s.par.streamPeriodUs := by
  rw [streamTicks, List.range_succ, List.map_append, List.sum_append, List.map_singleton, List.sum_singleton,
    ← Nat.add_assoc]
  rfl

theorem streamMoves_length (s : State) (gap : Nat → Nat) (chunks : Nat) :
    (streamMoves s gap chunks).length = 8 + 5 * chunks + streamTicks s gap chunks := by
  have hchunks : ((List.range chunks).flatMap (chunkMoves s gap)).length = 5 * chunks + streamTicks s gap chunks := by
    induction chunks with
    | zero => rfl
    | succ c ih =>
      rw [List.range_succ, List.flatMap_append, List.length_append, ih, streamTicks_succ, List.flatMap_singleton]
      simp only [chunkMoves, List.length_append, List.length_cons, List.length_replicate]
      omega
  rw [streamMoves, List.length_append, List.length_append, hchunks, List.length_replicate, List.length_replicate]
  omega

/-- What has been taken never wraps (R155). -/
theorem streamTaken_toNat (s : State) (c : Nat) : (BitVec.ofNat 32 (streamTaken s c)).toNat = streamTaken s c := by
  have hlt : streamTaken s c < 2 ^ 32 := Nat.lt_of_le_of_lt (Nat.min_le_left _ _) s.starget.isLt
  exact Nat.mod_eq_of_lt hlt

section Loop

/-! A stream with samples still to take after `c` chunks; no tick before its first chunk. -/

variable {s : State} {gap : Nat → Nat} {c : Nat} (hc : c * s.par.chunkPairs < s.starget.toNat)
include hc

theorem streamTaken_of_lt : streamTaken s c = c * s.par.chunkPairs := Nat.min_eq_right (Nat.le_of_lt hc)

/-- The next chunk takes what is left, up to a whole chunk (R153). -/
theorem streamCount_streamAfter (k : Nat) : streamCount (afterTicks k (streamAfter s gap c)) = chunkCount s c := by
  have hleft : streamCount (afterTicks k (streamAfter s gap c)) =
      min s.par.chunkPairs (s.starget.toNat - (BitVec.ofNat 32 (streamTaken s c)).toNat) := rfl
  rw [hleft, streamTaken_toNat, streamTaken_of_lt hc, chunkCount]

/-- A later chunk starts with the timer as it runs, the first one with the timer at 0 (R142, R153). -/
theorem clock_streamAfter (hgap : gap 0 = 0) :
    ((streamCleared (afterTicks (gap c) (streamAfter s gap c))).tsec,
      (streamCleared (afterTicks (gap c) (streamAfter s gap c))).tusec) = timerAt (streamTicks s gap c + gap c) := by
  have hclock := timerAdvance_iterate (gap c) (streamTicks s gap c)
  by_cases hz : BitVec.ofNat 32 (streamTaken s c) = 0
  · have htaken : c * s.par.chunkPairs = 0 := by
      rw [← streamTaken_of_lt hc, ← streamTaken_toNat, hz]
      rfl
    obtain rfl : c = 0 := (Nat.mul_eq_zero.mp htaken).resolve_right (Nat.ne_of_gt s.cfg.chunkPairs_min)
    have hstart : streamTicks s gap 0 + gap 0 = 0 := (Nat.zero_add _).trans hgap
    rw [hstart, timerAt_zero]
    exact congrArg₂ Prod.mk (if_pos hz) (if_pos hz)
  · rw [← hclock]
    exact congrArg₂ Prod.mk (if_neg hz) (if_neg hz)

/-- One more chunk (R153, R154). -/
theorem chunkSent_streamAfter (hgap : gap 0 = 0) :
    chunkSent (afterTicks (gap c) (streamAfter s gap c)) = streamAfter s gap (c + 1) := by
  have hcount := streamCount_streamAfter (gap := gap) hc (gap c)
  have hclock := clock_streamAfter hc hgap
  have hchunk : streamChunk (afterTicks (gap c) (streamAfter s gap c)) = chunkRead s gap c := by
    rw [streamChunk, hcount, hclock]
    rfl
  have hdone : BitVec.ofNat 32 (streamTaken s (c + 1)) =
      BitVec.ofNat 32 (streamTaken s c) + BitVec.ofNat 32 (chunkCount s c) := by
    rw [streamTaken_succ, BitVec.ofNat_add]
  have hadc : s.adcIn.drop (streamTaken s (c + 1)) = (s.adcIn.drop (streamTaken s c)).drop (chunkCount s c) := by
    rw [streamTaken_succ, List.drop_drop]
  have htimer : timerAt (streamTicks s gap (c + 1)) =
      timerAdvance^[(chunkCount s c - 1) * s.par.streamPeriodUs] (timerAt (streamTicks s gap c + gap c)) := by
    rw [streamTicks_succ, timerAdvance_iterate]
  have hnow : s.now + BitVec.ofNat 64 (streamTicks s gap (c + 1)) =
      s.now + BitVec.ofNat 64 (streamTicks s gap c) + BitVec.ofNat 64 (gap c) +
        BitVec.ofNat 64 ((chunkCount s c - 1) * s.par.streamPeriodUs) := by
    rw [streamTicks_succ, BitVec.ofNat_add, BitVec.ofNat_add, BitVec.add_assoc, BitVec.add_assoc, BitVec.add_assoc]
  have hsout : s.sout ++ (List.range (c + 1)).map (fun k => chunkBytes (chunkRead s gap k)) =
      s.sout ++ (List.range c).map (fun k => chunkBytes (chunkRead s gap k)) ++ [chunkBytes (chunkRead s gap c)] := by
    rw [List.range_succ, List.map_append, List.map_singleton, List.append_assoc]
  symm
  rw [streamAfter, hdone, hadc, htimer, hnow, hsout, ← hclock, chunkSent, hcount, hchunk]
  rfl

/-- From the loop test after `c` chunks, the ticks before the next chunk and the chunk itself (R153). -/
theorem drives_streamAfter_succ (hgap : gap 0 = 0) (hr : dispatchReady s = true)
    (hadc : s.starget.toNat ≤ s.adcIn.length) (hp : s.par.streamPeriodUs < 2 ^ 64) :
    Drives (chunkMoves s gap c)
      (goto (.acqStream .loop) (streamAfter s gap c)) (goto (.acqStream .loop) (streamAfter s gap (c + 1))) := by
  have hcount := streamCount_streamAfter (gap := gap) hc (gap c)
  have hlt : (afterTicks (gap c) (streamAfter s gap c)).sdone < (afterTicks (gap c) (streamAfter s gap c)).starget := by
    have hdone : (afterTicks (gap c) (streamAfter s gap c)).sdone.toNat = c * s.par.chunkPairs :=
      (streamTaken_toNat s c).trans (streamTaken_of_lt hc)
    exact BitVec.lt_def.mpr (hdone.trans_lt hc)
  have hlisted : streamCount (afterTicks (gap c) (streamAfter s gap c)) ≤
      (afterTicks (gap c) (streamAfter s gap c)).adcIn.length := by
    have hleft : (afterTicks (gap c) (streamAfter s gap c)).adcIn.length = s.adcIn.length - streamTaken s c :=
      List.length_drop
    rw [hcount, hleft, streamTaken_of_lt hc, chunkCount]
    omega
  have hticks := drives_ticks (gap c) (goto (.acqStream .loop) (streamAfter s gap c)) rfl
  have hchunk := drives_streamChunk hlt hlisted hr hp
  rw [hcount, chunkSent_streamAfter hc hgap] at hchunk
  rw [chunkMoves, List.append_assoc]
  exact hticks.append hchunk

end Loop

/-! ### The whole stream -/

/-- Sending the first chunk does not depend on what the chunk, the timer and `FILL` were before (R142, R153). -/
theorem chunkSent_first (s : State) (gap : Nat → Nat) (hdone : s.sdone = 0) :
    chunkSent s = chunkSent (streamAfter s gap 0) := by
  have hzero : streamAfter s gap 0 = { s with tsec := 0, tusec := 0, fill := none, chunk := chunkRead s gap 0 } := by
    simp [streamAfter, streamTaken, streamTicks, hdone]
  rw [hzero]
  simp [chunkSent, streamChunk, streamCleared, streamCount, afterTicks, hdone]

/-- From the first loop test, `c + 1` chunks (R153). -/
theorem drives_streamAfter {s : State} {gap : Nat → Nat} (hgap : gap 0 = 0) (hdone : s.sdone = 0)
    (hr : dispatchReady s = true) (hadc : s.starget.toNat ≤ s.adcIn.length) (hp : s.par.streamPeriodUs < 2 ^ 64)
    (c : Nat) (hc : c * s.par.chunkPairs < s.starget.toNat) :
    Drives ((List.range (c + 1)).flatMap (chunkMoves s gap))
      (goto (.acqStream .loop) s) (goto (.acqStream .loop) (streamAfter s gap (c + 1))) := by
  induction c with
  | zero =>
    have hcount : streamCount s = chunkCount s 0 := by simp [streamCount, chunkCount, hdone]
    have hlt : s.sdone < s.starget := by simpa [BitVec.lt_def, hdone] using hc
    have hlisted : streamCount s ≤ s.adcIn.length := by
      rw [hcount, chunkCount]
      omega
    have hfirst := chunkSent_streamAfter (gap := gap) hc hgap
    rw [hgap, afterTicks_zero, ← chunkSent_first s gap hdone] at hfirst
    have hchunk := drives_streamChunk hlt hlisted hr hp
    rw [hcount, hfirst] at hchunk
    simpa [chunkMoves, hgap] using hchunk
  | succ c ih =>
    have hbefore := ih (Nat.lt_of_le_of_lt (Nat.mul_le_mul_right _ (Nat.le_succ c)) hc)
    rw [List.range_succ, List.flatMap_append, List.flatMap_singleton]
    exact hbefore.append (drives_streamAfter_succ hc hgap hr hadc hp)

/-- The chunks that a stream of `n` samples takes are those that begin before its last sample (R155). -/
theorem lt_chunks_iff {C n c : Nat} (hC : 1 ≤ C) : c < (n + C - 1) / C ↔ c * C < n := by
  rw [← Nat.succ_le_iff, Nat.le_div_iff_mul_le hC, Nat.succ_mul]
  omega

/-- The lines before the first loop test (R153). -/
theorem dispatches_acqStream_start (s : State) (n : BitVec 32) (rest : List Datagram) (hr : dispatchReady s = true)
    (hc : s.cin = leBytes 4 n.toNat :: rest) :
    Dispatches 5 (goto (.acqStream .recv) s)
      (goto (.acqStream .loop) { s with cin := [], starget := n, sdone := 0, mode := .stream }) := by
  refine .line (t := goto (.acqStream (.setTarget n)) { s with cin := rest }) hr (fun ms => ?_) ?_
  · have htake : (leBytes 4 n.toNat).take streamTargetBytes = leBytes 4 n.toNat := rfl
    rw [handlerLine, streamLine, recvThen_of_long _ _ { goto (.acqStream .recv) s with schedule := ms } _ rest hc
      (Nat.le_of_eq (leBytes_length _ _).symm), htake, operandN32_leBytes]
    rfl
  refine .line (s := { s with cin := rest }) (t := goto (.acqStream .zeroDone) { s with cin := rest, starget := n }) hr
    (fun _ => rfl) ?_
  refine .line (s := { s with cin := rest, starget := n })
    (t := goto (.acqStream .drain) { s with cin := rest, starget := n, sdone := 0 }) hr (fun _ => rfl) ?_
  refine .line (s := { s with cin := rest, starget := n, sdone := 0 })
    (t := goto (.acqStream .setMode) { s with cin := [], starget := n, sdone := 0 }) hr (fun _ => rfl) ?_
  exact .line (s := { s with cin := [], starget := n, sdone := 0 }) hr (fun _ => rfl) (.refl _)

/-- With every sample taken the handler returns (R107, R153). -/
theorem dispatches_acqStream_return (s : State) (hr : dispatchReady s = true)
    (hge : s.starget.toNat ≤ s.sdone.toNat) :
    Dispatches 1 (goto (.acqStream .loop) s) (handlerReturn s) :=
  .line (t := handlerReturn s) hr (fun _ => if_neg fun hlt => Nat.not_lt.mpr hge (BitVec.lt_def.mp hlt)) (.refl _)

theorem chunkRead_length (s : State) (gap : Nat → Nat) (c : Nat) : (chunkRead s gap c).length = s.par.chunkPairs := by
  have hle : ((s.adcIn.drop (streamTaken s c)).take (chunkCount s c)).length ≤ s.par.chunkPairs :=
    Nat.le_trans (List.length_take_le _ _) (Nat.min_le_left _ _)
  rw [chunkRead, overlay_length _ _ (by rw [stamped_length, List.length_replicate]; exact hle), List.length_replicate]

/-- The first loop test of a stream of `n` samples that was requested in `s` (R153). -/
def streamBegun (s : State) (n : BitVec 32) : State := { s with cin := [], starget := n, sdone := 0, mode := .stream }

/-- A whole stream of `n` samples, from the request to the return (R153, R155). -/
theorem drives_acqStream {s : State} {n : BitVec 32} {rest : List Datagram} {gap : Nat → Nat} {chunks : Nat}
    (hawait : awaitsRequest s = true) (hc : s.cin = [0x02, 0x00] :: leBytes 4 n.toNat :: rest) (hgap : gap 0 = 0)
    (hadc : n.toNat ≤ s.adcIn.length) (hp : s.par.streamPeriodUs < 2 ^ 64) (hpos : 0 < chunks)
    (hlast : (chunks - 1) * s.par.chunkPairs < n.toNat) (hall : streamTaken (streamBegun s n) chunks = n.toNat) :
    Drives (streamMoves (streamBegun s n) gap chunks) s
      { streamAfter (streamBegun s n) gap chunks with mode := .none } := by
  obtain ⟨hd, -, hr⟩ := (awaitsRequest_iff s).mp hawait
  have hloop : Dispatches 7 s (goto (.acqStream .loop) (streamBegun s n)) :=
    (dispatches_request .acqStream s _ hawait hc).trans
      (dispatches_acqStream_start { s with cin := leBytes 4 n.toNat :: rest } n rest hr rfl)
  have hstream := drives_streamAfter (s := streamBegun s n) hgap rfl hr hadc hp (chunks - 1) hlast
  have hdone : n.toNat ≤ (BitVec.ofNat 32 (streamTaken (streamBegun s n) chunks)).toNat := by
    rw [streamTaken_toNat, hall]
  have hret := dispatches_acqStream_return (streamAfter (streamBegun s n) gap chunks) hr hdone
  have hidle : (streamAfter (streamBegun s n) gap chunks).dstate = .idle := hd
  rw [Nat.sub_add_cancel hpos] at hstream
  rw [handlerReturn_of_idle _ hidle] at hret
  exact (hloop.append hstream).append hret

/-- What a chunk holds, record by record: those of its samples, then zero pairs (R153, R154). -/
theorem chunkRead_getElem? (s : State) (gap : Nat → Nat) (c i : Nat) (hc : c * s.par.chunkPairs < s.starget.toNat)
    (hadc : s.starget.toNat ≤ s.adcIn.length) (hi : i < s.par.chunkPairs) :
    (chunkRead s gap c)[i]? = some
      (match (s.adcIn.take s.starget.toNat)[c * s.par.chunkPairs + i]? with
      | some x => pack (timerAt (streamTicks s gap c + gap c + i * s.par.streamPeriodUs)).1
          (timerAt (streamTicks s gap c + gap c + i * s.par.streamPeriodUs)).2 x
      | none => (0, 0)) := by
  have htaken := streamTaken_of_lt hc
  have hcount : ((s.adcIn.drop (streamTaken s c)).take (chunkCount s c)).length = chunkCount s c := by
    rw [List.length_take, List.length_drop, htaken, chunkCount]
    omega
  by_cases hlt : c * s.par.chunkPairs + i < s.starget.toNat
  · have hi' : i < chunkCount s c := by rw [chunkCount]; omega
    have hx := List.getElem?_eq_getElem (Nat.lt_of_lt_of_le hlt hadc)
    rw [chunkRead, overlay_getElem?_of_lt _ _ _ (by rw [stamped_length, hcount]; exact hi'), stamped_getElem?,
      List.getElem?_take_of_lt hi', List.getElem?_drop, List.getElem?_take_of_lt hlt, htaken, hx, timerAdvance_iterate]
    rfl
  · have hi' : chunkCount s c ≤ i := by rw [chunkCount]; omega
    rw [chunkRead, overlay_getElem?_of_le _ _ _ (by rw [stamped_length, hcount]; exact hi'),
      List.getElem?_take_eq_none (Nat.not_lt.mp hlt), List.getElem?_replicate_of_lt hi]

/-- Settles O30: the request and the lines before the loop, then chunk after chunk, then the return. -/
theorem streamRun : Obligations.StreamRun := by
  refine ⟨fun s ms rest hawait hc hs => ?_, ?_⟩
  · obtain ⟨hd, -, hr⟩ := (awaitsRequest_iff s).mp hawait
    have hstart := dispatches_acqStream_start { s with cin := [0, 0, 0, 0] :: rest } 0 rest hr rfl
    have hret := dispatches_acqStream_return { s with cin := [], starget := 0, sdone := 0, mode := .stream } hr
      (Nat.le_refl 0)
    exact Dispatches.run_return (t := { s with cin := [], starget := 0, sdone := 0 })
      ((dispatches_request .acqStream s _ hawait hc).trans (hstart.trans hret)) hd ms hs
  · intro s ms n rest xs ys chunks ticks count gap start hawait hc hn hp hadc hxs hchunks hcount hgap hstart0 hstart
      hticks hs
    obtain rfl : count = chunkCount (streamBegun s n) := funext hcount
    obtain rfl : ticks = streamTicks (streamBegun s n) gap chunks := hticks
    have hbegins {c : Nat} : c < chunks ↔ c * s.par.chunkPairs < n.toNat :=
      hchunks ▸ lt_chunks_iff s.cfg.chunkPairs_min
    have hpos : 0 < chunks := hbegins.mpr ((Nat.zero_mul _).trans_lt hn)
    have hlisted : n.toNat ≤ s.adcIn.length := by
      rw [hadc, List.length_append]
      omega
    have hall : streamTaken (streamBegun s n) chunks = n.toNat :=
      Nat.min_eq_left (Nat.not_lt.mp fun hlt => Nat.lt_irrefl _ (hbegins.mpr hlt))
    have htime (c : Nat) : start c = streamTicks (streamBegun s n) gap c + gap c := by
      induction c with
      | zero => rw [hstart0, hgap]; rfl
      | succ c ih => rw [hstart, streamTicks_succ, ih]; rfl
    obtain ⟨hsec, husec⟩ := timerAt_toNat (streamTicks (streamBegun s n) gap chunks)
    refine ⟨(List.range chunks).map (chunkRead (streamBegun s n) gap), chunkRead (streamBegun s n) gap (chunks - 1),
      _, _, ?_, ?_, fun c buf hbuf => ?_, hsec, husec, ?_⟩
    · rw [List.length_map, List.length_range]
    · rw [List.getLast?_map, List.getLast?_range, if_neg (Nat.ne_of_gt hpos)]
      rfl
    · obtain ⟨k, hk, rfl⟩ := Option.map_eq_some_iff.mp (List.getElem?_map.symm.trans hbuf)
      obtain ⟨hlt, rfl⟩ := List.getElem?_eq_some_iff.mp hk
      rw [List.length_range] at hlt
      rw [List.getElem_range]
      have hx : s.adcIn.take n.toNat = xs := by rw [hadc, ← hxs, List.take_left]
      refine ⟨chunkRead_length _ gap c, fun i hi => ?_⟩
      rw [htime, ← hx]
      exact chunkRead_getElem? (streamBegun s n) gap c i (hbegins.mp hlt) hlisted hi
    · have hmoves : s.schedule = streamMoves (streamBegun s n) gap chunks ++ ms :=
        hs.trans (List.append_assoc _ (List.replicate 1 .dispatch) ms).symm
      have hys : (streamBegun s n).adcIn.drop n.toNat = ys := by
        rw [streamBegun, hadc, ← hxs, List.drop_left]
      have hrun := (drives_acqStream hawait hc hgap hlisted hp hpos (hbegins.mp (by omega)) hall).run ms hmoves
        (streamMoves_length _ gap chunks)
      rw [hrun, streamAfter, hall, hys, BitVec.ofNat_toNat, BitVec.setWidth_eq, List.map_map]
      rfl

end Sys2Proof.Machine

/-! SUPPORT. A whole polled run (R169, R170): what stands at the loop line after each iteration. -/

namespace Sys2Proof.Machine

/-! ### One iteration -/

/-- The ticks of the read of one iteration (R144, R169). -/
def polledTicks (s : State) : Nat := (s.par.polledBuf - 1) * s.par.polledPeriodUs

/-- The moves of one iteration: its start, the ticks of its read, and the three lines after it (R169). -/
def iterationMoves (s : State) : List Move :=
  .dispatch :: List.replicate (polledTicks s) .tick ++ List.replicate 3 .dispatch

/-- The raw samples of iteration `k` of a run that begins in `s` (R70, R169). -/
def polledSamples (s : State) (k : Nat) : List Cell16 :=
  ((s.adcIn.drop (k * s.par.polledBuf)).take s.par.polledBuf).map zext16

/-- The start of an iteration is the start of its read, into the cleared buffer (R144, R169). -/
theorem polledStart_read {s : State} (hadc : s.par.polledBuf ≤ s.adcIn.length) :
    polledStart s = readAfter .pbuf s.par.polledBuf s.par.polledPeriodUs 1 0
      { s with pbuf := List.replicate s.par.polledBuf 0 } := by
  have hmin := s.cfg.polledBuf_min
  have hbuf : 0 < bufLength .pbuf { s with pbuf := List.replicate s.par.polledBuf 0 } :=
    Nat.lt_of_lt_of_eq (Nat.lt_of_lt_of_le (by decide) hmin) List.length_replicate.symm
  exact startFill_eq (s := { s with pbuf := List.replicate s.par.polledBuf 0 })
    (Nat.lt_of_lt_of_le (Nat.lt_of_lt_of_le (by decide) hmin) hadc) hbuf

/-- Once the read has all its samples: it ends, the buffer is sent, and one iteration fewer is left (R169). -/
theorem dispatches_polledSend {cnt : Nat} {s : State} (hr : dispatchReady s = true)
    (h : fillReached s.par.polledBuf s = true) :
    Dispatches 3 (goto (.polled (.wait cnt)) s) (goto (.polled (.loop (cnt - 1))) { s with
      fill := none, cout := s.cout ++ [bytes16Seq s.pbuf] }) := by
  refine .line (t := goto (.polled (.fillOff cnt)) s) hr (fun _ => if_pos h) ?_
  refine .line (t := goto (.polled (.send cnt)) { s with fill := none }) hr (fun _ => rfl) ?_
  exact .line (s := { s with fill := none }) hr (fun _ => rfl) (.refl _)

/-- The loop line after one iteration (R169). -/
def polledSent (s : State) : State :=
  { afterTicks (polledTicks s) s with
    adcIn := s.adcIn.drop s.par.polledBuf
    pbuf := polledSamples s 0
    fill := none
    cout := s.cout ++ [bytes16Seq (polledSamples s 0)] }

/-- From the loop line through one iteration back to it (R169). -/
theorem drives_polledIteration {s : State} (cnt : Nat) (hr : dispatchReady s = true)
    (hadc : s.par.polledBuf ≤ s.adcIn.length) (hp : s.par.polledPeriodUs < 2 ^ 64) :
    Drives (iterationMoves s) (goto (.polled (.loop (cnt + 1))) s) (goto (.polled (.loop cnt)) (polledSent s)) := by
  have hone : 1 ≤ s.par.polledBuf := Nat.le_trans (by decide) s.cfg.polledBuf_min
  have hstart : Dispatches 1 (goto (.polled (.loop (cnt + 1))) s) (goto (.polled (.wait (cnt + 1)))
      (readAfter .pbuf s.par.polledBuf s.par.polledPeriodUs 1 0
        { s with pbuf := List.replicate s.par.polledBuf 0 })) := by
    refine .line hr (fun ms => ?_) (.refl _)
    exact congrArg (goto (.polled (.wait (cnt + 1))))
      (polledStart_read (s := { goto (.polled (.loop (cnt + 1))) s with schedule := ms }) hadc)
  have hticks := drives_read (buf := .pbuf) (m := s.par.polledBuf)
    (s := goto (.polled (.wait (cnt + 1))) { s with pbuf := List.replicate s.par.polledBuf 0 }) hone hadc
    (Nat.le_of_eq List.length_replicate.symm) s.cfg.polledPeriodUs_min hp
  have hready := (dispatchReady_readAfter .pbuf s.par.polledBuf s.par.polledPeriodUs s.par.polledBuf (polledTicks s)
    { s with pbuf := List.replicate s.par.polledBuf 0 }).trans hr
  have hsend := dispatches_polledSend (cnt := cnt + 1) hready (beq_self_eq_true s.par.polledBuf)
  have hfull : overlay ((s.adcIn.take s.par.polledBuf).map zext16) (List.replicate s.par.polledBuf 0) =
      polledSamples s 0 := by
    have hlen : ((s.adcIn.take s.par.polledBuf).map zext16).length =
        (List.replicate s.par.polledBuf (0 : Cell16)).length := by
      rw [List.length_map, List.length_take_of_le hadc, List.length_replicate]
    rw [overlay_of_length_eq _ _ hlen, polledSamples, Nat.zero_mul, List.drop_zero]
  rw [polledSent, ← hfull]
  exact (hstart.append hticks).append hsend

/-! ### The whole run -/

/-- The loop line after `k` iterations (R169, R170). -/
def polledAfter (s : State) (k : Nat) : State :=
  { afterTicks (k * polledTicks s) s with
    adcIn := s.adcIn.drop (k * s.par.polledBuf)
    pbuf := if k = 0 then s.pbuf else polledSamples s (k - 1)
    fill := none
    cout := s.cout ++ (List.range k).map fun j => bytes16Seq (polledSamples s j) }

theorem afterTicks_add (j k : Nat) (s : State) : afterTicks k (afterTicks j s) = afterTicks (j + k) s := by
  have hnow : s.now + BitVec.ofNat 64 (j + k) = s.now + BitVec.ofNat 64 j + BitVec.ofNat 64 k := by
    rw [BitVec.ofNat_add, BitVec.add_assoc]
  have htimer : timerAdvance^[j + k] (s.tsec, s.tusec) = timerAdvance^[k] (timerAdvance^[j] (s.tsec, s.tusec)) := by
    rw [Nat.add_comm, Function.iterate_add_apply]
  simp only [afterTicks, hnow, htimer]

theorem polledSent_polledAfter (s : State) (k : Nat) : polledSent (polledAfter s k) = polledAfter s (k + 1) := by
  have hsamples : polledSamples (polledAfter s k) 0 = polledSamples s k := by
    rw [polledSamples, Nat.zero_mul, List.drop_zero]
    rfl
  have hadc : s.adcIn.drop ((k + 1) * s.par.polledBuf) = (s.adcIn.drop (k * s.par.polledBuf)).drop s.par.polledBuf := by
    rw [List.drop_drop, Nat.succ_mul]
  have hcout : s.cout ++ (List.range (k + 1)).map (fun j => bytes16Seq (polledSamples s j)) =
      s.cout ++ (List.range k).map (fun j => bytes16Seq (polledSamples s j)) ++ [bytes16Seq (polledSamples s k)] := by
    rw [List.range_succ, List.map_append, List.map_singleton, List.append_assoc]
  symm
  rw [polledAfter, hadc, hcout, Nat.succ_mul, ← afterTicks_add, polledSent, hsamples]
  rfl

/-- With no timed read in progress, `k` iterations of a run of `k + j` (R169, R170). -/
theorem drives_polledAfter {s : State} (hr : dispatchReady s = true) (hfill : s.fill = none)
    (hp : s.par.polledPeriodUs < 2 ^ 64) (k j : Nat) (hadc : k * s.par.polledBuf ≤ s.adcIn.length) :
    Drives (List.replicate k (iterationMoves s)).flatten (goto (.polled (.loop (k + j))) s)
      (goto (.polled (.loop j)) (polledAfter s k)) := by
  induction k generalizing j with
  | zero =>
    have hzero : polledAfter s 0 = s := by
      simp [polledAfter, afterTicks, ← hfill]
    rw [hzero, Nat.zero_add]
    exact Drives.refl _
  | succ k ih =>
    have hbefore := ih (j + 1) (Nat.le_trans (Nat.mul_le_mul_right _ (Nat.le_succ k)) hadc)
    have hleft : s.par.polledBuf ≤ (s.adcIn.drop (k * s.par.polledBuf)).length := by
      rw [Nat.succ_mul] at hadc
      rw [List.length_drop]
      omega
    have hnext := drives_polledIteration (s := polledAfter s k) j hr hleft hp
    rw [polledSent_polledAfter] at hnext
    rw [List.replicate_succ', List.flatten_append, List.flatten_singleton, Nat.add_right_comm]
    exact hbefore.append hnext

/-- The receive takes the repeat count (R64, R169). -/
theorem polledLine_recv (s : State) (d : Datagram) (rest : List Datagram) (hc : s.cin = d :: rest)
    (hd : s.par.polledCountBytes ≤ d.length) :
    polledLine .recv s = goto (.polled (.drain (leNat (d.take s.par.polledCountBytes)))) { s with cin := rest } := by
  rw [polledLine, recvThen_of_long _ _ s d rest hc hd]
  rfl

/-- The request and the lines before the first loop line (R92, R169). -/
theorem dispatches_polled_start (s : State) (category subcode : Byte) (d : Datagram) (rest : List Datagram)
    (hawait : awaitsRequest s = true) (hopcode : s.par.opcodePolled = some (opvOf category subcode))
    (hc : s.cin = [category, subcode] :: d :: rest) (hd : s.par.polledCountBytes ≤ d.length) :
    Dispatches 5 s (goto (.polled (.loop (leNat (d.take s.par.polledCountBytes))))
      { s with cin := [], mode := .polled }) := by
  obtain ⟨hidle, hopv, hr⟩ := (awaitsRequest_iff s).mp hawait
  have hfetch : Dispatches 2 s (goto (.polled .recv) { s with cin := d :: rest }) := by
    intro ms
    have hreceive := step_dispatch_receive { s with schedule := .dispatch :: .dispatch :: ms } category subcode []
      (d :: rest) _ rfl hawait hc
    have hlookup := (step_dispatch_lookup
      { s with schedule := .dispatch :: ms, cin := d :: rest, opv := some (opvOf category subcode) } _ ms rfl hr hidle
      rfl).trans (congrArg _ (lookupNext_opcodePolled _ _ hopcode))
    rw [← hopv] at hlookup
    exact (runFor_succ 1 _ _ hreceive).trans (runFor_succ 0 _ _ hlookup)
  have hrecv : Dispatches 1 (goto (.polled .recv) { s with cin := d :: rest })
      (goto (.polled (.drain (leNat (d.take s.par.polledCountBytes)))) { s with cin := rest }) := by
    refine .line (s := { s with cin := d :: rest }) hr (fun ms => ?_) (.refl _)
    exact polledLine_recv { goto (.polled .recv) { s with cin := d :: rest } with schedule := ms } d rest rfl hd
  have hlines : Dispatches 2 (goto (.polled (.drain (leNat (d.take s.par.polledCountBytes)))) { s with cin := rest })
      (goto (.polled (.loop (leNat (d.take s.par.polledCountBytes)))) { s with cin := [], mode := .polled }) := by
    refine .line (t := goto (.polled (.setMode (leNat (d.take s.par.polledCountBytes)))) { s with cin := [] }) hr
      (fun _ => rfl) ?_
    exact .line (s := { s with cin := [] }) hr (fun _ => rfl) (.refl _)
  exact hfetch.trans (hrecv.trans hlines)

/-- The moves of a whole run of `cnt` iterations: the lines before the first, the iterations, and the return (R169). -/
def polledMoves (s : State) (cnt : Nat) : List Move :=
  List.replicate 5 .dispatch ++ (List.replicate cnt (iterationMoves s)).flatten ++ List.replicate 1 .dispatch

theorem polledMoves_length (s : State) (cnt : Nat) : (polledMoves s cnt).length = 6 + cnt * (4 + polledTicks s) := by
  have hone : (iterationMoves s).length = 4 + polledTicks s := by
    simp only [iterationMoves, List.length_append, List.length_cons, List.length_replicate]
    omega
  have hall : (List.replicate cnt (iterationMoves s)).flatten.length = cnt * (4 + polledTicks s) := by
    rw [List.length_flatten, List.map_replicate, List.sum_replicate, hone, smul_eq_mul]
  rw [polledMoves, List.length_append, List.length_append, hall, List.length_replicate, List.length_replicate]
  omega

/-- A whole polled run, from the request to the return (R92, R169, R170). -/
theorem drives_polled {s : State} {category subcode : Byte} {d : Datagram} {rest : List Datagram} {cnt : Nat}
    (hawait : awaitsRequest s = true) (hopcode : s.par.opcodePolled = some (opvOf category subcode))
    (hc : s.cin = [category, subcode] :: d :: rest) (hlen : s.par.polledCountBytes ≤ d.length)
    (hcnt : cnt = leNat (d.take s.par.polledCountBytes)) (hfill : s.fill = none) (hp : s.par.polledPeriodUs < 2 ^ 64)
    (hadc : cnt * s.par.polledBuf ≤ s.adcIn.length) :
    Drives (polledMoves s cnt) s { polledAfter { s with cin := [] } cnt with mode := .none } := by
  obtain ⟨hidle, -, hr⟩ := (awaitsRequest_iff s).mp hawait
  have hstart := dispatches_polled_start s category subcode d rest hawait hopcode hc hlen
  rw [← hcnt] at hstart
  have hrun := drives_polledAfter (s := { s with cin := [], mode := .polled }) hr hfill hp cnt 0 hadc
  have hret : Dispatches 1 (goto (.polled (.loop 0)) (polledAfter { s with cin := [], mode := .polled } cnt))
      (handlerReturn (polledAfter { s with cin := [], mode := .polled } cnt)) :=
    dispatches_ret (s := polledAfter { s with cin := [], mode := .polled } cnt) hr fun _ => rfl
  have hback : (polledAfter { s with cin := [], mode := .polled } cnt).dstate = .idle := hidle
  rw [handlerReturn_of_idle _ hback] at hret
  exact (hstart.append hrun).append hret

/-- The bytes of raw samples are those of the conversions (R9, R11, R70). -/
theorem bytes16Seq_map_zext16 (xs : List Sample) :
    bytes16Seq (xs.map zext16) = xs.flatMap fun x => leBytes 2 x.toNat := by
  have hvalue (x : Sample) : (zext16 x).toNat = x.toNat := by
    rw [zext16, BitVec.toNat_setWidth]
    omega
  simp only [bytes16Seq, List.flatMap_map, hvalue]

/-- Settles O38: the state after the whole run, with the listed conversions in the place of what has been drawn. -/
theorem polledRun : Obligations.PolledRun := by
  intro s ms category subcode d rest xs ys cnt ticks hawait hopcode hc hlen hcnt hfill hp hadc hxs hticks hs
  obtain rfl : ticks = polledTicks s := hticks
  have hlisted : cnt * s.par.polledBuf ≤ s.adcIn.length := by
    rw [hadc, List.length_append]
    omega
  have hsamples {k : Nat} (hk : k < cnt) :
      polledSamples { s with cin := [] } k = ((xs.drop (k * s.par.polledBuf)).take s.par.polledBuf).map zext16 := by
    have hle : (k + 1) * s.par.polledBuf ≤ xs.length := hxs ▸ Nat.mul_le_mul_right _ hk
    rw [Nat.succ_mul] at hle
    have hslice : (s.adcIn.drop (k * s.par.polledBuf)).take s.par.polledBuf =
        (xs.drop (k * s.par.polledBuf)).take s.par.polledBuf := by
      rw [hadc, List.drop_append_of_le_length (by omega),
        List.take_append_of_le_length (by rw [List.length_drop]; omega)]
    exact congrArg (List.map zext16) hslice
  have hpbuf : (if cnt = 0 then s.pbuf else polledSamples { s with cin := [] } (cnt - 1)) =
      if cnt = 0 then s.pbuf else (xs.drop ((cnt - 1) * s.par.polledBuf)).map zext16 := by
    cases cnt with
    | zero => rfl
    | succ k =>
      have hle : (xs.drop (k * s.par.polledBuf)).length ≤ s.par.polledBuf := by
        rw [Nat.succ_mul] at hxs
        rw [List.length_drop]
        omega
      rw [if_neg (Nat.succ_ne_zero k), if_neg (Nat.succ_ne_zero k), Nat.add_sub_cancel, hsamples (Nat.lt_succ_self k),
        List.take_of_length_le hle]
  have hcout : (List.range cnt).map (fun k => bytes16Seq (polledSamples { s with cin := [] } k)) =
      (List.range cnt).map fun k =>
        ((xs.drop (k * s.par.polledBuf)).take s.par.polledBuf).flatMap fun x => leBytes 2 x.toNat :=
    List.map_congr_left fun k hk => by rw [hsamples (List.mem_range.mp hk), bytes16Seq_map_zext16]
  have hys : s.adcIn.drop (cnt * s.par.polledBuf) = ys := by rw [hadc, ← hxs, List.drop_left]
  have hmoves : s.schedule = polledMoves s cnt ++ ms :=
    hs.trans (List.append_assoc _ (List.replicate 1 .dispatch) ms).symm
  refine ⟨_, rfl, ?_⟩
  rw [(drives_polled hawait hopcode hc hlen hcnt hfill hp hlisted).run ms hmoves (polledMoves_length s cnt),
    polledAfter, hpbuf, hcout, hys, ← hfill]
  rfl

end Sys2Proof.Machine

/-! SUPPORT. Interrupt burst mode, step by step (R157 to R166): the lines of `ACQ.BURST`, the entry and the other steps
of `TRIG_ISR`, the edges on the trigger input, and the lines of a deferred callback. -/

namespace Sys2Proof.Machine

/-! ### The lines of the handler -/

/-- Settles O32: the entry, then the line that `DSTATE` names. -/
theorem burstLines : Obligations.BurstLines := by
  intro s
  have hline (k : BurstK) (hd : s.dstate = .exec (.acqBurst k)) : exec .acqBurst s = .next (burstLine k s) :=
    exec_of_running _ _ s hd rfl
  refine ⟨exec_of_idle .acqBurst s, fun d rest hd hc hn => ?_, fun n => hline (.setTarget n), hline .drain,
    hline .zeroCount, hline .setMode, hline .arm, hline .waitCount, hline .disarm, hline .waitDefer, hline .drainLast,
    hline .ret⟩
  rw [hline .recv hd, burstLine, recvThen_of_long _ _ s d rest hc hn]
  rfl

/-! ### The burst-trigger interrupt -/

/-- Four conversions change the environment's fields alone, and four listed ones are the head of the list (R143,
R159). -/
theorem adcGroup_spec (s : State) : ∃ a b c d l n, adcGroup s = ([a, b, c, d], { s with adcIn := l, drawn := n }) ∧
    ∀ a' b' c' d' l', s.adcIn = a' :: b' :: c' :: d' :: l' →
      a = a' ∧ b = b' ∧ c = c' ∧ d = d' ∧ l = l' ∧ n = s.drawn := by
  by_cases h : ∃ a b c d l, s.adcIn = a :: b :: c :: d :: l
  · obtain ⟨a, b, c, d, l, h⟩ := h
    refine ⟨a, b, c, d, l, s.drawn, by simp [adcGroup, adcSample, h], fun a' b' c' d' l' h' => ?_⟩
    rw [h] at h'
    cases h'
    exact ⟨rfl, rfl, rfl, rfl, rfl, rfl⟩
  · obtain ⟨a, b, c, d, l, n, e⟩ := adcGroup_shape s
    exact ⟨a, b, c, d, l, n, e, fun a' b' c' d' l' h' => absurd ⟨a', b', c', d', l', h'⟩ h⟩

/-- A two-way draw changes the environment's fields alone, and a listed one is the head of the list (R161). -/
theorem coin_spec (s : State) : ∃ c l n, coin s = (c, { s with coinIn := l, drawn := n }) ∧
    ∀ c' cs, s.coinIn = c' :: cs → c = c' ∧ l = cs ∧ n = s.drawn := by
  cases h : s.coinIn with
  | nil =>
    obtain ⟨c, l, n, e⟩ := coin_shape s
    exact ⟨c, l, n, e, fun _ _ hc => nomatch hc⟩
  | cons c cs =>
    refine ⟨c, cs, s.drawn, coin_listed s c cs h, fun _ _ hc => ?_⟩
    cases hc
    exact ⟨rfl, rfl, rfl⟩

/-- Enabling an entry where none is enabled (R158). -/
theorem trigEnable_of_none {s : State} (h : s.trigReq = 0) : trigEnable s = { s with trigReq := 1 } := if_pos h

/-- Enabling an entry where one is enabled and not yet taken: one entry or two, a draw (log entry 12). -/
theorem trigEnable_of_some {s : State} (h : 0 < s.trigReq) :
    ∃ c l n, (∀ c' cs, s.coinIn = c' :: cs → c = c' ∧ l = cs ∧ n = s.drawn) ∧
      trigEnable s = { s with trigReq := if c then s.trigReq + 1 else s.trigReq, coinIn := l, drawn := n } := by
  obtain ⟨c, l, n, e, hlisted⟩ := coin_spec s
  exact ⟨c, l, n, hlisted, by rw [trigEnable, if_neg (Nat.ne_of_gt h), e]⟩

section Edge

variable {e : Edge} {s : State}

theorem trigEdge_of_otherSense (he : e ≠ s.par.trigEdge) : trigEdge e s = s := if_neg he

theorem trigEdge_of_off (hi : s.trigInsvc = false) (ha : s.trigArmed = false) : trigEdge e s = s := by
  simp [trigEdge, hi, ha]

theorem trigEdge_of_pending (hi : s.trigInsvc = true) (hp : s.trigPend = true) : trigEdge e s = s := by
  simp [trigEdge, hi, hp]

/-- In service an edge is latched or lost, a draw (R161). -/
theorem trigEdge_of_insvc (he : e = s.par.trigEdge) (hi : s.trigInsvc = true) (hp : s.trigPend = false) :
    ∃ c l n, (∀ c' cs, s.coinIn = c' :: cs → c = c' ∧ l = cs ∧ n = s.drawn) ∧
      trigEdge e s = { s with trigPend := c, coinIn := l, drawn := n } := by
  obtain ⟨c, l, n, hc, hlisted⟩ := coin_spec s
  refine ⟨c, l, n, hlisted, ?_⟩
  rw [trigEdge, if_pos he, if_pos hi, hp, hc]
  rfl

/-- Armed and not in service an edge enables an entry (R158). -/
theorem trigEdge_of_armed (he : e = s.par.trigEdge) (hi : s.trigInsvc = false) (ha : s.trigArmed = true) :
    trigEdge e s = trigEnable s := by
  simp [trigEdge, he, hi, ha]

/-- In service a step of `TRIG_ISR` is the exit (R160). -/
theorem trigIsrStep_of_insvc (hi : s.trigInsvc = true) : trigIsrStep s = trigServiceExit s := if_pos hi

/-- Armed and not in service, with an entry enabled, a step of `TRIG_ISR` is the entry (R158). -/
theorem trigIsrStep_of_enabled (hi : s.trigInsvc = false) (ha : s.trigArmed = true) (hq : 0 < s.trigReq) :
    trigIsrStep s = trigEnter s := by
  simp [trigIsrStep, hi, ha, hq]

theorem trigIsrStep_of_none (hi : s.trigInsvc = false) (hnone : s.trigReq = 0 ∨ s.trigArmed = false) :
    trigIsrStep s = s := by
  obtain hq | ha := hnone
  · simp [trigIsrStep, hi, hq]
  · simp [trigIsrStep, hi, ha]

end Edge

/-- Settles O33: the entry's bits, its four conversions and its count, then the scheduling of a callback. -/
theorem triggerEntry : Obligations.TriggerEntry := by
  intro s ms hs hinsvc harmed hreq
  obtain ⟨a, b, c, d, l, n, e, hlisted⟩ := adcGroup_spec (trigServiceEnter { s with schedule := ms })
  refine ⟨a, b, c, d, l, n, _, hlisted, rfl, ?_⟩
  have hstep : step s = .next (trigIsrStep { s with schedule := ms }) := step_listed s _ ms hs
  rw [hstep, trigIsrStep_of_enabled (s := { s with schedule := ms }) hinsvc harmed hreq, trigEnter, trigSample, e]
  rfl

/-- Settles O34: the edges by sense and by what is armed or in service, then the exit without and with a pending edge,
and the step that stands still. -/
theorem triggerService : Obligations.TriggerService := by
  intro s ms
  refine ⟨fun e hs => ?_, fun hs => ?_⟩
  · have hstep : step s = .next (trigEdge e { s with schedule := ms }) := step_listed s _ ms hs
    rw [hstep]
    refine ⟨fun he => congrArg _ (trigEdge_of_otherSense he), fun hi ha => congrArg _ (trigEdge_of_off hi ha),
      fun hi hp => congrArg _ (trigEdge_of_pending hi hp), fun he hi hp => ?_, fun he hi ha hq => ?_,
      fun he hi ha hq => ?_⟩
    · obtain ⟨c, l, n, hlisted, hlatch⟩ := trigEdge_of_insvc (s := { s with schedule := ms }) he hi hp
      exact ⟨c, l, n, hlisted, congrArg _ hlatch⟩
    · exact congrArg _ ((trigEdge_of_armed (s := { s with schedule := ms }) he hi ha).trans (trigEnable_of_none hq))
    · obtain ⟨c, l, n, hlisted, henable⟩ := trigEnable_of_some (s := { s with schedule := ms }) hq
      exact ⟨c, l, n, hlisted,
        congrArg _ ((trigEdge_of_armed (s := { s with schedule := ms }) he hi ha).trans henable)⟩
  · have hstep : step s = .next (trigIsrStep { s with schedule := ms }) := step_listed s _ ms hs
    have hexit (hi : s.trigInsvc = true) : step s = .next (trigServiceExit { s with schedule := ms }) :=
      hstep.trans (congrArg _ (trigIsrStep_of_insvc hi))
    have hpending (hp : s.trigPend = true) : trigServiceExit { s with schedule := ms } =
        trigEnable (trigServiceLeave { s with schedule := ms }) := if_pos hp
    refine ⟨fun hi hp => ?_, fun hi hp hq => ?_, fun hi hp hq => ?_,
      fun hi hnone => hstep.trans (congrArg _ (trigIsrStep_of_none hi hnone))⟩
    · rw [hexit hi, trigServiceExit, trigServiceLeave, hp]
      rfl
    · exact (hexit hi).trans (congrArg _ ((hpending hp).trans
        (trigEnable_of_none (s := trigServiceLeave { s with schedule := ms }) hq)))
    · obtain ⟨c, l, n, hlisted, henable⟩ := trigEnable_of_some (s := trigServiceLeave { s with schedule := ms }) hq
      exact ⟨c, l, n, hlisted, (hexit hi).trans (congrArg _ ((hpending hp).trans henable))⟩

/-! ### The deferred callback -/

/-- A callback may start at the two waits of the burst handler (R165). -/
theorem atDeferPoint_iff (s : State) :
    atDeferPoint s = true ↔ s.dstate = .exec (.acqBurst .waitCount) ∨ s.dstate = .exec (.acqBurst .waitDefer) := by
  unfold atDeferPoint
  split <;> simp_all

section Defer

variable {s : State} (hserv : inService s = false)
include hserv

/-- With no interrupt in service and a callback running, a step of `DEFER` is its next line (R163). -/
theorem deferStep_of_running {k : DeferK} (hk : s.dcont = some k) : deferStep s = deferLine k s := by
  simp [deferStep, hserv, hk]

/-- With no interrupt in service and no callback running, a step of `DEFER` starts one where one may start (R165). -/
theorem deferStep_of_none (hk : s.dcont = none) :
    deferStep s = if atDeferPoint s ∧ 0 < s.dq then { s with dq := s.dq - 1, dcont := some .readCount } else s := by
  simp [deferStep, hserv, hk]

end Defer

/-- The flush line sends the buffer at the checkpoint (R164). -/
theorem deferLine_flush (p : Nat) (s : State) : deferLine (.flush p) s = { s with
    dcont := some .finish, cout := if p = s.par.burstCkpt then s.cout ++ [bytes16Seq s.bb] else s.cout } := by
  rw [deferLine]
  split <;> rfl

/-- Settles O35: the start of a callback, then the line that `DCONT` names. -/
theorem deferLines : Obligations.DeferLines := by
  intro s ms hs ht hr
  have hserv : inService { s with schedule := ms } = false := by simp [inService, ht, hr]
  have hstep : step s = .next (deferStep { s with schedule := ms }) := step_listed s _ ms hs
  have hline (k : DeferK) (hk : s.dcont = some k) : step s = .next (deferLine k { s with schedule := ms }) :=
    hstep.trans (congrArg _ (deferStep_of_running hserv hk))
  refine ⟨fun hk => ?_, hline .readCount, fun c => hline (.place c), fun p j hk => ?_,
    fun p hk => (hline (.flush p) hk).trans (congrArg _ (deferLine_flush p _)), hline .finish⟩
  · rw [hstep, deferStep_of_none hserv hk]
    exact congrArg _ (if_congr (and_congr_left' (atDeferPoint_iff { s with schedule := ms })) rfl rfl)
  · rw [hline (.copy p j) hk, deferLine]
    have hlast : j + 1 < burstGroup ↔ j < 3 := Nat.succ_lt_succ_iff
    simp only [hlast]
    rfl

end Sys2Proof.Machine

/-! SUPPORT. Triggers of a burst that do not overlap (R159, R163, R164, R168): the group that a callback places, one
trigger served with its callback run to its end, then what stands at the wait after each trigger. -/

namespace Sys2Proof.Machine

/-! ### The group that a callback places -/

/-- The burst buffer with the first `n` samples of `g` written at `p`, one after the other (R61, R163). -/
def placeSamples (n p : Nat) (g bb : List Cell16) : List Cell16 :=
  (List.range n).foldl (fun b j => bufWrite b (p + j) (bufRead g j 0)) bb

theorem placeSamples_succ (n p : Nat) (g bb : List Cell16) :
    placeSamples (n + 1) p g bb = bufWrite (placeSamples n p g bb) (p + n) (bufRead g n 0) := by
  simp [placeSamples, List.range_succ]

/-- The burst buffer with the group `g` at `p` (R163). -/
abbrev placeGroup (p : Nat) (g bb : List Cell16) : List Cell16 := placeSamples burstGroup p g bb

theorem placeGroup_length (p : Nat) (g bb : List Cell16) : (placeGroup p g bb).length = bb.length := by
  simp [placeSamples, List.range_succ, bufWrite]

/-- The group stands whole where it was placed (R163). -/
theorem placeGroup_getElem?_inside (p j : Nat) (g bb : List Cell16) (hp : p + 4 ≤ bb.length) (hg : g.length = 4)
    (hj : j < 4) : (placeGroup p g bb)[p + j]? = g[j]? := by
  have hset (i : Nat) (hi : i < 4) : p + i < bb.length := by omega
  have hfirst : p < bb.length := hset 0 (by decide)
  interval_cases j <;>
    simp [placeSamples, List.range_succ, bufWrite, bufRead, hg, hset, hfirst]

/-- Every other element is as it was (R163). -/
theorem placeGroup_getElem?_outside (p x : Nat) (g bb : List Cell16) (hx : ∀ j, j < 4 → x ≠ p + j) :
    (placeGroup p g bb)[x]? = bb[x]? := by
  have hne (j : Nat) (hj : j < 4) : p + j ≠ x := (hx j hj).symm
  have hfirst : p ≠ x := hne 0 (by decide)
  simp [placeSamples, List.range_succ, bufWrite, hne, hfirst]

/-! ### One trigger -/

/-- A line of the running callback, then the rest of the way (R163). -/
theorem drives_deferLine {k : DeferK} {n : Nat} {s t u : State} (hserv : inService s = false)
    (hline : ∀ ms, deferLine k { s with dcont := some k, schedule := ms } = { t with schedule := ms })
    (h : Drives (List.replicate n .defer) t u) :
    Drives (List.replicate (n + 1) .defer) { s with dcont := some k } u := by
  refine Drives.append (Drives.one fun ms => ?_) h
  exact (deferStep_of_running (s := { s with dcont := some k, schedule := ms }) hserv rfl).trans (hline ms)

/-- What the flush line leaves on the command channel (R164). -/
def flushed (ckpt p : Nat) (bb : List Cell16) (cout : List Datagram) : List Datagram :=
  if p = ckpt then cout ++ [bytes16Seq bb] else cout

/-- The callback writes the next sample of the group (R163). -/
theorem drives_copy {s : State} (hserv : inService s = false) (p j : Nat) :
    Drives [.defer] { s with bb := placeSamples j p s.sb s.bb, dcont := some (.copy p j) } { s with
      bb := placeSamples (j + 1) p s.sb s.bb
      dcont := some (if j + 1 < burstGroup then .copy p (j + 1) else .flush p) } := by
  refine drives_deferLine (s := { s with bb := placeSamples j p s.sb s.bb }) (n := 0) hserv (fun ms => ?_) (.refl _)
  rw [placeSamples_succ]
  rfl

/-- The last two lines: the flush at the checkpoint, and the end of the callback (R163, R164). -/
theorem drives_flush {s : State} {p : Nat} (hserv : inService s = false) (hc : s.dcont = none) :
    Drives (List.replicate 2 .defer) { s with dcont := some (.flush p) }
      { s with cout := flushed s.par.burstCkpt p s.bb s.cout } := by
  refine drives_deferLine (t := { s with
    cout := flushed s.par.burstCkpt p s.bb s.cout, dcont := some .finish }) hserv (fun _ => deferLine_flush p _) ?_
  refine drives_deferLine (s := { s with cout := flushed s.par.burstCkpt p s.bb s.cout }) hserv (fun _ => ?_) (.refl _)
  rw [hc]
  rfl

/-- A scheduled callback, from its start to its end: it places the group of `SB` at the position of the count, and
flushes the buffer there at the checkpoint (R163, R164, R165). -/
theorem drives_callback {s : State} {p : Nat} (hserv : inService s = false) (hpoint : atDeferPoint s = true)
    (hq : 0 < s.dq) (hc : s.dcont = none) (hp : burstPosition s.par.burstBuf s.pcount = p) :
    Drives (List.replicate 9 .defer) s { s with
      dq := s.dq - 1
      bb := placeGroup p s.sb s.bb
      cout := flushed s.par.burstCkpt p (placeGroup p s.sb s.bb) s.cout } := by
  subst hp
  have hstart : Drives [.defer] s { s with dq := s.dq - 1, dcont := some .readCount } := .one fun ms =>
    (deferStep_of_none (s := { s with schedule := ms }) hserv hc).trans (if_pos ⟨hpoint, hq⟩)
  have hplace : Drives (List.replicate 2 .defer) { s with dq := s.dq - 1, dcont := some .readCount } { s with
      dq := s.dq - 1, dcont := some (.copy (burstPosition s.par.burstBuf s.pcount) 0) } :=
    drives_deferLine (s := { s with dq := s.dq - 1 }) (t := { s with dq := s.dq - 1, dcont := some (.place s.pcount) })
      hserv (fun _ => rfl) (drives_deferLine (s := { s with dq := s.dq - 1 }) hserv (fun _ => rfl) (.refl _))
  have hcopy := drives_copy (s := { s with dq := s.dq - 1 }) hserv (burstPosition s.par.burstBuf s.pcount)
  have hgroup := (((hcopy 0).append (hcopy 1)).append (hcopy 2)).append (hcopy 3)
  have hfinish := drives_flush (s := { s with
    dq := s.dq - 1, bb := placeGroup (burstPosition s.par.burstBuf s.pcount) s.sb s.bb })
    (p := burstPosition s.par.burstBuf s.pcount) hserv hc
  exact hstart.append (hplace.append (hgroup.append hfinish))

/-- `s` as an armed burst at its wait, with nothing in service, pending, enabled, scheduled or running (R157). -/
def burstWaiting (s : State) : State :=
  { s with
    dstate := .exec (.acqBurst .waitCount), trigArmed := true, trigInsvc := false, trigPend := false, trigReq := 0
    rateInsvc := false, dq := 0, dcont := none }

/-- The moves of one trigger: its edge, the entry and the exit of `TRIG_ISR`, and the callback (R158, R160, R163). -/
def triggerMoves (s : State) : List Move :=
  .trigEdge s.par.trigEdge :: .trigIsr :: .trigIsr :: List.replicate 9 .defer

/-- Four listed conversions are taken from the list (R159). -/
theorem adcGroup_listed (s : State) (h : 4 ≤ s.adcIn.length) :
    adcGroup s = (s.adcIn.take 4, { s with adcIn := s.adcIn.drop 4 }) := by
  match hadc : s.adcIn, h with
  | a :: b :: c :: d :: l, _ => simp [adcGroup, adcSample, hadc]

/-- The edge, the entry and the exit: four conversions stand in `SB`, one trigger is counted, and one callback is
scheduled (R158, R159, R160). -/
theorem drives_triggerService (s : State) (hadc : 4 ≤ s.adcIn.length) :
    Drives [.trigEdge s.par.trigEdge, .trigIsr, .trigIsr] (burstWaiting s) { burstWaiting s with
      sb := (s.adcIn.take 4).map zext16, pcount := s.pcount + 1, adcIn := s.adcIn.drop 4, dq := 1 } := by
  have hedge : Drives [.trigEdge s.par.trigEdge] (burstWaiting s) { burstWaiting s with trigReq := 1 } :=
    .one fun ms => (trigEdge_of_armed (s := { burstWaiting s with schedule := ms }) rfl rfl rfl).trans
      (trigEnable_of_none rfl)
  have hentry : Drives [.trigIsr] { burstWaiting s with trigReq := 1 } { burstWaiting s with
      trigArmed := false, trigInsvc := true, sb := (s.adcIn.take 4).map zext16, pcount := s.pcount + 1
      adcIn := s.adcIn.drop 4, dq := 1 } := .one fun ms => by
    have hgroup := adcGroup_listed (trigServiceEnter { burstWaiting s with trigReq := 1, schedule := ms }) hadc
    refine (trigIsrStep_of_enabled (s := { burstWaiting s with trigReq := 1, schedule := ms }) rfl rfl
      Nat.one_pos).trans ?_
    rw [trigEnter, trigSample, hgroup]
    exact if_pos (Nat.lt_of_lt_of_le Nat.one_pos s.cfg.deferDepth_min)
  have hexit : Drives [.trigIsr] { burstWaiting s with
      trigArmed := false, trigInsvc := true, sb := (s.adcIn.take 4).map zext16, pcount := s.pcount + 1
      adcIn := s.adcIn.drop 4, dq := 1 } { burstWaiting s with
      sb := (s.adcIn.take 4).map zext16, pcount := s.pcount + 1, adcIn := s.adcIn.drop 4, dq := 1 } :=
    .one fun _ => rfl
  exact hedge.append (hentry.append hexit)

/-- The burst after one more trigger: its group in `SB` and at its position, counted, and flushed there at the
checkpoint (R159, R163, R164). -/
def triggered (p : Nat) (s : State) : State :=
  { s with
    sb := (s.adcIn.take 4).map zext16
    pcount := s.pcount + 1
    adcIn := s.adcIn.drop 4
    bb := placeGroup p ((s.adcIn.take 4).map zext16) s.bb
    cout := flushed s.par.burstCkpt p (placeGroup p ((s.adcIn.take 4).map zext16) s.bb) s.cout }

/-- One trigger, served and with its callback run to its end (R158 to R164). -/
theorem drives_trigger {s : State} {p : Nat} (hadc : 4 ≤ s.adcIn.length)
    (hp : burstPosition s.par.burstBuf (s.pcount + 1) = p) :
    Drives (triggerMoves s) (burstWaiting s) (burstWaiting (triggered p s)) := by
  have hcallback := drives_callback (s := { burstWaiting s with
    sb := (s.adcIn.take 4).map zext16, pcount := s.pcount + 1, adcIn := s.adcIn.drop 4, dq := 1 }) rfl rfl
    (by exact Nat.one_pos) rfl hp
  exact (drives_triggerService s hadc).append hcallback

/-! ### The burst after some triggers -/

/-- The samples of trigger `k + 1` of a burst whose first conversion is the head of the list (R159). -/
def groupOf (s : State) (k : Nat) : List Cell16 := ((s.adcIn.drop (4 * k)).take 4).map zext16

/-- Where the group of trigger `k` stands (R163). -/
def groupPosition (s : State) (k : Nat) : Nat := (4 * k) % s.par.burstBuf

/-- The count of a trigger gives its position (R9, R163). -/
theorem burstPosition_ofNat (s : State) {k : Nat} (hk : k < 2 ^ 64) :
    burstPosition s.par.burstBuf (BitVec.ofNat 64 k) = groupPosition s k := by
  rw [burstPosition, BitVec.toNat_ofNat, Nat.mod_eq_of_lt hk]
  rfl

/-- A group lies inside the buffer, at a multiple of 4 (R61, R163). -/
theorem groupPosition_inside (s : State) {k : Nat} (hk : k < 2 ^ 64) :
    groupPosition s k % 4 = 0 ∧ groupPosition s k + 4 ≤ s.par.burstBuf := by
  rw [← burstPosition_ofNat s hk]
  exact burstPosition_inside s.cfg _

/-- Fewer than `B / 4` triggers apart, two groups stand at different positions (R168). -/
theorem groupPosition_ne (s : State) {k k' : Nat} (hlt : k < k') (hnear : k' < k + s.par.burstBuf / 4) :
    groupPosition s k ≠ groupPosition s k' := by
  intro h
  have hdvd : s.par.burstBuf ∣ 4 * k' - 4 * k := Nat.dvd_of_mod_eq_zero (Nat.sub_mod_eq_zero_of_mod_eq h.symm)
  have hle := Nat.le_of_dvd (by omega) hdvd
  omega

/-- The burst buffer after `n` triggers (R163, R168). -/
def burstBuffer (s : State) : Nat → List Cell16
  | 0 => s.bb
  | k + 1 => placeGroup (groupPosition s (k + 1)) (groupOf s k) (burstBuffer s k)

/-- The datagrams that the first `n` triggers have flushed (R164). -/
def burstFlushes (s : State) (n : Nat) : List Datagram :=
  ((List.range n).filter fun k => groupPosition s (k + 1) = s.par.burstCkpt).map fun k =>
    bytes16Seq (burstBuffer s (k + 1))

/-- The burst after `n` triggers (R168). -/
def burstAfter (s : State) (n : Nat) : State :=
  { s with
    sb := if n = 0 then s.sb else groupOf s (n - 1)
    pcount := BitVec.ofNat 64 n
    adcIn := s.adcIn.drop (4 * n)
    bb := burstBuffer s n
    cout := s.cout ++ burstFlushes s n }

theorem burstFlushes_succ (s : State) (n : Nat) : burstFlushes s (n + 1) =
    burstFlushes s n ++
      if groupPosition s (n + 1) = s.par.burstCkpt then [bytes16Seq (burstBuffer s (n + 1))] else [] := by
  rw [burstFlushes, List.range_succ, List.filter_append, List.map_append, burstFlushes]
  by_cases h : groupPosition s (n + 1) = s.par.burstCkpt <;> simp [h]

theorem flushed_burstFlushes (s : State) (n : Nat) :
    flushed s.par.burstCkpt (groupPosition s (n + 1)) (burstBuffer s (n + 1)) (s.cout ++ burstFlushes s n) =
      s.cout ++ burstFlushes s (n + 1) := by
  rw [burstFlushes_succ, flushed]
  split <;> simp

/-- One more trigger (R159, R163, R164). -/
theorem triggered_burstAfter (s : State) (k : Nat) :
    triggered (groupPosition s (k + 1)) (burstAfter s k) = burstAfter s (k + 1) := by
  have hadc : s.adcIn.drop (4 * (k + 1)) = (s.adcIn.drop (4 * k)).drop 4 := by rw [List.drop_drop, Nat.mul_succ]
  have hcount : BitVec.ofNat 64 (k + 1) = BitVec.ofNat 64 k + 1 := by rw [BitVec.ofNat_add]; rfl
  symm
  rw [burstAfter, hadc, hcount, ← flushed_burstFlushes, if_neg (Nat.succ_ne_zero k)]
  rfl

/-- `n` triggers that do not overlap (R168). -/
theorem drives_triggers {s : State} (hcount : s.pcount = 0) (n : Nat) (hn : 4 * n < 2 ^ 64)
    (hadc : 4 * n ≤ s.adcIn.length) :
    Drives (List.replicate n (triggerMoves s)).flatten (burstWaiting s) (burstWaiting (burstAfter s n)) := by
  induction n with
  | zero =>
    have hzero : burstAfter s 0 = s := by
      cases s
      cases hcount
      simp [burstAfter, burstFlushes, burstBuffer]
    rw [hzero]
    exact Drives.refl _
  | succ k ih =>
    have hleft : 4 ≤ (s.adcIn.drop (4 * k)).length := by
      rw [List.length_drop]
      omega
    have hposition : burstPosition s.par.burstBuf (BitVec.ofNat 64 k + 1) = groupPosition s (k + 1) :=
      (congrArg _ (BitVec.ofNat_add k 1).symm).trans (burstPosition_ofNat s (by omega))
    have hnext := drives_trigger (s := burstAfter s k) hleft hposition
    rw [triggered_burstAfter] at hnext
    rw [List.replicate_succ', List.flatten_append, List.flatten_singleton]
    exact (ih (by omega) (by omega)).append hnext

/-! ### What stands in the buffer and on the channel -/

theorem burstBuffer_length (s : State) (n : Nat) : (burstBuffer s n).length = s.bb.length := by
  induction n with
  | zero => rfl
  | succ k ih => rw [burstBuffer, placeGroup_length, ih]

theorem groupOf_length (s : State) {k : Nat} (hadc : 4 * (k + 1) ≤ s.adcIn.length) : (groupOf s k).length = 4 := by
  rw [groupOf, List.length_map, List.length_take, List.length_drop]
  omega

theorem groupOf_getElem? (s : State) {k j : Nat} (hj : j < 4) : (groupOf s k)[j]? = s.adcIn[4 * k + j]?.map zext16 := by
  rw [groupOf, List.getElem?_map, List.getElem?_take_of_lt hj, List.getElem?_drop]

/-- An element that none of the triggers wrote is as it was (R168). -/
theorem burstBuffer_getElem?_untouched (s : State) (n x : Nat)
    (hx : ∀ k j, 1 ≤ k → k ≤ n → j < 4 → x ≠ groupPosition s k + j) : (burstBuffer s n)[x]? = s.bb[x]? := by
  induction n with
  | zero => rfl
  | succ k ih =>
    rw [burstBuffer, placeGroup_getElem?_outside _ _ _ _ (hx (k + 1) · (Nat.succ_pos k) (Nat.le_refl _))]
    exact ih fun i j h1 hi => hx i j h1 (Nat.le_succ_of_le hi)

/-- Each of the last `B / 4` groups stands whole at its position (R168). -/
theorem burstBuffer_getElem?_group (s : State) (n : Nat) (hn : 4 * n < 2 ^ 64) (hadc : 4 * n ≤ s.adcIn.length)
    (hbb : s.bb.length = s.par.burstBuf) {k j : Nat} (hk : k < n) (hlast : n < k + 1 + s.par.burstBuf / 4)
    (hj : j < 4) : (burstBuffer s n)[groupPosition s (k + 1) + j]? = s.adcIn[4 * k + j]?.map zext16 := by
  induction n with
  | zero => exact absurd hk (Nat.not_lt_zero k)
  | succ m ih =>
    obtain ⟨hmod, hinside⟩ := groupPosition_inside s (k := m + 1) (by omega)
    obtain hkm | rfl := Nat.lt_succ_iff_lt_or_eq.mp hk
    · obtain ⟨hmodk, -⟩ := groupPosition_inside s (k := k + 1) (by omega)
      have hne : groupPosition s (k + 1) ≠ groupPosition s (m + 1) := groupPosition_ne s (by omega) hlast
      rw [burstBuffer, placeGroup_getElem?_outside _ _ _ _ fun i hi => by omega]
      exact ih (by omega) (by omega) hkm (by omega)
    · have hlen := groupOf_length s hadc
      rw [burstBuffer, placeGroup_getElem?_inside _ _ _ _ (by rw [burstBuffer_length, hbb]; exact hinside) hlen hj,
        groupOf_getElem? s hj]

theorem bytes16Seq_length (xs : List Cell16) : (bytes16Seq xs).length = 2 * xs.length := by
  induction xs with
  | nil => rfl
  | cons x xs ih =>
    have hcons : bytes16Seq (x :: xs) = leBytes 2 x.toNat ++ bytes16Seq xs := rfl
    rw [hcons, List.length_append, ih, leBytes_length, List.length_cons]
    omega

/-- Each flushed datagram holds a whole buffer (R164). -/
theorem burstFlushes_datagram_length (s : State) (n : Nat) (hbb : s.bb.length = s.par.burstBuf) :
    ∀ d ∈ burstFlushes s n, d.length = 2 * s.par.burstBuf := by
  intro d hd
  obtain ⟨k, -, rfl⟩ := List.mem_map.mp hd
  rw [bytes16Seq_length, burstBuffer_length, hbb]

/-- A flush by the last trigger is the last datagram, the buffer as it then stands (R164). -/
theorem burstFlushes_getLast? (s : State) (n : Nat) (hn : 1 ≤ n) (hckpt : groupPosition s n = s.par.burstCkpt) :
    (burstFlushes s n).getLast? = some (bytes16Seq (burstBuffer s n)) := by
  obtain ⟨k, rfl⟩ := Nat.exists_eq_add_of_le' hn
  rw [burstFlushes_succ, if_pos hckpt, List.getLast?_append]
  rfl

/-- An armed burst at its wait, with nothing outstanding, is what `burstWaiting` makes of it. -/
theorem burstWaiting_self (s : State) (hd : s.dstate = .exec (.acqBurst .waitCount)) (ha : s.trigArmed = true)
    (hi : s.trigInsvc = false) (hp : s.trigPend = false) (hreq : s.trigReq = 0) (hr : s.rateInsvc = false)
    (hq : s.dq = 0) (hc : s.dcont = none) : burstWaiting s = s := by
  cases s
  simp_all [burstWaiting]

/-- Settles O36: the triggers one after the other, then the buffer and the channel as they leave them. -/
theorem burstGroupsDelivered : Obligations.BurstGroupsDelivered := by
  intro s ms n xs ys hd ha hi hp hreq hr hq hc hcount hbb hn hadc hxs hs
  have hlisted : 4 * n ≤ s.adcIn.length := by
    rw [hadc, List.length_append]
    omega
  have hdrives := drives_triggers hcount n hn hlisted
  rw [burstWaiting_self s hd ha hi hp hreq hr hq hc] at hdrives
  have hlength : (List.replicate n (triggerMoves s)).flatten.length = 12 * n := by
    rw [List.length_flatten, List.map_replicate, List.sum_replicate, smul_eq_mul, Nat.mul_comm]
    rfl
  have hys : s.adcIn.drop (4 * n) = ys := by rw [hadc, ← hxs, List.drop_left]
  refine ⟨_, hdrives.run ms hs hlength, hd.symm, ?_, rfl, rfl, rfl, rfl, rfl, rfl, hys, rfl, burstBuffer_length s n,
    fun k j hk1 hkn hlast hj => ?_, burstBuffer_getElem?_untouched s n, burstFlushes s n, rfl, List.length_map _,
    burstFlushes_datagram_length s n hbb, burstFlushes_getLast? s n⟩
  · exact Nat.mod_eq_of_lt (by omega)
  · obtain ⟨k, rfl⟩ := Nat.exists_eq_add_of_le' hk1
    have hx : s.adcIn[4 * k + j]? = xs[4 * k + j]? := by rw [hadc, List.getElem?_append_left (by omega)]
    rw [Nat.add_sub_cancel, ← hx]
    exact burstBuffer_getElem?_group s n hn hlisted hbb (by omega) hlast hj

end Sys2Proof.Machine

/-! SUPPORT. The digital I/O family (43_digital_io.md): `POL.LO`, `POL.HI`, `TP.OFF` and `TP.ON` have one handler, which
writes one bit and returns (R180 to R185); what is said of it once serves all four. -/

namespace Sys2Proof.Machine

/-! ### The handler that writes one bit -/

/-- The opcode `i` has a handler `mk` of two lines, the write `put` and the return, and `put` leaves alone what decides
when `DISPATCH` moves and where it stands (R107). -/
structure IsBitHandler (i : Instr) (mk : BitK → Activity) (put : State → State) : Prop where
  entry : entryLine i = mk .write
  instr : ∀ k, (mk k).instr = some i
  line : ∀ k s, handlerLine (mk k) s = bitLine mk put k s
  ready : ∀ s, dispatchReady (put s) = dispatchReady s
  dstate : ∀ s, (put s).dstate = s.dstate
  frame : ∀ a ms s, put { goto a s with schedule := ms } = { goto a (put s) with schedule := ms }

theorem isBitHandler_pol {i : Instr} {mk : BitK → Activity} {b : Bool}
    (h : (i = .polLo ∧ mk = .polLo ∧ b = false) ∨ (i = .polHi ∧ mk = .polHi ∧ b = true)) :
    IsBitHandler i mk (setPol b) := by
  obtain ⟨rfl, rfl, rfl⟩ | ⟨rfl, rfl, rfl⟩ := h <;>
    exact ⟨rfl, fun _ => rfl, fun _ _ => rfl, fun _ => rfl, fun _ => rfl, fun _ _ _ => rfl⟩

theorem isBitHandler_tpen {i : Instr} {mk : BitK → Activity} {b : Bool}
    (h : (i = .tpOff ∧ mk = .tpOff ∧ b = false) ∨ (i = .tpOn ∧ mk = .tpOn ∧ b = true)) :
    IsBitHandler i mk (setTpen b) := by
  obtain ⟨rfl, rfl, rfl⟩ | ⟨rfl, rfl, rfl⟩ := h <;>
    exact ⟨rfl, fun _ => rfl, fun _ _ => rfl, fun _ => rfl, fun _ => rfl, fun _ _ _ => rfl⟩

/-- The two polarity opcodes by their subcode (R88). -/
theorem exists_isBitHandler_pol (b : Bool) :
    ∃ i mk, encode i = [0x04, if b then 0x01 else 0x00] ∧ IsBitHandler i mk (setPol b) := by
  cases b with
  | false => exact ⟨.polLo, .polLo, rfl, isBitHandler_pol (.inl ⟨rfl, rfl, rfl⟩)⟩
  | true => exact ⟨.polHi, .polHi, rfl, isBitHandler_pol (.inr ⟨rfl, rfl, rfl⟩)⟩

/-- The two test-pulse opcodes by their subcode (R88). -/
theorem exists_isBitHandler_tpen (b : Bool) :
    ∃ i mk, encode i = [0x06, if b then 0x01 else 0x00] ∧ IsBitHandler i mk (setTpen b) := by
  cases b with
  | false => exact ⟨.tpOff, .tpOff, rfl, isBitHandler_tpen (.inl ⟨rfl, rfl, rfl⟩)⟩
  | true => exact ⟨.tpOn, .tpOn, rfl, isBitHandler_tpen (.inr ⟨rfl, rfl, rfl⟩)⟩

section BitHandler

variable {i : Instr} {mk : BitK → Activity} {put : State → State} (h : IsBitHandler i mk put)
include h

/-! ### Its lines -/

theorem IsBitHandler.exec_idle {s : State} (hd : s.dstate = .idle) : exec i s = .next (goto (mk .write) s) := by
  rw [exec_of_idle i s hd, h.entry]

theorem IsBitHandler.exec_line {s : State} (k : BitK) (hd : s.dstate = .exec (mk k)) :
    exec i s = .next (bitLine mk put k s) := by
  rw [exec_of_running (mk k) i s hd (h.instr k), h.line]

/-! ### From the request to the return -/

/-- From its first line, the handler returns in two moves with the bit written (R107). -/
theorem IsBitHandler.dispatches {s : State} (hr : dispatchReady s = true) :
    Dispatches 2 (goto (mk .write) s) (handlerReturn (put s)) := by
  have hwrite (ms : List Move) : handlerLine (mk .write) { goto (mk .write) s with schedule := ms } =
      { goto (mk .ret) (put s) with schedule := ms } := by
    rw [h.line, bitLine, h.frame]
    rfl
  exact .line hr hwrite (dispatches_ret ((h.ready s).trans hr) (h.line .ret))

/-- A one-bit command from its request to its return. -/
theorem IsBitHandler.run {s : State} {rest : List Datagram} {ms : List Move} (hawait : awaitsRequest s = true)
    (hs : s.schedule = List.replicate 4 .dispatch ++ ms) (hc : s.cin = encode i :: rest) :
    runFor 4 s = .next { put { s with cin := rest } with schedule := ms, mode := .none } := by
  obtain ⟨hd, -, hr⟩ := (awaitsRequest_iff s).mp hawait
  have hrequest := dispatches_request i s rest hawait hc
  rw [h.entry] at hrequest
  have hlines := h.dispatches (s := { s with cin := rest }) hr
  exact (hrequest.trans hlines).run_return ((h.dstate _).trans hd) ms hs

end BitHandler

/-! ### The statements -/

/-- Settles O39: the entry, the write and the return of the one-bit handler, with `POL` as its bit. -/
theorem polarityLines : Obligations.PolarityLines := by
  intro s i mk b hi
  have h := isBitHandler_pol hi
  exact ⟨h.exec_idle, fun hd => ⟨_, h.exec_line .write hd, rfl, rfl⟩, h.exec_line .ret⟩

/-- Settles O40: the entry, the write and the return of the one-bit handler, with `TPEN` as its bit. -/
theorem testPulseLines : Obligations.TestPulseLines := by
  intro s i mk b hi
  have h := isBitHandler_tpen hi
  exact ⟨h.exec_idle, fun hd => ⟨_, h.exec_line .write hd, rfl, rfl⟩, h.exec_line .ret⟩

/-- Settles O41: the subcode names the opcode, and its handler runs from the request to the return. -/
theorem bitCommandRuns : Obligations.BitCommandRuns := by
  intro s ms rest hawait hs
  refine ⟨fun b hc => ?_, fun b hc => ?_⟩
  · obtain ⟨i, mk, hcode, h⟩ := exists_isBitHandler_pol b
    exact h.run hawait hs (hcode ▸ hc)
  · obtain ⟨i, mk, hcode, h⟩ := exists_isBitHandler_tpen b
    exact h.run hawait hs (hcode ▸ hc)

end Sys2Proof.Machine

/-! SUPPORT. The rounding of the rate (R192): the quotient or the next integer, by the remainder and the tie rule. -/

namespace Sys2Proof.Machine

/-- With a remainder of at most half a window the rounding may be the quotient, with one of at least half a window the
next integer. On the half it is the quotient only under `HALF_EVEN` and where that is even (R192). -/
theorem roundTie_cases (tie : TieRule) (count window : Nat) :
    (roundTie tie count window = count / window ∧ 2 * (count % window) ≤ window ∧
      (2 * (count % window) = window → tie = .halfEven ∧ count / window % 2 = 0)) ∨
    (roundTie tie count window = count / window + 1 ∧ window ≤ 2 * (count % window) ∧
      (2 * (count % window) = window → tie = .halfEven → count / window % 2 = 1)) := by
  obtain hlt | hhalf | hgt := Nat.lt_trichotomy (2 * (count % window)) window
  · exact .inl ⟨if_pos hlt, hlt.le, fun h => absurd h hlt.ne⟩
  · cases tie with
    | halfUp =>
      have hround : roundTie .halfUp count window = count / window + 1 :=
        (if_neg hhalf.not_lt).trans (if_neg hhalf.not_gt)
      exact .inr ⟨hround, hhalf.ge, fun _ h => nomatch h⟩
    | halfEven =>
      have hround : roundTie .halfEven count window =
          if count / window % 2 = 0 then count / window else count / window + 1 :=
        (if_neg hhalf.not_lt).trans (if_neg hhalf.not_gt)
      obtain heven | hodd := Nat.mod_two_eq_zero_or_one (count / window)
      · exact .inl ⟨hround.trans (if_pos heven), hhalf.le, fun _ => ⟨rfl, heven⟩⟩
      · exact .inr ⟨hround.trans (if_neg (by omega)), hhalf.ge, fun _ _ => hodd⟩
  · exact .inr ⟨(if_neg hgt.not_gt).trans (if_pos hgt), hgt.le, fun h => absurd h hgt.ne'⟩

/-- The rounded rate is never above the count: it passes the quotient only with a remainder (R192). -/
theorem roundTie_le (tie : TieRule) (count window : Nat) (hw : 1 ≤ window) : roundTie tie count window ≤ count := by
  have hdiv : count / window * window + count % window = count := Nat.div_add_mod' count window
  have hquot : count / window ≤ count / window * window := Nat.le_mul_of_pos_right _ hw
  obtain ⟨hround, -, -⟩ | ⟨hround, hrem, -⟩ := roundTie_cases tie count window <;> omega

/-- A multiple of `w` within half of `w` is nearest to `x` of all multiples of `w`. -/
theorem abs_sub_mul_le_of_two_mul_le {x w m : Int} (h : 2 * |x - m * w| ≤ w) (k : Int) : |x - m * w| ≤ |x - k * w| := by
  obtain rfl | hne := eq_or_ne k m
  · exact le_rfl
  · have hw : 0 ≤ w := (mul_nonneg zero_le_two (abs_nonneg _)).trans h
    have hapart : w ≤ |k * w - m * w| := by
      rw [← sub_mul, abs_mul, abs_of_nonneg hw]
      exact le_mul_of_one_le_left hw (Int.one_le_abs (sub_ne_zero.mpr hne))
    have hvia := abs_sub_le (k * w) x (m * w)
    rw [abs_sub_comm (k * w) x] at hvia
    omega

/-- Settles O47: the quotient is the remainder below the count, the next integer the rest of the window above it. -/
theorem roundTieNearest : Obligations.RoundTieNearest := by
  intro tie count window hw
  have hdiv : count / window * window + count % window = count := Nat.div_add_mod' count window
  have hrem : count % window < window := Nat.mod_lt _ hw
  have hnearest (hclose : 2 * |(count : Int) - (roundTie tie count window * window : Nat)| ≤ window) (k : Nat) :
      |(count : Int) - (roundTie tie count window * window : Nat)| ≤ |(count : Int) - (k * window : Nat)| := by
    rw [Nat.cast_mul] at hclose ⊢
    rw [Nat.cast_mul]
    exact abs_sub_mul_le_of_two_mul_le hclose k
  obtain ⟨hround, hhalf, htie⟩ | ⟨hround, hhalf, htie⟩ := roundTie_cases tie count window
  · have hdist : |(count : Int) - (roundTie tie count window * window : Nat)| = (count % window : Nat) := by
      rw [hround, abs_of_nonneg (by omega)]
      omega
    refine ⟨hnearest (by omega), fun h => ?_, roundTie_le tie count window hw⟩
    obtain ⟨heven, hquot⟩ := htie (by omega)
    exact ⟨fun _ => hround ▸ hquot, fun hup => nomatch heven.symm.trans hup⟩
  · have hnext : roundTie tie count window * window = count / window * window + window := by
      rw [hround, Nat.succ_mul]
    have hdist : |(count : Int) - (roundTie tie count window * window : Nat)| = (window - count % window : Nat) := by
      rw [hnext, abs_of_nonpos (by omega)]
      omega
    refine ⟨hnearest (by omega), fun h => ⟨fun heven => ?_, fun _ => by omega⟩, roundTie_le tie count window hw⟩
    have hodd := htie (by omega) heven
    omega

end Sys2Proof.Machine

/-! SUPPORT. Rate measurement, step by step (R190, R191, R193): the lines of `RATE`, the edges on the rate input and the
steps of `RATE_ISR`. -/

namespace Sys2Proof.Machine

/-- Settles O45: the entry, then the line that `DSTATE` names. -/
theorem rateLines : Obligations.RateLines := by
  intro s
  have hline (k : RateK) (hd : s.dstate = .exec (.rate k)) : exec .rate s = .next (rateLine k s) :=
    exec_of_running _ _ s hd rfl
  exact ⟨exec_of_idle .rate s, hline .zeroCount, hline .setMode, hline .readT0, fun t0 => hline (.arm t0),
    fun t0 => hline (.wait t0), hline .disarm, hline .divide, fun r => hline (.send r), hline .ret⟩

/-! ### The rate edge interrupt -/

section Interrupt

variable {e : Edge} {s : State}

/-- Enabling an entry where none is enabled (R191). -/
theorem rateEnable_of_none (hq : s.rateReq = 0) : rateEnable s = { s with rateReq := 1 } := if_pos hq

/-- Enabling an entry where one is enabled and not yet taken is a draw between one entry and two (log entry 12). -/
theorem rateEnable_of_some (hq : 0 < s.rateReq) :
    ∃ c l n, (∀ c' cs, s.coinIn = c' :: cs → c = c' ∧ l = cs ∧ n = s.drawn) ∧
      rateEnable s = { s with rateReq := if c then s.rateReq + 1 else s.rateReq, coinIn := l, drawn := n } := by
  obtain ⟨c, l, n, hcoin, hlisted⟩ := coin_spec s
  exact ⟨c, l, n, hlisted, by rw [rateEnable, if_neg hq.ne', hcoin]⟩

/-- In service an edge that finds none pending is latched or lost, a draw (R161, R191). -/
theorem rateEdge_of_insvc (he : e = s.par.rateEdge) (hi : s.rateInsvc = true) (hp : s.ratePend = false) :
    ∃ c l n, (∀ c' cs, s.coinIn = c' :: cs → c = c' ∧ l = cs ∧ n = s.drawn) ∧
      rateEdge e s = { s with ratePend := c, coinIn := l, drawn := n } := by
  obtain ⟨c, l, n, hcoin, hlisted⟩ := coin_spec s
  exact ⟨c, l, n, hlisted, by simp [rateEdge, he, hi, hp, hcoin]⟩

/-- Armed and not in service an edge enables an entry (R191). -/
theorem rateEdge_of_armed (he : e = s.par.rateEdge) (hi : s.rateInsvc = false) (ha : s.rateArmed = true) :
    rateEdge e s = rateEnable s := by
  simp [rateEdge, he, hi, ha]

/-- An edge of the other sense, one with the source neither armed nor in service, and one with another pending have no
effect (R158, R161, R191). -/
theorem rateEdge_of_ignored (h : e ≠ s.par.rateEdge ∨ (s.rateInsvc = false ∧ s.rateArmed = false) ∨
    (s.rateInsvc = true ∧ s.ratePend = true)) : rateEdge e s = s := by
  obtain he | ⟨hi, ha⟩ | ⟨hi, hp⟩ := h
  · exact if_neg he
  · simp [rateEdge, hi, ha]
  · simp [rateEdge, hi, hp]

/-- Armed and not in service, with an entry enabled, a step of `RATE_ISR` is the entry (R191). -/
theorem rateIsrStep_of_enabled (hi : s.rateInsvc = false) (ha : s.rateArmed = true) (hq : 0 < s.rateReq) :
    rateIsrStep s = rateEnter s := by
  simp [rateIsrStep, hi, ha, hq]

/-- In service with no edge pending, a step of `RATE_ISR` is the plain exit (R160, R191). -/
theorem rateIsrStep_of_insvc (hi : s.rateInsvc = true) (hp : s.ratePend = false) :
    rateIsrStep s = rateServiceLeave s := by
  simp [rateIsrStep, rateServiceExit, hi, hp]

/-- In service with an edge pending, the exit enables an entry (R160, R191). -/
theorem rateIsrStep_of_pending (hi : s.rateInsvc = true) (hp : s.ratePend = true) :
    rateIsrStep s = rateEnable (rateServiceLeave s) := by
  simp [rateIsrStep, rateServiceExit, hi, hp]

theorem rateIsrStep_of_none (hi : s.rateInsvc = false) (hnone : s.rateReq = 0 ∨ s.rateArmed = false) :
    rateIsrStep s = s := by
  obtain hq | ha := hnone
  · simp [rateIsrStep, hi, hq]
  · simp [rateIsrStep, hi, ha]

end Interrupt

/-- Settles O46: the edges by sense and by what is armed or in service, then the entry, the exit without and with a
pending edge, and the step that stands still. -/
theorem rateInterrupt : Obligations.RateInterrupt := by
  intro s ms
  refine ⟨fun e hs => ?_, fun hs => ?_⟩
  · have hedge {t : State} (h : rateEdge e { s with schedule := ms } = t) : step s = .next t :=
      (step_listed s _ ms hs).trans (congrArg _ h)
    have henables (he : e = s.par.rateEdge) (hi : s.rateInsvc = false) (ha : s.rateArmed = true) :
        step s = .next (rateEnable { s with schedule := ms }) := hedge (rateEdge_of_armed he hi ha)
    refine ⟨fun he => hedge (rateEdge_of_ignored (.inl he)),
      fun hi ha => hedge (rateEdge_of_ignored (.inr (.inl ⟨hi, ha⟩))),
      fun hi hp => hedge (rateEdge_of_ignored (.inr (.inr ⟨hi, hp⟩))), fun he hi hp => ?_,
      fun he hi ha hq => (henables he hi ha).trans (congrArg _ (rateEnable_of_none hq)), fun he hi ha hq => ?_⟩
    · obtain ⟨c, l, n, hlisted, hlatch⟩ := rateEdge_of_insvc (s := { s with schedule := ms }) he hi hp
      exact ⟨c, l, n, hlisted, hedge hlatch⟩
    · obtain ⟨c, l, n, hlisted, hdraw⟩ := rateEnable_of_some (s := { s with schedule := ms }) hq
      exact ⟨c, l, n, hlisted, (henables he hi ha).trans (congrArg _ hdraw)⟩
  · have hisr {t : State} (h : rateIsrStep { s with schedule := ms } = t) : step s = .next t :=
      (step_listed s _ ms hs).trans (congrArg _ h)
    have hpending (hi : s.rateInsvc = true) (hp : s.ratePend = true) :
        step s = .next (rateEnable (rateServiceLeave { s with schedule := ms })) := hisr (rateIsrStep_of_pending hi hp)
    refine ⟨fun hi ha hq => hisr (rateIsrStep_of_enabled hi ha hq), fun hi hp => ?_,
      fun hi hp hq => (hpending hi hp).trans (congrArg _ (rateEnable_of_none hq)), fun hi hp hq => ?_,
      fun hi hnone => hisr (rateIsrStep_of_none hi hnone)⟩
    · rw [hisr (rateIsrStep_of_insvc hi hp), rateServiceLeave, hp]
    · obtain ⟨c, l, n, hlisted, hdraw⟩ := rateEnable_of_some (s := rateServiceLeave { s with schedule := ms }) hq
      exact ⟨c, l, n, hlisted, (hpending hi hp).trans (congrArg _ hdraw)⟩

end Sys2Proof.Machine

/-! SUPPORT. A whole `RATE` with edges in its window (R190 to R193): one served edge, what stands at the wait after some
edges and ticks, then the way from the request to the answer. -/

namespace Sys2Proof.Machine

/-! ### The lines before and after the window -/

/-- `RATE` from its first line to its wait (R190). -/
theorem dispatches_rate_toWait {s : State} (hr : dispatchReady s = true) :
    Dispatches 4 (goto (.rate .zeroCount) s)
      (goto (.rate (.wait s.now)) { s with rcount := 0, mode := .rate, rateArmed := true }) := by
  refine .line (t := goto (.rate .setMode) { s with rcount := 0 }) hr (fun _ => rfl) ?_
  refine .line (t := goto (.rate .readT0) { s with rcount := 0, mode := .rate }) hr (fun _ => rfl) ?_
  refine .line (t := goto (.rate (.arm s.now)) { s with rcount := 0, mode := .rate }) hr (fun _ => rfl) ?_
  exact .line hr (fun _ => rfl) (.refl _)

/-- The rate that `RATE` computes from its count (R192). -/
def roundedRate (s : State) : BitVec 32 := BitVec.ofNat 32 (roundTie s.par.rateTie s.rcount.toNat s.par.rateWindowS)

/-- A count and a rate of at most `2 ^ 32 - 1` are not cut (R190, R192). -/
theorem roundedRate_toNat {s : State} {n : Nat} (hcount : s.rcount = BitVec.ofNat 32 n) (hn : n < 2 ^ 32) :
    (roundedRate s).toNat = roundTie s.par.rateTie n s.par.rateWindowS := by
  have hle := roundTie_le s.par.rateTie n s.par.rateWindowS s.cfg.rateWindowS_min
  rw [roundedRate, hcount, BitVec.toNat_ofNat, BitVec.toNat_ofNat, Nat.mod_eq_of_lt hn, Nat.mod_eq_of_lt (by omega)]

/-- With no entry enabled the disarming drops none (log entry 11). -/
theorem disarmRate_of_none {s : State} (hq : s.rateReq = 0) : disarmRate s = { s with rateArmed := false } := by
  rw [disarmRate, ← hq]

/-- The answer and the return, to the `IDLE` that the request was issued in (R107, R190). -/
theorem dispatches_rate_send (r : BitVec 32) {s : State} (hr : dispatchReady s = true) (hd : s.dstate = .idle) :
    Dispatches 2 (goto (.rate (.send r)) s) { cmdSend (leBytes 4 r.toNat) s with mode := .none } := by
  refine .line (t := goto (.rate .ret) (cmdSend (leBytes 4 r.toNat) s)) hr (fun _ => rfl) ?_
  rw [← handlerReturn_of_idle (cmdSend (leBytes 4 r.toNat) s) hd]
  exact dispatches_ret (s := cmdSend (leBytes 4 r.toNat) s) hr fun _ => rfl

/-- `RATE` from the end of its window to its return, to the `IDLE` that the request was issued in: it answers the
rounded quotient of the `n` edges it counted (R190, R192). -/
theorem dispatches_rate_answer {t0 : BitVec 64} {s : State} {n : Nat} (hr : dispatchReady s = true)
    (hend : (rateWindowUs s : Int) ≤ elapsed s t0) (hq : s.rateReq = 0) (hd : s.dstate = .idle)
    (hcount : s.rcount = BitVec.ofNat 32 n) (hn : n < 2 ^ 32) :
    Dispatches 5 (goto (.rate (.wait t0)) s) { s with
      rateArmed := false, mode := .none
      cout := s.cout ++ [leBytes 4 (roundTie s.par.rateTie n s.par.rateWindowS)] } := by
  refine .line (t := goto (.rate .disarm) s) hr (fun _ => if_pos hend) ?_
  refine .line (t := goto (.rate .divide) (disarmRate s)) hr (fun _ => rfl) ?_
  rw [disarmRate_of_none hq, ← roundedRate_toNat hcount hn]
  exact .line (t := goto (.rate (.send (roundedRate s))) { s with rateArmed := false }) hr (fun _ => rfl)
    (dispatches_rate_send (roundedRate s) (s := { s with rateArmed := false }) hr hd)

/-! ### The window -/

/-- `s` at the wait of a measurement, armed, with nothing of the rate interrupt in service, pending or enabled
(R190). -/
def rateWaiting (t0 : BitVec 64) (s : State) : State :=
  { goto (.rate (.wait t0)) s with
    mode := .rate, rateArmed := true, rateInsvc := false, ratePend := false, rateReq := 0 }

/-- A measurement at its wait, where nothing of the rate interrupt is outstanding. -/
theorem rateWaiting_of_quiet (t0 : BitVec 64) {s : State} (hi : s.rateInsvc = false) (hp : s.ratePend = false)
    (hq : s.rateReq = 0) :
    rateWaiting t0 s = goto (.rate (.wait t0)) { s with mode := .rate, rateArmed := true } := by
  simp only [rateWaiting, goto, hi, hp, hq]

/-- The edge, the entry and the exit: one count and one pulse (R191, R193). -/
theorem drives_rateService (t0 : BitVec 64) (s : State) :
    Drives [.rateEdge s.par.rateEdge, .rateIsr, .rateIsr] (rateWaiting t0 s)
      (rateWaiting t0 { s with rcount := s.rcount + 1, events := s.events ++ [.clrPulse s.par.clrPulseUs] }) := by
  have hedge : Drives [.rateEdge s.par.rateEdge] (rateWaiting t0 s) { rateWaiting t0 s with rateReq := 1 } :=
    .one fun ms => (rateEdge_of_armed (s := { rateWaiting t0 s with schedule := ms }) rfl rfl rfl).trans
      (rateEnable_of_none rfl)
  have hentry : Drives [.rateIsr] { rateWaiting t0 s with rateReq := 1 }
      (rateEnter { rateWaiting t0 s with rateReq := 1 }) :=
    .one fun ms => rateIsrStep_of_enabled (s := { rateWaiting t0 s with rateReq := 1, schedule := ms }) rfl rfl
      Nat.one_pos
  have hexit : Drives [.rateIsr] (rateEnter { rateWaiting t0 s with rateReq := 1 })
      (rateServiceLeave (rateEnter { rateWaiting t0 s with rateReq := 1 })) :=
    .one fun ms => rateIsrStep_of_insvc (s := { rateEnter { rateWaiting t0 s with rateReq := 1 } with schedule := ms })
      rfl rfl
  exact hedge.append (hentry.append hexit)

/-- `s` after `n` counted edges and `k` ticks of a window (R140, R191, R193). -/
def rateAfter (n k : Nat) (s : State) : State :=
  afterTicks k { s with
    rcount := BitVec.ofNat 32 n, events := s.events ++ List.replicate n (.clrPulse s.par.clrPulseUs) }

theorem rateAfter_zero (s : State) : rateAfter 0 0 s = { s with rcount := 0 } := by
  simp [rateAfter, afterTicks]

/-- One more counted edge (R191, R193). -/
theorem rateAfter_succ (n k : Nat) (s : State) :
    rateAfter (n + 1) k s = { rateAfter n k s with
      rcount := (rateAfter n k s).rcount + 1
      events := (rateAfter n k s).events ++ [.clrPulse s.par.clrPulseUs] } := by
  rw [rateAfter, BitVec.ofNat_add, List.replicate_succ', ← List.append_assoc]
  rfl

/-- The moves of a window's edges: each after its stretch of ticks, with its entry and its exit (R191). -/
def edgeMoves (e : Edge) (gaps : List Nat) : List Move :=
  gaps.flatMap fun g => List.replicate g .tick ++ [.rateEdge e, .rateIsr, .rateIsr]

theorem edgeMoves_length (e : Edge) (gaps : List Nat) : (edgeMoves e gaps).length = gaps.sum + 3 * gaps.length := by
  induction gaps with
  | nil => rfl
  | cons g gaps ih =>
    simp only [edgeMoves, List.flatMap_cons, List.length_append, List.length_replicate, List.length_cons,
      List.length_nil, List.sum_cons] at ih ⊢
    omega

section Window

variable {s : State} (hfill : s.fill = none) (t0 : BitVec 64)
include hfill

/-- Ticks inside the window (R140). -/
theorem drives_rateAfter_ticks (n k g : Nat) :
    Drives (List.replicate g .tick) (rateWaiting t0 (rateAfter n k s)) (rateWaiting t0 (rateAfter n (k + g) s)) := by
  have hadd : afterTicks g (rateAfter n k s) = rateAfter n (k + g) s := afterTicks_add k g _
  rw [← hadd]
  exact drives_ticks g (rateWaiting t0 (rateAfter n k s)) hfill

/-- The edges of a window, each served before the next (R191). -/
theorem drives_rateAfter_edges (gaps : List Nat) (n k : Nat) :
    Drives (edgeMoves s.par.rateEdge gaps) (rateWaiting t0 (rateAfter n k s))
      (rateWaiting t0 (rateAfter (n + gaps.length) (k + gaps.sum) s)) := by
  induction gaps generalizing n k with
  | nil => exact Drives.refl _
  | cons g gaps ih =>
    have hticks := drives_rateAfter_ticks hfill t0 n k g
    have hserved := drives_rateService t0 (rateAfter n (k + g) s)
    have hrest := ih (n + 1) (k + g)
    rw [Nat.add_assoc, Nat.add_comm 1, Nat.add_assoc, rateAfter_succ] at hrest
    exact (hticks.append hserved).append hrest

/-- The whole window, with nothing of the rate interrupt outstanding before it: its edges, then ticks up to its end
(R190, R191). -/
theorem drives_rateWindow (hi : s.rateInsvc = false) (hp : s.ratePend = false) (hq : s.rateReq = 0) {gaps : List Nat}
    {window : Nat} (hsum : gaps.sum ≤ window) :
    Drives (edgeMoves s.par.rateEdge gaps ++ List.replicate (window - gaps.sum) .tick)
      (goto (.rate (.wait t0)) { s with rcount := 0, mode := .rate, rateArmed := true })
      (goto (.rate (.wait t0)) { rateAfter gaps.length window s with mode := .rate, rateArmed := true }) := by
  have hedges := drives_rateAfter_edges hfill t0 gaps 0 0
  rw [Nat.zero_add, Nat.zero_add, rateAfter_zero] at hedges
  have hticks := drives_rateAfter_ticks hfill t0 gaps.length gaps.sum (window - gaps.sum)
  rw [Nat.add_sub_cancel' hsum] at hticks
  have hwindow := hedges.append hticks
  have hbefore := rateWaiting_of_quiet t0 (s := { s with rcount := 0 }) hi hp hq
  have hafter := rateWaiting_of_quiet t0 (s := rateAfter gaps.length window s) hi hp hq
  rwa [hbefore, hafter] at hwindow

end Window

/-! ### The whole measurement -/

/-- Settles O48: the request up to the wait, the window with its edges, and the answer. -/
theorem rateRun : Obligations.RateRun := by
  intro s ms gaps rest window hawait hc hn hq hp hfill hwindow hsum hwrap hs
  obtain ⟨hd, -, hr⟩ := (awaitsRequest_iff s).mp hawait
  obtain ⟨-, hi, -⟩ := (dispatchReady_iff s).mp hr
  have hstart := (dispatches_request .rate s rest hawait hc).trans
    (dispatches_rate_toWait (s := { s with cin := rest }) hr)
  have hmeasure := drives_rateWindow (s := { s with cin := rest }) hfill s.now hi hp hq hsum
  have helapsed : elapsed (rateAfter gaps.length window { s with cin := rest }) s.now = window :=
    (elapsed_afterTicks window s s.now hwrap).trans (by rw [elapsed_now, Int.zero_add])
  have hanswer := dispatches_rate_answer (t0 := s.now)
    (s := { rateAfter gaps.length window { s with cin := rest } with mode := .rate, rateArmed := true }) hr
    (Int.le_of_eq ((congrArg Nat.cast hwindow.symm).trans helapsed.symm)) hq hd rfl hn
  refine ((hstart.append hmeasure).append hanswer).run ms ?_ ?_
  · rw [hs]
    simp only [List.append_assoc]
    rfl
  · simp only [List.length_append, List.length_replicate, edgeMoves_length]
    omega

end Sys2Proof.Machine

/-! SUPPORT. The state label (R200, R201): the lines of `LBL.GET` and `LBL.SET`, then both commands from any state that
awaits a request. -/

namespace Sys2Proof.Machine

/-! ### The lines -/

/-- The receive line of `LBL.SET` cuts its payload to the label's length (R64, R201). -/
theorem lblSetLine_recv {s : State} {d : Datagram} {rest : List Datagram} (hc : s.cin = d :: rest)
    (hd : s.par.labelLen ≤ d.length) :
    lblSetLine .recv s = goto (.lblSet (.store 0 (d.take s.par.labelLen))) { s with cin := rest } := by
  rw [lblSetLine, recvThen_of_long _ _ s d rest hc hd]
  rfl

/-- Settles O43: the entries, then the line that `DSTATE` names. -/
theorem labelLines : Obligations.LabelLines := by
  intro s
  have hget (k : LblGetK) (hd : s.dstate = .exec (.lblGet k)) : exec .lblGet s = .next (lblGetLine k s) :=
    exec_of_running _ _ s hd rfl
  have hset (k : LblSetK) (hd : s.dstate = .exec (.lblSet k)) : exec .lblSet s = .next (lblSetLine k s) :=
    exec_of_running _ _ s hd rfl
  exact ⟨exec_of_idle .lblGet s, hget .send, hget .ret, exec_of_idle .lblSet s,
    fun d rest hd hc hn => (hset .recv hd).trans (congrArg _ (lblSetLine_recv hc hn)),
    fun j d => hset (.store j d), hset .ret⟩

/-! ### From the first line to the return -/

/-- A return line, to the `IDLE` that the request was issued in (R107). -/
theorem dispatches_ret_of_idle {a : Activity} {s : State} (hret : ∀ u, handlerLine a u = handlerReturn u)
    (hr : dispatchReady s = true) (hd : s.dstate = .idle) : Dispatches 1 (goto a s) { s with mode := .none } := by
  rw [← handlerReturn_of_idle s hd]
  exact dispatches_ret hr hret

/-- `LBL.GET` sends the label as stored and returns (R200). -/
theorem dispatches_lblGet_return {s : State} (hr : dispatchReady s = true) (hd : s.dstate = .idle) :
    Dispatches 2 (goto (.lblGet .send) s) { cmdSend s.label s with mode := .none } :=
  .line (t := goto (.lblGet .ret) (cmdSend s.label s)) hr (fun _ => rfl)
    (dispatches_ret_of_idle (s := cmdSend s.label s) (fun _ => rfl) hr hd)

/-- `LBL.SET` takes its payload and is at the store of its first byte (R201). -/
theorem dispatches_lblSet_recv {s : State} {d : Datagram} {rest : List Datagram} (hr : dispatchReady s = true)
    (hc : s.cin = d :: rest) (hd : s.par.labelLen ≤ d.length) :
    Dispatches 1 (goto (.lblSet .recv) s)
      (goto (.lblSet (.store 0 (d.take s.par.labelLen))) { s with cin := rest }) := by
  refine .line hr (fun ms => ?_) (.refl _)
  exact lblSetLine_recv (s := { goto (.lblSet .recv) s with schedule := ms }) hc hd

/-- `LBL.SET` stores the payload it took, byte after byte, and returns (R61, R201). -/
theorem dispatches_lblSet_store {s : State} {text : List Byte} (hr : dispatchReady s = true)
    (hd : s.dstate = .idle) (ht : text.length = s.par.labelLen) (hl : s.label.length = s.par.labelLen) :
    Dispatches (s.par.labelLen + 1) (goto (.lblSet (.store 0 text)) s) { s with label := text, mode := .none } := by
  obtain ⟨m, hm⟩ := Nat.exists_eq_add_of_le' s.cfg.labelLen_min
  have hlen : s.par.labelLen = m + 1 := hm
  have hstores := dispatches_stores m 0 text s hr (by omega) ht hl
  rw [hlen]
  exact hstores.trans (dispatches_ret_of_idle (s := { s with label := text }) (fun _ => rfl) hr hd)

/-! ### Whole commands -/

/-- A whole `LBL.GET` sends the label as stored and is back where its request was issued (R107, R200). -/
theorem dispatches_lblGet_command {s : State} {rest : List Datagram} (hawait : awaitsRequest s = true)
    (hc : s.cin = encode .lblGet :: rest) :
    Dispatches 4 s { s with cin := rest, mode := .none, cout := s.cout ++ [s.label] } := by
  obtain ⟨hd, -, hr⟩ := (awaitsRequest_iff s).mp hawait
  have hreturn := dispatches_lblGet_return (s := { s with cin := rest }) hr hd
  exact (dispatches_request .lblGet s rest hawait hc).trans hreturn

/-- A whole `LBL.SET` makes the label the first `LABEL_LEN` bytes of its payload and is back where its request was
issued (R107, R201). -/
theorem dispatches_lblSet_command {s : State} {d : Datagram} {rest : List Datagram} (hawait : awaitsRequest s = true)
    (hc : s.cin = encode .lblSet :: d :: rest) (hlen : s.par.labelLen ≤ d.length)
    (hl : s.label.length = s.par.labelLen) :
    Dispatches (s.par.labelLen + 4) s
      { s with cin := rest, mode := .none, label := d.take s.par.labelLen } := by
  obtain ⟨hd, -, hr⟩ := (awaitsRequest_iff s).mp hawait
  have hrequest := dispatches_request .lblSet s (d :: rest) hawait hc
  have hrecv := dispatches_lblSet_recv (s := { s with cin := d :: rest }) hr rfl hlen
  have hstore := dispatches_lblSet_store (s := { s with cin := rest }) (text := d.take s.par.labelLen) hr hd
    (List.length_take_of_le hlen) hl
  have hcount : s.par.labelLen + 4 = 2 + 1 + (s.par.labelLen + 1) := by omega
  rw [hcount]
  exact (hrequest.trans hrecv).trans hstore

/-- Settles O44: the set command, then the get command from the state it leaves. -/
theorem labelSetGetRun : Obligations.LabelSetGetRun := by
  intro s ms d rest hawait hl hd hc hs
  have hset := dispatches_lblSet_command hawait hc hd hl
  have hget := dispatches_lblGet_command (rest := rest)
    (s := { s with cin := encode .lblGet :: rest, mode := .none, label := d.take s.par.labelLen }) hawait rfl
  exact (hset.trans hget).run ms hs List.length_replicate

end Sys2Proof.Machine

/-! SUPPORT. The exceptions family (60_exceptions.md): the fatal and the abort action (R210, R211), and the receives of
the block on an empty queue and on a short datagram (R64, R111, R214). -/

namespace Sys2Proof.Machine

/-! ### Raising a condition -/

/-- Raising an abort condition is the abort action, which records nothing of the condition (R210, R213). -/
theorem raise_abort (c : Condition) (s : State) (h : c.kind = .abort) : raise c s = raiseAbort s := by
  simp [raise, h]

/-- Settles O9: the fatal action, the abort action, and the kind of each of the six conditions. -/
theorem raiseAction : Obligations.RaiseAction := by
  refine ⟨fun c s h => ?_, fun c s h => ?_, fun c => ?_⟩
  · rw [raise_fatal c s h]
    rfl
  · rw [raise_abort c s h]
    rfl
  · cases c <;> rfl

/-! ### Receives -/

/-- A receive on an empty `CIN` waits (R64, R111). -/
theorem recvThen_of_empty (n : Nat) (k : List Byte → State → State) (s : State) (hc : s.cin = []) :
    recvThen n k s = s := by
  rw [recvThen, hc]

/-- A receive with a datagram too short at the head of `CIN` takes it and raises `ShortFrame` (R64, R214). -/
theorem recvThen_of_short (n : Nat) (k : List Byte → State → State) (s : State) (d : Datagram) (rest : List Datagram)
    (hc : s.cin = d :: rest) (hn : d.length < n) :
    recvThen n k s = raise (.shortFrame d.length n) { s with cin := rest } := by
  rw [recvThen, hc]
  exact if_neg hn.not_ge

/-- In `IDLE` with no opcode received, a listed step of `DISPATCH` is the receive of an opcode, whatever `CIN` holds
(R106). -/
theorem step_dispatch_receiveOpcode (s : State) (ms : List Move) (hs : s.schedule = .dispatch :: ms)
    (hr : dispatchReady s = true) (hd : s.dstate = .idle) (ho : s.opv = none) :
    step s = .next (receiveOpcode { s with schedule := ms }) := by
  have hnext : dispatchNext { s with schedule := ms } = receiveOpcode { s with schedule := ms } := by
    rw [dispatchNext, hd]
    refine (if_pos hr).trans ?_
    simp only [fetchNext, ho]
  rw [step_listed s _ ms hs, runMove_eq, nextState, hnext]

/-- The length that the receive line of a handler asks for: that of its payload (R87), or of the repeat count (R169). -/
def receiveLength (p : Params) : Activity → Option Nat
  | .potWrGain .recv => some 1
  | .potWrThr .recv => some 1
  | .acqStream .recv => some streamTargetBytes
  | .acqBurst .recv => some burstTargetBytes
  | .lblSet .recv => some p.labelLen
  | .polled .recv => some p.polledCountBytes
  | _ => none

/-- A line with a receive length is a receive of that length (R64). -/
theorem handlerLine_of_receiveLength {a : Activity} {n : Nat} {s : State} (h : receiveLength s.par a = some n) :
    ∃ k, handlerLine a s = recvThen n k s := by
  unfold receiveLength at h
  split at h <;> cases h
  all_goals
    simp only [handlerLine, potWrLine, streamLine, burstLine, lblSetLine, polledLine]
    exact ⟨_, rfl⟩

/-- Settles O11: each of the seven steps is a receive of its length, and a receive waits or halts. -/
theorem receiveWaitsOrHalts : Obligations.ReceiveWaitsOrHalts := by
  intro s ms n hs hr hreceive
  have hrun {a : Activity} (hd : s.dstate = .exec a) (hn : receiveLength s.par a = some n) :
      ∃ k, step s = .next (recvThen n k { s with schedule := ms }) := by
    obtain ⟨k, hline⟩ := handlerLine_of_receiveLength (s := { s with schedule := ms }) hn
    exact ⟨k, by rw [step_dispatch_running s a ms hs hr hd, hline]⟩
  obtain ⟨k, hstep⟩ : ∃ k, step s = .next (recvThen n k { s with schedule := ms }) := by
    obtain ⟨hd, ho, rfl⟩ | ⟨hd, rfl⟩ | ⟨hd, rfl⟩ | ⟨hd, rfl⟩ | ⟨hd, rfl⟩ | ⟨hd, rfl⟩ | ⟨hd, rfl⟩ := hreceive
    · exact ⟨_, step_dispatch_receiveOpcode s ms hs hr hd ho⟩
    all_goals exact hrun hd rfl
  refine ⟨fun hc => ?_, fun d rest hc hn => ?_⟩ <;> rw [hstep]
  · rw [recvThen_of_empty n k { s with schedule := ms } hc]
  · rw [recvThen_of_short n k { s with schedule := ms } d rest hc hn]

end Sys2Proof.Machine

/-! SUPPORT. The reset family (70_reset_and_hazards.md): the dispatcher's first step out of reset (R106, R241), and the
external reset (R48, R240, R242). -/

namespace Sys2Proof.Machine

/-! ### The reset state -/

/-- With an opcode still to receive, the step of a free dispatcher in `IDLE` is the receive (R105, R106). -/
theorem dispatchStep_receiveOpcode (s : State) (hr : dispatchReady s = true) (hd : s.dstate = .idle)
    (ho : s.opv = none) : dispatchStep s = .next (receiveOpcode s) := by
  rw [dispatchStep, if_pos hr, hd]
  simp only [fetch, ho]

/-- Settles O49: what R241 says of the fields is how the reset state is built; its first step is the receive of an
opcode, which waits on the empty `CIN` of the reset state. -/
theorem resetIsIdle : Obligations.ResetIsIdle := by
  have hreceive (cin : List Datagram) :
      dispatchStep { State.reset with cin := cin } = .next (receiveOpcode { State.reset with cin := cin }) :=
    dispatchStep_receiveOpcode _ rfl rfl rfl
  have hwait : receiveOpcode State.reset = State.reset := recvThen_of_empty _ _ State.reset rfl
  exact ⟨rfl, rfl, rfl, rfl, rfl, rfl, rfl, rfl, rfl, rfl, rfl, (hreceive []).trans (congrArg _ hwait), hreceive⟩

/-! ### The external reset -/

/-- A listed reset is the external reset of the state without that move (R77, R240). -/
theorem step_reset (s : State) (ms : List Move) (hs : s.schedule = .reset :: ms) :
    step s = .next (externalReset { s with schedule := ms }) :=
  step_listed s .reset ms hs

/-- The samples that a reset draws for a buffer are 12 bits (R70, R242). -/
theorem toNat_lt_of_mem_powerUpBuffer {n start len : Nat} {x : Cell16} (hx : x ∈ powerUpBuffer n start len) :
    x.toNat < 4096 :=
  of_decide_eq_true (List.all_eq_true.mp (powerUpBuffer_twelveBit n start len) x hx)

/-- Both buffers of a burst hold samples of 12 bits after a reset (R48, R242). -/
theorem externalReset_sb_bb_toNat_lt (s : State) :
    ∀ x ∈ (externalReset s).sb ++ (externalReset s).bb, x.toNat < 4096 :=
  fun _ hx => (List.mem_append.mp hx).elim toNat_lt_of_mem_powerUpBuffer toNat_lt_of_mem_powerUpBuffer

/-- A reset adds no device to the bus and removes none (R242). -/
theorem externalReset_addresses (s : State) : (externalReset s).pots.map Prod.fst = s.pots.map Prod.fst :=
  redrawPositions_addresses s.resets s.pots

/-- Settles O50: most clauses are how the state after a reset is built; the others are those of the drawn buffers, of
the positions drawn again, and of the events. -/
theorem resetEffect : Obligations.ResetEffect := by
  intro s ms hs
  refine ⟨_, step_reset s ms hs, ?_⟩
  and_intros
  any_goals rfl
  · exact powerUpBuffer_length _ _ _
  · exact externalReset_sb_bb_toNat_lt _
  · exact externalReset_addresses { s with schedule := ms }
  · exact externalReset_events { s with schedule := ms }

end Sys2Proof.Machine
